-- ==== Sys2Proof/Word.lean ====
section
/-! DEFINITION. The word types of the block: bytes, register addresses, 4-bit chip command codes, 3-bit bit counts, 32-bit value words (spec/10_state.md R22, R24; spec/00_scope.md R10). -/

namespace Sys2Proof

/-- A byte: 8 bits, bit 0 the least significant (R10). -/
abbrev Byte := BitVec 8

/-- The address of a chip register: 6 bits, 0x00 to 0x3F (R30, R67). -/
abbrev Reg := BitVec 6

/-- A chip command code: 4 bits (R100). -/
abbrev CmdCode := BitVec 4

/-- The count of valid bits in a final byte: 3 bits, 0 meaning all eight (R24). -/
abbrev BitCount := BitVec 3

/-- The 32-bit word of a value block or of a delta (R22, R109). -/
abbrev Word32 := BitVec 32

end Sys2Proof
end

