-- ==== Sys2Proof/Config.lean ====
section
/-! DEFINITION. The parameters of the model (spec/00_scope.md R8): register addresses, field masks, chip command codes, card command bytes, budgets and capacities, and the free values the spec leaves open (opaque: no proof can know them). Values the spec marks "from general knowledge" are its own defaults (spec/93_implementation_defined.md Part 2). -/

namespace Sys2Proof.Machine

/-- The card types of R293. -/
inductive PiccType
  | unknown
  | iso14443_4
  | iso18092
  | mifareMini
  | mifare1K
  | mifare4K
  | mifareUL
  | mifarePlus
  | mifareDesfire
  | tnp3xxx
  | notComplete
  deriving DecidableEq, Repr

/-- The named registers (R31). -/
inductive RegName
  | command | comIEn | divIEn | comIrq | divIrq | error | status2 | fifoData | fifoLevel
  | control | bitFraming | coll | mode | txMode | rxMode | txControl | txASK | crcResultH
  | crcResultL | modWidth | tMode | tPrescaler | tReloadH | tReloadL | autoTest | version
  deriving DecidableEq, Repr

/-- `REG.*`: the address of each named register (R8, R31). -/
structure RegisterMap where
  (regCommand regComIEn regDivIEn regComIrq regDivIrq regError regStatus2 regFIFOData
    regFIFOLevel regControl regBitFraming regColl regMode regTxMode regRxMode regTxControl
    regTxASK regCRCResultH regCRCResultL regModWidth regTMode regTPrescaler regTReloadH
    regTReloadL regAutoTest regVersion : Reg)
  deriving DecidableEq, Repr

/-- The bit masks inside chip registers (R8, R32 to R45). `COLL_POS` lies within the five bits of the position
(R42), `rxIrq` is what a `WAIT_TRANSCEIVE` is made of. -/
structure FieldMasks where
  (powerDown irqAll7 timerIrq idleIrq rxIrq crcIrq errFatal errColl crypto1On flush rxLastBits
    startSend collNotValid txAnt : Byte)
  collPos : BitVec 5
  deriving DecidableEq, Repr

/-- `CMD.*`: the chip command codes (R8, R100). -/
structure CommandCodes where
  (cmdIdle cmdMem cmdGenerateRandomID cmdCalcCRC cmdTransmit cmdNoCmdChange cmdReceive
    cmdTransceive cmdMFAuthent cmdSoftReset : CmdCode)
  deriving DecidableEq, Repr

/-- `PICC.*`: the card command bytes (R8, R102). -/
structure CardCodes where
  (piccREQA piccWUPA piccCT piccSelCl1 piccSelCl2 piccSelCl3 piccHLTA piccAuthKeyA piccAuthKeyB
    piccMfRead piccMfWrite piccMfDecrement piccMfIncrement piccMfRestore piccMfTransfer
    piccUlWrite : Byte)
  deriving DecidableEq, Repr

/-- The parameters of R8 that name the chip's and the card's codes. -/
structure Codes extends RegisterMap, FieldMasks, CommandCodes, CardCodes
  deriving DecidableEq, Repr

/-- The address of a named register. -/
def Codes.addr (k : Codes) : RegName → Reg
  | .command => k.regCommand
  | .comIEn => k.regComIEn
  | .divIEn => k.regDivIEn
  | .comIrq => k.regComIrq
  | .divIrq => k.regDivIrq
  | .error => k.regError
  | .status2 => k.regStatus2
  | .fifoData => k.regFIFOData
  | .fifoLevel => k.regFIFOLevel
  | .control => k.regControl
  | .bitFraming => k.regBitFraming
  | .coll => k.regColl
  | .mode => k.regMode
  | .txMode => k.regTxMode
  | .rxMode => k.regRxMode
  | .txControl => k.regTxControl
  | .txASK => k.regTxASK
  | .crcResultH => k.regCRCResultH
  | .crcResultL => k.regCRCResultL
  | .modWidth => k.regModWidth
  | .tMode => k.regTMode
  | .tPrescaler => k.regTPrescaler
  | .tReloadH => k.regTReloadH
  | .tReloadL => k.regTReloadL
  | .autoTest => k.regAutoTest
  | .version => k.regVersion

/-- The names of R31's table, in its order. -/
def RegName.all : List RegName :=
  [.command, .comIEn, .divIEn, .comIrq, .divIrq, .error, .status2, .fifoData, .fifoLevel, .control,
   .bitFraming, .coll, .mode, .txMode, .rxMode, .txControl, .txASK, .crcResultH, .crcResultL,
   .modWidth, .tMode, .tPrescaler, .tReloadH, .tReloadL, .autoTest, .version]

/-- The addresses of the named registers are pairwise distinct (R31). -/
def Codes.addressesDistinct (k : Codes) : Bool := decide (RegName.all.map k.addr).Nodup

/-- The chip command codes, in the order of R100's table. -/
def CommandCodes.all (k : CommandCodes) : List CmdCode :=
  [k.cmdIdle, k.cmdMem, k.cmdGenerateRandomID, k.cmdCalcCRC, k.cmdTransmit, k.cmdNoCmdChange,
   k.cmdReceive, k.cmdTransceive, k.cmdMFAuthent, k.cmdSoftReset]

/-- The chip command codes are pairwise distinct (R100). -/
def CommandCodes.distinct (k : CommandCodes) : Bool := decide k.all.Nodup

/-- The card command bytes, in the order of R102's table. -/
def CardCodes.all (k : CardCodes) : List Byte :=
  [k.piccREQA, k.piccWUPA, k.piccCT, k.piccSelCl1, k.piccSelCl2, k.piccSelCl3, k.piccHLTA,
   k.piccAuthKeyA, k.piccAuthKeyB, k.piccMfRead, k.piccMfWrite, k.piccMfDecrement,
   k.piccMfIncrement, k.piccMfRestore, k.piccMfTransfer, k.piccUlWrite]

/-- The card command bytes are pairwise distinct (R102). -/
def CardCodes.distinct (k : CardCodes) : Bool := decide k.all.Nodup

/-- Addresses, chip command codes and card command bytes are pairwise distinct, each among themselves (R31,
R100, R102). -/
def Codes.distinct (k : Codes) : Bool :=
  k.addressesDistinct && k.toCommandCodes.distinct && k.toCardCodes.distinct

end Sys2Proof.Machine

namespace Sys2Proof.Config

-- Register addresses (R31).
abbrev regCommand : Reg := 0x01#6
abbrev regComIEn : Reg := 0x02#6
abbrev regDivIEn : Reg := 0x03#6
abbrev regComIrq : Reg := 0x04#6
abbrev regDivIrq : Reg := 0x05#6
abbrev regError : Reg := 0x06#6
abbrev regStatus2 : Reg := 0x08#6
abbrev regFIFOData : Reg := 0x09#6
abbrev regFIFOLevel : Reg := 0x0A#6
abbrev regControl : Reg := 0x0C#6
abbrev regBitFraming : Reg := 0x0D#6
abbrev regColl : Reg := 0x0E#6
abbrev regMode : Reg := 0x11#6
abbrev regTxMode : Reg := 0x12#6
abbrev regRxMode : Reg := 0x13#6
abbrev regTxControl : Reg := 0x14#6
abbrev regTxASK : Reg := 0x15#6
abbrev regCRCResultH : Reg := 0x21#6
abbrev regCRCResultL : Reg := 0x22#6
abbrev regModWidth : Reg := 0x24#6
abbrev regTMode : Reg := 0x2A#6
abbrev regTPrescaler : Reg := 0x2B#6
abbrev regTReloadH : Reg := 0x2C#6
abbrev regTReloadL : Reg := 0x2D#6
abbrev regAutoTest : Reg := 0x36#6
abbrev regVersion : Reg := 0x37#6

-- Field masks (R32 to R45).
abbrev powerDown : Byte := 0x10#8
abbrev irqAll7 : Byte := 0x7F#8
abbrev timerIrq : Byte := 0x01#8
abbrev idleIrq : Byte := 0x10#8
abbrev rxIrq : Byte := 0x20#8
abbrev crcIrq : Byte := 0x04#8
abbrev errFatal : Byte := 0x13#8
abbrev errColl : Byte := 0x08#8
/-- Bit 4 of `REG.Error`: buffer overflow (R36). -/
abbrev errOverflow : Byte := 0x10#8
abbrev crypto1On : Byte := 0x08#8
abbrev flush : Byte := 0x80#8
abbrev rxLastBits : Byte := 0x07#8
abbrev startSend : Byte := 0x80#8
abbrev collPos : BitVec 5 := 0x1F#5
abbrev collNotValid : Byte := 0x20#8
abbrev valuesAfterColl : Byte := 0x80#8
abbrev txAnt : Byte := 0x03#8
/-- Bit 7 of `REG.TMode`: the timer starts by itself at the end of transmission (R336 row 4). -/
abbrev timerAuto : Byte := 0x80#8
/-- The value of `REG.AutoTest` bits [3:0] that enables the self-test (R45). -/
abbrev autoTestOn : Byte := 0x09#8
/-- The bits of `REG.AutoTest` that enable the self-test (R45). -/
abbrev autoTestField : Byte := 0x0F#8

-- Chip command codes (R100).
abbrev cmdIdle : CmdCode := 0x0#4
abbrev cmdMem : CmdCode := 0x1#4
abbrev cmdGenerateRandomID : CmdCode := 0x2#4
abbrev cmdCalcCRC : CmdCode := 0x3#4
abbrev cmdTransmit : CmdCode := 0x4#4
abbrev cmdNoCmdChange : CmdCode := 0x7#4
abbrev cmdReceive : CmdCode := 0x8#4
abbrev cmdTransceive : CmdCode := 0xC#4
abbrev cmdMFAuthent : CmdCode := 0xE#4
abbrev cmdSoftReset : CmdCode := 0xF#4

-- Card command bytes (R102).
abbrev piccREQA : Byte := 0x26#8
abbrev piccWUPA : Byte := 0x52#8
abbrev piccCT : Byte := 0x88#8
abbrev piccSelCl1 : Byte := 0x93#8
abbrev piccSelCl2 : Byte := 0x95#8
abbrev piccSelCl3 : Byte := 0x97#8
abbrev piccHLTA : Byte := 0x50#8
abbrev piccAuthKeyA : Byte := 0x60#8
abbrev piccAuthKeyB : Byte := 0x61#8
abbrev piccMfRead : Byte := 0x30#8
abbrev piccMfWrite : Byte := 0xA0#8
abbrev piccMfDecrement : Byte := 0xC0#8
abbrev piccMfIncrement : Byte := 0xC1#8
abbrev piccMfRestore : Byte := 0xC2#8
abbrev piccMfTransfer : Byte := 0xB0#8
abbrev piccUlWrite : Byte := 0xA2#8

/-- The MIFARE acknowledge value (R108, R250). -/
abbrev ack : Byte := 0x0A#8
/-- The NVB byte of a full select frame (R104). -/
abbrev nvbSelect : Byte := 0x70#8
/-- The SAK's cascade bit, bit 2 (R105(d)). -/
abbrev sakCascade : Byte := 0x04#8
/-- The default of the completion mask of Transceive (R175, D8); the mask itself is a parameter of
State. -/
abbrev waitTransceive : Byte := 0x30#8
/-- The factory key (R241). -/
def defaultKey : List Byte := [0xFF#8, 0xFF#8, 0xFF#8, 0xFF#8, 0xFF#8, 0xFF#8]

/-- The defaults of the codes, in one record (R8: the GK tables of R31 to R45, R100, R102); the codes
themselves are a parameter of State. -/
abbrev codes : Machine.Codes :=
  { regCommand := regCommand, regComIEn := regComIEn, regDivIEn := regDivIEn
    regComIrq := regComIrq, regDivIrq := regDivIrq, regError := regError
    regStatus2 := regStatus2, regFIFOData := regFIFOData, regFIFOLevel := regFIFOLevel
    regControl := regControl, regBitFraming := regBitFraming, regColl := regColl
    regMode := regMode, regTxMode := regTxMode, regRxMode := regRxMode
    regTxControl := regTxControl, regTxASK := regTxASK, regCRCResultH := regCRCResultH
    regCRCResultL := regCRCResultL, regModWidth := regModWidth, regTMode := regTMode
    regTPrescaler := regTPrescaler, regTReloadH := regTReloadH, regTReloadL := regTReloadL
    regAutoTest := regAutoTest, regVersion := regVersion, powerDown := powerDown
    irqAll7 := irqAll7, timerIrq := timerIrq, idleIrq := idleIrq, rxIrq := rxIrq
    crcIrq := crcIrq, errFatal := errFatal, errColl := errColl, crypto1On := crypto1On
    flush := flush, rxLastBits := rxLastBits, startSend := startSend, collPos := collPos
    collNotValid := collNotValid, txAnt := txAnt, cmdIdle := cmdIdle, cmdMem := cmdMem
    cmdGenerateRandomID := cmdGenerateRandomID, cmdCalcCRC := cmdCalcCRC
    cmdTransmit := cmdTransmit, cmdNoCmdChange := cmdNoCmdChange, cmdReceive := cmdReceive
    cmdTransceive := cmdTransceive, cmdMFAuthent := cmdMFAuthent, cmdSoftReset := cmdSoftReset
    piccREQA := piccREQA, piccWUPA := piccWUPA, piccCT := piccCT, piccSelCl1 := piccSelCl1
    piccSelCl2 := piccSelCl2, piccSelCl3 := piccSelCl3, piccHLTA := piccHLTA
    piccAuthKeyA := piccAuthKeyA, piccAuthKeyB := piccAuthKeyB, piccMfRead := piccMfRead
    piccMfWrite := piccMfWrite, piccMfDecrement := piccMfDecrement
    piccMfIncrement := piccMfIncrement, piccMfRestore := piccMfRestore
    piccMfTransfer := piccMfTransfer, piccUlWrite := piccUlWrite }

-- Budgets and capacities (R8).
abbrev crcPolls : Nat := 255
abbrev cmdPolls : Nat := 125
/-- The default of `FIFO_SIZE` (D11); the capacity itself is a parameter of State. -/
abbrev fifoSize : Nat := 64
/-- The default of `RESP_CAP` (D12); the capacity itself is a parameter of State. -/
abbrev respCap : Nat := 64
abbrev maxKnownBits : Nat := 80
/-- Soft-reset polls (R332). -/
abbrev softPolls : Nat := 3
/-- Self-test polls (R340). -/
abbrev selftestPolls : Nat := 255
/-- Bytes the self-test loads into the internal buffer (R340). -/
abbrev internalSize : Nat := 25
/-- Bytes the self-test leaves in the FIFO (R340). -/
abbrev selftestSize : Nat := 64
/-- The byte the self-test loads into the internal buffer, 25 times (R340 line 3). -/
abbrev selftestFill : Byte := 0x00#8
/-- The defaults of `SELFTEST_SEQ`, register writes in order: the flush, enabling the self-test with a further
byte for the FIFO, the return to Idle, disabling the self-test (R340 lines 2; 5 and 6; 11; 13). That the bytes
are plain ones, which do not follow `FLUSH` and `CMD.Idle` where these differ, is the model's choice (log 24). -/
def selftestFlush : List (Machine.RegName × Byte) := [(.fifoLevel, flush)]
def selftestEnable : List (Machine.RegName × Byte) := [(.autoTest, 0x09#8), (.fifoData, 0x00#8)]
def selftestStop : List (Machine.RegName × Byte) := [(.command, cmdIdle.setWidth 8)]
def selftestDisable : List (Machine.RegName × Byte) := [(.autoTest, 0x00#8)]
/-- The depth of the sequencer's call stack (R21). -/
abbrev callDepth : Nat := 4

/-- The default of `INIT_CONST`: the registers and values `init()` writes, in order (R336). -/
def initConst : List (Machine.RegName × Byte) :=
  [(.txMode, 0x00#8), (.rxMode, 0x00#8), (.modWidth, 0x26#8), (.tMode, 0x80#8),
   (.tPrescaler, 0xA9#8), (.tReloadH, 0x03#8), (.tReloadL, 0xE8#8), (.txASK, 0x40#8),
   (.mode, 0x3D#8)]

/-- The `Mode` value that programs the CRC_A preset (R336 row 9). -/
abbrev modeCrcA : Byte := 0x3D#8
/-- The CRC_A preset (R116). -/
abbrev crcAPreset : BitVec 16 := 0x6363#16

/-- The default of `REARM_SEQ`, register writes in order: the byte that is to clear the pending flags, the
enables of the interrupt pin, a REQA byte, a Transceive, start-send with a 7-bit short frame (R312 lines 4 to
8). That the bytes are plain ones, which do not follow `PICC.REQA`, `CMD.Transceive` and the masks where these
differ, is the model's choice (log 24). -/
def rearmSeq : List (Machine.RegName × Byte) :=
  [(.comIrq, 0x00#8), (.comIEn, 0xA0#8), (.fifoData, piccREQA),
   (.command, cmdTransceive.setWidth 8), (.bitFraming, 0x87#8)]

/-- The default of `SELFTEST_VERSIONS`: the four recognised version bytes (R341). -/
def selftestVersions : List Byte := [0x88#8, 0x90#8, 0x91#8, 0x92#8]

/-- The default of `SAK_TABLE`: the types of the SAK values without bit 7 (R292). -/
def sakTable : List (Byte × Machine.PiccType) :=
  [(0x04#8, .notComplete), (0x09#8, .mifareMini), (0x08#8, .mifare1K), (0x18#8, .mifare4K),
   (0x00#8, .mifareUL), (0x10#8, .mifarePlus), (0x11#8, .mifarePlus), (0x01#8, .tnp3xxx),
   (0x20#8, .iso14443_4), (0x40#8, .iso18092)]

/-- A byte the spec calls meaningless: answer byte `pos` of exchange number `n` where nothing says
what ENV returns (R65(e), U10, U5). A free value (log 14). -/
opaque freeByte : Nat → Nat → Byte

/-- The CRC preset of a `Mode` value the spec does not name. A free value (log 15). -/
opaque freeCrcPreset : Byte → BitVec 16

/-- Byte `k` of what the chip's self-test leaves in the FIFO, for a version byte and the bytes of the
internal buffer (R340). A free value (log 21). -/
opaque freeSelftestByte : Byte → List Byte → Nat → Byte

/-- Byte `k` of `SELFTEST_REF` for a version byte (R341: abstract, not to be invented). A free value
(log 21). -/
opaque selftestRefByte : Byte → Nat → Byte

end Sys2Proof.Config
end

