-- ==== Sys2Proof/Syntax.lean ====
section
/-! DEFINITION. The instructions of the block: one constructor per row of spec/opcode_table.json, in the four layers of spec/30_encoding.md R90 (L3 operations R110, L0 transport frames R92 to R95, L1 chip commands R100, L2 card commands R102), and the names a decoder rejects by. -/

namespace Sys2Proof

/-- A UID record (R27, R290): ten bytes, of which the first `size` are the UID; `size` 0, 4, 7 or 10;
`sak` none or one byte. -/
structure Uid where
  bytes : List Byte
  size : Nat
  sak : Option Byte
  deriving DecidableEq, Repr

/-- The layer an instruction is presented on (R90). `xfer` carries the frames of a single-byte access
(R92, R94), `burst` those of a burst access (R93, R95): the bytes of a burst of one are the bytes of a
single access, so the layer alone tells which row is meant. -/
inductive Layer
  | op
  | xfer
  | burst
  | chipCmd
  | picc
  deriving DecidableEq, Repr

/-- Why presented bytes are no instruction. -/
inductive DecodeError
  /-- The bytes end before the last operand. -/
  | truncated
  /-- Bytes stand after the last operand. -/
  | trailing
  /-- An operation index R110 does not list. -/
  | unknownIndex (b : Byte)
  /-- A chip command code R100 does not name. -/
  | unknownCommandCode (b : Byte)
  /-- A card command byte R102 does not name. -/
  | unknownCardCommand (b : Byte)
  /-- Bytes that are no frame of R92 to R95. -/
  | notAFrame
  /-- A register address above 0x3F (R96, U8). -/
  | registerAbove3F (b : Byte)
  /-- A bit count above 7 (R64, U4). -/
  | bitCountAbove7 (b : Byte)
  /-- A command operand above 4 bits (R100). -/
  | codeAbove4Bits (b : Byte)
  /-- A flag byte other than 0 and 1. -/
  | flagNotBool (b : Byte)
  /-- A UID size code other than 0 (size 4), 1 (size 7), 2 (size 10). -/
  | uidSizeCode (b : Byte)
  deriving DecidableEq, Repr

/-- The instruction set: one constructor per row of the opcode table. -/
inductive Instr
  -- L3, unit 1: register-access framer (R130 to R135)
  | wr (reg : Reg) (value : Byte)
  | wrb (reg : Reg) (values : List Byte)
  | rd (reg : Reg)
  | rdb (reg : Reg) (count rxAlign : Nat) (mergeIn : Byte)
  | setb (reg : Reg) (mask : Byte)
  | clrb (reg : Reg) (mask : Byte)
  -- L3, unit 2: CRC client (R150)
  | calcCrc (data : List Byte)
  -- L3, unit 3: exchange controller (R160, R175)
  | communicate (command : CmdCode) (waitIrq : Byte) (sendData : List Byte) (wantResponse : Bool)
      (txValidBits rxAlign : Nat) (checkCrc : Bool) (rxMerge : Byte)
  | transceive (sendData : List Byte) (wantResponse : Bool) (txValidBits rxAlign : Nat)
      (checkCrc : Bool) (rxMerge : Byte)
  -- L3, unit 4: anti-collision engine (R191 to R200)
  | reqa
  | wupa
  | select (knownUid : Option Uid) (knownValidBits : Byte)
  | hlta
  -- L3, unit 5: MIFARE sequencer (R240 to R266)
  | auth (cmd block : Byte) (key : List Byte) (uid : Uid)
  | stopCrypto1
  | mfTransceive (payload : List Byte) (acceptTimeout : Bool)
  | mfRead (block : Byte)
  | mfWrite (block : Byte) (data : List Byte)
  | ulWrite (page : Byte) (data : List Byte)
  | mfIncrement (block : Byte) (delta : Word32)
  | mfDecrement (block : Byte) (delta : Word32)
  | mfRestore (block : Byte)
  | mfTransfer (block : Byte)
  | mfGetValue (block : Byte)
  | mfSetValue (block : Byte) (value : Word32)
  -- L0: transport frames (R92 to R95)
  | xferWr (reg : Reg) (value : Byte)
  | xferWrb (reg : Reg) (values : List Byte)
  | xferRd (reg : Reg)
  | xferRdb (reg : Reg) (count : Nat)
  -- L1: chip commands (R100)
  | cmdIdle
  | cmdMem
  | cmdCalcCRC
  | cmdTransceive
  | cmdMFAuthent
  | cmdSoftReset
  | cmdGenerateRandomID
  | cmdTransmit
  | cmdNoCmdChange
  | cmdReceive
  -- L2: card commands (R102); `known` leading bits of the four `window` bytes are certain
  | piccReqa
  | piccWupa
  | piccSelCl1 (known : Nat) (window : List Byte)
  | piccSelCl2 (known : Nat) (window : List Byte)
  | piccSelCl3 (known : Nat) (window : List Byte)
  | piccHlta
  | piccAuthKeyA (block : Byte) (key uidTail : List Byte)
  | piccAuthKeyB (block : Byte) (key uidTail : List Byte)
  | piccMfRead (block : Byte)
  | piccMfWrite (block : Byte) (data : List Byte)
  | piccUlWrite (page : Byte) (data : List Byte)
  | piccMfDecrement (block : Byte) (delta : Word32)
  | piccMfIncrement (block : Byte) (delta : Word32)
  | piccMfRestore (block : Byte)
  | piccMfTransfer (block : Byte)
  deriving DecidableEq, Repr

end Sys2Proof
end

