-- ==== Sys2Proof/WellFormed.lean ====
section
/-! DEFINITION. Well-formed instructions: the operand domains of spec/30_encoding.md R111 and of each operation's rule, and what a presented operand can encode (log 6). How many bytes the chip's FIFO takes and how many the response buffer holds are parameters of State (D11, D12): a list or a count above that is well-formed and refused when the operation is run (`domainError`). -/

namespace Sys2Proof

/-- A UID record of R290 that is an operand: ten bytes, size 4, 7 or 10 (R200, R240, U6, U7). -/
def Uid.wellFormed (u : Uid) : Bool :=
  u.bytes.length == 10 && (u.size == 4 || u.size == 7 || u.size == 10)

/-- A list of at least one byte (R160, R250), as many as its length byte can say. -/
def someBytes (d : List Byte) : Bool := decide (1 ≤ d.length) && decide (d.length ≤ 256)

/-- A list that may be empty, as many bytes as its length byte can say. -/
def listOk (d : List Byte) : Bool := decide (d.length ≤ 255)

/-- A bit count of 0 to 7 (R64, U4). -/
def bitCountOk (n : Nat) : Bool := decide (n ≤ 7)

/-- The four window bytes and the known-bit count of a card-level select command (R103, R104); the count
is one byte. -/
def selOk (known : Nat) (window : List Byte) : Bool :=
  decide (known ≤ 255) && window.length == 4

/-- The domain of each instruction's operands. -/
def Instr.wellFormed : Instr → Bool
  | .wr _ _ => true
  | .wrb _ values => listOk values
  | .rd _ => true
  | .rdb _ count rxAlign _ => decide (count ≤ 255) && bitCountOk rxAlign
  | .setb _ _ => true
  | .clrb _ _ => true
  | .calcCrc data => listOk data
  | .communicate _ _ d _ tx rx _ _ => someBytes d && bitCountOk tx && bitCountOk rx
  | .transceive d _ tx rx _ _ => someBytes d && bitCountOk tx && bitCountOk rx
  | .reqa => true
  | .wupa => true
  | .select none _ => true
  | .select (some u) _ => u.wellFormed
  | .hlta => true
  | .auth _ _ key uid => key.length == 6 && uid.wellFormed
  | .stopCrypto1 => true
  | .mfTransceive payload _ => someBytes payload
  | .mfRead _ => true
  | .mfWrite _ data => listOk data
  | .ulWrite _ data => listOk data
  | .mfIncrement _ _ => true
  | .mfDecrement _ _ => true
  | .mfRestore _ => true
  | .mfTransfer _ => true
  | .mfGetValue _ => true
  | .mfSetValue _ _ => true
  | .xferWr _ _ => true
  | .xferWrb _ _ => true
  | .xferRd _ => true
  | .xferRdb _ count => decide (1 ≤ count)
  | .cmdIdle => true
  | .cmdMem => true
  | .cmdCalcCRC => true
  | .cmdTransceive => true
  | .cmdMFAuthent => true
  | .cmdSoftReset => true
  | .cmdGenerateRandomID => true
  | .cmdTransmit => true
  | .cmdNoCmdChange => true
  | .cmdReceive => true
  | .piccReqa => true
  | .piccWupa => true
  | .piccSelCl1 known window => selOk known window
  | .piccSelCl2 known window => selOk known window
  | .piccSelCl3 known window => selOk known window
  | .piccHlta => true
  | .piccAuthKeyA _ key tail => key.length == 6 && tail.length == 4
  | .piccAuthKeyB _ key tail => key.length == 6 && tail.length == 4
  | .piccMfRead _ => true
  | .piccMfWrite _ data => data.length == 16
  | .piccUlWrite _ data => data.length == 4
  | .piccMfDecrement _ _ => true
  | .piccMfIncrement _ _ => true
  | .piccMfRestore _ => true
  | .piccMfTransfer _ => true

end Sys2Proof
end

