-- ==== Sys2Proof/Decode.lean ====
section
/-! DEFINITION. The decoder: from presented bytes to an instruction or a rejection by name, total on any bytes; and after it the encoder, from the same tables (spec/30_encoding.md R91 to R95, R100, R102, R110; operand bytes as in spec/95_test_vectors.md Part 3: an index byte, then the operands in the order of the rule; log 6). -/

namespace Sys2Proof

-- Operand readers: each takes bytes from the front and leaves the rest.

/-- A reader: from bytes, a value and the bytes after it, or why not. -/
abbrev Read := StateT (List Byte) (Except DecodeError)

/-- A reader that rejects. -/
def reject {α : Type} (e : DecodeError) : Read α := fun _ => .error e

def readByte : Read Byte
  | [] => .error .truncated
  | b :: r => .ok (b, r)

/-- The first `n` bytes. -/
def readBytes (n : Nat) : Read (List Byte) := fun bs =>
  if bs.length < n then .error .truncated else .ok (bs.take n, bs.drop n)

/-- A register address: one byte, 0x00 to 0x3F (R96). -/
def readReg : Read Reg := do
  let b ← readByte
  if b.toNat ≤ 0x3F then pure (b.setWidth 6) else reject (.registerAbove3F b)

/-- A bit count of 0 to 7 (R64). -/
def readBitCount : Read Nat := do
  let b ← readByte
  if b.toNat ≤ 7 then pure b.toNat else reject (.bitCountAbove7 b)

/-- A 4-bit chip command code (R100). -/
def readCode : Read CmdCode := do
  let b ← readByte
  if b.toNat ≤ 15 then pure (b.setWidth 4) else reject (.codeAbove4Bits b)

def readFlag : Read Bool := do
  let b ← readByte
  if b = 0#8 then pure false else if b = 1#8 then pure true else reject (.flagNotBool b)

/-- A list that may be empty: a length byte, then the bytes. -/
def readList0 : Read (List Byte) := do
  let b ← readByte
  readBytes b.toNat

/-- A list of at least one byte: the length less one, then the bytes. -/
def readList1 : Read (List Byte) := do
  let b ← readByte
  readBytes (b.toNat + 1)

/-- A 32-bit word, least significant byte first (R63(e), R266). -/
def readWord32 : Read Word32
  | b0 :: b1 :: b2 :: b3 :: r => .ok (b3 ++ b2 ++ b1 ++ b0, r)
  | _ => .error .truncated

/-- The size of a UID record: code 0, 1, 2 for 4, 7, 10 bytes. -/
def readUidSize : Read Nat := do
  let b ← readByte
  if b = 0#8 then pure 4 else if b = 1#8 then pure 7
  else if b = 2#8 then pure 10 else reject (.uidSizeCode b)

/-- An optional operand: a flag, then the operand when it is there. -/
def readOption {α : Type} (x : Read α) : Read (Option α) := do
  let there ← readFlag
  if there then
    let a ← x
    pure (some a)
  else pure none

/-- A UID record (R27): its ten bytes, its size, its SAK. -/
def readUid : Read Uid := do
  let bytes ← readBytes 10
  let size ← readUidSize
  let sak ← readOption readByte
  pure { bytes := bytes, size := size, sak := sak }

/-- A count: of bytes to read, which `RESP_CAP`, a parameter of State, bounds when the operation is run (R133);
of known bits of a card-level select command, from 32 on all of the window (R104). -/
def readCount : Read Nat := do
  let b ← readByte
  pure b.toNat

/-- The operands of the operation with index `b` (R110). -/
def decodeOpBody (b : Byte) : Read Instr :=
  if b = 0x00#8 then do
    let reg ← readReg; let v ← readByte; pure (.wr reg v)
  else if b = 0x01#8 then do
    let reg ← readReg; let vs ← readList0; pure (.wrb reg vs)
  else if b = 0x02#8 then do
    let reg ← readReg; pure (.rd reg)
  else if b = 0x03#8 then do
    let reg ← readReg; let n ← readCount
    let a ← readBitCount; let m ← readByte; pure (.rdb reg n a m)
  else if b = 0x04#8 then do
    let reg ← readReg; let m ← readByte; pure (.setb reg m)
  else if b = 0x05#8 then do
    let reg ← readReg; let m ← readByte; pure (.clrb reg m)
  else if b = 0x08#8 then do
    let d ← readList0; pure (.calcCrc d)
  else if b = 0x10#8 then do
    let c ← readCode; let w ← readByte; let d ← readList1
    let want ← readFlag; let t ← readBitCount; let a ← readBitCount
    let crc ← readFlag; let m ← readByte
    pure (.communicate c w d want t a crc m)
  else if b = 0x11#8 then do
    let d ← readList1
    let want ← readFlag; let t ← readBitCount; let a ← readBitCount
    let crc ← readFlag; let m ← readByte
    pure (.transceive d want t a crc m)
  else if b = 0x18#8 then pure .reqa
  else if b = 0x19#8 then pure .wupa
  else if b = 0x1A#8 then do
    let u ← readOption readUid; let k ← readByte; pure (.select u k)
  else if b = 0x1B#8 then pure .hlta
  else if b = 0x20#8 then do
    let c ← readByte; let blk ← readByte; let key ← readBytes 6
    let u ← readUid; pure (.auth c blk key u)
  else if b = 0x21#8 then pure .stopCrypto1
  else if b = 0x22#8 then do
    let p ← readList1; let t ← readFlag; pure (.mfTransceive p t)
  else if b = 0x23#8 then do
    let blk ← readByte; pure (.mfRead blk)
  else if b = 0x24#8 then do
    let blk ← readByte; let d ← readList0; pure (.mfWrite blk d)
  else if b = 0x25#8 then do
    let p ← readByte; let d ← readList0; pure (.ulWrite p d)
  else if b = 0x26#8 then do
    let blk ← readByte; let x ← readWord32; pure (.mfIncrement blk x)
  else if b = 0x27#8 then do
    let blk ← readByte; let x ← readWord32; pure (.mfDecrement blk x)
  else if b = 0x28#8 then do
    let blk ← readByte; pure (.mfRestore blk)
  else if b = 0x29#8 then do
    let blk ← readByte; pure (.mfTransfer blk)
  else if b = 0x2A#8 then do
    let blk ← readByte; pure (.mfGetValue blk)
  else if b = 0x2B#8 then do
    let blk ← readByte; let x ← readWord32; pure (.mfSetValue blk x)
  else reject (.unknownIndex b)

/-- An operation: its index byte, then its operands (R110). -/
def decodeOp : Read Instr := do
  let b ← readByte
  decodeOpBody b

/-- A chip command code as the byte written to `REG.Command` (R100). -/
def commandByte (c : CmdCode) : Byte := c.setWidth 8

/-- A chip command: one byte, the code with bits [7:4] zero (R100). -/
def decodeChipCmd : Read Instr := do
  let b ← readByte
  if b = commandByte Config.cmdIdle then pure .cmdIdle
  else if b = commandByte Config.cmdMem then pure .cmdMem
  else if b = commandByte Config.cmdGenerateRandomID then pure .cmdGenerateRandomID
  else if b = commandByte Config.cmdCalcCRC then pure .cmdCalcCRC
  else if b = commandByte Config.cmdTransmit then pure .cmdTransmit
  else if b = commandByte Config.cmdNoCmdChange then pure .cmdNoCmdChange
  else if b = commandByte Config.cmdReceive then pure .cmdReceive
  else if b = commandByte Config.cmdTransceive then pure .cmdTransceive
  else if b = commandByte Config.cmdMFAuthent then pure .cmdMFAuthent
  else if b = commandByte Config.cmdSoftReset then pure .cmdSoftReset
  else reject (.unknownCommandCode b)

/-- A card command: its byte (R102), then the operands of the frames it opens (R99, R103 to R107). -/
def decodePicc : Read Instr := do
  let b ← readByte
  if b = Config.piccREQA then pure .piccReqa
  else if b = Config.piccWUPA then pure .piccWupa
  else if b = Config.piccSelCl1 then do
    let k ← readCount; let w ← readBytes 4; pure (.piccSelCl1 k w)
  else if b = Config.piccSelCl2 then do
    let k ← readCount; let w ← readBytes 4; pure (.piccSelCl2 k w)
  else if b = Config.piccSelCl3 then do
    let k ← readCount; let w ← readBytes 4; pure (.piccSelCl3 k w)
  else if b = Config.piccHLTA then pure .piccHlta
  else if b = Config.piccAuthKeyA then do
    let blk ← readByte; let key ← readBytes 6; let t ← readBytes 4; pure (.piccAuthKeyA blk key t)
  else if b = Config.piccAuthKeyB then do
    let blk ← readByte; let key ← readBytes 6; let t ← readBytes 4; pure (.piccAuthKeyB blk key t)
  else if b = Config.piccMfRead then do
    let blk ← readByte; pure (.piccMfRead blk)
  else if b = Config.piccMfWrite then do
    let blk ← readByte; let d ← readBytes 16; pure (.piccMfWrite blk d)
  else if b = Config.piccUlWrite then do
    let p ← readByte; let d ← readBytes 4; pure (.piccUlWrite p d)
  else if b = Config.piccMfDecrement then do
    let blk ← readByte; let x ← readWord32; pure (.piccMfDecrement blk x)
  else if b = Config.piccMfIncrement then do
    let blk ← readByte; let x ← readWord32; pure (.piccMfIncrement blk x)
  else if b = Config.piccMfRestore then do
    let blk ← readByte; pure (.piccMfRestore blk)
  else if b = Config.piccMfTransfer then do
    let blk ← readByte; pure (.piccMfTransfer blk)
  else reject (.unknownCardCommand b)

/-- Bit 7 of an address byte: read (R91). -/
def isReadByte (b : Byte) : Bool := b.getLsbD 7

/-- Bits [6:1] of an address byte: the register (R91). -/
def addrOf (b : Byte) : Reg := (b >>> 1).setWidth 6

/-- A frame of a single-byte access: two bytes (R92, R94). -/
def decodeXfer : Read Instr
  | [b, v] =>
    if b.getLsbD 0 then .error .notAFrame
    else if isReadByte b then
      if v = 0#8 then .ok (.xferRd (addrOf b), []) else .error .notAFrame
    else .ok (.xferWr (addrOf b) v, [])
  | _ => .error .notAFrame

/-- A frame of a burst access: the whole frame, as long as the chip-select period (R93, R95, R114). -/
def decodeBurst : Read Instr
  | [] => .error .truncated
  | b :: r =>
    if b.getLsbD 0 then .error .notAFrame
    else if isReadByte b then
      if b :: r = List.replicate r.length b ++ [0#8] then .ok (.xferRdb (addrOf b) r.length, [])
      else .error .notAFrame
    else .ok (.xferWrb (addrOf b) r, [])

/-- The instruction at the front of the presented bytes, and the bytes after it. -/
def decodePrefix : Layer → Read Instr
  | .op => decodeOp
  | .xfer => decodeXfer
  | .burst => decodeBurst
  | .chipCmd => decodeChipCmd
  | .picc => decodePicc

/-- The decoder: the presented bytes are exactly one instruction. -/
def decode (l : Layer) (bs : List Byte) : Except DecodeError Instr :=
  match decodePrefix l bs with
  | .ok (i, []) => .ok i
  | .ok (_, _ :: _) => .error .trailing
  | .error e => .error e

-- The encoder.

/-- `AW(a)`: the address byte of a write (R91). -/
def addrWrite (a : Reg) : Byte := (a.setWidth 8 <<< 1) &&& 0x7E#8

/-- `AR(a)`: the address byte of a read (R91). -/
def addrRead (a : Reg) : Byte := addrWrite a ||| 0x80#8

/-- A count or a length as a byte. -/
def byteOfNat (n : Nat) : Byte := BitVec.ofNat 8 n

def putReg (a : Reg) : List Byte := [a.setWidth 8]
def putFlag (b : Bool) : List Byte := [if b then 1#8 else 0#8]
def putCount (n : Nat) : List Byte := [byteOfNat n]
def putList0 (l : List Byte) : List Byte := byteOfNat l.length :: l
def putList1 (l : List Byte) : List Byte := byteOfNat (l.length - 1) :: l

/-- A 32-bit word, least significant byte first (R63(e), R260, R266). -/
def le32 (w : Word32) : List Byte :=
  [w.extractLsb' 0 8, w.extractLsb' 8 8, w.extractLsb' 16 8, w.extractLsb' 24 8]

def putUidSize (n : Nat) : List Byte :=
  [if n = 4 then 0#8 else if n = 7 then 1#8 else 2#8]

def putOptByte : Option Byte → List Byte
  | none => [0#8]
  | some b => [1#8, b]

def putUid (u : Uid) : List Byte := u.bytes ++ putUidSize u.size ++ putOptByte u.sak

def putOptUid : Option Uid → List Byte
  | none => [0#8]
  | some u => 1#8 :: putUid u

/-- The layer each instruction is presented on (R90). -/
def Instr.layer : Instr → Layer
  | .wr _ _ | .wrb _ _ | .rd _ | .rdb _ _ _ _ | .setb _ _ | .clrb _ _ | .calcCrc _
  | .communicate _ _ _ _ _ _ _ _ | .transceive _ _ _ _ _ _ | .reqa | .wupa | .select _ _ | .hlta
  | .auth _ _ _ _ | .stopCrypto1 | .mfTransceive _ _ | .mfRead _ | .mfWrite _ _ | .ulWrite _ _
  | .mfIncrement _ _ | .mfDecrement _ _ | .mfRestore _ | .mfTransfer _ | .mfGetValue _
  | .mfSetValue _ _ => .op
  | .xferWr _ _ | .xferRd _ => .xfer
  | .xferWrb _ _ | .xferRdb _ _ => .burst
  | .cmdIdle | .cmdMem | .cmdCalcCRC | .cmdTransceive | .cmdMFAuthent | .cmdSoftReset
  | .cmdGenerateRandomID | .cmdTransmit | .cmdNoCmdChange | .cmdReceive => .chipCmd
  | .piccReqa | .piccWupa | .piccSelCl1 _ _ | .piccSelCl2 _ _ | .piccSelCl3 _ _ | .piccHlta
  | .piccAuthKeyA _ _ _ | .piccAuthKeyB _ _ _ | .piccMfRead _ | .piccMfWrite _ _
  | .piccUlWrite _ _ | .piccMfDecrement _ _ | .piccMfIncrement _ _ | .piccMfRestore _
  | .piccMfTransfer _ => .picc

/-- The byte that names the instruction in its layer: operation index (R110), chip command code
(R100), card command byte (R102) or address byte (R91). -/
def Instr.codeByte : Instr → Byte
  | .wr _ _ => 0x00#8
  | .wrb _ _ => 0x01#8
  | .rd _ => 0x02#8
  | .rdb _ _ _ _ => 0x03#8
  | .setb _ _ => 0x04#8
  | .clrb _ _ => 0x05#8
  | .calcCrc _ => 0x08#8
  | .communicate _ _ _ _ _ _ _ _ => 0x10#8
  | .transceive _ _ _ _ _ _ => 0x11#8
  | .reqa => 0x18#8
  | .wupa => 0x19#8
  | .select _ _ => 0x1A#8
  | .hlta => 0x1B#8
  | .auth _ _ _ _ => 0x20#8
  | .stopCrypto1 => 0x21#8
  | .mfTransceive _ _ => 0x22#8
  | .mfRead _ => 0x23#8
  | .mfWrite _ _ => 0x24#8
  | .ulWrite _ _ => 0x25#8
  | .mfIncrement _ _ => 0x26#8
  | .mfDecrement _ _ => 0x27#8
  | .mfRestore _ => 0x28#8
  | .mfTransfer _ => 0x29#8
  | .mfGetValue _ => 0x2A#8
  | .mfSetValue _ _ => 0x2B#8
  | .xferWr reg _ => addrWrite reg
  | .xferWrb reg _ => addrWrite reg
  | .xferRd reg => addrRead reg
  | .xferRdb reg _ => addrRead reg
  | .cmdIdle => commandByte Config.cmdIdle
  | .cmdMem => commandByte Config.cmdMem
  | .cmdCalcCRC => commandByte Config.cmdCalcCRC
  | .cmdTransceive => commandByte Config.cmdTransceive
  | .cmdMFAuthent => commandByte Config.cmdMFAuthent
  | .cmdSoftReset => commandByte Config.cmdSoftReset
  | .cmdGenerateRandomID => commandByte Config.cmdGenerateRandomID
  | .cmdTransmit => commandByte Config.cmdTransmit
  | .cmdNoCmdChange => commandByte Config.cmdNoCmdChange
  | .cmdReceive => commandByte Config.cmdReceive
  | .piccReqa => Config.piccREQA
  | .piccWupa => Config.piccWUPA
  | .piccSelCl1 _ _ => Config.piccSelCl1
  | .piccSelCl2 _ _ => Config.piccSelCl2
  | .piccSelCl3 _ _ => Config.piccSelCl3
  | .piccHlta => Config.piccHLTA
  | .piccAuthKeyA _ _ _ => Config.piccAuthKeyA
  | .piccAuthKeyB _ _ _ => Config.piccAuthKeyB
  | .piccMfRead _ => Config.piccMfRead
  | .piccMfWrite _ _ => Config.piccMfWrite
  | .piccUlWrite _ _ => Config.piccUlWrite
  | .piccMfDecrement _ _ => Config.piccMfDecrement
  | .piccMfIncrement _ _ => Config.piccMfIncrement
  | .piccMfRestore _ => Config.piccMfRestore
  | .piccMfTransfer _ => Config.piccMfTransfer

/-- The operand bytes after the code byte. -/
def Instr.operandBytes : Instr → List Byte
  | .wr reg v => putReg reg ++ [v]
  | .wrb reg vs => putReg reg ++ putList0 vs
  | .rd reg => putReg reg
  | .rdb reg n a m => putReg reg ++ putCount n ++ putCount a ++ [m]
  | .setb reg m => putReg reg ++ [m]
  | .clrb reg m => putReg reg ++ [m]
  | .calcCrc d => putList0 d
  | .communicate c w d want t a crc m =>
      [c.setWidth 8, w] ++ putList1 d ++ putFlag want ++ putCount t ++ putCount a ++ putFlag crc ++ [m]
  | .transceive d want t a crc m =>
      putList1 d ++ putFlag want ++ putCount t ++ putCount a ++ putFlag crc ++ [m]
  | .select u k => putOptUid u ++ [k]
  | .auth c blk key u => [c, blk] ++ key ++ putUid u
  | .mfTransceive p t => putList1 p ++ putFlag t
  | .mfRead blk => [blk]
  | .mfWrite blk d => blk :: putList0 d
  | .ulWrite p d => p :: putList0 d
  | .mfIncrement blk x => blk :: le32 x
  | .mfDecrement blk x => blk :: le32 x
  | .mfRestore blk => [blk]
  | .mfTransfer blk => [blk]
  | .mfGetValue blk => [blk]
  | .mfSetValue blk x => blk :: le32 x
  | .xferWr _ v => [v]
  | .xferWrb _ vs => vs
  | .xferRd _ => [0#8]
  | .xferRdb reg n => List.replicate (n - 1) (addrRead reg) ++ [0#8]
  | .piccSelCl1 k w => byteOfNat k :: w
  | .piccSelCl2 k w => byteOfNat k :: w
  | .piccSelCl3 k w => byteOfNat k :: w
  | .piccAuthKeyA blk key t => blk :: (key ++ t)
  | .piccAuthKeyB blk key t => blk :: (key ++ t)
  | .piccMfRead blk => [blk]
  | .piccMfWrite blk d => blk :: d
  | .piccUlWrite p d => p :: d
  | .piccMfDecrement blk x => blk :: le32 x
  | .piccMfIncrement blk x => blk :: le32 x
  | .piccMfRestore blk => [blk]
  | .piccMfTransfer blk => [blk]
  | .reqa | .wupa | .hlta | .stopCrypto1 | .cmdIdle | .cmdMem | .cmdCalcCRC | .cmdTransceive
  | .cmdMFAuthent | .cmdSoftReset | .cmdGenerateRandomID | .cmdTransmit | .cmdNoCmdChange
  | .cmdReceive | .piccReqa | .piccWupa | .piccHlta => []

/-- The bytes an instruction is presented as. -/
def encode (i : Instr) : List Byte := i.codeByte :: i.operandBytes

-- The opcode table's words.

/-- The operation indices of R110. -/
def opIndices : List Nat :=
  [0x00, 0x01, 0x02, 0x03, 0x04, 0x05, 0x08, 0x10, 0x11, 0x18, 0x19, 0x1A, 0x1B, 0x20, 0x21, 0x22,
   0x23, 0x24, 0x25, 0x26, 0x27, 0x28, 0x29, 0x2A, 0x2B]

/-- The card command bytes of R102 that open a frame. -/
def piccBytes : List Nat :=
  [Config.piccREQA, Config.piccWUPA, Config.piccSelCl1, Config.piccSelCl2, Config.piccSelCl3,
    Config.piccHLTA, Config.piccAuthKeyA, Config.piccAuthKeyB, Config.piccMfRead, Config.piccMfWrite,
    Config.piccUlWrite, Config.piccMfDecrement, Config.piccMfIncrement, Config.piccMfRestore,
    Config.piccMfTransfer].map (·.toNat)

/-- The chip command codes of R100. -/
def chipCodes : List Nat :=
  [Config.cmdIdle, Config.cmdMem, Config.cmdGenerateRandomID, Config.cmdCalcCRC, Config.cmdTransmit,
    Config.cmdNoCmdChange, Config.cmdReceive, Config.cmdTransceive, Config.cmdMFAuthent,
    Config.cmdSoftReset].map (·.toNat)

/-- The layer of a word of the opcode table. The table's four formats are four code spaces that
share byte values; where a byte stands in several, the block's own layer L3 is taken first, the one
layer the block decodes (R90), then L2, then L1, then L0 (log 7). -/
def tableLayer (nbits w : Nat) : Layer :=
  if 8 < nbits then .xfer
  else if opIndices.contains w then .op
  else if piccBytes.contains w then .picc
  else if chipCodes.contains w then .chipCmd
  else .burst

/-- The bytes of a table word: the first byte is the most significant of a 16-bit frame (the table's
note on XFER.WR), operand bytes the table gives no bits to are zero. -/
def tableBytes (nbits w : Nat) : List Byte :=
  match tableLayer nbits w with
  | .xfer => [byteOfNat (w / 256), byteOfNat w]
  | .burst => [byteOfNat w, 0#8]
  | .chipCmd => [byteOfNat w]
  | .op | .picc => byteOfNat w :: List.replicate 96 0#8

/-- The instruction the decoder reads from a table word. -/
def decodeTableWord (nbits w : Nat) : Option Instr :=
  match decodePrefix (tableLayer nbits w) (tableBytes nbits w) with
  | .ok (i, _) => some i
  | .error _ => none

/-- The bytes of a table word cut to the instruction the decoder reads from them; all of them where
it reads none. -/
def tableExact (nbits w : Nat) : List Byte :=
  match decodePrefix (tableLayer nbits w) (tableBytes nbits w) with
  | .ok (_, r) => (tableBytes nbits w).take ((tableBytes nbits w).length - r.length)
  | .error _ => tableBytes nbits w

end Sys2Proof
end

