-- ==== Sys2Proof/Machine/State.lean ====
section
/-! DEFINITION. The state of the machine: the block's registers (spec/10_state.md R20 to R28), the chip behind the transport (R30 to R45, R48), the environment's script of answers (R49, R70), the host's side (R311), and the state after reset (spec/70_reset_and_hazards.md R390, R391). -/

namespace Sys2Proof.Machine

/-- `StatusCode`, a closed enumeration (R350). -/
inductive StatusCode
  | ok
  | error
  | collision
  | timeout
  | noRoom
  | internalError
  | invalid
  | crcWrong
  | mifareNack
  | canceled
  deriving DecidableEq, Repr

/-- The numbers of the status codes as `STATUS` shows them, 4 bits (R8, R23, R350, U18). -/
structure StatusNumbers where
  (ok error collision timeout noRoom internalError invalid crcWrong mifareNack canceled : BitVec 4)
  deriving DecidableEq, Repr

/-- The operations that stand on the sequencer's stack (R21): those of R110 and one name
for each layer below L3; the helper of R260 is no operation of its own. -/
inductive OpName
  | wr | wrb | rd | rdb | setb | clrb
  | calcCrc
  | communicate | transceive
  | reqa | wupa | select | hlta
  | auth | stopCrypto1 | mfTransceive | mfRead | mfWrite | ulWrite
  | mfIncrement | mfDecrement | mfRestore | mfTransfer | mfGetValue | mfSetValue
  | transportFrame | chipCommand | cardCommand
  deriving DecidableEq, Repr

/-- A sequencer position: operation and step label, the line of the rule's pseudocode (R21). -/
structure SeqFrame where
  op : OpName
  line : Nat
  deriving DecidableEq, Repr

/-- `SEQ` (R21): between operations, running at a position with the stack of the callers' positions
(innermost first), or stopped by a transport fault until reset (R356). -/
inductive Seq
  | idle
  | running (pos : SeqFrame) (stack : List SeqFrame)
  | faulted
  deriving DecidableEq, Repr

/-- The payload of a result (R23, R110). -/
inductive Payload
  | none
  | byte (b : Byte)
  | bytes (bs : List Byte)
  | response (bs : List Byte) (validBits : BitCount)
  | uid (u : Uid)
  | value (v : Word32)
  deriving DecidableEq, Repr

/-- What an operation presents to the host: a status, where it has one, and a payload (R7, R23). -/
structure Result where
  status : Option StatusCode
  payload : Payload
  deriving DecidableEq, Repr

/-- `RESP`, `RESPLEN`, `VALIDBITS` (R24). -/
structure RespRegs where
  bytes : List Byte
  len : Nat
  validBits : BitCount
  deriving DecidableEq, Repr

/-- The registers of the anti-collision engine (R25, R26, R27). -/
structure SelectRegs where
  buf : List Byte
  level : Nat
  known : Nat
  woff : Nat
  wlen : Nat
  txl : Nat
  used : Nat
  uidx : Nat
  useCt : Bool
  sakLatch : Byte
  uidAcc : List Byte
  uidSize : Nat
  sakOut : Option Byte
  deriving DecidableEq, Repr

/-- The chip's register space as a memory: address and byte pairs, addresses strictly rising, no pair
equal to what an unlisted address reads as (R30, R62, R67). -/
abbrev Memory := List Host.Cell

/-- A bit collision in a received frame (R42, R75): how many bits of the frame were received up to it,
and the bits [6:0] of the collision register it leaves. -/
structure RfCollision where
  good : Nat
  coll : Byte
  deriving DecidableEq, Repr

/-- What the RF field answers to one frame the chip sends (U15: any value). -/
inductive RfAnswer
  /-- Nothing is received before the timer expires (R75). -/
  | silence
  /-- A frame is received: its bits in the order received, the byte whose low bits stand below
  `rx_align`, a bit collision where there is one, and the fatal error bits (R75). -/
  | frame (bits : List Bool) (pad : Byte) (coll : Option RfCollision) (fatal : Byte)
  /-- The three-pass authentication succeeds (R76). -/
  | authenticated
  deriving DecidableEq, Repr

/-- A frame the chip put on the air: its bytes, the valid bits of the last (0 for eight), and whether
Crypto1 enciphered it (R98, R48(c)). -/
structure RfFrame where
  bytes : List Byte
  validBits : BitCount
  enciphered : Bool
  deriving DecidableEq, Repr

/-- The chip behind the transport, ENV's state (R30, R48): the codes it is addressed by (`REG.*`, the field
masks, `CMD.*`, `PICC.*`: parameters no step writes, which the block's own rules read here too), register space,
FIFO and its capacity (D11, a parameter no step writes), active command, internal buffer, the receiver's armed
state, the level of the reset pin (R331), and its RF side. -/
structure Chip where
  codes : Codes
  regs : Memory
  fifo : List Byte
  fifoSize : Nat
  active : Option CmdCode
  internalBuf : List Byte
  armed : Bool
  resetPinHigh : Bool
  rf : List RfAnswer
  air : List RfFrame
  deriving DecidableEq, Repr

/-- ENV's answer to one exchange (R12, R13, R49). -/
inductive EnvAnswer
  /-- As the environment contract R70 to R76 says, from the chip's state. -/
  | contract
  /-- These bytes, cut or filled with free bytes to the length sent. -/
  | bytes (bs : List Byte)
  /-- A transport fault, whether or not the bytes reached the chip (R356). -/
  | fault (reached : Bool)
  deriving DecidableEq, Repr

/-- One exchange as the outside sees it: the bytes out, and the bytes in where it did not fail (R7). -/
structure Exchange where
  out : List Byte
  inp : Option (List Byte)
  deriving DecidableEq, Repr

/-- The environment: the chip, the transport handle (R49, R338), the script of answers still to come,
the number of exchanges so far, and the trace. When the script has run out the contract answers. -/
structure Env where
  chip : Chip
  handleOpen : Bool
  script : List EnvAnswer
  count : Nat
  trace : List Exchange
  deriving DecidableEq, Repr

/-- What the IRQ and CANCEL agents do during one poll interval or back-off of a host wait (R311). -/
structure HostEvent where
  irq : Bool
  cancel : Bool
  deriving DecidableEq, Repr

/-- The states of a card session (R310). -/
inductive SessionState
  | idle
  | waitingForCard
  | cardPresent
  | authenticating
  | transferring
  | halted
  deriving DecidableEq, Repr

/-- The host's side: the two session flags (R311), the level of the chip's interrupt line when the IRQ
agent last saw it (R48(g)), the session state (R310), the events to come, and whether a reset pin is
configured (R330). -/
structure HostSide where
  irqFlag : Bool
  cancelFlag : Bool
  lineSeen : Bool
  session : SessionState
  events : List HostEvent
  resetPinConfigured : Bool
  deriving DecidableEq, Repr

/-- The parameters of R8 the block and its host hold as data: fixed for a run, no step writes them (R49, R50).
The codes and `FIFO_SIZE` are the chip's; what the source states as a literal stands in Config (log 24). -/
structure Settings where
  /-- `RESP_CAP`, the capacity of the response buffer (R24, D12, U11). -/
  respCap : Nat
  /-- The status code numbers (R350, D1, U18). -/
  statusNumbers : StatusNumbers
  /-- `SELECT_CLEARS_VALUES_AFTER_COLL` (R201, D19). -/
  selectClearsValuesAfterColl : Bool
  /-- `WAIT_TRANSCEIVE` (R175, D8). -/
  waitTransceive : Byte
  /-- `REARM_SEQ`: the register writes of R312 lines 4 (C7) to 8. -/
  rearmSeq : List (RegName × Byte)
  /-- `INIT_CONST` (R336). -/
  initConst : List (RegName × Byte)
  /-- `SAK_TABLE` (R292). -/
  sakTable : List (Byte × PiccType)
  /-- `SELFTEST_SEQ`: the register writes of R340 lines 2; 5 and 6; 11; 13. -/
  selftestFlush : List (RegName × Byte)
  selftestEnable : List (RegName × Byte)
  selftestStop : List (RegName × Byte)
  selftestDisable : List (RegName × Byte)
  /-- `SELFTEST_VERSIONS` (R341). -/
  selftestVersions : List Byte
  deriving DecidableEq, Repr

/-- The parameters as an operation reads them: the settings, and the codes the chip is addressed by. -/
structure Params extends Settings where
  codes : Codes
  deriving DecidableEq, Repr

/-- An operation as the host presents it. -/
structure Presented where
  layer : Layer
  bytes : List Byte
  deriving DecidableEq, Repr

/-- The state of the machine. -/
structure State where
  seq : Seq
  latched : Option Instr
  status : StatusCode
  result : Result
  resp : RespRegs
  sel : SelectRegs
  crcPoll : Nat
  cmdPoll : Nat
  params : Settings
  pending : List Presented
  env : Env
  host : HostSide
  deriving DecidableEq, Repr

/-- The parameters of the machine (R8): each has one home in State. -/
def State.config (s : State) : Params := { toSettings := s.params, codes := s.env.chip.codes }

/-- Why the machine stops with a fault. -/
inductive Fault
  /-- Raised by any exchange that fails (R13, R356): no status is presented, and `after` is the state
  the fault leaves, `SEQ` faulted and every block register as the last completed step wrote it.
  Safe: the spec calls it the fault outcome of a step. -/
  | transportFault (after : State)
  deriving DecidableEq, Repr

/-- Why an operation is given no step. -/
inductive Refusal
  /-- The instruction has no meaning in the model yet. Safe. -/
  | notModelled (mnemonic : String)
  /-- An operation is presented while another runs (R61, U1). Safe: the spec says refuse. -/
  | busy
  /-- An operation is presented after a transport fault and before reset (R356, R367). Safe. -/
  | faultedUntilReset
  /-- The presented bytes are no instruction (R96, R111). Safe. -/
  | notAnOperation (e : DecodeError)
  /-- A list longer than `FIFO_SIZE` (or than leaves room for the CRC_A) is handed over (U3). Safe. -/
  | fifoOverlong
  /-- COMMUNICATE or MF_TRANSCEIVE is given no byte to send (R160, R250: 1 or more). Safe. -/
  | nothingToSend
  /-- A bit count above 7 (U4). Safe. -/
  | bitCountAbove7
  /-- RDB is asked for more than `RESP_CAP` bytes (R133), or a burst frame has no address byte (R95).
  Safe. -/
  | countOutOfRange
  /-- A UID record whose size the operation does not admit (U6, U7). Safe. -/
  | uidSizeNotAdmitted
  /-- An operand that is no key of 6 bytes, no record of 10 bytes, no window of 4 bytes or no data
  frame of the length its rule gives (R22, R106, R107). Safe. -/
  | malformedOperand
  /-- The anti-collision loop ran past the bound of R220. No state reaches it: the bound is proved by
  the statement that says so. Safe. -/
  | anticollisionBound
  deriving DecidableEq, Repr

-- Memory: what an unlisted address reads as, reading, writing.

/-- What a register address that is not listed reads as: its content before anything wrote it. The
source gives none (R391); 0x26 for `ModWidth`, wherever the codes place it, is the value R336 row 3 calls its
reset value (log 4). -/
def Memory.background (k : Codes) (a : Nat) : Byte :=
  if a = k.regModWidth.toNat then 0x26#8 else 0#8

/-- Addresses strictly rise. -/
def Memory.sorted : Memory → Bool
  | [] => true
  | [_] => true
  | c :: d :: m => decide (c.1 < d.1) && Memory.sorted (d :: m)

/-- The canonical form: addresses strictly rising and within 0x00 to 0x3F, no pair equal to the
background. -/
def Memory.wf (k : Codes) (m : Memory) : Bool :=
  Memory.sorted m && m.all fun c => decide (c.1 ≤ 0x3F) && decide (c.2 ≠ Memory.background k c.1)

/-- The chip after power-on (log 4). -/
def Chip.reset : Chip :=
  { codes := Config.codes
    regs := []
    fifo := []
    fifoSize := Config.fifoSize
    active := none
    internalBuf := List.replicate Config.internalSize 0#8
    armed := false
    resetPinHigh := true
    rf := []
    air := [] }

/-- Nothing presented. -/
abbrev Result.empty : Result := { status := none, payload := .none }

/-- The machine right after reset: `SEQ` idle, no operand latched (R390); every register the spec
calls unspecified at the value logs 3, 4, 24, 28, 29, 37 and 39 name; ENV's oracle, which R70 and R391 leave open,
starts with an empty script and a silent field (log 2). -/
def State.reset : State :=
  { seq := .idle
    latched := none
    status := .ok
    result := Result.empty
    resp := { bytes := List.replicate Config.respCap 0#8, len := 0, validBits := 0#3 }
    sel :=
      { buf := List.replicate 9 0#8
        level := 1
        known := 0
        woff := 2
        wlen := 7
        txl := 0
        used := 2
        uidx := 0
        useCt := false
        sakLatch := 0#8
        uidAcc := List.replicate 10 0#8
        uidSize := 0
        sakOut := none }
    crcPoll := 0
    cmdPoll := 0
    params :=
      { respCap := Config.respCap
        statusNumbers :=
          { ok := 0#4
            error := 1#4
            collision := 2#4
            timeout := 3#4
            noRoom := 4#4
            internalError := 5#4
            invalid := 6#4
            crcWrong := 7#4
            mifareNack := 8#4
            canceled := 9#4 }
        selectClearsValuesAfterColl := false
        waitTransceive := Config.waitTransceive
        rearmSeq := Config.rearmSeq
        initConst := Config.initConst
        sakTable := Config.sakTable
        selftestFlush := Config.selftestFlush
        selftestEnable := Config.selftestEnable
        selftestStop := Config.selftestStop
        selftestDisable := Config.selftestDisable
        selftestVersions := Config.selftestVersions }
    pending := []
    env :=
      { chip := Chip.reset
        handleOpen := true
        script := []
        count := 0
        trace := [] }
    host :=
      { irqFlag := false
        cancelFlag := false
        lineSeen := false
        session := .idle
        events := []
        resetPinConfigured := false } }

end Sys2Proof.Machine
end

