-- ==== Sys2Proof/Machine/Flags.lean ====
section
/-! DEFINITION. What plays the part of condition codes (spec/10_state.md R46): tests of chip flags, the collision position, the response shapes, and the status codes as numbers. -/

namespace Sys2Proof.Machine

/-- `(n & mask) != 0`: some flag of the mask is set (R46). -/
def anySet (n mask : Byte) : Bool := n &&& mask != 0#8

/-- `OK` is the only success value (R298, R350). -/
def StatusCode.isOk : StatusCode → Bool
  | .ok => true
  | .error | .collision | .timeout | .noRoom | .internalError | .invalid | .crcWrong
  | .mifareNack | .canceled => false

/-- The number of a status; by default its position in the source's list (R350, D1, U18). -/
def StatusCode.code (n : StatusNumbers) : StatusCode → BitVec 4
  | .ok => n.ok
  | .error => n.error
  | .collision => n.collision
  | .timeout => n.timeout
  | .noRoom => n.noRoom
  | .internalError => n.internalError
  | .invalid => n.invalid
  | .crcWrong => n.crcWrong
  | .mifareNack => n.mifareNack
  | .canceled => n.canceled

/-- The statuses in the source's order (R350). -/
def StatusCode.all : List StatusCode :=
  [.ok, .error, .collision, .timeout, .noRoom, .internalError, .invalid, .crcWrong, .mifareNack,
   .canceled]

/-- The numbers tell the statuses apart (R350). -/
def StatusNumbers.distinct (n : StatusNumbers) : Bool :=
  decide (StatusCode.all.map (StatusCode.code n)).Nodup

/-- `STATUS` as the register shows it (R23, R350). -/
def State.statusNumber (s : State) : BitVec 4 := s.status.code s.params.statusNumbers

/-- `RX_LAST_BITS` of the control register (R40, R160 line 22). -/
def lastBitsOf (k : Codes) (control : Byte) : BitCount := (control &&& k.rxLastBits).setWidth 3

/-- The collision position, 1 to 32; the field's 0 means 32 (R42, R211). -/
def collisionPosition (k : Codes) (cr : Byte) : Nat :=
  let p := (cr.setWidth 5 &&& k.collPos).toNat
  if p = 0 then 32 else p

/-- The collision register says the position is not valid (R42, R211). -/
def collisionNotValid (k : Codes) (cr : Byte) : Bool := anySet cr k.collNotValid

/-- The SAK's cascade bit (R105(d), R218). -/
def cascadeSet (sak : Byte) : Bool := anySet sak Config.sakCascade

/-- The NAK shape of the checked path: one byte of four valid bits (R171). -/
def nakShape (len : Nat) (vb : BitCount) : Bool := len == 1 && vb == 4#3

/-- A response the CRC check cannot be made on (R172). -/
def tooShortForCrc (len : Nat) (vb : BitCount) : Bool := decide (len < 2) || vb != 0#3

/-- The two CRC bytes equal bytes `k` (low) and `k + 1` (high) of the response (R63(b), R172, R216). -/
def crcMatches (c resp : List Byte) (k : Nat) : Bool :=
  c.getD 0 0#8 == resp.getD k 0#8 && c.getD 1 0#8 == resp.getD (k + 1) 0#8

/-- `BCC`: exclusive or of the four window bytes (R104, R115(c)). -/
def bccOf (w : List Byte) : Byte :=
  w.getD 0 0#8 ^^^ w.getD 1 0#8 ^^^ w.getD 2 0#8 ^^^ w.getD 3 0#8

/-- `NVB` of an anti-collision frame with `c` whole bytes and `t` bits known (R103). -/
def nvbOf (c t : Nat) : Byte := (byteOfNat (2 + c) <<< 4) ||| byteOfNat t

end Sys2Proof.Machine
end

