-- ==== Sys2Proof/Machine/Memory.lean ====
section
/-! DEFINITION. Reading and writing one byte of the chip's register space, the canonical form kept (spec/20_memory.md R62, R67, R72). -/

namespace Sys2Proof.Machine

/-- The byte at an address. -/
def Memory.read (k : Codes) : Memory → Nat → Byte
  | [], a => Memory.background k a
  | (b, v) :: m, a => if a = b then v else if a < b then Memory.background k a else Memory.read k m a

/-- Puts a listed byte in its place. -/
def Memory.insert : Memory → Nat → Byte → Memory
  | [], a, v => [(a, v)]
  | (b, w) :: m, a, v =>
    if a < b then (a, v) :: (b, w) :: m
    else if a = b then (a, v) :: m
    else (b, w) :: Memory.insert m a v

/-- Takes an address off the list. -/
def Memory.erase : Memory → Nat → Memory
  | [], _ => []
  | (b, w) :: m, a =>
    if a < b then (b, w) :: m
    else if a = b then m
    else (b, w) :: Memory.erase m a

/-- Writes one byte: a byte equal to the background is not listed. -/
def Memory.write (k : Codes) (m : Memory) (a : Nat) (v : Byte) : Memory :=
  if v = Memory.background k a then Memory.erase m a else Memory.insert m a v

end Sys2Proof.Machine
end

