-- ==== Sys2Proof/Machine/Chip.lean ====
section
/-! DEFINITION. The chip as the environment contract gives it (spec/20_memory.md R70 to R76; register conventions spec/10_state.md R32 to R45; CRC_A spec/30_encoding.md R116). It is no part of the block: it answers an exchange only where the script leaves the answer to the contract (log 2). Addresses, masks and command codes are the chip's parameter `codes` (R8); a bit R8's list does not name stands in Config (log 24). -/

namespace Sys2Proof.Machine

-- CRC_A (R116).

/-- One byte of CRC_A, with the 16-bit register (R116). -/
def crcAStep (crc : BitVec 16) (b : Byte) : BitVec 16 :=
  let b1 : Byte := b ^^^ crc.setWidth 8
  let b2 : Byte := b1 ^^^ (b1 <<< 4)
  let w : BitVec 16 := b2.setWidth 16
  (crc >>> 8) ^^^ (w <<< 8) ^^^ (w <<< 3) ^^^ (w >>> 4)

/-- The CRC register after the bytes, from a preset. -/
def crcFrom (preset : BitVec 16) (data : List Byte) : BitVec 16 := data.foldl crcAStep preset

/-- CRC_A as it is sent: low byte, then high byte (R63(b), R116). -/
def crcABytes (data : List Byte) : List Byte :=
  [(crcFrom Config.crcAPreset data).setWidth 8, ((crcFrom Config.crcAPreset data) >>> 8).setWidth 8]

/-- The preset a `Mode` value programs: 0x3D gives that of CRC_A (R336 row 9), any other a free value
(log 15). -/
def crcPreset (mode : Byte) : BitVec 16 :=
  if mode = Config.modeCrcA then Config.crcAPreset else Config.freeCrcPreset mode

-- Registers.

/-- The stored byte of a register. -/
def Chip.get (c : Chip) (a : Reg) : Byte := c.regs.read c.codes a.toNat

/-- Stores a byte in a register. -/
def Chip.put (c : Chip) (a : Reg) (v : Byte) : Chip := { c with regs := c.regs.write c.codes a.toNat v }

/-- Sets flags in a register, keeping the others. -/
def Chip.raise (c : Chip) (a : Reg) (mask : Byte) : Chip := c.put a (c.get a ||| mask)

/-- The write convention of the two flag registers: bit 7 = 0 clears the flags written as 1, bit 7 = 1
sets them (R34, R35). -/
def Chip.writeFlags (c : Chip) (a : Reg) (v : Byte) : Chip :=
  if v.getLsbD 7 then c.put a (c.get a ||| (v &&& c.codes.irqAll7))
  else c.put a (c.get a &&& ~~~ (v &&& c.codes.irqAll7))

/-- Crypto1 is on (R37). -/
def Chip.cryptoOn (c : Chip) : Bool := anySet (c.get c.codes.regStatus2) c.codes.crypto1On

/-- Both antenna drivers are enabled (R44, R337). -/
def Chip.antennaOn (c : Chip) : Bool := c.get c.codes.regTxControl &&& c.codes.txAnt == c.codes.txAnt

/-- The timeout timer starts by itself after a transmission (R336 row 4). -/
def Chip.timerRuns (c : Chip) : Bool := anySet (c.get c.codes.regTMode) Config.timerAuto

/-- The self-test is enabled (R45). That a value of bits [3:0] which is neither 0b1001 nor 0 leaves it disabled is
the model's choice (log 21). -/
def Chip.selftestOn (c : Chip) : Bool :=
  c.get c.codes.regAutoTest &&& Config.autoTestField == Config.autoTestOn

/-- The interrupt line is asserted: a pending flag of either bank is enabled (R33, R48(g), R370). That the line
stays as the stored flags and enables say while the chip is powered down is the model's choice: R380 says nothing
of the line (log 41). So is that bit 7 of `ComIEn`, which inverts the pin, changes nothing here: R33 does not say
what edge the host sees with the bit 0 (log 29). -/
def Chip.irqAsserted (c : Chip) : Bool :=
  anySet (c.get c.codes.regComIrq &&& c.codes.irqAll7) (c.get c.codes.regComIEn) ||
    anySet (c.get c.codes.regDivIrq &&& c.codes.irqAll7) (c.get c.codes.regDivIEn)

/-- Power-down: the reset pin is low or the soft power-down bit is set (R375(b), R380). -/
def Chip.poweredDown (c : Chip) : Bool :=
  !c.resetPinHigh || anySet (c.get c.codes.regCommand) c.codes.powerDown

/-- The chip keeps the bits received after a collision (R42). -/
def Chip.keepsAfterCollision (c : Chip) : Bool :=
  anySet (c.get c.codes.regColl) Config.valuesAfterColl

-- The RF side.

/-- A byte of eight bits, bit 0 first (R63(d)). -/
def byteOfBits (f : Nat → Bool) : Byte :=
  BitVec.ofNat 8 ((List.range 8).foldl (fun n j => n + if f j then 2 ^ j else 0) 0)

/-- Bits packed into bytes, bit 0 of byte 0 first; missing bits of the last byte are 0. -/
def packBits (bits : List Bool) : List Byte :=
  (List.range ((bits.length + 7) / 8)).map fun k => byteOfBits fun j => bits.getD (8 * k + j) false

/-- The bits of a received frame as the FIFO holds them: the first at bit `rx_align` of the first
byte, below it the pad (R64, R75). -/
def alignedBits (rxAlign : Nat) (pad : Byte) (bits : List Bool) : List Bool :=
  (List.range rxAlign).map (fun j => pad.getLsbD j) ++ bits

/-- The bits of a frame with a collision: where `VALUES_AFTER_COLL` is 0 every bit received after it is
zero (R42). -/
def Chip.collidedBits (c : Chip) (bits : List Bool) : Option RfCollision → List Bool
  | none => bits
  | some k =>
    if c.keepsAfterCollision then bits
    else bits.take k.good ++ (bits.drop k.good).map fun _ => false

/-- Nothing was received: the timer, where it runs, expires (R75). That the receiver is then no longer armed, and
that where the timer does not run it waits on, is the model's choice: R48(d) says only that it is not armed after
a poll timeout of the host wait (log 20). -/
def Chip.silence (c : Chip) : Chip :=
  if c.timerRuns then { c.raise c.codes.regComIrq c.codes.timerIrq with armed := false } else c

/-- A frame was received: the bits that fit go to the FIFO, `RX_LAST_BITS`, the error bits (overflow where
some do not fit), the collision register but its bit 7, and `RX_IRQ` are set (R42, R75, logs 17, 20, 34). That
the frame takes the place of bytes the FIFO still holds, written after the transmission while the receiver is
armed, and that these count for no overflow, is the model's choice: R73 says only that the frame is placed in
the FIFO (log 17). That the receiver is no longer armed once it has received one frame, though Transceive stays
active, is the model's choice too: R48(d) and R75 do not say it (log 20). So is that the error register is written
whole, so that a bit set since the transmission (the overflow of a write to a full FIFO) is dropped: R36 and R75
say only which bits are set (log 40). -/
def Chip.receive (c : Chip) (bits : List Bool) (pad : Byte) (coll : Option RfCollision)
    (fatal : Byte) : Chip :=
  let rxAlign := (c.get c.codes.regBitFraming >>> 4 &&& 0x07#8).toNat
  let all := alignedBits rxAlign pad (c.collidedBits bits coll)
  let held := all.take (8 * c.fifoSize)
  let c := { c with fifo := packBits held, armed := false }
  let c := c.put c.codes.regControl
    ((c.get c.codes.regControl &&& ~~~ c.codes.rxLastBits) |||
      (byteOfNat (held.length % 8) &&& c.codes.rxLastBits))
  let err := (fatal &&& c.codes.errFatal) |||
    (if held.length < all.length then Config.errOverflow else 0#8) |||
    (if coll.isSome then c.codes.errColl else 0#8)
  let c := c.put c.codes.regError err
  let c := match coll with
    | some k => c.put c.codes.regColl
        ((c.get c.codes.regColl &&& Config.valuesAfterColl) ||| (k.coll &&& ~~~ Config.valuesAfterColl))
    | none => c
  c.raise c.codes.regComIrq c.codes.rxIrq

/-- The next answer of the RF field; with the antenna off no card is powered (R380). -/
def Chip.takeAnswer (c : Chip) : RfAnswer × Chip :=
  if c.antennaOn then
    match c.rf with
    | [] => (.silence, c)
    | a :: rest => (a, { c with rf := rest })
  else (.silence, c)

/-- The armed receiver takes the field's next answer (R75; what leaves it armed is log 20). -/
def Chip.await (c : Chip) : Chip :=
  match c.takeAnswer with
  | (.frame bits pad coll fatal, c) => c.receive bits pad coll fatal
  | (.silence, c) => c.silence
  | (.authenticated, c) => c.silence

/-- While the host waits a receiver still armed may yet receive; at the end of the wait it is no longer
armed (R48(d), R312, log 29). -/
def Chip.listen (c : Chip) : Chip :=
  { (if c.armed && !c.poweredDown then c.await else c) with armed := false }

/-- Transceive, once `START_SEND` is set: the error register is cleared (log 40), the FIFO content goes on
the air as one frame, then the receiver, armed (log 20), waits for the answer (R48(d), R75). That the frame goes
out plain, and the answer is taken plain, whatever `TxMode` and `RxMode` hold is the model's choice: R336 gives
the meaning of 0x00 only (log 16). -/
def Chip.transmit (c : Chip) : Chip :=
  let f : RfFrame :=
    { bytes := c.fifo
      validBits := (c.get c.codes.regBitFraming).setWidth 3
      enciphered := c.cryptoOn }
  let c := { c with fifo := [], air := c.air ++ [f], armed := true }
  (c.put c.codes.regError 0#8).await

-- Commands.

/-- MFAuthent: the error register is cleared (log 40), the frame is taken from the FIFO, whatever its
length (log 22), and the handshake run; success ends the command and sets `CRYPTO1_ON` and `IDLE_IRQ`,
failure lets the timer expire (R76). -/
def Chip.authenticate (c : Chip) : Chip :=
  let c := { c with fifo := [] }
  let c := c.put c.codes.regError 0#8
  match c.takeAnswer with
  | (.authenticated, c) =>
    { (c.raise c.codes.regStatus2 c.codes.crypto1On).raise c.codes.regComIrq c.codes.idleIrq with
      active := none }
  | (.silence, c) => c.silence
  | (.frame _ _ _ _, c) => c.silence

/-- CalcCRC over the bytes in the FIFO, which it consumes; or the self-test, which leaves 64 bytes in
the FIFO (R73, R74, R340). -/
def Chip.calcCrc (c : Chip) : Chip :=
  if c.selftestOn then
    { c with fifo := (List.range (min Config.selftestSize c.fifoSize)).map
               (Config.freeSelftestByte (c.get c.codes.regVersion) c.internalBuf) }
  else
    let crc := crcFrom (crcPreset (c.get c.codes.regMode)) c.fifo
    let c := { c with fifo := [] }
    let c := c.put c.codes.regCRCResultL (crc.setWidth 8)
    let c := c.put c.codes.regCRCResultH ((crc >>> 8).setWidth 8)
    c.raise c.codes.regDivIrq c.codes.crcIrq

/-- Mem: the FIFO's bytes move to the internal buffer (R62, R340). -/
def Chip.mem (c : Chip) : Chip :=
  { c with
    internalBuf := c.fifo.take Config.internalSize ++ c.internalBuf.drop c.fifo.length
    fifo := c.fifo.drop Config.internalSize }

/-- SoftReset: every register holds its reset value again (R332), the power-down bit among them; the
parameters, the reset pin and the RF field are not reset. -/
def Chip.softReset (c : Chip) : Chip :=
  { Chip.reset with
    codes := c.codes
    fifoSize := c.fifoSize
    resetPinHigh := c.resetPinHigh
    rf := c.rf
    air := c.air }

/-- The running command ends; a Transceive that ends sets `IDLE_IRQ` (R48(a), R75). That the receiver is then no
longer armed is the model's choice (log 20); so is that `IDLE_IRQ` is set also where it received nothing or never
sent (same log). -/
def Chip.endCommand (c : Chip) : Chip :=
  if c.active = some c.codes.cmdTransceive then
    { c.raise c.codes.regComIrq c.codes.idleIrq with active := none, armed := false }
  else { c with active := none, armed := false }

/-- A write to `REG.Command` ends the running command and starts the one with the code of bits [3:0]; with
the power-down bit set it starts none (R32, R48(a), R65(d), log 41). -/
def Chip.writeCommand (c : Chip) (v : Byte) : Chip :=
  let code : CmdCode := v.setWidth 4
  let c := { c.endCommand.put c.codes.regCommand v with active := some code }
  if anySet v c.codes.powerDown then { c with active := none }
  else if code = c.codes.cmdIdle then { c with active := none }
  else if code = c.codes.cmdMem then c.mem
  else if code = c.codes.cmdCalcCRC then c.calcCrc
  else if code = c.codes.cmdMFAuthent then c.authenticate
  else if code = c.codes.cmdSoftReset then c.softReset
  else c

/-- The running command is one the spec gives no behaviour of: every later read is a free value (U5,
log 31). -/
def Chip.undescribed (c : Chip) : Bool :=
  match c.active with
  | none => false
  | some code =>
    !(code == c.codes.cmdMem || code == c.codes.cmdCalcCRC || code == c.codes.cmdTransceive ||
      code == c.codes.cmdMFAuthent || code == c.codes.cmdSoftReset)

/-- A write to `REG.FIFOData` appends; on a full FIFO the byte is lost and the overflow bit set (R38,
R66, R73, log 17). -/
def Chip.push (c : Chip) (v : Byte) : Chip :=
  if c.fifo.length < c.fifoSize then { c with fifo := c.fifo ++ [v] }
  else c.raise c.codes.regError Config.errOverflow

/-- A write to `REG.BitFraming`: stored; bit 7 starts the transmission when Transceive runs (R41). -/
def Chip.writeBitFraming (c : Chip) (v : Byte) : Chip :=
  let c := c.put c.codes.regBitFraming v
  if anySet v c.codes.startSend && c.active == some c.codes.cmdTransceive then c.transmit else c

/-- A write to `REG.Status2` clears `CRYPTO1_ON` where the bit written is 0 and never sets it, which only a
successful authentication does (R37, R375(a); log 18); the other bits are read-only status (R405). -/
def Chip.writeStatus2 (c : Chip) (v : Byte) : Chip :=
  c.put c.codes.regStatus2 (c.get c.codes.regStatus2 &&& (v ||| ~~~ c.codes.crypto1On))

/-- A write while the chip is powered down: only a soft reset is taken, and only with the reset pin high
(R380, log 41). -/
def Chip.writeAsleep (c : Chip) (a : Reg) (v : Byte) : Chip :=
  if c.resetPinHigh && a == c.codes.regCommand && !anySet v c.codes.powerDown &&
      v.setWidth 4 == c.codes.cmdSoftReset then c.softReset
  else c

/-- One byte written to a register (R65(d), R71, R72). A register without a behaviour of its own, the
addresses R31 gives no role among them, stores the byte whole (R96, log 43). -/
def Chip.write (c : Chip) (a : Reg) (v : Byte) : Chip :=
  if c.poweredDown then c.writeAsleep a v
  else if a = c.codes.regCommand then c.writeCommand v
  else if a = c.codes.regComIrq then c.writeFlags a v
  else if a = c.codes.regDivIrq then c.writeFlags a v
  else if a = c.codes.regFIFOData then c.push v
  else if a = c.codes.regFIFOLevel then
    if anySet v c.codes.flush then { c with fifo := [] } else c
  else if a = c.codes.regBitFraming then c.writeBitFraming v
  else if a = c.codes.regStatus2 then c.writeStatus2 v
  else if a = c.codes.regError then c
  else if a = c.codes.regCRCResultL then c
  else if a = c.codes.regCRCResultH then c
  else if a = c.codes.regVersion then c
  else c.put a v

/-- One byte read from a register (R38, R39, R71, R72). `free` stands where nothing says what is read: while
an undescribed command runs (log 31), in power-down (log 41), from an empty FIFO (log 17); such a read
changes nothing of the chip and removes no byte from the FIFO, which is the model's choice (same logs). So is that
the level of more than 127 bytes, which bits [6:0] of R39 cannot hold, runs into bit 7 and wraps at 256 (log 17). -/
def Chip.readReg (c : Chip) (a : Reg) (free : Byte) : Byte × Chip :=
  if c.undescribed || c.poweredDown then (free, c)
  else if a = c.codes.regFIFOData then
    match c.fifo with
    | [] => (free, c)
    | b :: rest => (b, { c with fifo := rest })
  else if a = c.codes.regFIFOLevel then (byteOfNat c.fifo.length, c)
  else (c.get a, c)

/-- The reads of a frame: answer byte `i` is the register addressed by byte `i - 1` (R71). -/
def Chip.readAll (free : Nat → Byte) : List Byte → Nat → Chip → List Byte × Chip
  | [], _, c => ([], c)
  | b :: bs, k, c =>
    let (v, c) := c.readReg (addrOf b) (free k)
    let (vs, c) := Chip.readAll free bs (k + 1) c
    (v :: vs, c)

/-- What the contract answers to the bytes of one exchange, and the chip after it (R71). -/
def Chip.exchange (free : Nat → Byte) (out : List Byte) (c : Chip) : List Byte × Chip :=
  match out with
  | [] => ([], c)
  | b :: bs =>
    if isReadByte b then
      let (vs, c) := Chip.readAll free (b :: bs).dropLast 1 c
      (free 0 :: vs, c)
    else ((List.range (bs.length + 1)).map free, bs.foldl (fun c v => c.write (addrOf b) v) c)

end Sys2Proof.Machine
end

