-- ==== Sys2Proof/Machine/Operands.lean ====
section
/-! DEFINITION. Operand forms: the frames of the framer (spec/30_encoding.md R91 to R95), the bit-framing byte (R97), the RF frames' payloads (R103 to R107), value blocks (R109), and the domain of every instruction's operands (R111; spec/93_implementation_defined.md U3, U4, U6, U7). -/

namespace Sys2Proof.Machine

/-- WR frame (R92). -/
def frameWr (a : Reg) (v : Byte) : List Byte := [addrWrite a, v]

/-- WRB frame (R93). -/
def frameWrb (a : Reg) (vs : List Byte) : List Byte := addrWrite a :: vs

/-- RD frame (R94). -/
def frameRd (a : Reg) : List Byte := [addrRead a, 0#8]

/-- RDB frame: `count` address bytes and a closing 0x00 (R95, D5). -/
def frameRdb (a : Reg) (count : Nat) : List Byte := List.replicate count (addrRead a) ++ [0#8]

/-- The bit-framing byte `(rx_align << 4) | tx_valid_bits` (R97, R162). -/
def bitFramingByte (rxAlign txValidBits : Nat) : Byte :=
  (byteOfNat rxAlign <<< 4) ||| byteOfNat txValidBits

/-- The mask `0xFF << rx_align` within 8 bits (R133). -/
def alignMask (rxAlign : Nat) : Byte := 0xFF#8 <<< rxAlign

/-- The merge of the first returned byte below `rx_align` (R133, D6). -/
def mergeFirst (rxAlign : Nat) (mergeIn : Byte) : List Byte → List Byte
  | [] => []
  | v :: vs =>
    if rxAlign = 0 then v :: vs
    else ((mergeIn &&& ~~~ (alignMask rxAlign)) ||| (v &&& alignMask rxAlign)) :: vs

/-- Bytes written over a buffer from index `k` on. -/
def overwrite (buf : List Byte) (k : Nat) (vs : List Byte) : List Byte :=
  buf.take k ++ vs ++ buf.drop (k + vs.length)

/-- The operands of COMMUNICATE (R160). -/
structure CommArgs where
  command : CmdCode
  waitIrq : Byte
  sendData : List Byte
  wantResponse : Bool
  txValidBits : Nat
  rxAlign : Nat
  checkCrc : Bool
  rxMerge : Byte
  deriving DecidableEq, Repr

/-- TRANSCEIVE is COMMUNICATE with these operands, the mask here at its default (R175, D8). -/
def transceiveArgs (sendData : List Byte) (wantResponse : Bool) (txValidBits rxAlign : Nat)
    (checkCrc : Bool) (rxMerge : Byte) : CommArgs :=
  { command := Config.cmdTransceive
    waitIrq := Config.waitTransceive
    sendData := sendData
    wantResponse := wantResponse
    txValidBits := txValidBits
    rxAlign := rxAlign
    checkCrc := checkCrc
    rxMerge := rxMerge }

/-- The last four bytes of the `size` UID bytes (R240(a)). -/
def uidTail (u : Uid) : List Byte := (u.bytes.drop (u.size - 4)).take 4

/-- The 12-byte authentication frame (R106). -/
def authFrame (cmd block : Byte) (key tail : List Byte) : List Byte := [cmd, block] ++ key ++ tail

/-- The 16-byte value block of a value and the block's own address (R109, R266). -/
def valueBlock (v : Word32) (block : Byte) : List Byte :=
  le32 v ++ (le32 v).map (fun b => ~~~ b) ++ le32 v ++ [block, ~~~ block, block, ~~~ block]

/-- The 32-bit value of the first four bytes, least significant first (R265). -/
def valueOfBytes (d : List Byte) : Word32 :=
  d.getD 3 0#8 ++ d.getD 2 0#8 ++ d.getD 1 0#8 ++ d.getD 0 0#8

/-- An anti-collision frame over four window bytes of which `known` < 32 bits are certain (R103). -/
def anticollisionFrame (sel : Byte) (known : Nat) (window : List Byte) : List Byte :=
  [sel, (byteOfNat (2 + known / 8) <<< 4) ||| byteOfNat (known % 8)] ++
    window.take (known / 8 + if known % 8 = 0 then 0 else 1)

/-- The first seven bytes of a select frame (R104). -/
def selectFrame7 (sel : Byte) (window : List Byte) : List Byte :=
  [sel, Config.nvbSelect] ++ window ++
    [window.getD 0 0#8 ^^^ window.getD 1 0#8 ^^^ window.getD 2 0#8 ^^^ window.getD 3 0#8]

-- The domain of the operands: none where the operation may run, else why the model refuses it.

/-- The first of two reasons. -/
def firstReason (a b : Option Refusal) : Option Refusal :=
  match a with
  | some r => some r
  | none => b

def needFifo (n cap : Nat) : Option Refusal := if n ≤ cap then none else some .fifoOverlong
def needSome (n : Nat) : Option Refusal := if n = 0 then some .nothingToSend else none
def needBits (n : Nat) : Option Refusal := if n ≤ 7 then none else some .bitCountAbove7
def needCount (n cap : Nat) : Option Refusal := if n ≤ cap then none else some .countOutOfRange
def needAddress (n : Nat) : Option Refusal := if n = 0 then some .countOutOfRange else none
def needLength (l : List Byte) (n : Nat) : Option Refusal :=
  if l.length = n then none else some .malformedOperand
def needUid (u : Uid) : Option Refusal :=
  firstReason (needLength u.bytes 10)
    (if u.size = 4 ∨ u.size = 7 ∨ u.size = 10 then none else some .uidSizeNotAdmitted)

/-- Why an instruction's operands are outside its domain, if they are (R111, R133, U3, U4, U6, U7), `cap` the
capacity of the FIFO and `respCap` that of the response buffer. Write data has no upper bound (R256: bytes beyond the last one used are ignored),
nor has the count of known bits of a select code (R104: from 32 on the select frame). -/
def domainError (cap respCap : Nat) : Instr → Option Refusal
  | .wr _ _ => none
  | .wrb _ vs => needFifo vs.length cap
  | .rd _ => none
  | .rdb _ n a _ => firstReason (needCount n respCap) (needBits a)
  | .setb _ _ => none
  | .clrb _ _ => none
  | .calcCrc d => needFifo d.length cap
  | .communicate _ _ d _ t a _ _ =>
      firstReason (needSome d.length) (firstReason (needFifo d.length cap)
        (firstReason (needBits t) (needBits a)))
  | .transceive d _ t a _ _ =>
      firstReason (needSome d.length) (firstReason (needFifo d.length cap)
        (firstReason (needBits t) (needBits a)))
  | .reqa => none
  | .wupa => none
  | .select none _ => none
  | .select (some u) _ => needUid u
  | .hlta => none
  | .auth _ _ key u => firstReason (needLength key 6) (needUid u)
  | .stopCrypto1 => none
  | .mfTransceive p _ =>
      firstReason (needSome p.length) (needFifo p.length (cap - 2))
  | .mfRead _ => none
  | .mfWrite _ _ => none
  | .ulWrite _ _ => none
  | .mfIncrement _ _ => none
  | .mfDecrement _ _ => none
  | .mfRestore _ => none
  | .mfTransfer _ => none
  | .mfGetValue _ => none
  | .mfSetValue _ _ => none
  | .xferWr _ _ => none
  | .xferWrb _ vs => needFifo vs.length cap
  | .xferRd _ => none
  | .xferRdb _ n => needAddress n
  | .cmdIdle => none
  | .cmdMem => none
  | .cmdCalcCRC => none
  | .cmdTransceive => none
  | .cmdMFAuthent => none
  | .cmdSoftReset => none
  | .cmdGenerateRandomID => none
  | .cmdTransmit => none
  | .cmdNoCmdChange => none
  | .cmdReceive => none
  | .piccReqa => none
  | .piccWupa => none
  | .piccSelCl1 _ w => needLength w 4
  | .piccSelCl2 _ w => needLength w 4
  | .piccSelCl3 _ w => needLength w 4
  | .piccHlta => none
  | .piccAuthKeyA _ key t => firstReason (needLength key 6) (needLength t 4)
  | .piccAuthKeyB _ key t => firstReason (needLength key 6) (needLength t 4)
  | .piccMfRead _ => none
  | .piccMfWrite _ d => needLength d 16
  | .piccUlWrite _ d => needLength d 4
  | .piccMfDecrement _ _ => none
  | .piccMfIncrement _ _ => none
  | .piccMfRestore _ => none
  | .piccMfTransfer _ => none

end Sys2Proof.Machine
end

