-- ==== Sys2Proof/Machine/Ops.lean ====
section
/-! DEFINITION. The shared operations: the exchange with ENV (spec/00_scope.md R12, R13), calls on the sequencer's stack (spec/10_state.md R21), presenting a status (spec/60_exceptions.md R366) and stopping on a transport fault (R356), the framer's accesses as the other units call them, and running one operation from idle to idle. -/

namespace Sys2Proof.Machine

-- ENV's answer to one exchange.

/-- The bytes a script gives, cut or filled with free bytes to the length sent (R12, R49). -/
def fit (n len : Nat) (bs : List Byte) : List Byte :=
  bs.take len ++ (List.range (len - bs.length)).map fun i => Config.freeByte n (bs.length + i)

/-- What the contract answers now. -/
def Env.contract (e : Env) (out : List Byte) : List Byte × Chip :=
  e.chip.exchange (Config.freeByte e.count) out

/-- ENV's answer to an exchange of these bytes: none is a transport fault (R12, R13, R338). -/
def Env.respond (e : Env) (out : List Byte) : Option (List Byte) :=
  if e.handleOpen then
    match e.script with
    | [] => some (e.contract out).1
    | .contract :: _ => some (e.contract out).1
    | .bytes bs :: _ => some (fit e.count out.length bs)
    | .fault _ :: _ => none
  else none

/-- The exchange reaches the chip: always, but for a fault that says it did not (R356). That with the handle closed
it never does is the model's choice: R338 says only that the exchange is a fault, and R356 that a failed exchange
may or may not have reached the chip (log 35). -/
def Env.reaches (e : Env) : Bool :=
  if e.handleOpen then
    match e.script with
    | .fault reached :: _ => reached
    | _ => true
  else false

/-- ENV after an exchange: one answer used up, with the handle closed too (log 35), the chip changed by the bytes
that reached it, the exchange on the trace. -/
def Env.after (e : Env) (out : List Byte) : Env :=
  { chip := if e.reaches then (e.contract out).2 else e.chip
    handleOpen := e.handleOpen
    script := e.script.tail
    count := e.count + 1
    trace := e.trace ++ [{ out := out, inp := e.respond out }] }

-- The machine's steps inside an operation.

/-- Why an operation ends without a result. -/
inductive Stop
  | transport
  | refuse (r : Refusal)
  deriving DecidableEq, Repr

/-- Steps of the block: a value and a state, or a stop and the state it leaves. -/
abbrev M := EStateM Stop State

/-- `TransportFault` (R13, R356): the operation and all its callers stop, `SEQ` becomes faulted, every
other register keeps the value it had. -/
def raiseTransportFault {α : Type} : M α := fun s => .error .transport { s with seq := .faulted }

/-- `Exchange(out)` (R12). -/
def exchange (out : List Byte) : M (List Byte) := fun s =>
  match s.env.respond out with
  | some inp => .ok inp { s with env := s.env.after out }
  | none => raiseTransportFault { s with env := s.env.after out }

/-- The running position moves to a line of the pseudocode (R21). -/
def Seq.atLine (q : Seq) (n : Nat) : Seq :=
  match q with
  | .running p stack => .running { p with line := n } stack
  | .idle => .idle
  | .faulted => .faulted

/-- A called operation starts at its first step, the caller's position on the stack, which holds
`callDepth` positions (R21, log 42). -/
def Seq.push (q : Seq) (op : OpName) : Seq :=
  match q with
  | .running p stack => .running { op := op, line := 1 } ((p :: stack).take Config.callDepth)
  | .idle => .running { op := op, line := 1 } []
  | .faulted => .faulted

/-- The running operation goes on as another, at its first step, the stack as it is (log 42). -/
def Seq.become (q : Seq) (op : OpName) : Seq :=
  match q with
  | .running _ stack => .running { op := op, line := 1 } stack
  | .idle => .idle
  | .faulted => .faulted

/-- `call OP(args)` at a line of the caller: the callee runs to its end as part of the caller (R11). -/
def call {α : Type} (line : Nat) (op : OpName) (body : M α) : M α := fun s =>
  match body { s with seq := (s.seq.atLine line).push op } with
  | .ok a s' => .ok a { s' with seq := s.seq.atLine line }
  | .error e s' => .error e s'

/-- Delivering a status (R23, R366): the one shared way an operation of units 2 to 5 ends; a non-OK
status is delivered exactly as OK is. -/
def present (st : StatusCode) : M Unit := fun s => .ok () { s with status := st }

/-- Presents a status and returns it. -/
def finish (st : StatusCode) : M StatusCode := do
  present st
  pure st

-- Moving the sequencer, reading and writing single registers.

/-- `SEQ` moves to a line of the running rule's pseudocode (R21). -/
def goLine (n : Nat) : M Unit := fun s => .ok () { s with seq := s.seq.atLine n }
/-- `SEQ` passes through lines in turn; the first of them may be where it stands (R21). -/
def goLines (ns : List Nat) : M Unit := fun s => .ok () { s with seq := ns.foldl Seq.atLine s.seq }
/-- The running operation goes on as another (R175, log 42). -/
def become (op : OpName) : M Unit := fun s => .ok () { s with seq := s.seq.become op }

def readResp : M RespRegs := fun s => .ok s.resp s
def readSelect : M SelectRegs := fun s => .ok s.sel s
def readParams : M Params := fun s => .ok s.config s

def setCrcPoll (n : Nat) : M Unit := fun s => .ok () { s with crcPoll := n }
def setCmdPoll (n : Nat) : M Unit := fun s => .ok () { s with cmdPoll := n }

/-- `RESPLEN <- 0; VALIDBITS <- 0` (R160 line 1). -/
def clearResponse : M Unit := fun s =>
  .ok () { s with resp := { s.resp with len := 0, validBits := 0#3 } }

/-- `RESP[0..m-1] <- vals; RESPLEN <- m` (R160 line 21): bytes beyond keep what they held. -/
def storeResponse (vals : List Byte) : M Unit := fun s =>
  .ok () { s with resp :=
    { s.resp with bytes := vals ++ s.resp.bytes.drop vals.length, len := vals.length } }

def setValidBits (v : BitCount) : M Unit := fun s =>
  .ok () { s with resp := { s.resp with validBits := v } }

/-- Changes the registers of the anti-collision engine. -/
def modifySelect (f : SelectRegs → SelectRegs) : M Unit := fun s => .ok () { s with sel := f s.sel }

def getState : M State := fun s => .ok s s

/-- No next state is given, for a reason (93_implementation_defined.md, treatment "refuse"). -/
def refuse {α : Type} (r : Refusal) : M α := fun s => .error (.refuse r) s

-- The framer (R130 to R135).

/-- WR (R130). -/
def framerWr (a : Reg) (v : Byte) : M Unit := do
  let _ ← exchange (frameWr a v)
  pure ()

/-- WRB (R131). -/
def framerWrb (a : Reg) (vs : List Byte) : M Unit := do
  let _ ← exchange (frameWrb a vs)
  pure ()

/-- RD (R132): the second returned byte. -/
def framerRd (a : Reg) : M Byte := do
  let inp ← exchange (frameRd a)
  goLine 2
  pure (inp.getD 1 0#8)

/-- RDB (R133): no exchange for a count of 0; otherwise one burst, the first returned byte merged. -/
def framerRdb (a : Reg) (count rxAlign : Nat) (mergeIn : Byte) : M (List Byte) :=
  if count = 0 then pure []
  else do
    goLine 2
    let inp ← exchange (frameRdb a count)
    goLines (if 0 < rxAlign then [3, 4, 5, 6, 7] else [3, 4, 7])
    pure (mergeFirst rxAlign mergeIn (inp.drop 1))

/-- SETB (R134): a read, then a write. -/
def framerSetb (a : Reg) (mask : Byte) : M Unit := do
  let v ← call 1 .rd (framerRd a)
  call 2 .wr (framerWr a (v ||| mask))

/-- CLRB (R135): a read, then a write. -/
def framerClrb (a : Reg) (mask : Byte) : M Unit := do
  let v ← call 1 .rd (framerRd a)
  call 2 .wr (framerWr a (v &&& ~~~ mask))

/-- `call WR` at a line. -/
def callWr (line : Nat) (a : Reg) (v : Byte) : M Unit := call line .wr (framerWr a v)
/-- `call RD` at a line. -/
def callRd (line : Nat) (a : Reg) : M Byte := call line .rd (framerRd a)

-- One operation, from idle to idle.

/-- A result with no status (R23: the framer's operations and STOP_CRYPTO1). -/
def plainResult (p : Payload) : Result := { status := none, payload := p }
/-- A result with a status. -/
def statusResult (st : StatusCode) (p : Payload) : Result := { status := some st, payload := p }

/-- Runs an operation (R21, R22, R366): accepted only when `SEQ` is idle (R61, U1; after a transport
fault only reset is, R367) and only with operands of its domain; its operands are latched, its
sequencer position starts at its first step; at its end the result is presented and `SEQ` is idle. The steps
are those for the machine's parameters (R8, R49). That the domain binds the presented operation and not those it
calls, whose lists can be longer than a `FIFO_SIZE` other than the default, is the model's choice (log 24). -/
def runOp (i : Instr) (op : OpName) (body : Params → M Result) (s : State) :
    Host.Outcome State Fault Refusal :=
  match s.seq with
  | .faulted => .refused .faultedUntilReset
  | .running _ _ => .refused .busy
  | .idle =>
    match domainError s.env.chip.fifoSize s.params.respCap i with
    | some r => .refused r
    | none =>
      match body s.config { s with seq := .running { op := op, line := 1 } [], latched := some i } with
      | .ok r s' => .next { s' with seq := .idle, latched := none, result := r }
      | .error .transport s' => .fault (.transportFault s')
      | .error (.refuse r) _ => .refused r

/-- Reset of the block (R390): `SEQ` idle, from `faulted` too, no operand latched, no exchange
issued; the registers the spec leaves unspecified keep what they held (log 30). -/
def resetBlock (s : State) : State := { s with seq := .idle, latched := none }

end Sys2Proof.Machine
end

