-- ==== Sys2Proof/Machine/CrcClient.lean ====
section
/-! DEFINITION. Unit 2, the CRC coprocessor client: CALC_CRC (spec/41_crc_client.md R150). Line numbers are those of R150. -/

namespace Sys2Proof.Machine

/-- Status and bytes of CALC_CRC, the status presented (R23). -/
def crcReturn (st : StatusCode) (c : List Byte) : M (StatusCode × List Byte) := do
  present st
  pure (st, c)

/-- The poll loop with `k` reads of the budget left (lines 7 to 13). -/
def pollCrc (p : Params) : Nat → M (StatusCode × List Byte)
  | 0 => do
    goLine 13
    crcReturn .timeout []
  | k + 1 => do
    goLine 7
    let n ← callRd 8 p.codes.regDivIrq
    setCrcPoll (Config.crcPolls - k)
    goLine 9
    if anySet n p.codes.crcIrq then do
      let lo ← callRd 10 p.codes.regCRCResultL
      let hi ← callRd 11 p.codes.regCRCResultH
      goLine 12
      crcReturn .ok [lo, hi]
    else pollCrc p k

/-- Lines 1 to 6: stop, clear, flush, load, start. -/
def crcSetup (p : Params) (data : List Byte) : M Unit := do
  callWr 1 p.codes.regCommand (commandByte p.codes.cmdIdle)
  callWr 2 p.codes.regDivIrq p.codes.crcIrq
  callWr 3 p.codes.regFIFOLevel p.codes.flush
  call 4 .wrb (framerWrb p.codes.regFIFOData data)
  callWr 5 p.codes.regCommand (commandByte p.codes.cmdCalcCRC)
  goLine 6
  setCrcPoll 0

/-- CALC_CRC (R150): status OK with the low and the high byte, or Timeout with none. -/
def calcCrc (p : Params) (data : List Byte) : M (StatusCode × List Byte) := do
  crcSetup p data
  pollCrc p Config.crcPolls

/-- CALC_CRC as an operation (R150). -/
def execCalcCrc (data : List Byte) (s : State) : Host.Outcome State Fault Refusal :=
  runOp (.calcCrc data) .calcCrc (fun p => do
    let (st, c) ← calcCrc p data
    pure (statusResult st (.bytes c))) s

end Sys2Proof.Machine
end

