-- ==== Sys2Proof/Machine/Exchange.lean ====
section
/-! DEFINITION. Unit 3, the command/response exchange: COMMUNICATE and TRANSCEIVE (spec/42_exchange.md R160 to R177). Line numbers are those of R160. -/

namespace Sys2Proof.Machine

/-- What COMMUNICATE returns: status, response bytes, valid bits of the last (R160). -/
structure Response where
  status : StatusCode
  bytes : List Byte
  validBits : BitCount
  deriving DecidableEq, Repr

/-- `return (S, RESP[0..RESPLEN-1], VALIDBITS)`: the status presented, the response as the response
registers hold it (R24: empty until the drain). -/
def respond (st : StatusCode) : M Response := do
  present st
  let r ← readResp
  pure { status := st, bytes := r.bytes.take r.len, validBits := r.validBits }

/-- Lines 1 to 9: clear, stop, clear flags, flush, load, frame, issue, start. -/
def commSetup (p : Params) (a : CommArgs) : M Unit := do
  goLine 1
  clearResponse
  callWr 2 p.codes.regCommand (commandByte p.codes.cmdIdle)
  callWr 3 p.codes.regComIrq p.codes.irqAll7
  callWr 4 p.codes.regFIFOLevel p.codes.flush
  call 5 .wrb (framerWrb p.codes.regFIFOData a.sendData)
  callWr 6 p.codes.regBitFraming (bitFramingByte a.rxAlign a.txValidBits)
  callWr 7 p.codes.regCommand (commandByte a.command)
  goLine 8
  if a.command = p.codes.cmdTransceive then
    call 9 .setb (framerSetb p.codes.regBitFraming p.codes.startSend)
  else pure ()

/-- The poll loop with `k` reads of the budget left (lines 11 to 15): whether an awaited flag was
seen. The awaited mask is tested before the timer bit (R167, D9). -/
def pollIrq (p : Params) (waitIrq : Byte) : Nat → M Bool
  | 0 => do
    goLine 15
    pure false
  | k + 1 => do
    goLine 11
    let n ← callRd 12 p.codes.regComIrq
    setCmdPoll (Config.cmdPolls - k)
    goLine 13
    if anySet n waitIrq then do
      goLine 15
      pure true
    else do
      goLine 14
      if anySet n p.codes.timerIrq then pure false else pollIrq p waitIrq k

/-- Lines 19 to 22: the drain; false where the level is above `RESP_CAP` (R169). -/
def drain (p : Params) (a : CommArgs) : M Bool := do
  let m ← callRd 19 p.codes.regFIFOLevel
  goLine 20
  if p.respCap < m.toNat then pure false
  else do
    let vals ← call 21 .rdb (framerRdb p.codes.regFIFOData m.toNat a.rxAlign a.rxMerge)
    storeResponse vals
    let v ← callRd 22 p.codes.regControl
    setValidBits (lastBitsOf p.codes v)
    pure true

/-- Lines 25 to 31 with a response to check: the NAK shape, the shape a CRC needs, the CRC (R171,
R172). Where `RESP_CAP` is larger than `FIFO_SIZE` + 2 the bytes under the CRC can be more than the FIFO holds,
outside R150's domain: that CALC_CRC, called inside a running operation, then sends them all and is not refused
is the model's choice (log 24). -/
def checkResponse (p : Params) : M Response := do
  goLine 25
  let q ← readResp
  let r := q.bytes.take q.len
  if nakShape r.length q.validBits then respond .mifareNack
  else do
    goLine 26
    if tooShortForCrc r.length q.validBits then respond .crcWrong
    else do
      let (st, c) ← call 27 .calcCrc (calcCrc p (r.take (r.length - 2)))
      goLine 28
      if st ≠ .ok then respond st
      else do
        goLine 29
        if crcMatches c r (r.length - 2) then do
          goLine 31
          respond .ok
        else do
          goLine 30
          respond .crcWrong

/-- Lines 23 to 31: collision, CRC check, OK (R170 to R173). -/
def classify (p : Params) (a : CommArgs) (e : Byte) : M Response := do
  goLine 23
  if anySet e p.codes.errColl then respond .collision
  else do
    goLine 24
    if a.checkCrc && a.wantResponse then checkResponse p
    else do
      goLine 31
      respond .ok

/-- Lines 16 to 31: the error register, the drain where a response is wanted, the verdict (R168 to
R173). -/
def afterCompletion (p : Params) (a : CommArgs) : M Response := do
  let e ← callRd 16 p.codes.regError
  goLine 17
  if anySet e p.codes.errFatal then respond .error
  else do
    goLine 18
    if a.wantResponse then do
      let room ← drain p a
      if room then classify p a e else respond .noRoom
    else classify p a e

/-- COMMUNICATE (R160). -/
def communicate (p : Params) (a : CommArgs) : M Response := do
  commSetup p a
  goLine 10
  setCmdPoll 0
  let done ← pollIrq p a.waitIrq Config.cmdPolls
  if done then afterCompletion p a else respond .timeout

/-- The COMMUNICATE a TRANSCEIVE is: the Transceive command and the mask `WAIT_TRANSCEIVE` (R175). -/
def transceiveStep (p : Params) (sendData : List Byte) (wantResponse : Bool)
    (txValidBits rxAlign : Nat) (checkCrc : Bool) (rxMerge : Byte) : M Response :=
  communicate p
    { command := p.codes.cmdTransceive
      waitIrq := p.waitTransceive
      sendData := sendData
      wantResponse := wantResponse
      txValidBits := txValidBits
      rxAlign := rxAlign
      checkCrc := checkCrc
      rxMerge := rxMerge }

/-- TRANSCEIVE (R175): it calls COMMUNICATE. -/
def transceive (p : Params) (sendData : List Byte) (wantResponse : Bool) (txValidBits rxAlign : Nat)
    (checkCrc : Bool) (rxMerge : Byte) : M Response :=
  call 1 .communicate
    (transceiveStep p sendData wantResponse txValidBits rxAlign checkCrc rxMerge)

/-- TRANSCEIVE as unit 5 calls it: it goes on as COMMUNICATE in its own place on the stack, as R21's chain
MF_TRANSCEIVE, COMMUNICATE says (log 42). -/
def transceiveInPlace (p : Params) (sendData : List Byte) (wantResponse : Bool)
    (txValidBits rxAlign : Nat) (checkCrc : Bool) (rxMerge : Byte) : M Response := do
  become .communicate
  transceiveStep p sendData wantResponse txValidBits rxAlign checkCrc rxMerge

/-- A response as a result. -/
def responseResult (r : Response) : Result :=
  statusResult r.status (.response r.bytes r.validBits)

/-- COMMUNICATE as an operation (R160). -/
def execCommunicate (command : CmdCode) (waitIrq : Byte) (sendData : List Byte)
    (wantResponse : Bool) (txValidBits rxAlign : Nat) (checkCrc : Bool) (rxMerge : Byte)
    (s : State) : Host.Outcome State Fault Refusal :=
  runOp (.communicate command waitIrq sendData wantResponse txValidBits rxAlign checkCrc rxMerge)
    .communicate (fun p => do
      let r ← communicate p
        { command := command
          waitIrq := waitIrq
          sendData := sendData
          wantResponse := wantResponse
          txValidBits := txValidBits
          rxAlign := rxAlign
          checkCrc := checkCrc
          rxMerge := rxMerge }
      pure (responseResult r)) s

/-- TRANSCEIVE as an operation (R175). -/
def execTransceive (sendData : List Byte) (wantResponse : Bool) (txValidBits rxAlign : Nat)
    (checkCrc : Bool) (rxMerge : Byte) (s : State) : Host.Outcome State Fault Refusal :=
  runOp (.transceive sendData wantResponse txValidBits rxAlign checkCrc rxMerge) .transceive (fun p => do
    let r ← transceive p sendData wantResponse txValidBits rxAlign checkCrc rxMerge
    pure (responseResult r)) s

end Sys2Proof.Machine
end

