-- ==== Sys2Proof/Machine/AntiCollision.lean ====
section
/-! DEFINITION. Unit 4, the anti-collision and select engine: REQA, WUPA, HLTA, SELECT (spec/43_anticollision_select.md R190 to R223). Line numbers are those of R191, R193 and R200. -/

namespace Sys2Proof.Machine

/-- The preparation of the collision register, where the parameter asks for it (R201, D19). -/
def prepareColl (p : Params) (line : Nat) : M Unit := do
  goLine line
  if p.selectClearsValuesAfterColl then
    call line .clrb (framerClrb p.codes.regColl Config.valuesAfterColl)
  else pure ()

/-- REQA and WUPA (R191, R192): a short frame, an answer of exactly two whole bytes. -/
def request (p : Params) (piccByte : Byte) : M (StatusCode × List Byte) := do
  prepareColl p 1
  let r ← call 2 .transceive (transceive p [piccByte] true 7 0 false 0#8)
  goLine 3
  if r.status ≠ .ok then do
    present r.status
    pure (r.status, [])
  else do
    goLine 4
    if r.bytes.length ≠ 2 || r.validBits ≠ 0#3 then do
      present .error
      pure (.error, [])
    else do
      goLine 5
      present .ok
      pure (.ok, r.bytes)

/-- The result of REQA or WUPA: the ATQA with OK, nothing otherwise. -/
def requestResult (x : StatusCode × List Byte) : Result :=
  statusResult x.1 (if x.1 = .ok then .bytes x.2 else .none)

/-- REQA (R191). -/
def execReqa (s : State) : Host.Outcome State Fault Refusal :=
  runOp .reqa .reqa (fun p => do
    let x ← request p p.codes.piccREQA
    pure (requestResult x)) s

/-- WUPA (R192). -/
def execWupa (s : State) : Host.Outcome State Fault Refusal :=
  runOp .wupa .wupa (fun p => do
    let x ← request p p.codes.piccWUPA
    pure (requestResult x)) s

/-- Lines 3 to 5 of HLTA: silence is success, an answer is Error (R193, D14). -/
def judgeHalt (st : StatusCode) : M StatusCode := do
  goLine 3
  if st = .timeout then finish .ok
  else do
    goLine 4
    if st = .ok then finish .error
    else do
      goLine 5
      finish st

/-- HLTA (R193). -/
def halt (p : Params) : M StatusCode := do
  let (st, c) ← call 1 .calcCrc (calcCrc p [p.codes.piccHLTA, 0x00#8])
  if st ≠ .ok then finish st
  else do
    let r ← call 2 .transceive
      (transceive p ([p.codes.piccHLTA, 0x00#8] ++ c) false 0 0 false 0#8)
    judgeHalt r.status

/-- HLTA as an operation (R193). -/
def execHlta (s : State) : Host.Outcome State Fault Refusal :=
  runOp .hlta .hlta (fun p => do
    let st ← halt p
    pure (statusResult st .none)) s

-- SELECT (R200).

/-- Lines 1 to 3: the record starts as the seed or as zero, with no SAK (R203). -/
def startRecord (knownUid : Option Uid) (r : SelectRegs) : SelectRegs :=
  match knownUid with
  | some u => { r with uidAcc := u.bytes, uidSize := u.size, sakOut := none }
  | none => { r with uidAcc := List.replicate 10 0#8, uidSize := 0, sakOut := none }

/-- SEL byte and UID offset of a level (lines 9 to 11). -/
def selByte (k : Codes) (level : Nat) : Byte :=
  if level = 1 then k.piccSelCl1
  else if level = 2 then k.piccSelCl2
  else k.piccSelCl3

def uidOffset (level : Nat) : Nat := 3 * (level - 1)

/-- Whether the engine places the cascade tag itself: only where a UID was supplied that is longer
than the level covers; never at level 3 (R204). -/
def usesTag (seeded : Bool) (size level : Nat) : Bool :=
  seeded && (level == 1 && decide (4 < size) || level == 2 && decide (7 < size))

/-- The bytes preloaded into the window (line 17, R205). -/
def preloadCount (known : Nat) (useCt : Bool) : Nat :=
  min (known / 8 + if known % 8 = 0 then 0 else 1) (if useCt then 3 else 4)

/-- Lines 8 to 19: a level is set up: SEL byte, offset, tag, known bits, and the preload (R204, R205). -/
def setupLevel (k : Codes) (seeded : Bool) (knownValidBits level : Nat) (r : SelectRegs) : SelectRegs :=
  let uidx := uidOffset level
  let useCt := usesTag seeded r.uidSize level
  let known := knownValidBits - 8 * uidx
  let tag := if useCt then [k.piccCT] else []
  let pre := (r.uidAcc.drop uidx).take (preloadCount known useCt)
  { r with
    level := level
    uidx := uidx
    useCt := useCt
    known := if useCt then known + 8 else known
    buf := overwrite (selByte k level :: List.replicate 8 0#8) 2 (tag ++ pre) }

/-- How a round ends: another round (line 44 or 46), the select answer of line 47, or the whole SELECT
with a status. -/
inductive RoundEnd
  | again
  | selected (r : Response)
  | stop (st : StatusCode)
  deriving DecidableEq, Repr

/-- Lines 37 to 44: a collision is resolved towards 1, or ends SELECT (R211). -/
def resolveCollision (p : Params) : M RoundEnd := do
  let cr ← callRd 38 p.codes.regColl
  goLine 39
  let q ← readSelect
  if collisionNotValid p.codes cr then pure (.stop .collision)
  else do
    let pos := collisionPosition p.codes cr
    goLines [40, 41]
    if pos ≤ q.known then pure (.stop .internalError)
    else do
      goLines [42, 43]
      modifySelect fun r =>
        { r with
          known := pos
          buf := r.buf.set (2 + (pos - 1) / 8)
            (r.buf.getD (2 + (pos - 1) / 8) 0#8 ||| (1#8 <<< ((pos - 1) % 8))) }
      goLine 44
      pure .again

/-- Lines 33 to 46: the exchange, the response stored in its window, and what follows (R209 to R213). -/
def roundExchange (p : Params) : M RoundEnd := do
  let q ← readSelect
  let r ← call 33 .transceive
    (transceive p (q.buf.take q.used) true q.txl q.txl false (q.buf.getD q.woff 0#8))
  goLine 34
  if r.status = .ok ∨ r.status = .collision then do
    goLine 35
    if q.wlen < r.bytes.length then pure (.stop .noRoom)
    else do
      goLine 36
      modifySelect fun x => { x with buf := overwrite x.buf x.woff r.bytes }
      goLine 37
      if r.status = .collision then resolveCollision p
      else do
        goLines [45, 46]
        if q.known < 32 then do
          modifySelect fun x => { x with known := 32 }
          pure .again
        else pure (.selected r)
  else do
    goLines [37, 45]
    pure (.stop r.status)

/-- Lines 28 to 32: the anti-collision frame (R207). -/
def setupAnticollision (r : SelectRegs) : SelectRegs :=
  let t := r.known % 8
  let w := 2 + r.known / 8
  { r with
    txl := t
    woff := w
    buf := r.buf.set 1 ((byteOfNat w <<< 4) ||| byteOfNat t)
    used := w + if t = 0 then 0 else 1
    wlen := 9 - w }

/-- Lines 22 and 23: NVB and BCC of the select frame (R208). -/
def setupSelect (r : SelectRegs) : SelectRegs :=
  { r with buf := (r.buf.set 1 Config.nvbSelect).set 6 (bccOf ((r.buf.drop 2).take 4)) }

/-- Lines 25 and 26: the CRC_A of the select frame and its window (R208). -/
def finishSelectFrame (c : List Byte) (r : SelectRegs) : SelectRegs :=
  { r with
    buf := (r.buf.set 7 (c.getD 0 0#8)).set 8 (c.getD 1 0#8)
    txl := 0
    used := 9
    woff := 6
    wlen := 3 }

/-- One round of the inner loop: lines 20 to 46 (R206). -/
def selectRound (p : Params) : M RoundEnd := do
  goLine 21
  let q ← readSelect
  if 32 ≤ q.known then do
    goLines [22, 23]
    modifySelect setupSelect
    let q ← readSelect
    let (st, c) ← call 24 .calcCrc (calcCrc p (q.buf.take 7))
    if st ≠ .ok then pure (.stop st)
    else do
      goLines [25, 26]
      modifySelect (finishSelectFrame c)
      roundExchange p
  else do
    goLines [28, 29, 30, 31, 32]
    modifySelect setupAnticollision
    roundExchange p

/-- The inner loop, at most `k` rounds: every collision round raises `KNOWN`, so a level has at most
32 + 1 + 1 of them and the bound is never reached (R220). -/
def selectRounds (p : Params) : Nat → M (StatusCode × Option Response)
  | 0 => refuse .anticollisionBound
  | k + 1 => do
    let e ← selectRound p
    match e with
    | .again => selectRounds p k
    | .selected r => pure (.ok, some r)
    | .stop st => pure (st, none)

/-- The bound of R220 on the rounds of one level. -/
abbrev roundBound : Nat := 34

/-- Lines 52 and 53: the level's UID bytes go to the record; a cascade tag at level 1 or 2 is left out
(R217). -/
def copyLevelBytes (k : Codes) (r : SelectRegs) : SelectRegs :=
  if r.level < 3 && r.buf.getD 2 0#8 == k.piccCT then
    { r with uidAcc := overwrite r.uidAcc r.uidx ((r.buf.drop 3).take 3) }
  else { r with uidAcc := overwrite r.uidAcc r.uidx ((r.buf.drop 2).take 4) }

/-- The lines at which the level's bytes are copied: 52, and 53 where 52 does not apply. -/
def copyLines (k : Codes) (r : SelectRegs) : List Nat :=
  if r.level < 3 && r.buf.getD 2 0#8 == k.piccCT then [51, 52] else [51, 52, 53]

/-- Lines 48 to 54 of a level: the SAK is validated and recorded, the bytes copied (R214 to R218). The
answer says whether the cascade bit asks for another level. -/
def confirmLevel (p : Params) (r : Response) : M (StatusCode × Bool) := do
  goLine 48
  if r.bytes.length ≠ 3 || r.validBits ≠ 0#3 then pure (.error, false)
  else do
    let (st, c) ← call 49 .calcCrc (calcCrc p (r.bytes.take 1))
    if st ≠ .ok then pure (st, false)
    else do
      goLine 50
      if crcMatches c r.bytes 1 then do
        let q ← readSelect
        goLines (copyLines p.codes q)
        modifySelect fun x => copyLevelBytes p.codes { x with sakLatch := r.bytes.getD 0 0#8 }
        goLine 54
        pure (.ok, cascadeSet (r.bytes.getD 0 0#8))
      else pure (.crcWrong, false)

/-- Line 55: size and SAK are filled in (R219). -/
def completeRecord (r : SelectRegs) : SelectRegs :=
  { r with uidSize := 3 * r.level + 1, sakOut := some r.sakLatch }

/-- The cascade levels, `n` of the three still to come; where none is, `LEVEL` is 4 and SELECT ends
with InternalError (line 12, R204, D18). -/
def selectLevels (p : Params) (seeded : Bool) (knownValidBits : Nat) : Nat → M StatusCode
  | 0 => do
    goLines [8, 12]
    modifySelect fun r => { r with level := 4 }
    pure .internalError
  | n + 1 => do
    goLines [8, 8 + (3 - n), 13, 14, 15, 16, 17, 18, 19]
    modifySelect (setupLevel p.codes seeded knownValidBits (3 - n))
    let (st, answer) ← selectRounds p roundBound
    match answer with
    | none => pure st
    | some r => do
      let (st, more) ← confirmLevel p r
      if st ≠ .ok then pure st
      else if more then selectLevels p seeded knownValidBits n
      else do
        goLine 55
        modifySelect completeRecord
        goLine 56
        pure .ok

/-- SELECT (R200): the status; the record stands in the registers. -/
def select (p : Params) (knownUid : Option Uid) (knownValidBits : Byte) : M StatusCode := do
  goLines (if knownUid.isSome then [1, 3] else [1, 2, 3])
  modifySelect (startRecord knownUid)
  goLine 4
  if Config.maxKnownBits < knownValidBits.toNat then do
    present .invalid
    pure .invalid
  else do
    prepareColl p 5
    goLine 6
    let st ← selectLevels p knownUid.isSome knownValidBits.toNat 3
    present st
    pure st

/-- The record as the registers hold it. -/
def recordOf (r : SelectRegs) : Uid := { bytes := r.uidAcc, size := r.uidSize, sak := r.sakOut }

/-- SELECT as an operation: the record comes with every status (R221). -/
def execSelect (knownUid : Option Uid) (knownValidBits : Byte) (s : State) :
    Host.Outcome State Fault Refusal :=
  runOp (.select knownUid knownValidBits) .select (fun p => do
    let st ← select p knownUid knownValidBits
    let q ← readSelect
    pure (statusResult st (.uid (recordOf q)))) s

end Sys2Proof.Machine
end

