-- ==== Sys2Proof/Machine/Mifare.lean ====
section
/-! DEFINITION. Unit 5, the MIFARE sequencer: AUTH, STOP_CRYPTO1, MF_TRANSCEIVE, MF_READ, MF_WRITE, UL_WRITE, the value operations (spec/44_mifare.md R240 to R268). Line numbers are those of each rule. -/

namespace Sys2Proof.Machine

/-- The authentication frame handed to MFAuthent (R240 lines 1 and 2). -/
def authenticate (p : Params) (frame : List Byte) : M Response :=
  call 2 .communicate (communicate p
    { command := p.codes.cmdMFAuthent
      waitIrq := p.codes.idleIrq
      sendData := frame
      wantResponse := false
      txValidBits := 0
      rxAlign := 0
      checkCrc := false
      rxMerge := 0#8 })

/-- AUTH (R240): `cmd` is sent as given, whatever it is (R240(e)). -/
def execAuth (cmd block : Byte) (key : List Byte) (uid : Uid) (s : State) :
    Host.Outcome State Fault Refusal :=
  runOp (.auth cmd block key uid) .auth (fun p => do
    let r ← authenticate p (authFrame cmd block key (uidTail uid))
    goLine 3
    let st ← finish r.status
    pure (statusResult st .none)) s

/-- STOP_CRYPTO1 (R245): no status. -/
def execStopCrypto1 (s : State) : Host.Outcome State Fault Refusal :=
  runOp .stopCrypto1 .stopCrypto1 (fun p => do
    call 1 .clrb (framerClrb p.codes.regStatus2 p.codes.crypto1On)
    pure (plainResult .none)) s

/-- The verdict on the answer to a MIFARE frame: lines 3 to 7 of R250, one test after the other. -/
def judgeAck (acceptTimeout : Bool) (r : Response) : M StatusCode := do
  goLine 3
  if acceptTimeout && r.status == .timeout then finish .ok
  else do
    goLine 4
    if r.status ≠ .ok then finish r.status
    else do
      goLine 5
      if r.bytes.length ≠ 1 || r.validBits ≠ 4#3 then finish .error
      else do
        goLine 6
        if r.bytes.getD 0 0#8 ≠ Config.ack then finish .mifareNack
        else do
          goLine 7
          finish .ok

/-- MF_TRANSCEIVE (R250). -/
def mfTransceive (p : Params) (payload : List Byte) (acceptTimeout : Bool) : M StatusCode := do
  let (st, c) ← call 1 .calcCrc (calcCrc p payload)
  if st ≠ .ok then finish st
  else do
    let r ← call 2 .transceive (transceiveInPlace p (payload ++ c) true 0 0 false 0#8)
    judgeAck acceptTimeout r

/-- MF_TRANSCEIVE as an operation (R250). -/
def execMfTransceive (payload : List Byte) (acceptTimeout : Bool) (s : State) :
    Host.Outcome State Fault Refusal :=
  runOp (.mfTransceive payload acceptTimeout) .mfTransceive (fun p => do
    let st ← mfTransceive p payload acceptTimeout
    pure (statusResult st .none)) s

/-- The read command and its CRC-checked answer (R255 lines 1 and 2): whether line 2 was reached, and the
response. -/
def readCommand (p : Params) (block : Byte) : M (Bool × Response) := do
  let (st, c) ← call 1 .calcCrc (calcCrc p [p.codes.piccMfRead, block])
  if st ≠ .ok then do
    present st
    pure (false, { status := st, bytes := [], validBits := 0#3 })
  else do
    let r ← call 2 .transceive (transceiveInPlace p ([p.codes.piccMfRead, block] ++ c) true 0 0 true 0#8)
    pure (true, r)

/-- MF_READ (R255): 16 bytes with OK, none otherwise. -/
def mfRead (p : Params) (block : Byte) : M (StatusCode × List Byte) := do
  let (sent, r) ← readCommand p block
  if !sent then pure (r.status, [])
  else do
    goLine 3
    if r.status ≠ .ok then do
      present r.status
      pure (r.status, [])
    else do
      goLine 4
      if r.bytes.length ≠ 18 then do
        present .error
        pure (.error, [])
      else do
        goLine 5
        present .ok
        pure (.ok, r.bytes.take 16)

/-- MF_READ as an operation (R255). -/
def execMfRead (block : Byte) (s : State) : Host.Outcome State Fault Refusal :=
  runOp (.mfRead block) .mfRead (fun p => do
    let (st, d) ← mfRead p block
    pure (statusResult st (if st = .ok then .bytes d else .none))) s

/-- MF_WRITE (R256): Invalid before any exchange when the data is short; phase 2 only after phase 1
was acknowledged; bytes beyond the 16th are ignored. -/
def mfWrite (p : Params) (block : Byte) (data : List Byte) : M StatusCode :=
  if data.length < 16 then finish .invalid
  else do
    let st ← call 2 .mfTransceive (mfTransceive p [p.codes.piccMfWrite, block] false)
    if st ≠ .ok then finish st
    else call 3 .mfTransceive (mfTransceive p (data.take 16) false)

/-- MF_WRITE as an operation (R256). -/
def execMfWrite (block : Byte) (data : List Byte) (s : State) : Host.Outcome State Fault Refusal :=
  runOp (.mfWrite block data) .mfWrite (fun p => do
    let st ← mfWrite p block data
    pure (statusResult st .none)) s

/-- UL_WRITE (R257). -/
def ulWrite (p : Params) (page : Byte) (data : List Byte) : M StatusCode :=
  if data.length < 4 then finish .invalid
  else call 2 .mfTransceive (mfTransceive p ([p.codes.piccUlWrite, page] ++ data.take 4) false)

/-- UL_WRITE as an operation (R257). -/
def execUlWrite (page : Byte) (data : List Byte) (s : State) : Host.Outcome State Fault Refusal :=
  runOp (.ulWrite page data) .ulWrite (fun p => do
    let st ← ulWrite p page data
    pure (statusResult st .none)) s

/-- The two-step helper (R260), no operation of its own: the steps of the operation that uses it. The command
frame, which must be acknowledged; then the delta, where silence is success. -/
def twoStep (p : Params) (cmd block : Byte) (delta : Word32) : M StatusCode := do
  let st ← call 1 .mfTransceive (mfTransceive p [cmd, block] false)
  if st ≠ .ok then finish st
  else call 2 .mfTransceive (mfTransceive p (le32 delta) true)

/-- MF_INCREMENT (R261). -/
def execMfIncrement (block : Byte) (delta : Word32) (s : State) :
    Host.Outcome State Fault Refusal :=
  runOp (.mfIncrement block delta) .mfIncrement (fun p => do
    let st ← twoStep p p.codes.piccMfIncrement block delta
    pure (statusResult st .none)) s

/-- MF_DECREMENT (R262). -/
def execMfDecrement (block : Byte) (delta : Word32) (s : State) :
    Host.Outcome State Fault Refusal :=
  runOp (.mfDecrement block delta) .mfDecrement (fun p => do
    let st ← twoStep p p.codes.piccMfDecrement block delta
    pure (statusResult st .none)) s

/-- MF_RESTORE (R263): four zero bytes in step 2 (U22). -/
def execMfRestore (block : Byte) (s : State) : Host.Outcome State Fault Refusal :=
  runOp (.mfRestore block) .mfRestore (fun p => do
    let st ← twoStep p p.codes.piccMfRestore block 0#32
    pure (statusResult st .none)) s

/-- MF_TRANSFER (R264). -/
def execMfTransfer (block : Byte) (s : State) : Host.Outcome State Fault Refusal :=
  runOp (.mfTransfer block) .mfTransfer (fun p => do
    let st ← call 1 .mfTransceive (mfTransceive p [p.codes.piccMfTransfer, block] false)
    pure (statusResult st .none)) s

/-- MF_GET_VALUE (R265): the redundant copies are not checked (D27). -/
def execMfGetValue (block : Byte) (s : State) : Host.Outcome State Fault Refusal :=
  runOp (.mfGetValue block) .mfGetValue (fun p => do
    let (st, d) ← call 1 .mfRead (mfRead p block)
    if st ≠ .ok then do
      present st
      pure (statusResult st .none)
    else do
      goLines [2, 3]
      present .ok
      pure (statusResult .ok (.value (valueOfBytes d)))) s

/-- MF_SET_VALUE (R266): its last step is MF_WRITE, which takes its place on the stack (log 42). -/
def execMfSetValue (block : Byte) (value : Word32) (s : State) :
    Host.Outcome State Fault Refusal :=
  runOp (.mfSetValue block value) .mfSetValue (fun p => do
    goLines [1, 2, 3, 4]
    become .mfWrite
    let st ← mfWrite p block (valueBlock value block)
    pure (statusResult st .none)) s

end Sys2Proof.Machine
end

