-- ==== Sys2Proof/Machine/CardCommand.lean ====
section
/-! DEFINITION. Layer L2: a card command is the RF frame or frames its byte opens, sent through the exchange controller (spec/30_encoding.md R98 to R108; log 13): short frames R99, anti-collision and select frames R103 and R104, the authentication frame R106, standard frames with CRC_A R107, judged by the ACK of R108 where a frame asks for one. The results are the exchange's, not yet interpreted. -/

namespace Sys2Proof.Machine

/-- A standard frame: the payload with its CRC_A, then the exchange (R107). -/
def standardFrame (p : Params) (payload : List Byte) (wantResponse checkCrc : Bool) : M Response := do
  let (st, c) ← call 1 .calcCrc (calcCrc p payload)
  if st ≠ .ok then do
    present st
    pure { status := st, bytes := [], validBits := 0#3 }
  else call 2 .transceive (transceive p (payload ++ c) wantResponse 0 0 checkCrc 0#8)

/-- PICC.REQA (R99): a short frame. -/
def execPiccReqa (s : State) : Host.Outcome State Fault Refusal :=
  runOp .piccReqa .cardCommand (fun p => do
    let r ← call 1 .transceive (transceive p [p.codes.piccREQA] true 7 0 false 0#8)
    pure (responseResult r)) s

/-- PICC.WUPA (R99): a short frame. -/
def execPiccWupa (s : State) : Host.Outcome State Fault Refusal :=
  runOp .piccWupa .cardCommand (fun p => do
    let r ← call 1 .transceive (transceive p [p.codes.piccWUPA] true 7 0 false 0#8)
    pure (responseResult r)) s

/-- The frame a select code opens: anti-collision below 32 known bits (R103), select from there on
(R104). -/
def selectCommand (p : Params) (sel : Byte) (known : Nat) (window : List Byte) : M Response :=
  if known < 32 then
    call 1 .transceive (transceive p (anticollisionFrame sel known window) true (known % 8)
      (known % 8) false (window.getD (known / 8) 0#8))
  else standardFrame p (selectFrame7 sel window) true false

/-- PICC.SEL_CL1 (R103, R104). -/
def execPiccSelCl1 (known : Nat) (window : List Byte) (s : State) :
    Host.Outcome State Fault Refusal :=
  runOp (.piccSelCl1 known window) .cardCommand (fun p => do
    let r ← selectCommand p p.codes.piccSelCl1 known window
    pure (responseResult r)) s

/-- PICC.SEL_CL2 (R103, R104). -/
def execPiccSelCl2 (known : Nat) (window : List Byte) (s : State) :
    Host.Outcome State Fault Refusal :=
  runOp (.piccSelCl2 known window) .cardCommand (fun p => do
    let r ← selectCommand p p.codes.piccSelCl2 known window
    pure (responseResult r)) s

/-- PICC.SEL_CL3 (R103, R104). -/
def execPiccSelCl3 (known : Nat) (window : List Byte) (s : State) :
    Host.Outcome State Fault Refusal :=
  runOp (.piccSelCl3 known window) .cardCommand (fun p => do
    let r ← selectCommand p p.codes.piccSelCl3 known window
    pure (responseResult r)) s

/-- PICC.HLTA (R107): no answer is waited for beyond the exchange; silence shows as Timeout. -/
def execPiccHlta (s : State) : Host.Outcome State Fault Refusal :=
  runOp .piccHlta .cardCommand (fun p => do
    let r ← standardFrame p [p.codes.piccHLTA, 0x00#8] false false
    pure (responseResult r)) s

/-- PICC.MF_AUTH_KEY_A (R106). -/
def execPiccAuthKeyA (block : Byte) (key tail : List Byte) (s : State) :
    Host.Outcome State Fault Refusal :=
  runOp (.piccAuthKeyA block key tail) .cardCommand (fun p => do
    let r ← authenticate p (authFrame p.codes.piccAuthKeyA block key tail)
    pure (responseResult r)) s

/-- PICC.MF_AUTH_KEY_B (R106). -/
def execPiccAuthKeyB (block : Byte) (key tail : List Byte) (s : State) :
    Host.Outcome State Fault Refusal :=
  runOp (.piccAuthKeyB block key tail) .cardCommand (fun p => do
    let r ← authenticate p (authFrame p.codes.piccAuthKeyB block key tail)
    pure (responseResult r)) s

/-- PICC.MF_READ (R107): the answer is CRC-checked and keeps its CRC_A. -/
def execPiccMfRead (block : Byte) (s : State) : Host.Outcome State Fault Refusal :=
  runOp (.piccMfRead block) .cardCommand (fun p => do
    let r ← standardFrame p [p.codes.piccMfRead, block] true true
    pure (responseResult r)) s

/-- Two frames, each acknowledged: the command frame, then the data frame (R107, R108). -/
def twoFrames (p : Params) (first second : List Byte) (acceptTimeout : Bool) : M StatusCode := do
  let st ← call 1 .mfTransceive (mfTransceive p first false)
  if st ≠ .ok then finish st
  else call 2 .mfTransceive (mfTransceive p second acceptTimeout)

/-- PICC.MF_WRITE (R107): `[0xA0, block]`, then the 16-byte data frame. -/
def execPiccMfWrite (block : Byte) (data : List Byte) (s : State) :
    Host.Outcome State Fault Refusal :=
  runOp (.piccMfWrite block data) .cardCommand (fun p => do
    let st ← twoFrames p [p.codes.piccMfWrite, block] data false
    pure (statusResult st .none)) s

/-- PICC.UL_WRITE (R107): `[0xA2, page, d0, d1, d2, d3]`. -/
def execPiccUlWrite (page : Byte) (data : List Byte) (s : State) :
    Host.Outcome State Fault Refusal :=
  runOp (.piccUlWrite page data) .cardCommand (fun p => do
    let st ← call 1 .mfTransceive (mfTransceive p ([p.codes.piccUlWrite, page] ++ data) false)
    pure (statusResult st .none)) s

/-- PICC.MF_DECREMENT (R107): `[0xC0, block]`, then the 4-byte data frame, which may stay unanswered
(R260). -/
def execPiccMfDecrement (block : Byte) (delta : Word32) (s : State) :
    Host.Outcome State Fault Refusal :=
  runOp (.piccMfDecrement block delta) .cardCommand (fun p => do
    let st ← twoFrames p [p.codes.piccMfDecrement, block] (le32 delta) true
    pure (statusResult st .none)) s

/-- PICC.MF_INCREMENT (R107): `[0xC1, block]`, then the 4-byte data frame. -/
def execPiccMfIncrement (block : Byte) (delta : Word32) (s : State) :
    Host.Outcome State Fault Refusal :=
  runOp (.piccMfIncrement block delta) .cardCommand (fun p => do
    let st ← twoFrames p [p.codes.piccMfIncrement, block] (le32 delta) true
    pure (statusResult st .none)) s

/-- PICC.MF_RESTORE (R107): `[0xC2, block]`, then four zero bytes. -/
def execPiccMfRestore (block : Byte) (s : State) : Host.Outcome State Fault Refusal :=
  runOp (.piccMfRestore block) .cardCommand (fun p => do
    let st ← twoFrames p [p.codes.piccMfRestore, block] (List.replicate 4 0x00#8) true
    pure (statusResult st .none)) s

/-- PICC.MF_TRANSFER (R107): `[0xB0, block]`. -/
def execPiccMfTransfer (block : Byte) (s : State) : Host.Outcome State Fault Refusal :=
  runOp (.piccMfTransfer block) .cardCommand (fun p => do
    let st ← call 1 .mfTransceive (mfTransceive p [p.codes.piccMfTransfer, block] false)
    pure (statusResult st .none)) s

end Sys2Proof.Machine
end

