-- ==== Sys2Proof/Machine/ChipCommand.lean ====
section
/-! DEFINITION. Layer L1: a chip command is the write of its code to `REG.Command`, bits [7:4] zero (spec/30_encoding.md R100; spec/10_state.md R32; log 12). What the chip then does is `Chip.writeCommand` where the contract answers. -/

namespace Sys2Proof.Machine

/-- The write that gives the chip a command (R32, R100). -/
def issueCommand (p : Params) (c : CmdCode) : M Result := do
  callWr 1 p.codes.regCommand (commandByte c)
  pure (plainResult .none)

/-- CMD.Idle (R100): stops the active command. -/
def execCmdIdle (s : State) : Host.Outcome State Fault Refusal :=
  runOp .cmdIdle .chipCommand (fun p => issueCommand p p.codes.cmdIdle) s

/-- CMD.Mem (R100): moves the FIFO's bytes to the internal buffer. -/
def execCmdMem (s : State) : Host.Outcome State Fault Refusal :=
  runOp .cmdMem .chipCommand (fun p => issueCommand p p.codes.cmdMem) s

/-- CMD.CalcCRC (R100): starts the CRC over the FIFO. -/
def execCmdCalcCRC (s : State) : Host.Outcome State Fault Refusal :=
  runOp .cmdCalcCRC .chipCommand (fun p => issueCommand p p.codes.cmdCalcCRC) s

/-- CMD.Transceive (R100): makes Transceive the active command; the frame goes out when START_SEND is set. -/
def execCmdTransceive (s : State) : Host.Outcome State Fault Refusal :=
  runOp .cmdTransceive .chipCommand (fun p => issueCommand p p.codes.cmdTransceive) s

/-- CMD.MFAuthent (R100): starts the authentication with the frame in the FIFO. -/
def execCmdMFAuthent (s : State) : Host.Outcome State Fault Refusal :=
  runOp .cmdMFAuthent .chipCommand (fun p => issueCommand p p.codes.cmdMFAuthent) s

/-- CMD.SoftReset (R100): resets the chip's registers. -/
def execCmdSoftReset (s : State) : Host.Outcome State Fault Refusal :=
  runOp .cmdSoftReset .chipCommand (fun p => issueCommand p p.codes.cmdSoftReset) s

/-- CMD.GenerateRandomID (R100): what the chip does is ENV's (U5). -/
def execCmdGenerateRandomID (s : State) : Host.Outcome State Fault Refusal :=
  runOp .cmdGenerateRandomID .chipCommand (fun p => issueCommand p p.codes.cmdGenerateRandomID) s

/-- CMD.Transmit (R100): what the chip does is ENV's (U5). -/
def execCmdTransmit (s : State) : Host.Outcome State Fault Refusal :=
  runOp .cmdTransmit .chipCommand (fun p => issueCommand p p.codes.cmdTransmit) s

/-- CMD.NoCmdChange (R100): what the chip does is ENV's (U5). -/
def execCmdNoCmdChange (s : State) : Host.Outcome State Fault Refusal :=
  runOp .cmdNoCmdChange .chipCommand (fun p => issueCommand p p.codes.cmdNoCmdChange) s

/-- CMD.Receive (R100): what the chip does is ENV's (U5). -/
def execCmdReceive (s : State) : Host.Outcome State Fault Refusal :=
  runOp .cmdReceive .chipCommand (fun p => issueCommand p p.codes.cmdReceive) s

end Sys2Proof.Machine
end

