-- ==== Sys2Proof/Machine/Framer.lean ====
section
/-! DEFINITION. Unit 1, the register-access framer: WR, WRB, RD, RDB, SETB, CLRB (spec/40_register_access.md R130 to R137). None writes STATUS; none returns a status. -/

namespace Sys2Proof.Machine

/-- WR (R130). -/
def execWr (reg : Reg) (value : Byte) (s : State) : Host.Outcome State Fault Refusal :=
  runOp (.wr reg value) .wr (fun _ => do
    framerWr reg value
    pure (plainResult .none)) s

/-- WRB (R131). -/
def execWrb (reg : Reg) (values : List Byte) (s : State) : Host.Outcome State Fault Refusal :=
  runOp (.wrb reg values) .wrb (fun _ => do
    framerWrb reg values
    pure (plainResult .none)) s

/-- RD (R132). -/
def execRd (reg : Reg) (s : State) : Host.Outcome State Fault Refusal :=
  runOp (.rd reg) .rd (fun _ => do
    let b ← framerRd reg
    pure (plainResult (.byte b))) s

/-- RDB (R133). -/
def execRdb (reg : Reg) (count rxAlign : Nat) (mergeIn : Byte) (s : State) :
    Host.Outcome State Fault Refusal :=
  runOp (.rdb reg count rxAlign mergeIn) .rdb (fun _ => do
    let bs ← framerRdb reg count rxAlign mergeIn
    pure (plainResult (.bytes bs))) s

/-- SETB (R134). -/
def execSetb (reg : Reg) (mask : Byte) (s : State) : Host.Outcome State Fault Refusal :=
  runOp (.setb reg mask) .setb (fun _ => do
    framerSetb reg mask
    pure (plainResult .none)) s

/-- CLRB (R135). -/
def execClrb (reg : Reg) (mask : Byte) (s : State) : Host.Outcome State Fault Refusal :=
  runOp (.clrb reg mask) .clrb (fun _ => do
    framerClrb reg mask
    pure (plainResult .none)) s

end Sys2Proof.Machine
end

