-- ==== Sys2Proof/Machine/TransportFrame.lean ====
section
/-! DEFINITION. Layer L0: a transport frame is the exchange of its bytes (spec/30_encoding.md R92 to R96; log 11). No status; the reads give the returned bytes, unmerged. -/

namespace Sys2Proof.Machine

/-- XFER.WR (R92). -/
def execXferWr (reg : Reg) (value : Byte) (s : State) : Host.Outcome State Fault Refusal :=
  runOp (.xferWr reg value) .transportFrame (fun _ => do
    let _ ← exchange (frameWr reg value)
    pure (plainResult .none)) s

/-- XFER.WRB (R93). -/
def execXferWrb (reg : Reg) (values : List Byte) (s : State) : Host.Outcome State Fault Refusal :=
  runOp (.xferWrb reg values) .transportFrame (fun _ => do
    let _ ← exchange (frameWrb reg values)
    pure (plainResult .none)) s

/-- XFER.RD (R94): the result is the second returned byte. -/
def execXferRd (reg : Reg) (s : State) : Host.Outcome State Fault Refusal :=
  runOp (.xferRd reg) .transportFrame (fun _ => do
    let inp ← exchange (frameRd reg)
    pure (plainResult (.byte (inp.getD 1 0#8)))) s

/-- XFER.RDB (R95): the results are returned bytes 1 to `count`. -/
def execXferRdb (reg : Reg) (count : Nat) (s : State) : Host.Outcome State Fault Refusal :=
  runOp (.xferRdb reg count) .transportFrame (fun _ => do
    let inp ← exchange (frameRdb reg count)
    pure (plainResult (.bytes (inp.drop 1)))) s

end Sys2Proof.Machine
end

