-- ==== Sys2Proof/Machine/Dispatch.lean ====
section
/-! DEFINITION. One arm per instruction. -/

namespace Sys2Proof.Machine

def exec (i : Instr) (s : State) : Host.Outcome State Fault Refusal :=
  match i with
  | .wr reg value => Sys2Proof.Machine.execWr reg value s
  | .wrb reg values => Sys2Proof.Machine.execWrb reg values s
  | .rd reg => Sys2Proof.Machine.execRd reg s
  | .rdb reg count rxAlign mergeIn => Sys2Proof.Machine.execRdb reg count rxAlign mergeIn s
  | .setb reg mask => Sys2Proof.Machine.execSetb reg mask s
  | .clrb reg mask => Sys2Proof.Machine.execClrb reg mask s
  | .calcCrc data => Sys2Proof.Machine.execCalcCrc data s
  | .communicate command waitIrq sendData wantResponse txValidBits rxAlign checkCrc rxMerge => Sys2Proof.Machine.execCommunicate command waitIrq sendData wantResponse txValidBits rxAlign checkCrc rxMerge s
  | .transceive sendData wantResponse txValidBits rxAlign checkCrc rxMerge => Sys2Proof.Machine.execTransceive sendData wantResponse txValidBits rxAlign checkCrc rxMerge s
  | .reqa => Sys2Proof.Machine.execReqa s
  | .wupa => Sys2Proof.Machine.execWupa s
  | .select knownUid knownValidBits => Sys2Proof.Machine.execSelect knownUid knownValidBits s
  | .hlta => Sys2Proof.Machine.execHlta s
  | .auth cmd block key uid => Sys2Proof.Machine.execAuth cmd block key uid s
  | .stopCrypto1 => Sys2Proof.Machine.execStopCrypto1 s
  | .mfTransceive payload acceptTimeout => Sys2Proof.Machine.execMfTransceive payload acceptTimeout s
  | .mfRead block => Sys2Proof.Machine.execMfRead block s
  | .mfWrite block data => Sys2Proof.Machine.execMfWrite block data s
  | .ulWrite page data => Sys2Proof.Machine.execUlWrite page data s
  | .mfIncrement block delta => Sys2Proof.Machine.execMfIncrement block delta s
  | .mfDecrement block delta => Sys2Proof.Machine.execMfDecrement block delta s
  | .mfRestore block => Sys2Proof.Machine.execMfRestore block s
  | .mfTransfer block => Sys2Proof.Machine.execMfTransfer block s
  | .mfGetValue block => Sys2Proof.Machine.execMfGetValue block s
  | .mfSetValue block value => Sys2Proof.Machine.execMfSetValue block value s
  | .xferWr reg value => Sys2Proof.Machine.execXferWr reg value s
  | .xferWrb reg values => Sys2Proof.Machine.execXferWrb reg values s
  | .xferRd reg => Sys2Proof.Machine.execXferRd reg s
  | .xferRdb reg count => Sys2Proof.Machine.execXferRdb reg count s
  | .cmdIdle => Sys2Proof.Machine.execCmdIdle s
  | .cmdMem => Sys2Proof.Machine.execCmdMem s
  | .cmdCalcCRC => Sys2Proof.Machine.execCmdCalcCRC s
  | .cmdTransceive => Sys2Proof.Machine.execCmdTransceive s
  | .cmdMFAuthent => Sys2Proof.Machine.execCmdMFAuthent s
  | .cmdSoftReset => Sys2Proof.Machine.execCmdSoftReset s
  | .cmdGenerateRandomID => Sys2Proof.Machine.execCmdGenerateRandomID s
  | .cmdTransmit => Sys2Proof.Machine.execCmdTransmit s
  | .cmdNoCmdChange => Sys2Proof.Machine.execCmdNoCmdChange s
  | .cmdReceive => Sys2Proof.Machine.execCmdReceive s
  | .piccReqa => Sys2Proof.Machine.execPiccReqa s
  | .piccWupa => Sys2Proof.Machine.execPiccWupa s
  | .piccSelCl1 known window => Sys2Proof.Machine.execPiccSelCl1 known window s
  | .piccSelCl2 known window => Sys2Proof.Machine.execPiccSelCl2 known window s
  | .piccSelCl3 known window => Sys2Proof.Machine.execPiccSelCl3 known window s
  | .piccHlta => Sys2Proof.Machine.execPiccHlta s
  | .piccAuthKeyA block key tail => Sys2Proof.Machine.execPiccAuthKeyA block key tail s
  | .piccAuthKeyB block key tail => Sys2Proof.Machine.execPiccAuthKeyB block key tail s
  | .piccMfRead block => Sys2Proof.Machine.execPiccMfRead block s
  | .piccMfWrite block data => Sys2Proof.Machine.execPiccMfWrite block data s
  | .piccUlWrite page data => Sys2Proof.Machine.execPiccUlWrite page data s
  | .piccMfDecrement block delta => Sys2Proof.Machine.execPiccMfDecrement block delta s
  | .piccMfIncrement block delta => Sys2Proof.Machine.execPiccMfIncrement block delta s
  | .piccMfRestore block => Sys2Proof.Machine.execPiccMfRestore block s
  | .piccMfTransfer block => Sys2Proof.Machine.execPiccMfTransfer block s

end Sys2Proof.Machine
end

