-- ==== Sys2Proof/Machine/Step.lean ====
section
/-! DEFINITION. One step of the machine: the operation the host presents next is decoded and run (spec/10_state.md R21, R22; spec/20_memory.md R61, R82; logs 1 and 5). -/

namespace Sys2Proof.Machine

/-- One step (log 5). With `SEQ` idle the operation presented first is taken from the list, decoded and
run to its end; with nothing presented the block stays idle. While an operation runs another is refused
(U1); after a transport fault every one is until reset (R367). Bytes that are no operation are
refused. -/
def step (s : State) : Host.Outcome State Fault Refusal :=
  match s.seq with
  | .faulted => .refused .faultedUntilReset
  | .running _ _ => .refused .busy
  | .idle =>
    match s.pending with
    | [] => .next s
    | p :: rest =>
      match decode p.layer p.bytes with
      | .ok i => exec i { s with pending := rest }
      | .error e => .refused (.notAnOperation e)

/-- The table word presented as the next operation, `SEQ` idle so that it is taken (log 5). -/
def State.withFetchWord (s : State) (nbits w : Nat) : State :=
  { s with
    seq := .idle
    pending := { layer := tableLayer nbits w, bytes := tableExact nbits w } :: s.pending }

end Sys2Proof.Machine
end

