-- ==== Sys2Proof/Machine/Derived.lean ====
section
/-! DEFINITION. The pure functions over result values (spec/45_derived_functions.md R290 to R298): card number, card type, sector geometry. None issues an exchange or changes a register. -/

namespace Sys2Proof.Machine

/-- `to_number`: the fold of bytes 0 to 4, the first the most significant, whatever the size (R291). -/
def uidNumber (u : Uid) : Nat :=
  (List.range 5).foldl (fun n k => n * 256 + (u.bytes.getD k 0#8).toNat) 0

/-- The type of a SAK value: that of `sak & 0x7F` in the table (`SAK_TABLE`, a parameter), `Unknown` where
the table has none (R292). -/
def sakType (table : List (Byte × PiccType)) (sak : Byte) : PiccType :=
  (table.lookup (sak &&& 0x7F#8)).getD .unknown

/-- `picc_type` (R292). -/
def piccType (table : List (Byte × PiccType)) (u : Uid) : PiccType :=
  match u.sak with
  | none => .unknown
  | some sak => sakType table sak

/-- Sector count (R294). -/
def sectorCount : PiccType → Nat
  | .mifareMini => 5
  | .mifare1K => 16
  | .mifare4K => 40
  | .unknown | .iso14443_4 | .iso18092 | .mifareUL | .mifarePlus | .mifareDesfire | .tnp3xxx
  | .notComplete => 0

/-- MIFARE Classic: a type with sectors (R295). -/
def isClassic (t : PiccType) : Bool := decide (0 < sectorCount t)

/-- The blocks of a sector (R296). -/
structure SectorDefinition where
  firstDataBlock : Nat
  trailerBlock : Nat
  dataBlockCount : Nat
  deriving DecidableEq, Repr

/-- First block and number of blocks of a sector. -/
def sectorSpan (s : Nat) : Nat × Nat := if s < 32 then (4 * s, 4) else (128 + 16 * (s - 32), 16)

/-- `get_sector_definition`: none outside the type's sectors, where the rule says refuse (R296). -/
def sectorDefinition (t : PiccType) (s : Nat) : Option SectorDefinition :=
  if s < sectorCount t then
    let first := (sectorSpan s).1
    let n := (sectorSpan s).2
    some
      { trailerBlock := first + n - 1
        firstDataBlock := if s = 0 then 1 else first
        dataBlockCount := if s = 0 then 2 else n - 1 }
  else none

/-- The data blocks of a sector, in order (R296). -/
def dataBlocks (d : SectorDefinition) : List Nat :=
  (List.range d.dataBlockCount).map (d.firstDataBlock + ·)

/-- The sectors of a type, in order. -/
def sectors (t : PiccType) : List SectorDefinition :=
  (List.range (sectorCount t)).filterMap (sectorDefinition t)

/-- Capacity in data bytes: 16 for every data block (R297). -/
def capacity (t : PiccType) : Nat := ((sectors t).map (·.dataBlockCount)).sum * 16

end Sys2Proof.Machine
end

