-- ==== Sys2Proof/Machine/SystemOps.lean ====
section
/-! DEFINITION. The sequences the documented host runs on the chip (spec/47_system_ops.md R330 to R342): programs over `exec`, no instructions of the block. Waits of a fixed duration take no step (R410, log 29). -/

namespace Sys2Proof.Machine

/-- The IRQ agent hears the interrupt line: when it has become asserted, the falling edge, the interrupt
flag is set (R48(g), R311, log 29). That every assertion is the falling edge, whatever bit 7 of `ComIEn` holds, is
the model's choice (same log). -/
def State.hearLine (s : State) : State :=
  { s with host :=
    { s.host with
      irqFlag := s.host.irqFlag || (s.env.chip.irqAsserted && !s.host.lineSeen)
      lineSeen := s.env.chip.irqAsserted } }

/-- The host issues one operation and reads its result, the IRQ agent hears the line; a fault or a
refusal stops the sequence (R342: a transport fault propagates). That the session state then stays where it
stood, inside `read_bytes` and `write_bytes`, is the model's choice: R310's table has no row for a transport
fault (log 39). -/
def hostOp (i : Instr) : M Result := fun s =>
  match exec i s with
  | .next t => .ok t.result t.hearLine
  | .fault (.transportFault t) => .error .transport t
  | .refused r => .error (.refuse r) s

/-- An operation whose result the host does not read. -/
def hostDo (i : Instr) : M Unit := do
  let _ ← hostOp i
  pure ()

/-- The byte of a register. -/
def hostRead (a : Reg) : M Byte := do
  let r ← hostOp (.rd a)
  match r.payload with
  | .byte b => pure b
  | .none | .bytes _ | .response _ _ | .uid _ | .value _ => pure 0#8

/-- The polls of a soft reset: until the power-down bit reads 0, at most `k` of them; at the bound the
sequence goes on (R332, D36). -/
def softResetPolls (p : Params) : Nat → M Unit
  | 0 => pure ()
  | k + 1 => do
    let v ← hostRead p.codes.regCommand
    if anySet v p.codes.powerDown then softResetPolls p k else pure ()

/-- Soft reset (R332). -/
def softReset : M Unit := do
  let p ← readParams
  hostDo (.wr p.codes.regCommand (commandByte p.codes.cmdSoftReset))
  softResetPolls p Config.softPolls

/-- The reset pulse: the pin is driven low, then high (R331 line 3), and the chip's registers hold
their reset values. -/
def pulseResetPin : M Unit := fun s =>
  .ok () { s with env :=
    { s.env with chip := { s.env.chip.softReset with resetPinHigh := true } } }

/-- Hard reset: a pulse where the pin is low, a soft reset otherwise (R331, D35). -/
def hardReset : M Unit := do
  let s ← getState
  if s.env.chip.resetPinHigh then softReset else pulseResetPin

/-- Register writes of the host, in their order, each register by its name: the constants of R336, the
sequences of R312 and R340. -/
def writeSequence (k : Codes) : List (RegName × Byte) → M Unit
  | [] => pure ()
  | (a, v) :: rest => do
    hostDo (.wr (k.addr a) v)
    writeSequence k rest

/-- Antenna on (R337). -/
def antennaOn : M Unit := do
  let p ← readParams
  let v ← hostRead p.codes.regTxControl
  if v &&& p.codes.txAnt = p.codes.txAnt then pure ()
  else hostDo (.setb p.codes.regTxControl p.codes.txAnt)

/-- Antenna off (R337). -/
def antennaOff : M Unit := do
  let p ← readParams
  hostDo (.clrb p.codes.regTxControl p.codes.txAnt)

/-- `init()` (R330); configuring the transport opens the handle and issues no exchange. That it never fails
is the model's choice (log 28). -/
def init : M Unit := do
  fun s => .ok () { s with env := { s.env with handleOpen := true } }
  let s ← getState
  if s.host.resetPinConfigured then hardReset else softReset
  writeSequence s.config.codes s.config.initConst
  antennaOn

/-- `cleanup()`: the handle is closed, the pins released; no exchange; safe at any time and idempotent
(R338, D37). That a released reset pin is no longer configured, so that a later `init()` resets by command, is
the model's choice (log 37). So is that the interrupt pin has no such state: the IRQ agent goes on hearing the
line after `cleanup()` and can set `IRQFLAG`, since R338 does not say what releasing the pins means for it (same
log). -/
def cleanup : M Unit := fun s =>
  .ok () { s with
    env := { s.env with handleOpen := false }
    host := { s.host with resetPinConfigured := false } }

/-- The self-test's wait for 64 bytes in the FIFO, and whether they were seen within the bound (R340
lines 8 to 10). -/
def selftestPolls (p : Params) : Nat → M Bool
  | 0 => pure false
  | k + 1 => do
    let n ← hostRead p.codes.regFIFOLevel
    if Config.selftestSize ≤ n.toNat then pure true else selftestPolls p k

/-- `SELFTEST_REF`: 64 bytes for each of the recognised versions, their values open (R341). -/
def selftestReference (versions : List Byte) (v : Byte) : Option (List Byte) :=
  if versions.contains v then
    some ((List.range Config.selftestSize).map (Config.selftestRefByte v))
  else none

/-- `perform_self_test()` (R340): where the bound of the polls is reached the sequence goes on and fails
(D38). -/
def performSelfTest : M Bool := do
  let p ← readParams
  softReset
  writeSequence p.codes p.selftestFlush
  hostDo (.wrb p.codes.regFIFOData (List.replicate Config.internalSize Config.selftestFill))
  hostDo (.wr p.codes.regCommand (commandByte p.codes.cmdMem))
  writeSequence p.codes p.selftestEnable
  hostDo (.wr p.codes.regCommand (commandByte p.codes.cmdCalcCRC))
  let filled ← selftestPolls p Config.selftestPolls
  writeSequence p.codes p.selftestStop
  let r ← hostOp (.rdb p.codes.regFIFOData Config.selftestSize 0 0x00#8)
  writeSequence p.codes p.selftestDisable
  let v ← hostRead p.codes.regVersion
  match selftestReference p.selftestVersions v with
  | none => pure false
  | some bs => pure (filled && r.payload == .bytes bs)

end Sys2Proof.Machine
end

