-- ==== Sys2Proof/Machine/Session.lean ====
section
/-! DEFINITION. The card session manager, the documented host (spec/46_host_session.md R310 to R317): programs over `exec`. What the IRQ and CANCEL agents do while the host waits is `host.events`, one entry for each wait; where no entry is left the wait passes and they do nothing (log 29). The loops without a bound of their own are run as long as anything is left that could end them (`State.roundsLeft`). -/

namespace Sys2Proof.Machine

def setSession (x : SessionState) : M Unit := fun s =>
  .ok () { s with host := { s.host with session := x } }

/-- Both flags are cleared (R312 line 1); an edge seen before it counts for nothing (log 29). -/
def clearFlags : M Unit := fun s =>
  .ok () { s with host :=
    { s.host with
      irqFlag := false
      cancelFlag := false
      lineSeen := s.env.chip.irqAsserted } }

/-- `cancel_wait()` (R313): no exchange. -/
def cancelWait : M Unit := fun s =>
  .ok () { s with host := { s.host with cancelFlag := true } }

/-- One wait passes, the poll interval of R312 or the back-off of R315: a receiver still armed may receive and
does not remain armed (R48(d)), the IRQ agent hears the line, it and `cancel_wait` may set their flags, as the next
event says, and nothing clears them (R311). With no event left they set none (log 29). -/
def passInterval : M Unit := fun s =>
  let e := s.host.events.headD { irq := false, cancel := false }
  let t := State.hearLine { s with env := { s.env with chip := s.env.chip.listen } }
  .ok () { t with host :=
    { t.host with
      irqFlag := t.host.irqFlag || e.irq
      cancelFlag := t.host.cancelFlag || e.cancel
      events := s.host.events.tail } }

/-- A bound on the rounds of a host loop after which nothing is left that could end it: every round takes an event
of the agents, an answer of the script or an answer of the field, or leaves all as the round before it did
(log 29). -/
def State.roundsLeft (s : State) : Nat :=
  s.host.events.length + s.env.script.length + s.env.chip.rf.length + 2

/-- The re-arm sequence (R312 lines 4 to 8). -/
def rearm : M Unit := do
  let p ← readParams
  writeSequence p.codes p.rearmSeq

/-- Line 9 of `wait_for_interrupt`: with the interrupt flag set the wait ends at once, else with the poll
interval. -/
def awaitIrq : M Unit := do
  let s ← getState
  if s.host.irqFlag then pure () else passInterval

/-- The loop of `wait_for_interrupt` (R312 lines 2 to 12): true on an interrupt, which wins over a
cancellation (D31); false on a cancellation; none where neither happens in `k` rounds, each with its poll
interval: the wait goes on without end (log 29). -/
def waitLoop : Nat → M (Option Bool)
  | 0 => pure none
  | k + 1 => do
    rearm
    awaitIrq
    let s ← getState
    if s.host.irqFlag then pure (some true)
    else if s.host.cancelFlag then pure (some false)
    else waitLoop k

/-- `wait_for_interrupt()` (R312). -/
def waitForInterrupt : M (Option Bool) := do
  clearFlags
  let s ← getState
  waitLoop s.roundsLeft

/-- `is_card_present()` (R314): WUPA answered OK. -/
def isCardPresent : M Bool := do
  let r ← hostOp .wupa
  pure (r.status == some .ok)

/-- `retries` polls, as long as none finds a card (R315 line 3). -/
def anyPresent : Nat → M Bool
  | 0 => pure false
  | k + 1 => do
    let present ← isCardPresent
    if present then pure true else anyPresent k

/-- The loop of `wait_for_card_removed` (R315): after the back-off of line 6, which always passes, the polls are
made again; none where the card is still there after `k` rounds (log 29). -/
def removedLoop (retries : Nat) : Nat → M (Option Bool)
  | 0 => pure none
  | k + 1 => do
    let present ← anyPresent retries
    if present then do
      let s ← getState
      if s.host.cancelFlag then pure (some false)
      else do
        passInterval
        removedLoop retries k
    else pure (some true)

/-- `wait_for_card_removed(retries)` (R315): true once all polls fail, false on a cancellation; the
cancellation flag is not cleared (D33). -/
def waitForCardRemoved (retries : Nat) : M (Option Bool) := do
  let s ← getState
  removedLoop retries s.roundsLeft

/-- The status of an operation that has one. -/
def statusOf (r : Result) : StatusCode := r.status.getD .error

/-- The data blocks of one sector, read in order up to the terminal byte (R316 lines 11 to 14): the
status, whether the terminal byte was met, the bytes so far. -/
def readBlocks (terminal : Byte) : List Nat → List Byte → M (StatusCode × Bool × List Byte)
  | [], acc => pure (.ok, false, acc)
  | b :: bs, acc => do
    let r ← hostOp (.mfRead (byteOfNat b))
    match statusOf r, r.payload with
    | .ok, .bytes d =>
      if d.contains terminal then pure (.ok, true, acc ++ d.takeWhile (fun x => x != terminal))
      else readBlocks terminal bs (acc ++ d)
    | st, _ => pure (st, false, [])

/-- The sectors, each authenticated with key A on its trailer (R316 lines 8 to 14). -/
def readSectors (p : Params) (terminal : Byte) (keyA : List Byte) (uid : Uid) :
    List SectorDefinition → List Byte → M (StatusCode × List Byte)
  | [], acc => pure (.ok, acc)
  | d :: ds, acc => do
    setSession .authenticating
    let a ← hostOp (.auth p.codes.piccAuthKeyA (byteOfNat d.trailerBlock) keyA uid)
    if statusOf a ≠ .ok then pure (statusOf a, [])
    else do
      setSession .transferring
      let (st, found, acc) ← readBlocks terminal (dataBlocks d) acc
      if st ≠ .ok then pure (st, [])
      else if found then pure (.ok, acc)
      else readSectors p terminal keyA uid ds acc

/-- The exit of a session: HLTA then STOP_CRYPTO1, the status of HLTA ignored (R316 lines 15 and 16,
D34). -/
def leaveCard : M Unit := do
  setSession .halted
  hostDo .hlta
  hostDo .stopCrypto1
  setSession .idle

/-- What the wait for a MIFARE Classic card ends with. -/
inductive CardWait
  | stillWaiting
  | canceled
  | failed (st : StatusCode)
  | found (u : Uid)
  deriving DecidableEq, Repr

/-- Lines 1 to 6 of R316: wait, select, and halt a card that is no MIFARE Classic, at most `k` cards of them.
Where all have been met the manager waits for the next (R310). -/
def waitForClassic : Nat → M CardWait
  | 0 => do
    setSession .waitingForCard
    pure .stillWaiting
  | k + 1 => do
    setSession .waitingForCard
    let w ← waitForInterrupt
    match w with
    | none => pure .stillWaiting
    | some false => pure .canceled
    | some true => do
      setSession .cardPresent
      let r ← hostOp (.select none 0x00#8)
      match statusOf r, r.payload with
      | .ok, .uid u =>
        let p ← readParams
        if isClassic (piccType p.sakTable u) then pure (.found u)
        else do
          hostDo .hlta
          waitForClassic k
      | st, _ => pure (.failed st)

/-- How a session operation ends: none while it still waits for a card. -/
def withCard (work : Uid → M (StatusCode × List Byte)) : M (Option (StatusCode × List Byte)) := do
  let s ← getState
  let w ← waitForClassic s.roundsLeft
  match w with
  | .stillWaiting => pure none
  | .canceled => do
    setSession .idle
    pure (some (.canceled, []))
  | .failed st => do
    leaveCard
    pure (some (st, []))
  | .found u => do
    let (st, bs) ← work u
    leaveCard
    pure (some (st, if st = .ok then bs else []))

/-- `read_bytes(terminal_byte)` (R316). -/
def readSession (terminal : Byte) (keyA : List Byte) : M (Option (StatusCode × List Byte)) :=
  withCard fun u => do
    let p ← readParams
    readSectors p terminal keyA u (sectors (piccType p.sakTable u)) []

/-- The payload of a write, cut into 16-byte pieces, the last filled with zero bytes (R317 lines 1 and
2); `k` is at least the number of pieces. -/
def chunks : Nat → List Byte → List (List Byte)
  | 0, _ => []
  | _ + 1, [] => []
  | k + 1, b :: bs =>
    ((b :: bs).take 16 ++ List.replicate (16 - (b :: bs).length) 0x00#8) ::
      chunks k ((b :: bs).drop 16)

/-- The chunks of `data` and its terminal byte. -/
def writeChunks (data : List Byte) (terminal : Byte) : List (List Byte) :=
  chunks (data.length + 1) (data ++ [terminal])

/-- Blocks overwritten with the next chunks, while some are left (R317 lines 8 to 10). -/
def writeBlocks : List Nat → List (List Byte) → M (StatusCode × List (List Byte))
  | _, [] => pure (.ok, [])
  | [], cs => pure (.ok, cs)
  | b :: bs, c :: cs => do
    let r ← hostOp (.mfWrite (byteOfNat b) c)
    if statusOf r ≠ .ok then pure (statusOf r, c :: cs) else writeBlocks bs cs

/-- The sectors, each authenticated with key B, while chunks are left (R317 lines 5 to 10). -/
def writeSectors (p : Params) (keyB : List Byte) (uid : Uid) :
    List SectorDefinition → List (List Byte) → M (StatusCode × List (List Byte))
  | _, [] => pure (.ok, [])
  | [], cs => pure (.ok, cs)
  | d :: ds, c :: cs => do
    setSession .authenticating
    let a ← hostOp (.auth p.codes.piccAuthKeyB (byteOfNat d.trailerBlock) keyB uid)
    if statusOf a ≠ .ok then pure (statusOf a, c :: cs)
    else do
      setSession .transferring
      let (st, rest) ← writeBlocks (dataBlocks d) (c :: cs)
      if st ≠ .ok then pure (st, rest) else writeSectors p keyB uid ds rest

/-- `write_bytes(data, terminal_byte)` (R317): the old content with OK; chunks beyond the capacity are
dropped. -/
def writeSession (data : List Byte) (terminal : Byte) (keyA keyB : List Byte) :
    M (Option (StatusCode × List Byte)) :=
  withCard fun u => do
    let p ← readParams
    let (st, old) ← readSectors p terminal keyA u (sectors (piccType p.sakTable u)) []
    if st ≠ .ok then pure (st, [])
    else do
      let (st, _) ← writeSectors p keyB u (sectors (piccType p.sakTable u)) (writeChunks data terminal)
      pure (st, old)

end Sys2Proof.Machine
end

