-- ==== Sys2Proof/Safety.lean ====
section
/-! DEFINITION. The terms the statements use: when the block is ready, what a run without transport fault is, the exchanges an operation makes and what ENV answers to them, and the invariant of the state. -/

namespace Sys2Proof.Machine

/-- No answer of the script is a transport fault. -/
def noFault (script : List EnvAnswer) : Bool :=
  script.all fun a => match a with
    | .fault _ => false
    | .contract | .bytes _ => true

/-- The transport works: the handle is open and no answer to come is a fault (R49, R356). -/
def Env.works (e : Env) : Bool := e.handleOpen && noFault e.script

-- The exchanges of an operation.

/-- One exchange an operation makes, with what the operation takes from ENV's answer. -/
inductive Talk
  /-- A frame whose returned bytes are not used (R65(e)). -/
  | put (frame : List Byte)
  /-- RD of a register, which answers `v`. -/
  | get (a : Reg) (v : Byte)
  /-- RDB of a register, `vs.length` bytes, which answers `vs`. -/
  | burst (a : Reg) (vs : List Byte)
  deriving DecidableEq, Repr

/-- The bytes out. -/
def Talk.frame : Talk → List Byte
  | .put f => f
  | .get a _ => frameRd a
  | .burst a vs => frameRdb a vs.length

/-- The bytes in say what the exchange supposes. -/
def Talk.agrees (t : Talk) (inp : List Byte) : Bool :=
  match t with
  | .put _ => true
  | .get _ v => inp.getD 1 0#8 == v
  | .burst _ vs => inp.drop 1 == vs

/-- WR of a register (R92). -/
abbrev talkWr (a : Reg) (v : Byte) : Talk := .put (frameWr a v)
/-- WRB of a register (R93). -/
abbrev talkWrb (a : Reg) (vs : List Byte) : Talk := .put (frameWrb a vs)

/-- ENV answers the exchanges, made one after the other, as they suppose. -/
def Env.talks : Env → List Talk → Bool
  | _, [] => true
  | e, t :: ts =>
    (match e.respond t.frame with
      | some inp => t.agrees inp
      | none => false) && (e.after t.frame).talks ts

/-- ENV after the exchanges. -/
def Env.afterTalk : Env → List Talk → Env
  | e, [] => e
  | e, t :: ts => (e.after t.frame).afterTalk ts

-- CALC_CRC (R150).

/-- Lines 1 to 5. -/
def crcStart (data : List Byte) : List Talk :=
  [talkWr Config.regCommand 0x00#8, talkWr Config.regDivIrq 0x04#8,
   talkWr Config.regFIFOLevel 0x80#8, talkWrb Config.regFIFOData data,
   talkWr Config.regCommand 0x03#8]

/-- CALC_CRC that sees the CRC-done flag in the sample `last`, after the samples `quiet`. -/
structure CrcRun where
  quiet : List Byte
  last : Byte
  lo : Byte
  hi : Byte
  deriving DecidableEq, Repr

/-- The samples before the last lack the flag, the last has it, and there are at most 255 (R150, R151). -/
def CrcRun.ok (r : CrcRun) : Bool :=
  decide (r.quiet.length < 255) && r.quiet.all (fun n => !n.getLsbD 2) && r.last.getLsbD 2

/-- The exchanges of CALC_CRC. -/
def CrcRun.talk (r : CrcRun) (data : List Byte) : List Talk :=
  crcStart data ++ r.quiet.map (.get Config.regDivIrq) ++
    [.get Config.regDivIrq r.last, .get Config.regCRCResultL r.lo, .get Config.regCRCResultH r.hi]

/-- The two bytes of the CRC, low byte first (R150). -/
def CrcRun.bytes (r : CrcRun) : List Byte := [r.lo, r.hi]

-- COMMUNICATE (R160).

/-- Lines 2 to 9; `framing` is what `REG.BitFraming` reads as before start-send is set. -/
def commStart (a : CommArgs) (framing : Byte) : List Talk :=
  [talkWr Config.regCommand 0x00#8, talkWr Config.regComIrq 0x7F#8,
   talkWr Config.regFIFOLevel 0x80#8, talkWrb Config.regFIFOData a.sendData,
   talkWr Config.regBitFraming (bitFramingByte a.rxAlign a.txValidBits),
   talkWr Config.regCommand (a.command.setWidth 8)] ++
  if a.command = Config.cmdTransceive then
    [.get Config.regBitFraming framing, talkWr Config.regBitFraming (framing ||| 0x80#8)]
  else []

/-- A sample of `REG.ComIrq` that ends no poll: no awaited flag and no timer flag (R165 to R167). -/
def quietSample (waitIrq n : Byte) : Bool := n &&& waitIrq == 0#8 && !n.getLsbD 0

/-- The exchange up to completion, seen in the sample `last`, and the error register. -/
structure CommRun where
  framing : Byte
  quiet : List Byte
  last : Byte
  err : Byte
  deriving DecidableEq, Repr

/-- An awaited flag is seen within 125 samples, none before it, and no fatal error bit is set (R165,
R166, R168). -/
def CommRun.ok (r : CommRun) (waitIrq : Byte) : Bool :=
  decide (r.quiet.length < 125) && r.quiet.all (quietSample waitIrq) &&
    (r.last &&& waitIrq != 0#8) && (r.err &&& 0x13#8 == 0#8)

/-- The exchanges of COMMUNICATE up to the error register. -/
def CommRun.talk (r : CommRun) (a : CommArgs) : List Talk :=
  commStart a r.framing ++ r.quiet.map (.get Config.regComIrq) ++
    [.get Config.regComIrq r.last, .get Config.regError r.err]

/-- The polls that see no awaited flag, up to one that sees the timer flag or to the end of the budget. -/
structure CommSilence where
  framing : Byte
  samples : List Byte
  deriving DecidableEq, Repr

/-- No sample has an awaited flag; only the last has the timer flag, or there are 125 and none has
(R166, R167). -/
def CommSilence.ok (r : CommSilence) (waitIrq : Byte) : Bool :=
  (decide (r.samples.length ≤ 125) && r.samples.dropLast.all (quietSample waitIrq) &&
    match r.samples.getLast? with
    | some n => n &&& waitIrq == 0#8 && n.getLsbD 0
    | none => false) ||
  (decide (r.samples.length = 125) && r.samples.all (quietSample waitIrq))

/-- The exchanges of a COMMUNICATE that times out. -/
def CommSilence.talk (r : CommSilence) (a : CommArgs) : List Talk :=
  commStart a r.framing ++ r.samples.map (.get Config.regComIrq)

/-- The drain (lines 19 to 22): the level, the bytes in one burst where there are any, the control
register. -/
def drainTalk (vals : List Byte) (control : Byte) : List Talk :=
  [.get Config.regFIFOLevel (byteOfNat vals.length)] ++
    (if vals = [] then [] else [.burst Config.regFIFOData vals]) ++
    [.get Config.regControl control]

/-- The response registers after a drain (R24, R169). -/
def RespRegs.drained (r : RespRegs) (vals : List Byte) (control : Byte) : RespRegs :=
  { bytes := vals ++ r.bytes.drop vals.length
    len := vals.length
    validBits := control.extractLsb' 0 3 }

/-- The response registers with no response (line 1). -/
def RespRegs.cleared (r : RespRegs) : RespRegs := { r with len := 0, validBits := 0#3 }

/-- A TRANSCEIVE with a whole-byte answer: the run, the answer bytes, the control register. -/
structure AnswerRun where
  comm : CommRun
  vals : List Byte
  control : Byte
  deriving DecidableEq, Repr

/-- It completes by a flag of the mask, the answer fits, and there is no collision. -/
def AnswerRun.ok (r : AnswerRun) (mask : Byte) : Bool :=
  r.comm.ok mask && !r.comm.err.getLsbD 3 && decide (r.vals.length ≤ 64)

/-- Its exchanges. -/
def AnswerRun.talk (r : AnswerRun) (data : List Byte) (txValidBits rxAlign : Nat) : List Talk :=
  r.comm.talk (transceiveArgs data true txValidBits rxAlign false 0#8) ++ drainTalk r.vals r.control

-- MIFARE frames (R250, R255).

/-- A MIFARE frame and its answer: the CRC_A of the payload, then the exchange. -/
structure MifareRun where
  crc : CrcRun
  answer : AnswerRun
  deriving DecidableEq, Repr

/-- The CRC is calculated and an answer of any content arrives. -/
def MifareRun.ok (r : MifareRun) (mask : Byte) : Bool := r.crc.ok && r.answer.ok mask

/-- The answer is one byte of four valid bits with the value ACK (R108, R250). -/
def MifareRun.acked (r : MifareRun) (mask : Byte) : Bool :=
  r.ok mask && r.answer.vals == [0x0A#8] && r.answer.control.extractLsb' 0 3 == 4#3

/-- The exchanges. -/
def MifareRun.talk (r : MifareRun) (payload : List Byte) : List Talk :=
  r.crc.talk payload ++ r.answer.talk (payload ++ r.crc.bytes) 0 0

/-- A MIFARE frame that is not answered. -/
structure MifareSilence where
  crc : CrcRun
  silence : CommSilence
  deriving DecidableEq, Repr

def MifareSilence.ok (r : MifareSilence) (mask : Byte) : Bool :=
  r.crc.ok && r.silence.ok mask

/-- The exchanges. -/
def MifareSilence.talk (r : MifareSilence) (payload : List Byte) : List Talk :=
  r.crc.talk payload ++
    r.silence.talk (transceiveArgs (payload ++ r.crc.bytes) true 0 0 false 0#8)

/-- A read: the command frame, its answer, the CRC_A over the answer's data bytes (R172, R255). -/
structure ReadRun where
  command : MifareRun
  check : CrcRun
  deriving DecidableEq, Repr

/-- The answer is 18 whole bytes and its CRC_A matches. -/
def ReadRun.ok (r : ReadRun) (mask : Byte) : Bool :=
  r.command.ok mask && r.command.answer.vals.length == 18 &&
    r.command.answer.control.extractLsb' 0 3 == 0#3 && r.check.ok &&
    r.check.bytes == r.command.answer.vals.drop 16

/-- The exchanges. -/
def ReadRun.talk (r : ReadRun) (block : Byte) : List Talk :=
  r.command.talk [0x30#8, block] ++ r.check.talk (r.command.answer.vals.take 16)

-- SELECT (R200).

/-- The seven bytes `BUF[2..8]` of a level and how many of their leading bits are known. -/
structure Window where
  known : Nat
  bytes : List Byte
  deriving DecidableEq, Repr

/-- A level starts with a cascade tag of the engine's own: the UID supplied is longer than the level
covers (R204). -/
def tagged (u : Option Uid) (level : Nat) : Bool :=
  match u with
  | some v => (level == 1 && decide (4 < v.size)) || (level == 2 && decide (7 < v.size))
  | none => false

/-- The window a level starts with (R204, R205): the known bits left for it, in whole bytes, behind a
cascade tag where the UID supplied is longer than the level covers. -/
def Window.start (u : Option Uid) (knownValidBits level : Nat) (record : List Byte) : Window :=
  let share := knownValidBits - 24 * (level - 1)
  let bytes := if tagged u level then
      0x88#8 :: (record.drop (3 * (level - 1))).take (min ((share + 7) / 8) 3)
    else (record.drop (3 * (level - 1))).take (min ((share + 7) / 8) 4)
  { known := if tagged u level then share + 8 else share
    bytes := bytes ++ List.replicate (7 - bytes.length) 0#8 }

/-- SEL byte of a level (R204). -/
def levelByte (level : Nat) : Byte :=
  if level = 1 then 0x93#8 else if level = 2 then 0x95#8 else 0x97#8

/-- The anti-collision frame: only the known bits (R103, R207). -/
def Window.frame (w : Window) (level : Nat) : List Byte :=
  [levelByte level, byteOfNat (16 * (2 + w.known / 8) + w.known % 8)] ++
    w.bytes.take ((w.known + 7) / 8)

/-- The select frame without its CRC_A (R104, R208). -/
def Window.select (w : Window) (level : Nat) : List Byte :=
  [levelByte level, 0x70#8] ++ w.bytes.take 4 ++
    [w.bytes.getD 0 0#8 ^^^ w.bytes.getD 1 0#8 ^^^ w.bytes.getD 2 0#8 ^^^ w.bytes.getD 3 0#8]

/-- One anti-collision round: the exchange, the answer, the collision register where it is read. -/
structure Round where
  comm : CommRun
  vals : List Byte
  control : Byte
  coll : Byte
  deriving DecidableEq, Repr

def Round.collides (r : Round) : Bool := r.comm.err.getLsbD 3

/-- The collision position, 1 to 32 (R211). -/
def Round.position (r : Round) : Nat :=
  if (r.coll.extractLsb' 0 5).toNat = 0 then 32 else (r.coll.extractLsb' 0 5).toNat

/-- The window once the answer is stored: the known bits kept, the rest from the card (R209, R210). -/
def Round.stored (r : Round) (w : Window) : List Byte :=
  let k := w.known / 8
  w.bytes.take k ++ mergeFirst (w.known % 8) (w.bytes.getD k 0#8) r.vals ++
    w.bytes.drop (k + r.vals.length)

/-- The round goes on: the answer fits, and a collision has a valid position beyond the known bits. -/
def Round.goesOn (r : Round) (mask : Byte) (w : Window) : Bool :=
  decide (w.known < 32) && r.comm.ok mask &&
    decide (r.vals.length ≤ 7 - w.known / 8) &&
    (!r.collides || (!r.coll.getLsbD 5 && decide (w.known < r.position)))

/-- The window after it: a collision makes `position` bits known, the last of them 1; without one all
are (R211, R213). -/
def Round.next (r : Round) (w : Window) : Window :=
  let b := r.stored w
  if r.collides then
    { known := r.position
      bytes := b.set ((r.position - 1) / 8)
        (b.getD ((r.position - 1) / 8) 0#8 ||| (1#8 <<< ((r.position - 1) % 8))) }
  else { known := 32, bytes := b }

/-- Its exchanges up to the drain. -/
def Round.exchange (r : Round) (level : Nat) (w : Window) : List Talk :=
  r.comm.talk (transceiveArgs (w.frame level) true (w.known % 8) (w.known % 8) false 0#8) ++
    drainTalk r.vals r.control

/-- All its exchanges. -/
def Round.talk (r : Round) (level : Nat) (w : Window) : List Talk :=
  r.exchange level w ++ if r.collides then [.get Config.regColl r.coll] else []

/-- Rounds that go on, one after the other. -/
def roundsGoOn (mask : Byte) : List Round → Window → Bool
  | [], _ => true
  | r :: rs, w => r.goesOn mask w && roundsGoOn mask rs (r.next w)

def roundsNext : List Round → Window → Window
  | [], w => w
  | r :: rs, w => roundsNext rs (r.next w)

def roundsTalk (level : Nat) : List Round → Window → List Talk
  | [], _ => []
  | r :: rs, w => r.talk level w ++ roundsTalk level rs (r.next w)

/-- A level: its anti-collision rounds, the CRC_A of the select frame, the select exchange, the CRC_A of
the SAK. -/
structure LevelRun where
  rounds : List Round
  crc : CrcRun
  answer : AnswerRun
  sakCrc : CrcRun
  deriving DecidableEq, Repr

/-- The SAK (R214). -/
def LevelRun.sak (l : LevelRun) : Byte := l.answer.vals.getD 0 0#8

/-- The window when the select frame is sent. -/
def LevelRun.window (l : LevelRun) (w : Window) : Window := roundsNext l.rounds w

/-- The select frame is reached and sent. -/
def LevelRun.selects (l : LevelRun) (mask : Byte) (w : Window) : Bool :=
  roundsGoOn mask l.rounds w && decide (32 ≤ (l.window w).known) && l.crc.ok && l.answer.ok mask

/-- The level is confirmed: three whole bytes, the CRC_A of the SAK matching (R215, R216). -/
def LevelRun.confirmed (l : LevelRun) (mask : Byte) (w : Window) : Bool :=
  l.selects mask w && l.answer.vals.length == 3 && l.answer.control.extractLsb' 0 3 == 0#3 &&
    l.sakCrc.ok && l.sakCrc.bytes == l.answer.vals.drop 1

/-- The exchanges up to the select answer. -/
def LevelRun.selectTalk (l : LevelRun) (level : Nat) (w : Window) : List Talk :=
  roundsTalk level l.rounds w ++ l.crc.talk ((l.window w).select level) ++
    l.answer.talk ((l.window w).select level ++ l.crc.bytes) 0 0

/-- All its exchanges. -/
def LevelRun.talk (l : LevelRun) (level : Nat) (w : Window) : List Talk :=
  l.selectTalk level w ++ l.sakCrc.talk [l.sak]

/-- The UID bytes once the level is confirmed (R217). -/
def LevelRun.record (l : LevelRun) (level : Nat) (w : Window) (record : List Byte) : List Byte :=
  let b := (l.window w).bytes
  let k := 3 * (level - 1)
  if level < 3 ∧ b.getD 0 0#8 = 0x88#8 then
    record.take k ++ (b.drop 1).take 3 ++ record.drop (k + 3)
  else record.take k ++ b.take 4 ++ record.drop (k + 4)

/-- Levels confirmed one after the other, each but the last with the cascade bit; `more` says whether
the last has it too. -/
def levelsConfirmed (mask : Byte) (u : Option Uid) (kvb : Nat) (more : Bool) :
    List LevelRun → Nat → List Byte → Bool
  | [], _, _ => true
  | l :: ls, level, record =>
    let w := Window.start u kvb level record
    l.confirmed mask w && (if ls = [] then l.sak.getLsbD 2 == more else l.sak.getLsbD 2) &&
      levelsConfirmed mask u kvb more ls (level + 1) (l.record level w record)

def levelsTalk (u : Option Uid) (kvb : Nat) : List LevelRun → Nat → List Byte → List Talk
  | [], _, _ => []
  | l :: ls, level, record =>
    let w := Window.start u kvb level record
    l.talk level w ++ levelsTalk u kvb ls (level + 1) (l.record level w record)

def levelsRecord (u : Option Uid) (kvb : Nat) : List LevelRun → Nat → List Byte → List Byte
  | [], _, record => record
  | l :: ls, level, record =>
    let w := Window.start u kvb level record
    levelsRecord u kvb ls (level + 1) (l.record level w record)

/-- The record SELECT starts with (R203). -/
def firstRecord (u : Option Uid) : List Byte :=
  match u with
  | some v => v.bytes
  | none => List.replicate 10 0#8

def firstSize (u : Option Uid) : Nat :=
  match u with
  | some v => v.size
  | none => 0

/-- The preparation of the collision register, where the parameter asks for it (R201); `coll` is what
the register reads as. -/
def prepareTalk (p : Settings) (coll : Byte) : List Talk :=
  if p.selectClearsValuesAfterColl then
    [.get Config.regColl coll, talkWr Config.regColl (coll &&& 0x7F#8)]
  else []

/-- SELECT up to a level: the levels confirmed before it, each with the cascade bit, and the rounds of
the level so far. -/
structure SelectPath where
  coll : Byte
  levels : List LevelRun
  rounds : List Round
  deriving DecidableEq, Repr

/-- The level reached. -/
def SelectPath.level (p : SelectPath) : Nat := p.levels.length + 1

/-- The UID bytes so far. -/
def SelectPath.record (p : SelectPath) (u : Option Uid) (kvb : Nat) : List Byte :=
  levelsRecord u kvb p.levels 1 (firstRecord u)

/-- The window the level starts with. -/
def SelectPath.start (p : SelectPath) (u : Option Uid) (kvb : Nat) : Window :=
  Window.start u kvb p.level (p.record u kvb)

/-- The window reached. -/
def SelectPath.window (p : SelectPath) (u : Option Uid) (kvb : Nat) : Window :=
  roundsNext p.rounds (p.start u kvb)

/-- The path is one SELECT takes. -/
def SelectPath.ok (p : SelectPath) (mask : Byte) (u : Option Uid) (kvb : Nat) : Bool :=
  decide (kvb ≤ 80) && decide (p.levels.length ≤ 2) &&
    levelsConfirmed mask u kvb true p.levels 1 (firstRecord u) &&
    roundsGoOn mask p.rounds (p.start u kvb)

/-- Its exchanges. -/
def SelectPath.talk (p : SelectPath) (q : Settings) (u : Option Uid) (kvb : Nat) : List Talk :=
  prepareTalk q p.coll ++ levelsTalk u kvb p.levels 1 (firstRecord u) ++
    roundsTalk p.level p.rounds (p.start u kvb)

/-- A UID operand is a record of ten bytes of size 4, 7 or 10 (R290, U6). -/
def seedOk (u : Option Uid) : Bool :=
  match u with
  | some v => v.wellFormed
  | none => true

-- States.

/-- The flags TRANSCEIVE waits for, the parameter `WAIT_TRANSCEIVE` (R175, D8). -/
abbrev State.mask (s : State) : Byte := s.params.waitTransceive

/-- The codes of R8 (`REG.*`, the field masks, `CMD.*`, `PICC.*`) and `RESP_CAP` have the spec's values. -/
def State.standard (s : State) : Prop :=
  (s.env.chip.codes, s.params.respCap) = (Config.codes, Config.respCap)

/-- The parameters with the codes and `RESP_CAP` at the spec's values. -/
abbrev Params.std (p : Params) : Params := { p with codes := Config.codes, respCap := Config.respCap }

/-- The state an outcome leaves with the host's side put in place of its own. -/
def withHost (h : HostSide) : Host.Outcome State Fault Refusal → Host.Outcome State Fault Refusal
  | .next t => .next { t with host := h }
  | .fault (.transportFault t) => .fault (.transportFault { t with host := h })
  | .refused r => .refused r

/-- The state an operation of units 2 to 5 ends in (R366): the exchanges made, the response and poll
registers, the status presented and returned; nothing else of the block changed. -/
def State.ended (s : State) (ts : List Talk) (resp : RespRegs) (crcPoll cmdPoll : Nat)
    (st : StatusCode) (p : Payload) : State :=
  { s with
    seq := .idle
    latched := none
    env := s.env.afterTalk ts
    resp := resp
    crcPoll := crcPoll
    cmdPoll := cmdPoll
    status := st
    result := { status := some st, payload := p } }

/-- The state an operation without a status ends in (R136, R245): the exchanges made and the payload. -/
def State.endedPlain (s : State) (ts : List Talk) (p : Payload) : State :=
  { s with
    seq := .idle
    latched := none
    env := s.env.afterTalk ts
    result := { status := none, payload := p } }

/-- `t` differs from `s` only in ENV, in the registers SELECT may write (R23 to R28), in the sequencer
and the result. -/
def State.selectFrame (s t : State) : Prop :=
  t.seq = .idle ∧ t.latched = none ∧ t.params = s.params ∧ t.pending = s.pending ∧ t.host = s.host

/-- The block between two operations, its transport working. -/
def State.ready (s : State) : Bool := s.seq == .idle && s.env.works

/-- The registers of the anti-collision engine stay in their ranges (R25 to R27; log 9 for `KNOWN`). -/
def SelectRegs.inRange (r : SelectRegs) : Bool :=
  r.buf.length == 9 && decide (1 ≤ r.level) && decide (r.level ≤ 4) && decide (r.known ≤ 88) &&
    decide (2 ≤ r.woff) && decide (r.woff ≤ 6) && decide (3 ≤ r.wlen) && decide (r.wlen ≤ 7) &&
    decide (r.txl ≤ 7) && decide (2 ≤ r.used) && decide (r.used ≤ 9) &&
    (r.uidx == 0 || r.uidx == 3 || r.uidx == 6) && r.uidAcc.length == 10 &&
    (r.uidSize == 0 || r.uidSize == 4 || r.uidSize == 7 || r.uidSize == 10)

/-- The response registers stay in their ranges, `cap` the capacity `RESP_CAP` (R24). -/
def RespRegs.inRange (r : RespRegs) (cap : Nat) : Bool :=
  r.bytes.length == cap && decide (r.len ≤ cap)

/-- The codes are pairwise distinct (R31, R100, R102), the chip's registers stay in canonical form, its queue and
buffer in their sizes (R30, R66, R340). -/
def Chip.inRange (c : Chip) : Bool :=
  c.codes.distinct && c.regs.wf c.codes && decide (c.fifo.length ≤ c.fifoSize) && c.internalBuf.length == 25

/-- The sequencer stands between operations with no operand latched, or has stopped on a fault (R21,
R22). -/
def State.atRest (s : State) : Bool :=
  match s.seq with
  | .idle => s.latched.isNone
  | .running _ _ => false
  | .faulted => true

/-- The invariant: every register of the block in the range spec/10_state.md gives it (R21 to R28),
the addresses of the chip's registers pairwise distinct (R31), its command codes too (R100) and the card command
bytes (R102), its memory in canonical form, and the numbers of the statuses distinct (R350). -/
def State.Inv (s : State) : Prop :=
  s.atRest = true ∧ s.params.statusNumbers.distinct = true ∧
    s.resp.inRange s.params.respCap = true ∧ s.sel.inRange = true ∧ s.crcPoll ≤ 255 ∧
    s.cmdPoll ≤ 125 ∧ s.env.chip.inRange = true

end Sys2Proof.Machine
end

