-- ==== Sys2Proof/Certificates/Slice0/Obligations.lean ====
section
/-! DEFINITION. The statements for the provers. Exchanges an operation makes are lists of `Talk` (Sys2Proof/Safety.lean): `s.env.talks ts` says what ENV answers to them, and the conclusions say that exactly these are made. A statement that writes a code as a number (a register address, a mask, a chip or card command) is for states whose codes have the spec's values and whose response buffer holds 64 bytes, `s.standard`; codes and capacities are parameters of State (R8, log 24). -/

open Sys2Proof Sys2Proof.Machine

-- Encoding.

/-- Every well-formed instruction, with every operand its encoding admits, is decoded back from its
bytes: R91 to R95, R100, R102, R110. The bytes of operands are the model's choice (log 6). -/
def Obligations.EncodedInstructionDecodesBack : Prop :=
  ∀ i : Instr, i.wellFormed = true → decode i.layer (encode i) = .ok i

/-- Bytes that decode are the encoding of the instruction they decode to, which is well-formed: each
word has one meaning. The bytes of operands are the model's choice (log 6). -/
def Obligations.DecodedBytesAreTheEncoding : Prop :=
  ∀ (l : Layer) (bs : List Byte) (i : Instr), decode l bs = .ok i →
    encode i = bs ∧ i.layer = l ∧ i.wellFormed = true

/-- Words written out from R91, R92, R94, R100, R102 and R110. In the last clause the operand bytes after
the operation index, a register and a value, are the model's choice (log 6). -/
def Obligations.WordsOfTheTablesDecode : Prop :=
  decode .xfer [0b00000010#8, 0b00001100#8] = .ok (.xferWr 0x01#6 0x0C#8) ∧
  decode .xfer [0b10001000#8, 0b00000000#8] = .ok (.xferRd 0x04#6) ∧
  decode .burst [0b00010010#8, 0b10010011#8, 0b00100000#8] =
    .ok (.xferWrb 0x09#6 [0x93#8, 0x20#8]) ∧
  decode .burst [0b10010010#8, 0b10010010#8, 0b00000000#8] = .ok (.xferRdb 0x09#6 2) ∧
  decode .chipCmd [0b00001100#8] = .ok .cmdTransceive ∧
  decode .picc [0b01010010#8] = .ok .piccWupa ∧
  decode .op [0b00011001#8] = .ok .wupa ∧
  decode .op [0b00000000#8, 0b00000001#8, 0b00001100#8] = .ok (.wr 0x01#6 0x0C#8)

/-- The address byte of a frame: bit 7 says read, bits [6:1] are the register, bit 0 is 0 (R91). -/
def Obligations.AddressByteLayout : Prop :=
  ∀ a : Reg,
    (addrWrite a).getLsbD 7 = false ∧ (addrRead a).getLsbD 7 = true ∧
    (addrWrite a).getLsbD 0 = false ∧ (addrRead a).getLsbD 0 = false ∧
    (addrWrite a).extractLsb' 1 6 = a ∧ (addrRead a).extractLsb' 1 6 = a

-- Stepping.

/-- A step runs the instruction the presented bytes decode to, the operation taken from the list of
operations presented; bytes that are no instruction are refused; with none presented the block stays
idle. That the operations come as a list of bytes is the model's choice (log 5). -/
def Obligations.StepRunsThePresentedInstruction : Prop :=
  ∀ s : State, s.seq = .idle →
    (s.pending = [] → step s = .next s) ∧
    (∀ (p : Presented) (rest : List Presented) (i : Instr),
      s.pending = p :: rest → decode p.layer p.bytes = .ok i →
      step s = exec i { s with pending := rest }) ∧
    (∀ (p : Presented) (rest : List Presented) (e : DecodeError),
      s.pending = p :: rest → decode p.layer p.bytes = .error e →
      step s = .refused (.notAnOperation e))

/-- An operation presented while another runs is refused, and so is every one after a transport fault,
until reset, which leaves no operation running and no operand latched. That reset keeps every other
register, parameter and the chip is the model's choice (log 30). -/
def Obligations.BusyAndFaultedRefuse : Prop :=
  ∀ (i : Instr) (s : State),
    (∀ p st, s.seq = .running p st → exec i s = .refused .busy ∧ step s = .refused .busy) ∧
    (s.seq = .faulted →
      exec i s = .refused .faultedUntilReset ∧ step s = .refused .faultedUntilReset) ∧
    (resetBlock s).seq = .idle ∧ (resetBlock s).latched = none ∧
    (resetBlock s).status = s.status ∧ (resetBlock s).result = s.result ∧
    (resetBlock s).resp = s.resp ∧ (resetBlock s).sel = s.sel ∧
    (resetBlock s).crcPoll = s.crcPoll ∧ (resetBlock s).cmdPoll = s.cmdPoll ∧
    (resetBlock s).params = s.params ∧ (resetBlock s).pending = s.pending ∧
    (resetBlock s).env = s.env ∧ (resetBlock s).host = s.host

-- Unit 1: the framer.

/-- WR and WRB make one exchange, of the address byte and the values, and change nothing else of the
block (R130, R131, R136). -/
def Obligations.WriteOperationsIssueOneFrame : Prop :=
  ∀ (s : State) (reg : Reg), s.seq = .idle →
    (∀ v : Byte, s.env.talks [.put [addrWrite reg, v]] = true →
      exec (.wr reg v) s = .next (s.endedPlain [.put [addrWrite reg, v]] .none)) ∧
    (∀ vs : List Byte, vs.length ≤ s.env.chip.fifoSize → s.env.talks [.put (addrWrite reg :: vs)] = true →
      exec (.wrb reg vs) s = .next (s.endedPlain [.put (addrWrite reg :: vs)] .none))

/-- RD makes one exchange of two bytes and returns the second byte received (R132). -/
def Obligations.ReadReturnsSecondByte : Prop :=
  ∀ (s : State) (reg : Reg) (inp : List Byte), s.seq = .idle →
    s.env.respond [addrRead reg, 0x00#8] = some inp →
    exec (.rd reg) s =
      .next (s.endedPlain [.put [addrRead reg, 0x00#8]] (.byte (inp.getD 1 0#8)))

/-- RDB with a count of 0 makes no exchange; otherwise one, of `count` address bytes and 0x00, the
first byte received dropped and, of the first byte kept, the bits below `rx_align` taken from `merge_in`
(R133). The count is at most the parameter `RESP_CAP`. -/
def Obligations.BurstReadMergesFirstByte : Prop :=
  ∀ (s : State) (reg : Reg) (count rxAlign : Nat) (mergeIn : Byte), s.seq = .idle →
    count ≤ s.params.respCap → rxAlign ≤ 7 →
    (count = 0 → exec (.rdb reg count rxAlign mergeIn) s =
      .next (s.endedPlain [] (.bytes []))) ∧
    (∀ (first v : Byte) (vs : List Byte), vs.length + 1 = count →
      s.env.respond (List.replicate count (addrRead reg) ++ [0x00#8]) = some (first :: v :: vs) →
      ∃ m : Byte,
        exec (.rdb reg count rxAlign mergeIn) s =
          .next (s.endedPlain [.put (List.replicate count (addrRead reg) ++ [0x00#8])]
            (.bytes (m :: vs))) ∧
        ∀ k, m.getLsbD k = if k < rxAlign then mergeIn.getLsbD k else v.getLsbD k)

/-- SETB and CLRB read the register, then write the value read with the mask's bits set or cleared,
whatever the value was; a fault of the read stops them before the write, a fault of the write after it
(R134, R135). -/
def Obligations.SetAndClearBits : Prop :=
  ∀ (s : State) (i : Instr) (reg : Reg) (mask v w : Byte), s.seq = .idle →
    (i = .setb reg mask ∧ w = v ||| mask) ∨ (i = .clrb reg mask ∧ w = v &&& ~~~ mask) →
    (s.env.talks [.get reg v, talkWr reg w] = true →
      exec i s = .next (s.endedPlain [.get reg v, talkWr reg w] .none)) ∧
    (s.env.respond [addrRead reg, 0x00#8] = none →
      ∃ t, exec i s = .fault (.transportFault t) ∧ t.env = s.env.after [addrRead reg, 0x00#8]) ∧
    (s.env.talks [.get reg v] = true →
      (s.env.after [addrRead reg, 0x00#8]).respond [addrWrite reg, w] = none →
      ∃ t, exec i s = .fault (.transportFault t) ∧
        t.env = (s.env.after [addrRead reg, 0x00#8]).after [addrWrite reg, w])

/-- Operands outside their domain are refused: lists longer than the FIFO (U3; with two bytes left for the
CRC_A in MF_TRANSCEIVE), bit counts above 7 (U4), a UID record of a size other than 4, 7, 10 (U6, U7), no
byte to send (R160, R250), more bytes than the response buffer holds (R133), a burst frame without an
address byte (R95), and operands not of the length their rule gives (R22, R106, R107). The model's choices
among these: every refusal of a bare frame and of a card command, `xferWrb`, `xferRdb` and the `picc`
instructions, whose operands are the fields the model gives that frame (logs 11 and 13, the four-byte window of
the select codes among them, which none of R22, R106, R107 names; log 6); and the refusal of AUTH with a record
of a size such as 5 or 6, of which U7 names only those below 4 (log 38). -/
def Obligations.OperandsOutsideTheirDomainAreRefused : Prop :=
  ∀ (s : State) (cap respCap : Nat), s.seq = .idle → s.env.chip.fifoSize = cap → s.params.respCap = respCap →
    (∀ reg vs, cap < vs.length →
      exec (.wrb reg vs) s = .refused .fifoOverlong ∧
      exec (.xferWrb reg vs) s = .refused .fifoOverlong ∧
      exec (.calcCrc vs) s = .refused .fifoOverlong) ∧
    (∀ reg n a m,
      (respCap < n → exec (.rdb reg n a m) s = .refused .countOutOfRange) ∧
      (n ≤ respCap → 7 < a → exec (.rdb reg n a m) s = .refused .bitCountAbove7)) ∧
    (∀ reg, exec (.xferRdb reg 0) s = .refused .countOutOfRange) ∧
    (∀ c w d want tx rx check m r,
      (d = [] ∧ r = .nothingToSend) ∨ (d ≠ [] ∧ cap < d.length ∧ r = .fifoOverlong) ∨
        (d ≠ [] ∧ d.length ≤ cap ∧ (7 < tx ∨ 7 < rx) ∧ r = .bitCountAbove7) →
      exec (.communicate c w d want tx rx check m) s = .refused r ∧
      exec (.transceive d want tx rx check m) s = .refused r) ∧
    (∀ u k c b key r,
      ((u.bytes.length ≠ 10 ∧ r = .malformedOperand) ∨
        (u.bytes.length = 10 ∧ u.size ≠ 4 ∧ u.size ≠ 7 ∧ u.size ≠ 10 ∧ r = .uidSizeNotAdmitted) →
        exec (.select (some u) k) s = .refused r ∧
        (key.length = 6 → exec (.auth c b key u) s = .refused r)) ∧
      (key.length ≠ 6 → exec (.auth c b key u) s = .refused .malformedOperand)) ∧
    (∀ p accept,
      (p = [] → exec (.mfTransceive p accept) s = .refused .nothingToSend) ∧
      (p ≠ [] → cap < p.length + 2 → exec (.mfTransceive p accept) s = .refused .fifoOverlong)) ∧
    (∀ known w, w.length ≠ 4 →
      exec (.piccSelCl1 known w) s = .refused .malformedOperand ∧
      exec (.piccSelCl2 known w) s = .refused .malformedOperand ∧
      exec (.piccSelCl3 known w) s = .refused .malformedOperand) ∧
    (∀ b key tail, key.length ≠ 6 ∨ tail.length ≠ 4 →
      exec (.piccAuthKeyA b key tail) s = .refused .malformedOperand ∧
      exec (.piccAuthKeyB b key tail) s = .refused .malformedOperand) ∧
    (∀ b d,
      (d.length ≠ 16 → exec (.piccMfWrite b d) s = .refused .malformedOperand) ∧
      (d.length ≠ 4 → exec (.piccUlWrite b d) s = .refused .malformedOperand))

-- Layers L0 and L1.

/-- A transport frame presented is the exchange of its bytes: a write frame the address byte of a write
and the values, a read frame `count` address bytes of a read and 0x00; a read gives the bytes received
after the first, a write none of them (R92 to R95; that the frame is presented by itself is log 11). -/
def Obligations.TransportFramesAreExchanged : Prop :=
  ∀ (s : State) (reg : Reg), s.seq = .idle →
    (∀ v : Byte, s.env.talks [.put [addrWrite reg, v]] = true →
      exec (.xferWr reg v) s = .next (s.endedPlain [.put [addrWrite reg, v]] .none)) ∧
    (∀ vs : List Byte, vs.length ≤ s.env.chip.fifoSize → s.env.talks [.put (addrWrite reg :: vs)] = true →
      exec (.xferWrb reg vs) s = .next (s.endedPlain [.put (addrWrite reg :: vs)] .none)) ∧
    (∀ inp, s.env.respond [addrRead reg, 0x00#8] = some inp →
      exec (.xferRd reg) s =
        .next (s.endedPlain [.put [addrRead reg, 0x00#8]] (.byte (inp.getD 1 0#8)))) ∧
    (∀ (n : Nat) inp, 1 ≤ n →
      s.env.respond (List.replicate n (addrRead reg) ++ [0x00#8]) = some inp →
      exec (.xferRdb reg n) s =
        .next (s.endedPlain [.put (List.replicate n (addrRead reg) ++ [0x00#8])]
          (.bytes (inp.drop 1))))

/-- A chip command presented is the write of its code, bits [7:4] zero, to the command register, whatever
values the parameters give the codes; with the spec's values these are the codes of R100 (R8, R32, logs 12
and 24). -/
def Obligations.ChipCommandsWriteTheirCode : Prop :=
  ∀ (s : State) (i : Instr), s.seq = .idle →
    (∀ (k : Codes) (code : CmdCode), k = s.env.chip.codes →
      (i, code) ∈
        [(Instr.cmdIdle, k.cmdIdle), (.cmdMem, k.cmdMem),
         (.cmdGenerateRandomID, k.cmdGenerateRandomID), (.cmdCalcCRC, k.cmdCalcCRC),
         (.cmdTransmit, k.cmdTransmit), (.cmdNoCmdChange, k.cmdNoCmdChange),
         (.cmdReceive, k.cmdReceive), (.cmdTransceive, k.cmdTransceive),
         (.cmdMFAuthent, k.cmdMFAuthent), (.cmdSoftReset, k.cmdSoftReset)] →
      s.env.talks [.put [addrWrite k.regCommand, code.setWidth 8]] = true →
      exec i s = .next (s.endedPlain [.put [addrWrite k.regCommand, code.setWidth 8]] .none)) ∧
    (∀ code : Byte, s.standard →
      (i, code) ∈
        [(Instr.cmdIdle, 0x00#8), (.cmdMem, 0x01#8), (.cmdGenerateRandomID, 0x02#8),
         (.cmdCalcCRC, 0x03#8), (.cmdTransmit, 0x04#8), (.cmdNoCmdChange, 0x07#8),
         (.cmdReceive, 0x08#8), (.cmdTransceive, 0x0C#8), (.cmdMFAuthent, 0x0E#8),
         (.cmdSoftReset, 0x0F#8)] →
      s.env.talks [.put [0x02#8, code]] = true →
      exec i s = .next (s.endedPlain [.put [0x02#8, code]] .none))

-- Unit 2: CALC_CRC.

/-- CALC_CRC whose flag is seen at any of the 255 polls ends OK with the two result bytes, low byte first
(R150). The codes have the values the spec gives them (R8, log 24). -/
def Obligations.CalcCrcReturnsTheResult : Prop :=
  ∀ (s : State) (data : List Byte) (r : CrcRun), s.seq = .idle → s.standard →
    data.length ≤ s.env.chip.fifoSize → r.ok = true → s.env.talks (r.talk data) = true →
    exec (.calcCrc data) s =
      .next (s.ended (r.talk data) s.resp (r.quiet.length + 1) s.cmdPoll .ok (.bytes [r.lo, r.hi]))

/-- CALC_CRC that sees the flag in none of 255 polls ends with Timeout and no bytes; the 256th read is not made
(R150, R354(a)). The codes have the values the spec gives them (R8, log 24). -/
def Obligations.CalcCrcTimesOut : Prop :=
  ∀ (s : State) (data : List Byte) (q : List Byte), s.seq = .idle → s.standard →
    data.length ≤ s.env.chip.fifoSize →
    q.length = 255 → (∀ n ∈ q, n.getLsbD 2 = false) →
    s.env.talks (crcStart data ++ q.map (.get Config.regDivIrq)) = true →
    exec (.calcCrc data) s =
      .next (s.ended (crcStart data ++ q.map (.get Config.regDivIrq)) s.resp 255 s.cmdPoll .timeout
        (.bytes []))

/-- With the environment contract answering and the chip awake with its CRC preset programmed, CALC_CRC gives
CRC_A of the data, empties the FIFO and changes no register but those of the command, the CRC and its flag, and,
where it stopped a Transceive, the idle flag (R74, R116, logs 2 and 20). The codes have the values the spec
gives them (R8, log 24). -/
def Obligations.CalcCrcGivesCrcA : Prop :=
  ∀ (s : State) (data : List Byte), s.seq = .idle → s.standard → s.env.handleOpen = true →
    s.env.script = [] → data.length ≤ s.env.chip.fifoSize → s.env.chip.regs.wf s.env.chip.codes = true →
    s.env.chip.get Config.regMode = 0x3D#8 →
    s.env.chip.selftestOn = false → s.env.chip.poweredDown = false →
    ∃ t, exec (.calcCrc data) s = .next t ∧ t.status = .ok ∧
      t.result = { status := some .ok, payload := .bytes (crcABytes data) } ∧
      t.env.chip.fifo = [] ∧
      t.env.chip.get Config.regComIrq =
        (if s.env.chip.active = some 0xC#4 then s.env.chip.get Config.regComIrq ||| 0x10#8
          else s.env.chip.get Config.regComIrq) ∧
      ∀ a : Reg, a ∉ [Config.regCommand, Config.regComIrq, Config.regDivIrq, Config.regCRCResultL,
        Config.regCRCResultH] → t.env.chip.get a = s.env.chip.get a

/-- CRC_A over data and two more bytes leaves zero exactly where these two are the data's own CRC_A
(R116). -/
def Obligations.CrcOverItsOwnBytesIsZero : Prop :=
  ∀ (data : List Byte) (lo hi : Byte),
    crcFrom 0x6363#16 (data ++ [lo, hi]) = 0#16 ↔ [lo, hi] = crcABytes data

-- Unit 3: COMMUNICATE.

/-- COMMUNICATE whose polls see no awaited flag ends with Timeout and an empty response: at the first sample
that has the timer flag, or after 125 samples (R166, R167). The codes have the values the spec gives them (R8,
log 24). -/
def Obligations.CommunicateTimesOut : Prop :=
  ∀ (s : State) (a : CommArgs) (r : CommSilence), s.seq = .idle → s.standard →
    1 ≤ a.sendData.length → a.sendData.length ≤ s.env.chip.fifoSize → a.txValidBits ≤ 7 →
    a.rxAlign ≤ 7 →
    r.ok a.waitIrq = true → s.env.talks (r.talk a) = true →
    exec (.communicate a.command a.waitIrq a.sendData a.wantResponse a.txValidBits a.rxAlign
        a.checkCrc a.rxMerge) s =
      .next (s.ended (r.talk a) s.resp.cleared s.crcPoll r.samples.length .timeout
        (.response [] 0#3))

/-- COMMUNICATE that completes with a fatal error bit set ends with Error, nothing drained, whether or not the
collision bit is set; one that wants a response and reads a level above 64 ends with NoRoom before any data byte
is read. The response is empty in both (R168, R169, R355). The codes have the values the spec gives them (R8,
log 24). -/
def Obligations.CommunicateErrorAndNoRoom : Prop :=
  ∀ (s : State) (a : CommArgs) (r : CommRun), s.seq = .idle → s.standard →
    1 ≤ a.sendData.length → a.sendData.length ≤ s.env.chip.fifoSize → a.txValidBits ≤ 7 →
    a.rxAlign ≤ 7 →
    (r.quiet.length < 125 → (∀ n ∈ r.quiet, quietSample a.waitIrq n = true) →
      r.last &&& a.waitIrq ≠ 0#8 → r.err &&& 0x13#8 ≠ 0#8 →
      s.env.talks (r.talk a) = true →
      exec (.communicate a.command a.waitIrq a.sendData a.wantResponse a.txValidBits a.rxAlign
          a.checkCrc a.rxMerge) s =
        .next (s.ended (r.talk a) s.resp.cleared s.crcPoll (r.quiet.length + 1) .error
          (.response [] 0#3))) ∧
    (∀ level : Byte, a.wantResponse = true → r.ok a.waitIrq = true → 64 < level.toNat →
      s.env.talks (r.talk a ++ [.get Config.regFIFOLevel level]) = true →
      exec (.communicate a.command a.waitIrq a.sendData a.wantResponse a.txValidBits a.rxAlign
          a.checkCrc a.rxMerge) s =
        .next (s.ended (r.talk a ++ [.get Config.regFIFOLevel level]) s.resp.cleared s.crcPoll
          (r.quiet.length + 1) .noRoom (.response [] 0#3)))

/-- COMMUNICATE that completes without a fatal error and without a CRC to check: Collision where the collision
bit is set, OK otherwise; the response, where one is wanted, is the bytes drained, the first merged, with the
valid bits of the last; where none is wanted it is empty and nothing is drained (R169, R170, R173). The codes
have the values the spec gives them (R8, log 24). -/
def Obligations.CommunicateCompletes : Prop :=
  ∀ (s : State) (a : CommArgs) (r : CommRun), s.seq = .idle → s.standard →
    1 ≤ a.sendData.length → a.sendData.length ≤ s.env.chip.fifoSize → a.txValidBits ≤ 7 →
    a.rxAlign ≤ 7 →
    r.ok a.waitIrq = true →
    (a.wantResponse = false → s.env.talks (r.talk a) = true →
      exec (.communicate a.command a.waitIrq a.sendData a.wantResponse a.txValidBits a.rxAlign
          a.checkCrc a.rxMerge) s =
        .next (s.ended (r.talk a) s.resp.cleared s.crcPoll (r.quiet.length + 1)
          (if r.err.getLsbD 3 then .collision else .ok) (.response [] 0#3))) ∧
    (∀ (vals : List Byte) (control : Byte), a.wantResponse = true → vals.length ≤ 64 →
      (a.checkCrc = false ∨ r.err.getLsbD 3 = true) →
      s.env.talks (r.talk a ++ drainTalk vals control) = true →
      exec (.communicate a.command a.waitIrq a.sendData a.wantResponse a.txValidBits a.rxAlign
          a.checkCrc a.rxMerge) s =
        .next (s.ended (r.talk a ++ drainTalk vals control)
          (s.resp.drained (mergeFirst a.rxAlign a.rxMerge vals) control) s.crcPoll
          (r.quiet.length + 1) (if r.err.getLsbD 3 then .collision else .ok)
          (.response (mergeFirst a.rxAlign a.rxMerge vals) (control.extractLsb' 0 3))))

/-- COMMUNICATE with a CRC check of a response without collision: one byte of four valid bits is MifareNack;
else fewer than two bytes, or a last byte that is not whole, is CrcWrong without asking the chip; else CALC_CRC
runs over all bytes but the last two, and the status is OK where its result equals those two, CrcWrong where it
does not, and Timeout where CALC_CRC times out. The response is returned whole each time (R171, R172, R173). The
codes have the values the spec gives them (R8, log 24). -/
def Obligations.CommunicateChecksTheCrc : Prop :=
  ∀ (s : State) (a : CommArgs) (r : CommRun) (vals resp : List Byte) (control : Byte),
    s.seq = .idle → s.standard →
    1 ≤ a.sendData.length → a.sendData.length ≤ s.env.chip.fifoSize → a.txValidBits ≤ 7 →
    a.rxAlign ≤ 7 →
    a.wantResponse = true → a.checkCrc = true → r.ok a.waitIrq = true → r.err.getLsbD 3 = false →
    vals.length ≤ 64 → resp = mergeFirst a.rxAlign a.rxMerge vals →
    (∀ st : StatusCode,
      (st = .mifareNack ∧ resp.length = 1 ∧ control.extractLsb' 0 3 = 4#3) ∨
      (st = .crcWrong ∧ (resp.length < 2 ∨ control.extractLsb' 0 3 ≠ 0#3) ∧
        ¬ (resp.length = 1 ∧ control.extractLsb' 0 3 = 4#3)) →
      s.env.talks (r.talk a ++ drainTalk vals control) = true →
      exec (.communicate a.command a.waitIrq a.sendData a.wantResponse a.txValidBits a.rxAlign
          a.checkCrc a.rxMerge) s =
        .next (s.ended (r.talk a ++ drainTalk vals control) (s.resp.drained resp control) s.crcPoll
          (r.quiet.length + 1) st (.response resp (control.extractLsb' 0 3)))) ∧
    (∀ c : CrcRun, 2 ≤ resp.length → control.extractLsb' 0 3 = 0#3 → c.ok = true →
      s.env.talks (r.talk a ++ drainTalk vals control ++ c.talk (resp.take (resp.length - 2))) =
        true →
      exec (.communicate a.command a.waitIrq a.sendData a.wantResponse a.txValidBits a.rxAlign
          a.checkCrc a.rxMerge) s =
        .next (s.ended (r.talk a ++ drainTalk vals control ++ c.talk (resp.take (resp.length - 2)))
          (s.resp.drained resp control) (c.quiet.length + 1) (r.quiet.length + 1)
          (if resp.drop (resp.length - 2) = [c.lo, c.hi] then .ok else .crcWrong)
          (.response resp 0#3))) ∧
    (∀ q : List Byte, 2 ≤ resp.length → control.extractLsb' 0 3 = 0#3 → q.length = 255 →
      (∀ n ∈ q, n.getLsbD 2 = false) →
      s.env.talks (r.talk a ++ drainTalk vals control ++
        (crcStart (resp.take (resp.length - 2)) ++ q.map (.get Config.regDivIrq))) = true →
      exec (.communicate a.command a.waitIrq a.sendData a.wantResponse a.txValidBits a.rxAlign
          a.checkCrc a.rxMerge) s =
        .next (s.ended (r.talk a ++ drainTalk vals control ++
            (crcStart (resp.take (resp.length - 2)) ++ q.map (.get Config.regDivIrq)))
          (s.resp.drained resp control) 255 (r.quiet.length + 1) .timeout (.response resp 0#3)))

/-- TRANSCEIVE is COMMUNICATE with the Transceive command and the completion mask `WAIT_TRANSCEIVE`, 0x30
unless the parameter says otherwise: whatever one answers as its next state the other answers (R175). The
command's code is the parameter `CMD.Transceive`. -/
def Obligations.TransceiveIsACommunicate : Prop :=
  ∀ (s t : State) (d : List Byte) (want : Bool) (tx rx : Nat) (check : Bool) (m : Byte),
    exec (.transceive d want tx rx check m) s = .next t ↔
      exec (.communicate s.env.chip.codes.cmdTransceive s.params.waitTransceive d want tx rx check m) s =
        .next t

/-- TRANSCEIVE with an answer and no check: OK with the bytes drained (R175, R173). The codes have the values
the spec gives them (R8, log 24). -/
def Obligations.TransceiveReturnsTheAnswer : Prop :=
  ∀ (s : State) (d : List Byte) (tx rx : Nat) (m : Byte) (r : AnswerRun), s.seq = .idle → s.standard →
    1 ≤ d.length → d.length ≤ s.env.chip.fifoSize → tx ≤ 7 → rx ≤ 7 → r.ok s.mask = true →
    s.env.talks (r.talk d tx rx) = true →
    exec (.transceive d true tx rx false m) s =
      .next (s.ended (r.talk d tx rx) (s.resp.drained (mergeFirst rx m r.vals) r.control) s.crcPoll
        (r.comm.quiet.length + 1) .ok
        (.response (mergeFirst rx m r.vals) (r.control.extractLsb' 0 3)))

-- Unit 4.

/-- REQA and WUPA: a short frame of seven bits with the byte 0x26 or 0x52; an answer of two whole bytes is OK
and returned, any other answer is Error, silence is Timeout (R191, R192). The codes have the values the spec
gives them (R8, log 24). -/
def Obligations.RequestsAskWithAShortFrame : Prop :=
  ∀ (s : State) (i : Instr) (byte coll : Byte), s.seq = .idle → s.standard →
    (i, byte) ∈ [(Instr.reqa, 0x26#8), (.wupa, 0x52#8)] →
    (∀ r : AnswerRun, r.ok s.mask = true →
      s.env.talks (prepareTalk s.params coll ++ r.talk [byte] 7 0) = true →
      exec i s =
        .next (s.ended (prepareTalk s.params coll ++ r.talk [byte] 7 0)
          (s.resp.drained r.vals r.control) s.crcPoll (r.comm.quiet.length + 1)
          (if r.vals.length = 2 ∧ r.control.extractLsb' 0 3 = 0#3 then .ok else .error)
          (if r.vals.length = 2 ∧ r.control.extractLsb' 0 3 = 0#3 then .bytes r.vals
            else .none))) ∧
    (∀ r : CommSilence, r.ok s.mask = true →
      s.env.talks (prepareTalk s.params coll ++
        r.talk (transceiveArgs [byte] true 7 0 false 0#8)) = true →
      exec i s =
        .next (s.ended (prepareTalk s.params coll ++ r.talk (transceiveArgs [byte] true 7 0 false 0#8))
          s.resp.cleared s.crcPoll r.samples.length .timeout .none))

/-- HLTA sends 0x50, 0x00 and their CRC_A and drains nothing: silence is OK, an answer is Error, a collision is
passed on (R193). The codes have the values the spec gives them (R8, log 24). -/
def Obligations.HaltTakesSilenceForSuccess : Prop :=
  ∀ (s : State) (c : CrcRun), s.seq = .idle → s.standard → c.ok = true →
    (∀ r : CommSilence, r.ok s.mask = true →
      s.env.talks (c.talk [0x50#8, 0x00#8] ++
        r.talk (transceiveArgs [0x50#8, 0x00#8, c.lo, c.hi] false 0 0 false 0#8)) = true →
      exec .hlta s =
        .next (s.ended (c.talk [0x50#8, 0x00#8] ++
            r.talk (transceiveArgs [0x50#8, 0x00#8, c.lo, c.hi] false 0 0 false 0#8))
          s.resp.cleared (c.quiet.length + 1) r.samples.length .ok .none)) ∧
    (∀ r : CommRun, r.ok s.mask = true →
      s.env.talks (c.talk [0x50#8, 0x00#8] ++
        r.talk (transceiveArgs [0x50#8, 0x00#8, c.lo, c.hi] false 0 0 false 0#8)) = true →
      exec .hlta s =
        .next (s.ended (c.talk [0x50#8, 0x00#8] ++
            r.talk (transceiveArgs [0x50#8, 0x00#8, c.lo, c.hi] false 0 0 false 0#8))
          s.resp.cleared (c.quiet.length + 1) (r.quiet.length + 1)
          (if r.err.getLsbD 3 then .collision else .error) .none))

/-- SELECT with more than 80 known bits is Invalid before any exchange; the record is the seed without a
SAK (R202, R203). -/
def Obligations.SelectRejectsTooManyKnownBits : Prop :=
  ∀ (s : State) (u : Option Uid) (kvb : Byte), s.seq = .idle → seedOk u = true →
    80 < kvb.toNat →
    ∃ t, exec (.select u kvb) s = .next t ∧ t.env = s.env ∧ t.status = .invalid ∧
      t.result =
        { status := some .invalid
          payload := .uid { bytes := firstRecord u, size := firstSize u, sak := none } } ∧
      t.resp = s.resp ∧ t.crcPoll = s.crcPoll ∧ t.cmdPoll = s.cmdPoll ∧ s.selectFrame t

/-- SELECT through one, two or three cascade levels, with any collisions resolved towards 1: OK, the UID bytes
each level confirmed, size 4, 7 or 10, the SAK of the last level (R200 to R219). The codes have the values the
spec gives them (R8, log 24). -/
def Obligations.SelectResolvesTheUid : Prop :=
  ∀ (s : State) (u : Option Uid) (kvb coll : Byte) (ls : List LevelRun) (last : LevelRun),
    s.seq = .idle → s.standard → seedOk u = true → kvb.toNat ≤ 80 →
    ls.length ≤ 3 → ls.getLast? = some last →
    levelsConfirmed s.mask u kvb.toNat false ls 1 (firstRecord u) = true →
    s.env.talks (prepareTalk s.params coll ++ levelsTalk u kvb.toNat ls 1 (firstRecord u)) = true →
    ∃ t, exec (.select u kvb) s = .next t ∧
      t.env = s.env.afterTalk (prepareTalk s.params coll ++ levelsTalk u kvb.toNat ls 1 (firstRecord u)) ∧
      t.status = .ok ∧
      t.result =
        { status := some .ok
          payload := .uid
            { bytes := levelsRecord u kvb.toNat ls 1 (firstRecord u)
              size := 3 * ls.length + 1
              sak := some last.sak } } ∧
      t.sel.uidAcc = levelsRecord u kvb.toNat ls 1 (firstRecord u) ∧
      t.sel.uidSize = 3 * ls.length + 1 ∧ t.sel.sakOut = some last.sak ∧ s.selectFrame t

/-- SELECT at any level and after any rounds, with fewer than 32 known bits: an answer longer than the window is
NoRoom; a collision whose position is not valid is Collision; one that is not beyond the known bits is
InternalError; silence is Timeout. The record comes without a SAK (R210, R211, R212, R221). The codes have the
values the spec gives them (R8, log 24). -/
def Obligations.SelectRoundsThatFail : Prop :=
  ∀ (s : State) (u : Option Uid) (kvb : Byte) (p : SelectPath) (ts : List Talk) (st : StatusCode),
    s.seq = .idle → s.standard → seedOk u = true → p.ok s.mask u kvb.toNat = true →
    (p.window u kvb.toNat).known < 32 →
    ((∃ r : Round, r.comm.ok s.mask = true ∧ r.vals.length ≤ 64 ∧
        7 - (p.window u kvb.toNat).known / 8 < r.vals.length ∧
        ts = r.exchange p.level (p.window u kvb.toNat) ∧ st = .noRoom) ∨
      (∃ r : Round, r.comm.ok s.mask = true ∧
        r.vals.length ≤ 7 - (p.window u kvb.toNat).known / 8 ∧ r.collides = true ∧
        r.coll.getLsbD 5 = true ∧
        ts = r.talk p.level (p.window u kvb.toNat) ∧ st = .collision) ∨
      (∃ r : Round, r.comm.ok s.mask = true ∧
        r.vals.length ≤ 7 - (p.window u kvb.toNat).known / 8 ∧ r.collides = true ∧
        r.coll.getLsbD 5 = false ∧ r.position ≤ (p.window u kvb.toNat).known ∧
        ts = r.talk p.level (p.window u kvb.toNat) ∧ st = .internalError) ∨
      (∃ r : CommSilence, r.ok s.mask = true ∧
        ts = r.talk (transceiveArgs ((p.window u kvb.toNat).frame p.level) true
          ((p.window u kvb.toNat).known % 8) ((p.window u kvb.toNat).known % 8) false 0#8) ∧
        st = .timeout)) →
    s.env.talks (p.talk s.params u kvb.toNat ++ ts) = true →
    ∃ t, exec (.select u kvb) s = .next t ∧
      t.env = s.env.afterTalk (p.talk s.params u kvb.toNat ++ ts) ∧ t.status = st ∧
      t.result =
        { status := some st
          payload := .uid
            { bytes := p.record u kvb.toNat, size := firstSize u, sak := none } } ∧
      s.selectFrame t

/-- SELECT that sends its select frame: more than three bytes in answer is NoRoom; other than three whole bytes
is Error; three with a CRC_A that is not the SAK's is CrcWrong; the cascade bit in the SAK of level 3 is
InternalError; a collision is Collision where its position is not valid and InternalError where it is; silence
is Timeout (R204, R210, R211, R212, R215, R216). The codes have the values the spec gives them (R8, log 24). -/
def Obligations.SelectAnswersThatFail : Prop :=
  ∀ (s : State) (u : Option Uid) (kvb coll : Byte) (before : List LevelRun) (l : LevelRun)
    (ts : List Talk) (st : StatusCode) (record : List Byte),
    s.seq = .idle → s.standard → seedOk u = true → kvb.toNat ≤ 80 → before.length ≤ 2 →
    levelsConfirmed s.mask u kvb.toNat true before 1 (firstRecord u) = true →
    (let level := before.length + 1
     let acc := levelsRecord u kvb.toNat before 1 (firstRecord u)
     let w := Window.start u kvb.toNat level acc
     (l.selects s.mask w = true ∧ 3 < l.answer.vals.length ∧ ts = l.selectTalk level w ∧
        st = .noRoom ∧ record = acc) ∨
      (roundsGoOn s.mask l.rounds w = true ∧ 32 ≤ (l.window w).known ∧ l.crc.ok = true ∧
        l.answer.comm.ok s.mask = true ∧ l.answer.comm.err.getLsbD 3 = true ∧
        l.answer.vals.length ≤ 3 ∧
        (∃ cr : Byte, ts = l.selectTalk level w ++ [.get Config.regColl cr] ∧
          st = if cr.getLsbD 5 then .collision else .internalError) ∧ record = acc) ∨
      (roundsGoOn s.mask l.rounds w = true ∧ 32 ≤ (l.window w).known ∧ l.crc.ok = true ∧
        (∃ q : CommSilence, q.ok s.mask = true ∧
          ts = roundsTalk level l.rounds w ++ l.crc.talk ((l.window w).select level) ++
            q.talk (transceiveArgs ((l.window w).select level ++ l.crc.bytes) true 0 0 false 0#8)) ∧
        st = .timeout ∧ record = acc) ∨
      (l.selects s.mask w = true ∧ l.answer.vals.length ≤ 3 ∧
        ¬ (l.answer.vals.length = 3 ∧ l.answer.control.extractLsb' 0 3 = 0#3) ∧
        ts = l.selectTalk level w ∧ st = .error ∧ record = acc) ∨
      (l.selects s.mask w = true ∧ l.answer.vals.length = 3 ∧
        l.answer.control.extractLsb' 0 3 = 0#3 ∧ l.sakCrc.ok = true ∧
        l.sakCrc.bytes ≠ l.answer.vals.drop 1 ∧ ts = l.talk level w ∧ st = .crcWrong ∧
        record = acc) ∨
      (level = 3 ∧ l.confirmed s.mask w = true ∧ l.sak.getLsbD 2 = true ∧ ts = l.talk level w ∧
        st = .internalError ∧ record = l.record level w acc)) →
    s.env.talks (prepareTalk s.params coll ++ levelsTalk u kvb.toNat before 1 (firstRecord u) ++ ts) =
      true →
    ∃ t, exec (.select u kvb) s = .next t ∧
      t.env = s.env.afterTalk
        (prepareTalk s.params coll ++ levelsTalk u kvb.toNat before 1 (firstRecord u) ++ ts) ∧
      t.status = st ∧
      t.result =
        { status := some st
          payload := .uid { bytes := record, size := firstSize u, sak := none } } ∧
      s.selectFrame t

/-- Whatever the environment answers: a SELECT that ends OK returns a record of ten bytes, its size 4, 7
or 10, its SAK one without the cascade bit; one that ends otherwise returns no SAK (R203, R218, R219,
R221). -/
def Obligations.SelectRecordIsComplete : Prop :=
  ∀ (s t : State) (u : Option Uid) (kvb : Byte), exec (.select u kvb) s = .next t →
    ∃ rec : Uid, t.result = { status := some t.status, payload := .uid rec } ∧
      rec.bytes = t.sel.uidAcc ∧ rec.bytes.length = 10 ∧
      (t.status = .ok → (rec.size = 4 ∨ rec.size = 7 ∨ rec.size = 10) ∧
        ∃ sak, rec.sak = some sak ∧ sak.getLsbD 2 = false) ∧
      (t.status ≠ .ok → rec.sak = none)

-- Unit 5.

/-- AUTH hands the 12-byte frame (command, block, key, the last four bytes of the UID) to MFAuthent and waits for the
idle flag; nothing is drained; silence is Timeout (R106, R240). The clauses of the card commands of authentication,
the same frame with their own byte and tail and the status and response presented for it, are the model's choice (log
13); R106 gives the frame only. The codes have the values the spec gives them (R8, log 24). -/
def Obligations.AuthSendsTheTwelveByteFrame : Prop :=
  ∀ (s : State) (cmd block k0 k1 k2 k3 k4 k5 u0 u1 u2 u3 : Byte) (a : CommArgs) (i : Instr)
    (payload : Payload), s.seq = .idle → s.standard →
    ((∃ u : Uid, u.wellFormed = true ∧ i = .auth cmd block [k0, k1, k2, k3, k4, k5] u ∧
        payload = .none ∧ u0 = u.bytes.getD (u.size - 4) 0#8 ∧ u1 = u.bytes.getD (u.size - 3) 0#8 ∧
        u2 = u.bytes.getD (u.size - 2) 0#8 ∧ u3 = u.bytes.getD (u.size - 1) 0#8) ∨
      (i = .piccAuthKeyA block [k0, k1, k2, k3, k4, k5] [u0, u1, u2, u3] ∧ cmd = 0x60#8 ∧
        payload = .response [] 0#3) ∨
      (i = .piccAuthKeyB block [k0, k1, k2, k3, k4, k5] [u0, u1, u2, u3] ∧ cmd = 0x61#8 ∧
        payload = .response [] 0#3)) →
    a =
      { command := 0xE#4
        waitIrq := 0x10#8
        sendData := [cmd, block, k0, k1, k2, k3, k4, k5, u0, u1, u2, u3]
        wantResponse := false
        txValidBits := 0
        rxAlign := 0
        checkCrc := false
        rxMerge := 0#8 } →
    (∀ r : CommRun, r.ok 0x10#8 = true → s.env.talks (r.talk a) = true →
      exec i s =
        .next (s.ended (r.talk a) s.resp.cleared s.crcPoll (r.quiet.length + 1)
          (if r.err.getLsbD 3 then .collision else .ok) payload)) ∧
    (∀ r : CommSilence, r.ok 0x10#8 = true → s.env.talks (r.talk a) = true →
      exec i s =
        .next (s.ended (r.talk a) s.resp.cleared s.crcPoll r.samples.length .timeout payload))

/-- STOP_CRYPTO1 reads the status register and writes it back with bit 3 cleared, also where it was clear; it
returns no status and changes no register of the block; a failed exchange is a transport fault (R245). The codes
have the values the spec gives them (R8, log 24). -/
def Obligations.StopCrypto1ClearsTheBit : Prop :=
  ∀ (s : State) (v w : Byte), s.seq = .idle → s.standard → w = v &&& 0xF7#8 →
    (s.env.talks [.get 0x08#6 v, talkWr 0x08#6 w] = true →
      exec .stopCrypto1 s = .next (s.endedPlain [.get 0x08#6 v, talkWr 0x08#6 w] .none)) ∧
    (s.env.respond [0x90#8, 0x00#8] = none ∨
        (s.env.talks [.get 0x08#6 v] = true ∧
          (s.env.after [0x90#8, 0x00#8]).respond [0x10#8, w] = none) →
      ∃ t, exec .stopCrypto1 s = .fault (.transportFault t))

/-- MF_TRANSCEIVE: payload and CRC_A are sent; the answer must be one byte of four valid bits (else Error) with
the value 0x0A (else MifareNack); silence is OK where it is accepted, Timeout otherwise (R250). The codes have
the values the spec gives them (R8, log 24). -/
def Obligations.MifareTransceiveWantsTheAck : Prop :=
  ∀ (s : State) (payload : List Byte) (accept : Bool), s.seq = .idle → s.standard →
    1 ≤ payload.length → payload.length + 2 ≤ s.env.chip.fifoSize →
    (∀ r : MifareRun, r.ok s.mask = true → s.env.talks (r.talk payload) = true →
      exec (.mfTransceive payload accept) s =
        .next (s.ended (r.talk payload) (s.resp.drained r.answer.vals r.answer.control)
          (r.crc.quiet.length + 1) (r.answer.comm.quiet.length + 1)
          (if r.answer.vals.length ≠ 1 ∨ r.answer.control.extractLsb' 0 3 ≠ 4#3 then .error
            else if r.answer.vals = [0x0A#8] then .ok else .mifareNack) .none)) ∧
    (∀ r : MifareSilence, r.ok s.mask = true → s.env.talks (r.talk payload) = true →
      exec (.mfTransceive payload accept) s =
        .next (s.ended (r.talk payload) s.resp.cleared (r.crc.quiet.length + 1)
          r.silence.samples.length (if accept then .ok else .timeout) .none))

/-- MF_READ: the command 0x30 with its block and CRC_A, an answer of 18 whole bytes with a matching CRC_A: OK
with the first 16 (R255). The codes have the values the spec gives them (R8, log 24). -/
def Obligations.MifareReadReturnsSixteenBytes : Prop :=
  ∀ (s : State) (block : Byte) (r : ReadRun), s.seq = .idle → s.standard → r.ok s.mask = true →
    s.env.talks (r.talk block) = true →
    exec (.mfRead block) s =
      .next (s.ended (r.talk block)
        (s.resp.drained r.command.answer.vals r.command.answer.control)
        (r.check.quiet.length + 1) (r.command.answer.comm.quiet.length + 1) .ok
        (.bytes (r.command.answer.vals.take 16)))

/-- MF_GET_VALUE: the read, and the first four bytes as a word, least significant first (R265). The codes have
the values the spec gives them (R8, log 24). -/
def Obligations.MifareGetValueDecodesTheWord : Prop :=
  ∀ (s : State) (block d0 d1 d2 d3 : Byte) (rest : List Byte) (r : ReadRun), s.seq = .idle → s.standard →
    r.ok s.mask = true → r.command.answer.vals = d0 :: d1 :: d2 :: d3 :: rest →
    s.env.talks (r.talk block) = true →
    exec (.mfGetValue block) s =
      .next (s.ended (r.talk block)
        (s.resp.drained r.command.answer.vals r.command.answer.control)
        (r.check.quiet.length + 1) (r.command.answer.comm.quiet.length + 1) .ok
        (.value (BitVec.ofNat 32
          (d0.toNat + 2 ^ 8 * d1.toNat + 2 ^ 16 * d2.toNat + 2 ^ 24 * d3.toNat))))

/-- MF_WRITE with 16 bytes or more: the command frame, then the first 16 bytes as a second frame, both
acknowledged: OK; where the first is refused with another value of four bits the second is not sent (R256). The
codes have the values the spec gives them (R8, log 24). -/
def Obligations.MifareWriteSendsTwoFrames : Prop :=
  ∀ (s : State) (block : Byte) (data : List Byte) (r₁ r₂ : MifareRun), s.seq = .idle → s.standard →
    16 ≤ data.length →
    (r₁.acked s.mask = true → r₂.acked s.mask = true →
      s.env.talks (r₁.talk [0xA0#8, block] ++ r₂.talk (data.take 16)) = true →
      exec (.mfWrite block data) s =
        .next (s.ended (r₁.talk [0xA0#8, block] ++ r₂.talk (data.take 16))
          ((s.resp.drained [0x0A#8] r₁.answer.control).drained [0x0A#8] r₂.answer.control)
          (r₂.crc.quiet.length + 1) (r₂.answer.comm.quiet.length + 1) .ok .none)) ∧
    (∀ v : Byte, r₁.ok s.mask = true → r₁.answer.vals = [v] → v ≠ 0x0A#8 →
      r₁.answer.control.extractLsb' 0 3 = 4#3 → s.env.talks (r₁.talk [0xA0#8, block]) = true →
      exec (.mfWrite block data) s =
        .next (s.ended (r₁.talk [0xA0#8, block]) (s.resp.drained [v] r₁.answer.control)
          (r₁.crc.quiet.length + 1) (r₁.answer.comm.quiet.length + 1) .mifareNack .none))

/-- Invalid is the answer to malformed input and to nothing else: SELECT with more than 80 known bits,
MF_WRITE with fewer than 16 bytes, UL_WRITE with fewer than 4; no exchange has then been made (R358). -/
def Obligations.InvalidIsMalformedInput : Prop :=
  ∀ (i : Instr) (s : State), s.seq = .idle →
    (∀ block data, i = .mfWrite block data → data.length < 16 →
      exec i s = .next (s.ended [] s.resp s.crcPoll s.cmdPoll .invalid .none)) ∧
    (∀ page data, i = .ulWrite page data → data.length < 4 →
      exec i s = .next (s.ended [] s.resp s.crcPoll s.cmdPoll .invalid .none)) ∧
    (∀ u k, i = .select u k → seedOk u = true → 80 < k.toNat →
      ∃ t, exec i s = .next t ∧ t.env = s.env ∧ t.result.status = some .invalid) ∧
    (∀ t, exec i s = .next t → t.result.status = some .invalid →
      (∃ u k, i = .select u k ∧ 80 < k.toNat) ∨
      (∃ block data, i = .mfWrite block data ∧ data.length < 16) ∨
      (∃ page data, i = .ulWrite page data ∧ data.length < 4))

/-- The operations of one acknowledged frame: UL_WRITE with the first four data bytes, MF_TRANSFER, and the card
commands of one frame that is acknowledged (R257, R264, R107). That a card command is the frame and its
acknowledge by itself is the model's choice (log 13). The codes have the values the spec gives them (R8, log
24). -/
def Obligations.OneFrameWritesAreAcknowledged : Prop :=
  ∀ (s : State) (i : Instr) (payload : List Byte) (r : MifareRun), s.seq = .idle → s.standard →
    ((∃ page d0 d1 d2 d3 rest, i = .ulWrite page (d0 :: d1 :: d2 :: d3 :: rest) ∧
        payload = [0xA2#8, page, d0, d1, d2, d3]) ∨
      (∃ block, i = .mfTransfer block ∧ payload = [0xB0#8, block]) ∨
      (∃ page d0 d1 d2 d3, i = .piccUlWrite page [d0, d1, d2, d3] ∧
        payload = [0xA2#8, page, d0, d1, d2, d3]) ∨
      (∃ block, i = .piccMfTransfer block ∧ payload = [0xB0#8, block])) →
    r.acked s.mask = true → s.env.talks (r.talk payload) = true →
    exec i s =
      .next (s.ended (r.talk payload) (s.resp.drained [0x0A#8] r.answer.control)
        (r.crc.quiet.length + 1) (r.answer.comm.quiet.length + 1) .ok .none)

/-- The value operations, and the card commands of the same frames: the command frame, which must be
acknowledged, then the operand, low byte first (four zero bytes for restore), where an acknowledge and silence
both are OK (R260 to R263, R107). That a card command is these two frames by itself, silence after the second
taken for success, is the model's choice (log 13). The codes have the values the spec gives them (R8, log 24).
-/
def Obligations.ValueOperationsTakeTwoSteps : Prop :=
  ∀ (s : State) (i : Instr) (block : Byte) (x : Word32) (first second : List Byte) (r₁ : MifareRun),
    s.seq = .idle → s.standard →
    ((i = .mfIncrement block x ∧ first = [0xC1#8, block]) ∨
      (i = .mfDecrement block x ∧ first = [0xC0#8, block]) ∨
      (i = .mfRestore block ∧ x = 0#32 ∧ first = [0xC2#8, block]) ∨
      (i = .piccMfIncrement block x ∧ first = [0xC1#8, block]) ∨
      (i = .piccMfDecrement block x ∧ first = [0xC0#8, block]) ∨
      (i = .piccMfRestore block ∧ x = 0#32 ∧ first = [0xC2#8, block])) →
    second =
      [x.extractLsb' 0 8, x.extractLsb' 8 8, x.extractLsb' 16 8, x.extractLsb' 24 8] →
    r₁.acked s.mask = true →
    (∀ r₂ : MifareRun, r₂.acked s.mask = true →
      s.env.talks (r₁.talk first ++ r₂.talk second) = true →
      exec i s =
        .next (s.ended (r₁.talk first ++ r₂.talk second)
          ((s.resp.drained [0x0A#8] r₁.answer.control).drained [0x0A#8] r₂.answer.control)
          (r₂.crc.quiet.length + 1) (r₂.answer.comm.quiet.length + 1) .ok .none)) ∧
    (∀ r₂ : MifareSilence, r₂.ok s.mask = true →
      s.env.talks (r₁.talk first ++ r₂.talk second) = true →
      exec i s =
        .next (s.ended (r₁.talk first ++ r₂.talk second)
          (s.resp.drained [0x0A#8] r₁.answer.control).cleared
          (r₂.crc.quiet.length + 1) r₂.silence.samples.length .ok .none))

/-- MF_SET_VALUE writes the 16-byte value block: value, complement, value, each low byte first, then address and
complement twice (R109, R266). The codes have the values the spec gives them (R8, log 24). -/
def Obligations.MifareSetValueWritesTheValueBlock : Prop :=
  ∀ (s : State) (block b0 b1 b2 b3 : Byte) (r₁ r₂ : MifareRun), s.seq = .idle → s.standard →
    r₁.acked s.mask = true → r₂.acked s.mask = true →
    s.env.talks (r₁.talk [0xA0#8, block] ++ r₂.talk
      [b0, b1, b2, b3, ~~~ b0, ~~~ b1, ~~~ b2, ~~~ b3, b0, b1, b2, b3, block, ~~~ block, block,
        ~~~ block]) = true →
    exec (.mfSetValue block (b3 ++ b2 ++ b1 ++ b0)) s =
      .next (s.ended (r₁.talk [0xA0#8, block] ++ r₂.talk
          [b0, b1, b2, b3, ~~~ b0, ~~~ b1, ~~~ b2, ~~~ b3, b0, b1, b2, b3, block, ~~~ block,
            block, ~~~ block])
        ((s.resp.drained [0x0A#8] r₁.answer.control).drained [0x0A#8] r₂.answer.control)
        (r₂.crc.quiet.length + 1) (r₂.answer.comm.quiet.length + 1) .ok .none)

/-- A composite operation whose first CALC_CRC times out ends with Timeout and issues nothing further, MF_TRANSCEIVE
with silence accepted too: the operations of unit 5 and HLTA, and in SELECT the CALC_CRC of the select frame and that
of the SAK of any level, the record as it then stands (R151, R208, R216, R365, R250). The clauses of the card
commands with CRC_A, their status and that nothing further is issued, are the model's choice (log 13). The codes have
the values the spec gives them (R8, log 24). -/
def Obligations.CrcTimeoutEndsTheOperation : Prop :=
  ∀ (s : State) (data q : List Byte), s.seq = .idle → s.standard → q.length = 255 →
    (∀ n ∈ q, n.getLsbD 2 = false) →
    (∀ (i : Instr) (payload : Payload),
      (payload = .none ∧
          ((i = .hlta ∧ data = [0x50#8, 0x00#8]) ∨
            (∃ accept, i = .mfTransceive data accept ∧ 1 ≤ data.length ∧
              data.length + 2 ≤ s.env.chip.fifoSize) ∨
            (∃ block, (i = .mfRead block ∨ i = .mfGetValue block) ∧ data = [0x30#8, block]) ∨
            (∃ block rest, i = .mfWrite block rest ∧ 16 ≤ rest.length ∧ data = [0xA0#8, block]) ∨
            (∃ block v, i = .mfSetValue block v ∧ data = [0xA0#8, block]) ∨
            (∃ page d0 d1 d2 d3 rest, i = .ulWrite page (d0 :: d1 :: d2 :: d3 :: rest) ∧
              data = [0xA2#8, page, d0, d1, d2, d3]) ∨
            (∃ block x, (i = .mfIncrement block x ∨ i = .piccMfIncrement block x) ∧
              data = [0xC1#8, block]) ∨
            (∃ block x, (i = .mfDecrement block x ∨ i = .piccMfDecrement block x) ∧
              data = [0xC0#8, block]) ∨
            (∃ block, (i = .mfRestore block ∨ i = .piccMfRestore block) ∧ data = [0xC2#8, block]) ∨
            (∃ block, (i = .mfTransfer block ∨ i = .piccMfTransfer block) ∧
              data = [0xB0#8, block]) ∨
            (∃ block d, i = .piccMfWrite block d ∧ d.length = 16 ∧ data = [0xA0#8, block]) ∨
            (∃ page d0 d1 d2 d3, i = .piccUlWrite page [d0, d1, d2, d3] ∧
              data = [0xA2#8, page, d0, d1, d2, d3])) ∨
        payload = .response [] 0#3 ∧
          ((i = .piccHlta ∧ data = [0x50#8, 0x00#8]) ∨
            (∃ block, i = .piccMfRead block ∧ data = [0x30#8, block]) ∨
            (∃ known level w0 w1 w2 w3, 32 ≤ known ∧
              (i, level) ∈
                [(Instr.piccSelCl1 known [w0, w1, w2, w3], 1),
                 (.piccSelCl2 known [w0, w1, w2, w3], 2),
                 (.piccSelCl3 known [w0, w1, w2, w3], 3)] ∧
              data = (Window.mk known [w0, w1, w2, w3]).select level))) →
      s.env.talks (crcStart data ++ q.map (.get Config.regDivIrq)) = true →
      exec i s =
        .next (s.ended (crcStart data ++ q.map (.get Config.regDivIrq)) s.resp 255 s.cmdPoll .timeout
          payload)) ∧
    (∀ (u : Option Uid) (kvb coll : Byte) (before : List LevelRun) (l : LevelRun) (ts : List Talk)
      (acc : List Byte) (w : Window),
      seedOk u = true → kvb.toNat ≤ 80 → before.length ≤ 2 →
      levelsConfirmed s.mask u kvb.toNat true before 1 (firstRecord u) = true →
      acc = levelsRecord u kvb.toNat before 1 (firstRecord u) →
      w = Window.start u kvb.toNat (before.length + 1) acc →
      (roundsGoOn s.mask l.rounds w = true ∧ 32 ≤ (l.window w).known ∧
          data = (l.window w).select (before.length + 1) ∧
          ts = roundsTalk (before.length + 1) l.rounds w) ∨
        (l.selects s.mask w = true ∧ l.answer.vals.length = 3 ∧
          l.answer.control.extractLsb' 0 3 = 0#3 ∧ data = [l.sak] ∧
          ts = l.selectTalk (before.length + 1) w) →
      s.env.talks (prepareTalk s.params coll ++ levelsTalk u kvb.toNat before 1 (firstRecord u) ++ ts ++
        (crcStart data ++ q.map (.get Config.regDivIrq))) = true →
      ∃ t, exec (.select u kvb) s = .next t ∧
        t.env = s.env.afterTalk (prepareTalk s.params coll ++
          levelsTalk u kvb.toNat before 1 (firstRecord u) ++ ts ++
          (crcStart data ++ q.map (.get Config.regDivIrq))) ∧
        t.status = .timeout ∧
        t.result =
          { status := some .timeout
            payload := .uid { bytes := acc, size := firstSize u, sak := none } } ∧
        s.selectFrame t)

-- Layer L2.

/-- The card commands REQA and WUPA send a short frame of seven bits; HLTA sends its frame with CRC_A and drains
nothing (R99, R107 for the frames). That a card command presented by itself gives the exchange's own status and
response, a halted card Timeout and an answer OK, is the model's choice (log 13). The codes have the values the spec
gives them (R8, log 24). -/
def Obligations.ShortAndHaltFramesGiveTheExchange : Prop :=
  ∀ s : State, s.seq = .idle → s.standard →
    (∀ (i : Instr) (byte : Byte) (r : AnswerRun),
      (i, byte) ∈ [(Instr.piccReqa, 0x26#8), (.piccWupa, 0x52#8)] → r.ok s.mask = true →
      s.env.talks (r.talk [byte] 7 0) = true →
      exec i s =
        .next (s.ended (r.talk [byte] 7 0) (s.resp.drained r.vals r.control) s.crcPoll
          (r.comm.quiet.length + 1) .ok (.response r.vals (r.control.extractLsb' 0 3)))) ∧
    (∀ (c : CrcRun) (r : CommSilence), c.ok = true → r.ok s.mask = true →
      s.env.talks (c.talk [0x50#8, 0x00#8] ++
        r.talk (transceiveArgs [0x50#8, 0x00#8, c.lo, c.hi] false 0 0 false 0#8)) = true →
      exec .piccHlta s =
        .next (s.ended (c.talk [0x50#8, 0x00#8] ++
            r.talk (transceiveArgs [0x50#8, 0x00#8, c.lo, c.hi] false 0 0 false 0#8))
          s.resp.cleared (c.quiet.length + 1) r.samples.length .timeout (.response [] 0#3))) ∧
    (∀ (c : CrcRun) (r : CommRun), c.ok = true → r.ok s.mask = true →
      s.env.talks (c.talk [0x50#8, 0x00#8] ++
        r.talk (transceiveArgs [0x50#8, 0x00#8, c.lo, c.hi] false 0 0 false 0#8)) = true →
      exec .piccHlta s =
        .next (s.ended (c.talk [0x50#8, 0x00#8] ++
            r.talk (transceiveArgs [0x50#8, 0x00#8, c.lo, c.hi] false 0 0 false 0#8))
          s.resp.cleared (c.quiet.length + 1) (r.quiet.length + 1)
          (if r.err.getLsbD 3 then .collision else .ok) (.response [] 0#3)))

/-- The card command MF_READ sends its frame and gives the whole answer, its CRC_A checked and kept; MF_WRITE sends
the command frame, then the 16 bytes, each acknowledged (R107, R108 for the frames and the acknowledge). That a bare
MF_READ checks and keeps the CRC_A, that a bare MF_WRITE goes on only after the acknowledge, and the status presented
are the model's choice (log 13). The codes have the values the spec gives them (R8, log 24). -/
def Obligations.ReadAndWriteFramesAreSent : Prop :=
  ∀ (s : State) (block : Byte), s.seq = .idle → s.standard →
    (∀ r : ReadRun, r.ok s.mask = true → s.env.talks (r.talk block) = true →
      exec (.piccMfRead block) s =
        .next (s.ended (r.talk block)
          (s.resp.drained r.command.answer.vals r.command.answer.control)
          (r.check.quiet.length + 1) (r.command.answer.comm.quiet.length + 1) .ok
          (.response r.command.answer.vals 0#3))) ∧
    (∀ (data : List Byte) (r₁ r₂ : MifareRun), data.length = 16 → r₁.acked s.mask = true →
      r₂.acked s.mask = true → s.env.talks (r₁.talk [0xA0#8, block] ++ r₂.talk data) = true →
      exec (.piccMfWrite block data) s =
        .next (s.ended (r₁.talk [0xA0#8, block] ++ r₂.talk data)
          ((s.resp.drained [0x0A#8] r₁.answer.control).drained [0x0A#8] r₂.answer.control)
          (r₂.crc.quiet.length + 1) (r₂.answer.comm.quiet.length + 1) .ok .none))

/-- The select codes: with fewer than 32 known bits the anti-collision frame of the known bits, its answer merged
with the byte that holds the first unknown one; with 32 or more the select frame with its CRC_A (R103, R104 for the
frames). The operands of a bare select code, the switch at 32 known bits and the status and response presented are
the model's choice (log 13). The codes have the values the spec gives them (R8, log 24). -/
def Obligations.SelectCodesOpenTheirFrames : Prop :=
  ∀ (s : State) (i : Instr) (level known : Nat) (w0 w1 w2 w3 : Byte), s.seq = .idle → s.standard →
    (i, level) ∈
      [(Instr.piccSelCl1 known [w0, w1, w2, w3], 1), (.piccSelCl2 known [w0, w1, w2, w3], 2),
       (.piccSelCl3 known [w0, w1, w2, w3], 3)] →
    (known < 32 → ∀ r : AnswerRun, r.ok s.mask = true →
      s.env.talks (r.talk ((Window.mk known [w0, w1, w2, w3]).frame level) (known % 8)
        (known % 8)) = true →
      exec i s =
        .next (s.ended (r.talk ((Window.mk known [w0, w1, w2, w3]).frame level) (known % 8)
            (known % 8))
          (s.resp.drained
            (mergeFirst (known % 8) ([w0, w1, w2, w3].getD (known / 8) 0#8) r.vals) r.control)
          s.crcPoll (r.comm.quiet.length + 1) .ok
          (.response (mergeFirst (known % 8) ([w0, w1, w2, w3].getD (known / 8) 0#8) r.vals)
            (r.control.extractLsb' 0 3)))) ∧
    (32 ≤ known → ∀ r : MifareRun, r.ok s.mask = true →
      s.env.talks (r.talk ((Window.mk known [w0, w1, w2, w3]).select level)) = true →
      exec i s =
        .next (s.ended (r.talk ((Window.mk known [w0, w1, w2, w3]).select level))
          (s.resp.drained r.answer.vals r.answer.control) (r.crc.quiet.length + 1)
          (r.answer.comm.quiet.length + 1) .ok
          (.response r.answer.vals (r.answer.control.extractLsb' 0 3))))

-- The whole machine.

/-- Every instruction with operands of its domain runs to its end and presents a result, whatever the
environment answers, as long as the transport works: no operation hangs, SELECT included (R220, R406). -/
def Obligations.EveryInstructionCompletes : Prop :=
  ∀ (i : Instr) (s : State), s.ready = true → domainError s.env.chip.fifoSize s.params.respCap i = none →
    ∃ t, exec i s = .next t ∧ t.seq = .idle ∧ t.latched = none ∧
      (t.result.status = none ∨ t.result.status = some t.status)

/-- Which operation can present which status (R363), whatever the environment answers. -/
def Obligations.StatusesOfEachOperation : Prop :=
  ∀ (s t : State) (i : Instr) (allowed : List (Option StatusCode)),
    exec i s = .next t →
    ((∃ a v, i = .wr a v) ∨ (∃ a vs, i = .wrb a vs) ∨ (∃ a, i = .rd a) ∨
        (∃ a n x m, i = .rdb a n x m) ∨ (∃ a m, i = .setb a m) ∨ (∃ a m, i = .clrb a m) ∨
        i = .stopCrypto1) ∧ allowed = [none] ∨
      (∃ d, i = .calcCrc d) ∧ allowed = [some .ok, some .timeout] ∨
      ((∃ c w d want tx rx ch m, i = .communicate c w d want tx rx ch m) ∨
        (∃ d want tx rx ch m, i = .transceive d want tx rx ch m)) ∧
        allowed = [some .ok, some .error, some .collision, some .timeout, some .noRoom,
          some .crcWrong, some .mifareNack] ∨
      (i = .reqa ∨ i = .wupa) ∧
        allowed = [some .ok, some .error, some .collision, some .timeout, some .noRoom] ∨
      i = .hlta ∧ allowed = [some .ok, some .error, some .collision, some .timeout] ∨
      (∃ u k, i = .select u k) ∧
        allowed = [some .ok, some .error, some .collision, some .timeout, some .noRoom,
          some .internalError, some .invalid, some .crcWrong] ∨
      (∃ c b k u, i = .auth c b k u) ∧
        allowed = [some .ok, some .error, some .collision, some .timeout] ∨
      ((∃ p a, i = .mfTransceive p a) ∨ (∃ b, i = .mfTransfer b) ∨ (∃ b x, i = .mfIncrement b x) ∨
        (∃ b x, i = .mfDecrement b x) ∨ (∃ b, i = .mfRestore b) ∨ (∃ b v, i = .mfSetValue b v)) ∧
        allowed = [some .ok, some .error, some .collision, some .timeout, some .noRoom,
          some .mifareNack] ∨
      ((∃ b d, i = .mfWrite b d) ∨ (∃ p d, i = .ulWrite p d)) ∧
        allowed = [some .ok, some .error, some .collision, some .timeout, some .noRoom,
          some .invalid, some .mifareNack] ∨
      ((∃ b, i = .mfRead b) ∨ (∃ b, i = .mfGetValue b)) ∧
        allowed = [some .ok, some .error, some .collision, some .timeout, some .noRoom,
          some .crcWrong, some .mifareNack] →
    t.result.status ∈ allowed

/-- A transport fault stops the operation and its callers at the exchange that failed: no result is
presented, the sequencer is faulted, the failed exchange is the last of the trace, and what the host
holds is untouched (R356). -/
def Obligations.TransportFaultStopsTheBlock : Prop :=
  ∀ (i : Instr) (s t : State), exec i s = .fault (.transportFault t) →
    t.seq = .faulted ∧ t.result = s.result ∧ t.params = s.params ∧ t.pending = s.pending ∧
    t.host = s.host ∧
    ∃ (done : List Exchange) (out : List Byte),
      t.env.trace = s.env.trace ++ done ++ [{ out := out, inp := none }] ∧
      ∀ x ∈ done, x.inp ≠ none

/-- A framer access whose exchange fails is a transport fault, and the block's registers keep the values
they had; SETB and CLRB whose read fails issue no write; with the handle closed every exchange fails
(R134, R135, R338, R356). -/
def Obligations.FailedExchangeIsAFault : Prop :=
  ∀ (s : State) (reg : Reg), s.seq = .idle →
    (s.env.handleOpen = false → ∀ out, s.env.respond out = none) ∧
    (∀ (i : Instr) (out : List Byte),
      (∃ v, i = .wr reg v ∧ out = [addrWrite reg, v]) ∨
        (∃ vs, i = .wrb reg vs ∧ vs.length ≤ s.env.chip.fifoSize ∧ out = addrWrite reg :: vs) ∨
        (i = .rd reg ∧ out = [addrRead reg, 0x00#8]) ∨
        (∃ n a m, i = .rdb reg n a m ∧ 1 ≤ n ∧ n ≤ s.params.respCap ∧ a ≤ 7 ∧
          out = List.replicate n (addrRead reg) ++ [0x00#8]) ∨
        (∃ m, i = .setb reg m ∧ out = [addrRead reg, 0x00#8]) ∨
        (∃ m, i = .clrb reg m ∧ out = [addrRead reg, 0x00#8]) →
      s.env.respond out = none →
      ∃ t, exec i s = .fault (.transportFault t) ∧ t.env = s.env.after out ∧
        t.status = s.status ∧ t.resp = s.resp ∧ t.sel = s.sel ∧ t.crcPoll = s.crcPoll ∧
        t.cmdPoll = s.cmdPoll)

/-- Every register stays in its range and the chip's memory in canonical form, over every step (R21 to R28, R30);
the addresses of its registers, its command codes and the card command bytes stay pairwise distinct (R31, R100,
R102); the numbers of the statuses stay distinct, which is
read from R350 (log 24). That `KNOWN` goes up to 88 is R205; R26 says 40, and 88 is the model's choice between the two
(log 9). -/
def Obligations.StepKeepsTheInvariant : Prop :=
  ∀ s t : State, s.Inv → step s = .next t → t.Inv

/-- The invariant holds after reset (the values of logs 3, 4 and 24). -/
def Obligations.ResetMeetsTheInvariant : Prop := State.reset.Inv

/-- The registers of the anti-collision engine are written only by SELECT (R25, R26, R27). -/
def Obligations.OnlySelectWritesItsRegisters : Prop :=
  ∀ (i : Instr) (s t : State), exec i s = .next t → (∀ u k, i ≠ .select u k) → t.sel = s.sel

/-- No instruction reads or writes the host's flags and state: another host's side changes nothing of what
it does; none writes them (R311, R370: these two clauses). The other clauses rest on no rule that says them in
these words: the parameters are fixed, the codes and the FIFO's capacity among them (R8, R49, R50, log 24), the operations
still presented are a field of the model's own (log 5), the reset pin and the handle are the host's
(R331, log 37; R49, R338), and trace, count and script are the model's record of what ENV was sent and answers
(R60, logs 2, 14, 36): the trace only grows, by exchanges of which none failed. -/
def Obligations.InstructionsLeaveTheHost : Prop :=
  (∀ (i : Instr) (s : State) (h : HostSide),
    exec i { s with host := h } = withHost h (exec i s)) ∧
  ∀ (i : Instr) (s t : State), exec i s = .next t →
    t.host = s.host ∧ t.params = s.params ∧ t.pending = s.pending ∧
    t.env.handleOpen = s.env.handleOpen ∧ t.env.chip.codes = s.env.chip.codes ∧
    t.env.chip.fifoSize = s.env.chip.fifoSize ∧
    t.env.chip.resetPinHigh = s.env.chip.resetPinHigh ∧
    ∃ done : List Exchange, t.env.trace = s.env.trace ++ done ∧ (∀ x ∈ done, x.inp ≠ none) ∧
      t.env.count = s.env.count + done.length ∧ t.env.script = s.env.script.drop done.length

/-- Every exchange an instruction makes is one frame of R92 to R95: the bytes out are a frame the
decoder of layer L0 reads (R130 to R136). -/
def Obligations.EveryExchangeIsAFrame : Prop :=
  ∀ (i : Instr) (s t : State), exec i s = .next t →
    ∃ done : List Exchange, t.env.trace = s.env.trace ++ done ∧
      ∀ x ∈ done, ∃ j : Instr, (decode .xfer x.out = .ok j ∨ decode .burst x.out = .ok j)

/-- The chip registers no operation of units 2 to 5 and no card command drives keep their bytes, at every
address, whatever the environment answers (COMMUNICATE with a command of the caller's apart). The chip's
registers are the contract's image (logs 2, 35). The codes have the values the spec gives them (R8, log 24). -/
def Obligations.OperationsLeaveTheConfiguration : Prop :=
  ∀ (i : Instr) (s t : State), exec i s = .next t → s.standard → s.env.chip.regs.wf s.env.chip.codes = true →
    (i.layer = .op ∨ i.layer = .picc) →
    (∀ c w d want tx rx ch m, i ≠ .communicate c w d want tx rx ch m) →
    (∀ a v, i ≠ .wr a v) → (∀ a vs, i ≠ .wrb a vs) → (∀ a m, i ≠ .setb a m) →
    (∀ a m, i ≠ .clrb a m) →
    ∀ a : Reg,
      a ∉ [Config.regCommand, Config.regComIrq, Config.regDivIrq, Config.regError,
        Config.regStatus2, Config.regControl, Config.regBitFraming, Config.regColl,
        Config.regCRCResultH, Config.regCRCResultL] →
      t.env.chip.get a = s.env.chip.get a

/-- With the contract answering, the chip awake: a byte written to a register with no behaviour of its own
is the byte then read, and every other register keeps its byte; a read of such a register changes nothing
of the chip (R71, R72, log 2; that a register without a role stores its byte whole is the model's choice, log
43). Of `REG.Status2` a write changes bit 3 only (R37, R405), and clears it only: that a 1 written does not set
it is the model's reading (log 18). The registers stand where the codes place them, in the last clause where
the spec does (R8, R31, log 24). -/
def Obligations.RegisterReadsBackWhatWasWritten : Prop :=
  ∀ (s : State) (k : Codes) (a : Reg) (v : Byte), s.env.chip.codes = k → s.seq = .idle →
    s.env.handleOpen = true → s.env.script = [] → s.env.chip.regs.wf s.env.chip.codes = true → s.env.chip.undescribed = false →
    s.env.chip.poweredDown = false →
    (a ∉ [k.regCommand, k.regComIrq, k.regDivIrq, k.regFIFOData, k.regFIFOLevel, k.regBitFraming,
        k.regError, k.regStatus2, k.regCRCResultL, k.regCRCResultH, k.regVersion] →
      ∃ t u, exec (.wr a v) s = .next t ∧ exec (.rd a) t = .next u ∧ u.result.payload = .byte v ∧
        (∀ b : Reg, b ≠ a → t.env.chip.get b = s.env.chip.get b) ∧
        u.env.chip = t.env.chip) ∧
    (s.standard → a = Config.regStatus2 → ∃ t, exec (.wr a v) s = .next t ∧
      (∀ j, (t.env.chip.get a).getLsbD j =
        if j = 3 then (s.env.chip.get a).getLsbD 3 && v.getLsbD 3 else (s.env.chip.get a).getLsbD j) ∧
      ∀ b : Reg, b ≠ a → t.env.chip.get b = s.env.chip.get b)

/-- With the contract answering, the chip awake: a write to the data port appends its byte to the FIFO, a burst write
its bytes in order; a read removes and returns the oldest byte, a burst read the bytes in order; the level register
counts them (R38, R39, R73). That the count of more than 127 bytes stands in the whole byte, modulo 256, is the
model's choice (log 17). The registers stand where the codes place them, at distinct addresses (R31). -/
def Obligations.FifoIsAQueue : Prop :=
  ∀ (s : State) (k : Codes) (vs : List Byte), s.env.chip.codes = k → k.addressesDistinct = true → s.seq = .idle →
    s.env.handleOpen = true → s.env.script = [] → s.env.chip.undescribed = false → s.env.chip.poweredDown = false →
    s.env.chip.fifo.length + vs.length ≤ s.env.chip.fifoSize →
    s.env.chip.fifo.length + vs.length ≤ s.params.respCap →
    (∃ t, exec (.wrb k.regFIFOData vs) s = .next t ∧
      t.env.chip.fifo = s.env.chip.fifo ++ vs ∧ t.env.chip.regs = s.env.chip.regs ∧
      (∃ u, exec (.rd k.regFIFOLevel) t = .next u ∧
        u.result.payload = .byte (BitVec.ofNat 8 (s.env.chip.fifo.length + vs.length)) ∧
        u.env.chip = t.env.chip) ∧
      ∃ u, exec (.rdb k.regFIFOData (s.env.chip.fifo.length + vs.length) 0 0#8) t = .next u ∧
        u.result.payload = .bytes (s.env.chip.fifo ++ vs) ∧ u.env.chip.fifo = []) ∧
    (∀ v : Byte, vs = [v] → ∃ t, exec (.wr k.regFIFOData v) s = .next t ∧
      t.env.chip.fifo = s.env.chip.fifo ++ [v] ∧ t.env.chip.regs = s.env.chip.regs) ∧
    (∀ (b : Byte) (rest : List Byte), s.env.chip.fifo = b :: rest →
      ∃ t, exec (.rd k.regFIFOData) s = .next t ∧ t.result.payload = .byte b ∧
        t.env.chip.fifo = rest ∧ t.env.chip.regs = s.env.chip.regs)

/-- With the contract answering, the chip awake: a write to a flag register clears the flags written as 1 where
bit 7 is 0 and sets them where it is 1; the others keep their value (R34, R35). The flags are those of the
parameter `IRQ_ALL7`, bits 0 to 6 unless it says otherwise; the registers stand where the codes place them, at
distinct addresses (R31). -/
def Obligations.FlagRegistersClearAndSet : Prop :=
  ∀ (s : State) (k : Codes) (a : Reg) (v : Byte), s.env.chip.codes = k → k.addressesDistinct = true → s.seq = .idle →
    s.env.handleOpen = true → s.env.script = [] → s.env.chip.regs.wf s.env.chip.codes = true → s.env.chip.poweredDown = false →
    (a = k.regComIrq ∨ a = k.regDivIrq) →
    ∃ t, exec (.wr a v) s = .next t ∧
      (∀ j, (t.env.chip.get a).getLsbD j =
        if k.irqAll7.getLsbD j && v.getLsbD j then v.getLsbD 7 else (s.env.chip.get a).getLsbD j) ∧
      ∀ b : Reg, b ≠ a → t.env.chip.get b = s.env.chip.get b

-- Host sequences and pure functions.

/-- The reset and the constants: with the contract answering, and the reset pin high or configured so that
`init()` can drive it, `init()` ends OK from either state of the transport handle, with the handle open, every
constant of the parameter `INIT_CONST` in its register and both antenna drivers enabled, from power-down too
(R330, R331, R336, R337, log 41). That configuring the transport always opens the handle and never fails is the
model's choice (log 28). The statement is for constants of distinct registers that store what is written (log
43) and are not the antenna's. The table of R336, the parameter at
reset, is of this kind. The codes have the values the spec gives them (R8, log 24). -/
def Obligations.InitProgramsTheChip : Prop :=
  ∀ s : State, s.seq = .idle → s.standard → s.env.script = [] →
    (s.env.chip.resetPinHigh = true ∨ s.host.resetPinConfigured = true) →
    (s.params.initConst.map (·.1)).Nodup →
    (∀ x ∈ s.params.initConst, x.1 ∉ ([.command, .comIrq, .divIrq, .fifoData, .fifoLevel, .bitFraming,
      .error, .status2, .crcResultL, .crcResultH, .version, .txControl] : List RegName)) →
    ∃ t, init s = .ok () t ∧ t.seq = .idle ∧ t.env.handleOpen = true ∧
      (∀ x ∈ s.params.initConst, t.env.chip.get (s.env.chip.codes.addr x.1) = x.2) ∧
      t.env.chip.get Config.regTxControl &&& 0x03#8 = 0x03#8

/-- The sectors of a card: consecutive, each with its trailer as its highest block, the data blocks below
it, block 0 in none; and the capacities 224, 752 and 3440 (R294, R296, R297). -/
def Obligations.SectorGeometry : Prop :=
  (∀ (t : PiccType) (n : Nat) (d : SectorDefinition), sectorDefinition t n = some d →
    n < sectorCount t ∧
    d.firstDataBlock + d.dataBlockCount = d.trailerBlock ∧ 1 ≤ d.firstDataBlock ∧
    d.trailerBlock < 256 ∧
    d.dataBlockCount = (if n = 0 then 2 else if n < 32 then 3 else 15) ∧
    (∀ e, sectorDefinition t (n + 1) = some e → e.firstDataBlock = d.trailerBlock + 1)) ∧
  (∀ (t : PiccType) (n : Nat), sectorDefinition t n = none ↔ sectorCount t ≤ n) ∧
  capacity .mifareMini = 224 ∧ capacity .mifare1K = 752 ∧ capacity .mifare4K = 3440

/-- The number of a card is its bytes 0 to 4, the first the most significant, whatever its size, so that it
tells these five bytes apart; its type is that of its SAK without bit 7 by whatever table the parameter
`SAK_TABLE` holds (log 24), unknown where there is no SAK or the table has no row; the types the rule's table
gives, which is the parameter at reset (R291, R292). -/
def Obligations.CardNumberAndType : Prop :=
  (∀ (b0 b1 b2 b3 b4 : Byte) (rest : List Byte) (size : Nat) (sak : Option Byte),
    uidNumber { bytes := b0 :: b1 :: b2 :: b3 :: b4 :: rest, size := size, sak := sak } =
      b0.toNat * 2 ^ 32 + b1.toNat * 2 ^ 24 + b2.toNat * 2 ^ 16 + b3.toNat * 2 ^ 8 + b4.toNat) ∧
  (∀ u v : Uid, u.bytes.length = 10 → v.bytes.length = 10 →
    uidNumber u < 2 ^ 40 ∧
    (uidNumber u = uidNumber v ↔ u.bytes.take 5 = v.bytes.take 5)) ∧
  (∀ (table : List (Byte × PiccType)) (u : Uid),
    (u.sak = none → piccType table u = .unknown) ∧
    (∀ sak : Byte, u.sak = some sak →
      piccType table u = piccType table { u with sak := some (sak ^^^ 0x80#8) } ∧
      (∀ ty : PiccType, (table.map (·.1)).Nodup → (sak &&& 0x7F#8, ty) ∈ table →
        piccType table u = ty) ∧
      ((∀ row ∈ table, row.1 ≠ sak &&& 0x7F#8) → piccType table u = .unknown))) ∧
  (∀ (u : Uid) (sak : Byte), u.sak = some sak →
    (piccType Config.sakTable u = .mifare1K ↔ sak &&& 0x7F#8 = 0x08#8) ∧
    (piccType Config.sakTable u = .mifareUL ↔ sak &&& 0x7F#8 = 0x00#8) ∧
    (piccType Config.sakTable u = .iso14443_4 ↔ sak &&& 0x7F#8 = 0x20#8) ∧
    (piccType Config.sakTable u = .notComplete ↔ sak &&& 0x7F#8 = 0x04#8) ∧
    (piccType Config.sakTable u = .mifareMini ↔ sak &&& 0x7F#8 = 0x09#8) ∧
    (piccType Config.sakTable u = .mifare4K ↔ sak &&& 0x7F#8 = 0x18#8) ∧
    (piccType Config.sakTable u = .mifarePlus ↔
      sak &&& 0x7F#8 = 0x10#8 ∨ sak &&& 0x7F#8 = 0x11#8) ∧
    (piccType Config.sakTable u = .tnp3xxx ↔ sak &&& 0x7F#8 = 0x01#8) ∧
    (piccType Config.sakTable u = .iso18092 ↔ sak &&& 0x7F#8 = 0x40#8) ∧
    piccType Config.sakTable u ≠ .mifareDesfire)
end

