-- ==== Sys2Proof/Laws/State.lean ====
section
/-! SUPPORT. Fields after the named updates: one lemma a field and update, true by definition, so that no proof unfolds a record update. -/

namespace Sys2Proof.Machine

-- Resetting the block.

@[simp] theorem resetBlock_seq (s : State) : (resetBlock s).seq = .idle := rfl
@[simp] theorem resetBlock_latched (s : State) : (resetBlock s).latched = none := rfl
@[simp] theorem resetBlock_status (s : State) : (resetBlock s).status = s.status := rfl
@[simp] theorem resetBlock_result (s : State) : (resetBlock s).result = s.result := rfl
@[simp] theorem resetBlock_resp (s : State) : (resetBlock s).resp = s.resp := rfl
@[simp] theorem resetBlock_sel (s : State) : (resetBlock s).sel = s.sel := rfl
@[simp] theorem resetBlock_crcPoll (s : State) : (resetBlock s).crcPoll = s.crcPoll := rfl
@[simp] theorem resetBlock_cmdPoll (s : State) : (resetBlock s).cmdPoll = s.cmdPoll := rfl
@[simp] theorem resetBlock_params (s : State) : (resetBlock s).params = s.params := rfl
@[simp] theorem resetBlock_pending (s : State) : (resetBlock s).pending = s.pending := rfl
@[simp] theorem resetBlock_env (s : State) : (resetBlock s).env = s.env := rfl
@[simp] theorem resetBlock_host (s : State) : (resetBlock s).host = s.host := rfl

@[simp] theorem resetBlock_config (s : State) : (resetBlock s).config = s.config := rfl

-- The parameters as an operation reads them.

@[simp] theorem State.config_codes (s : State) : s.config.codes = s.env.chip.codes := rfl
@[simp] theorem State.config_toSettings (s : State) : s.config.toSettings = s.params := rfl

-- ENV after an exchange.

@[simp] theorem Env.after_handleOpen (e : Env) (out : List Byte) :
    (e.after out).handleOpen = e.handleOpen := rfl
@[simp] theorem Env.after_script (e : Env) (out : List Byte) :
    (e.after out).script = e.script.tail := rfl
@[simp] theorem Env.after_count (e : Env) (out : List Byte) :
    (e.after out).count = e.count + 1 := rfl
@[simp] theorem Env.after_trace (e : Env) (out : List Byte) :
    (e.after out).trace = e.trace ++ [{ out := out, inp := e.respond out }] := rfl

-- The chip after a register is stored.

@[simp] theorem Chip.put_codes (c : Chip) (a : Reg) (v : Byte) : (c.put a v).codes = c.codes := rfl
@[simp] theorem Chip.put_fifo (c : Chip) (a : Reg) (v : Byte) : (c.put a v).fifo = c.fifo := rfl
@[simp] theorem Chip.put_active (c : Chip) (a : Reg) (v : Byte) :
    (c.put a v).active = c.active := rfl
@[simp] theorem Chip.put_internalBuf (c : Chip) (a : Reg) (v : Byte) :
    (c.put a v).internalBuf = c.internalBuf := rfl
@[simp] theorem Chip.put_rf (c : Chip) (a : Reg) (v : Byte) : (c.put a v).rf = c.rf := rfl
@[simp] theorem Chip.put_air (c : Chip) (a : Reg) (v : Byte) : (c.put a v).air = c.air := rfl
@[simp] theorem Chip.put_regs (c : Chip) (a : Reg) (v : Byte) :
    (c.put a v).regs = c.regs.write c.codes a.toNat v := rfl
@[simp] theorem Chip.put_fifoSize (c : Chip) (a : Reg) (v : Byte) :
    (c.put a v).fifoSize = c.fifoSize := rfl
@[simp] theorem Chip.put_armed (c : Chip) (a : Reg) (v : Byte) : (c.put a v).armed = c.armed := rfl
@[simp] theorem Chip.put_resetPinHigh (c : Chip) (a : Reg) (v : Byte) :
    (c.put a v).resetPinHigh = c.resetPinHigh := rfl
@[simp] theorem Chip.raise_codes (c : Chip) (a : Reg) (m : Byte) :
    (c.raise a m).codes = c.codes := rfl
@[simp] theorem Chip.raise_fifo (c : Chip) (a : Reg) (m : Byte) : (c.raise a m).fifo = c.fifo := rfl
@[simp] theorem Chip.raise_active (c : Chip) (a : Reg) (m : Byte) :
    (c.raise a m).active = c.active := rfl
@[simp] theorem Chip.raise_internalBuf (c : Chip) (a : Reg) (m : Byte) :
    (c.raise a m).internalBuf = c.internalBuf := rfl
@[simp] theorem Chip.raise_rf (c : Chip) (a : Reg) (m : Byte) : (c.raise a m).rf = c.rf := rfl
@[simp] theorem Chip.raise_air (c : Chip) (a : Reg) (m : Byte) : (c.raise a m).air = c.air := rfl
@[simp] theorem Chip.raise_fifoSize (c : Chip) (a : Reg) (m : Byte) :
    (c.raise a m).fifoSize = c.fifoSize := rfl
@[simp] theorem Chip.raise_armed (c : Chip) (a : Reg) (m : Byte) :
    (c.raise a m).armed = c.armed := rfl
@[simp] theorem Chip.raise_resetPinHigh (c : Chip) (a : Reg) (m : Byte) :
    (c.raise a m).resetPinHigh = c.resetPinHigh := rfl

-- The sequencer's position and stack.

@[simp] theorem Seq.atLine_atLine (q : Seq) (a b : Nat) : (q.atLine a).atLine b = q.atLine b := by
  cases q <;> rfl

/-- The callers' positions on the stack (R21). -/
def Seq.depth : Seq → Nat
  | .running _ stack => stack.length
  | .idle => 0
  | .faulted => 0

@[simp] theorem Seq.depth_atLine (q : Seq) (n : Nat) : (q.atLine n).depth = q.depth := by
  cases q <;> rfl

@[simp] theorem Seq.depth_become (q : Seq) (op : OpName) : (q.become op).depth = q.depth := by
  cases q <;> rfl

/-- A call puts one position on the stack, which never holds more than four (R21). -/
theorem Seq.depth_push (q : Seq) (op : OpName) :
    (q.push op).depth ≤ q.depth + 1 ∧ (q.push op).depth ≤ Config.callDepth := by
  cases q with
  | running p stack =>
    simp only [Seq.push, Seq.depth, List.length_take, List.length_cons]
    exact ⟨Nat.min_le_right _ _, Nat.min_le_left _ _⟩
  | idle => exact ⟨Nat.zero_le _, Nat.zero_le _⟩
  | faulted => exact ⟨Nat.zero_le _, Nat.zero_le _⟩

-- The single steps of the block.

@[simp] theorem present_run (st : StatusCode) (s : State) :
    present st s = .ok () { s with status := st } := rfl
@[simp] theorem setCrcPoll_run (n : Nat) (s : State) :
    setCrcPoll n s = .ok () { s with crcPoll := n } := rfl
@[simp] theorem setCmdPoll_run (n : Nat) (s : State) :
    setCmdPoll n s = .ok () { s with cmdPoll := n } := rfl
@[simp] theorem clearResponse_run (s : State) :
    clearResponse s = .ok () { s with resp := { s.resp with len := 0, validBits := 0#3 } } := rfl
@[simp] theorem storeResponse_run (vals : List Byte) (s : State) :
    storeResponse vals s = .ok () { s with resp :=
      { s.resp with bytes := vals ++ s.resp.bytes.drop vals.length, len := vals.length } } := rfl
@[simp] theorem setValidBits_run (v : BitCount) (s : State) :
    setValidBits v s = .ok () { s with resp := { s.resp with validBits := v } } := rfl
@[simp] theorem modifySelect_run (f : SelectRegs → SelectRegs) (s : State) :
    modifySelect f s = .ok () { s with sel := f s.sel } := rfl
@[simp] theorem goLine_run (n : Nat) (s : State) :
    goLine n s = .ok () { s with seq := s.seq.atLine n } := rfl
@[simp] theorem goLines_run (ns : List Nat) (s : State) :
    goLines ns s = .ok () { s with seq := ns.foldl Seq.atLine s.seq } := rfl
@[simp] theorem become_run (op : OpName) (s : State) :
    become op s = .ok () { s with seq := s.seq.become op } := rfl
@[simp] theorem readResp_run (s : State) : readResp s = .ok s.resp s := rfl
@[simp] theorem readSelect_run (s : State) : readSelect s = .ok s.sel s := rfl
@[simp] theorem readParams_run (s : State) : readParams s = .ok s.config s := rfl
@[simp] theorem getState_run (s : State) : getState s = .ok s s := rfl
@[simp] theorem refuse_run {α : Type} (r : Refusal) (s : State) :
    (refuse r : M α) s = .error (.refuse r) s := rfl
@[simp] theorem raiseTransportFault_run {α : Type} (s : State) :
    (raiseTransportFault : M α) s = .error .transport { s with seq := .faulted } := rfl

-- One step after another.

@[simp] theorem M.pure_run {α : Type} (a : α) (s : State) : (pure a : M α) s = .ok a s := rfl

theorem M.bind_ok {α β : Type} {x : M α} {f : α → M β} {s s' : State} {a : α}
    (h : x s = .ok a s') : (x >>= f) s = f a s' := by
  simp [bind, EStateM.bind, h]

theorem M.bind_error {α β : Type} {x : M α} {f : α → M β} {s s' : State} {e : Stop}
    (h : x s = .error e s') : (x >>= f) s = .error e s' := by
  simp [bind, EStateM.bind, h]

/-- A composed step that answers answered in both parts. -/
theorem M.bind_ok_inv {α β : Type} {x : M α} {f : α → M β} {s t : State} {b : β}
    (h : (x >>= f) s = .ok b t) : ∃ a s', x s = .ok a s' ∧ f a s' = .ok b t := by
  simp only [bind, EStateM.bind] at h
  split at h
  · exact ⟨_, _, ‹_›, h⟩
  · cases h

/-- A composed step that stops stopped in one of its parts. -/
theorem M.bind_error_inv {α β : Type} {x : M α} {f : α → M β} {s t : State} {e : Stop}
    (h : (x >>= f) s = .error e t) :
    x s = .error e t ∨ ∃ a s', x s = .ok a s' ∧ f a s' = .error e t := by
  simp only [bind, EStateM.bind] at h
  split at h
  · exact .inr ⟨_, _, ‹_›, h⟩
  · cases h
    exact .inl ‹_›

end Sys2Proof.Machine
end

