-- ==== Sys2Proof/Laws/Ops.lean ====
section
/-! SUPPORT. What each shared operation does: the exchange, calls, the framer's accesses, CALC_CRC and COMMUNICATE, each once, in terms of the exchanges it makes. -/

namespace Sys2Proof.Machine

-- Exchanges in a row.

@[simp] theorem Env.talks_nil (e : Env) : e.talks [] = true := rfl
@[simp] theorem Env.afterTalk_nil (e : Env) : e.afterTalk [] = e := rfl
@[simp] theorem Env.afterTalk_cons (e : Env) (t : Talk) (ts : List Talk) :
    e.afterTalk (t :: ts) = (e.after t.frame).afterTalk ts := rfl

theorem Env.talks_cons (e : Env) (t : Talk) (ts : List Talk) :
    e.talks (t :: ts) = true ↔
      (∃ inp, e.respond t.frame = some inp ∧ t.agrees inp = true) ∧
        (e.after t.frame).talks ts = true := by
  simp only [Env.talks, Bool.and_eq_true]
  refine and_congr_left fun _ => ?_
  cases e.respond t.frame with
  | none => simp
  | some inp => simp

theorem Env.afterTalk_append (e : Env) (ts us : List Talk) :
    e.afterTalk (ts ++ us) = (e.afterTalk ts).afterTalk us := by
  induction ts generalizing e with
  | nil => rfl
  | cons t ts ih => exact ih _

theorem Env.talks_append (e : Env) (ts us : List Talk) :
    e.talks (ts ++ us) = true ↔ e.talks ts = true ∧ (e.afterTalk ts).talks us = true := by
  induction ts generalizing e with
  | nil => simp
  | cons t ts ih => simp only [List.cons_append, Env.talks_cons, ih, Env.afterTalk_cons, and_assoc]

-- Steps that make the exchanges `ts`.

/-- The steps `x` make exactly the exchanges `ts` and end with `a` in `t`, where ENV answers as `ts`
supposes; wherever the sequencer stands, which moves but steers nothing. -/
def Runs {α : Type} (x : M α) (s : State) (ts : List Talk) (a : α) (t : State) : Prop :=
  s.env.talks ts = true → t.env = s.env.afterTalk ts ∧
    ∀ q, ∃ q', x { s with seq := q } = .ok a { t with seq := q' }

theorem Runs.ok {α : Type} {x : M α} {s t : State} {ts : List Talk} {a : α}
    (h : Runs x s ts a t) (hs : s.env.talks ts = true) : ∃ q, x s = .ok a { t with seq := q } :=
  (h hs).2 s.seq

/-- Steps that make no exchange. -/
theorem Runs.silent {α : Type} {x : M α} {s t : State} {a : α}
    (h : ∀ q, ∃ q', x { s with seq := q } = .ok a { t with seq := q' }) (he : t.env = s.env) :
    Runs x s [] a t := fun _ => ⟨he, h⟩

/-- Steps that make no exchange and do not move the sequencer. -/
theorem Runs.still {α : Type} {x : M α} {s t : State} {a : α}
    (h : ∀ q, x { s with seq := q } = .ok a { t with seq := q }) (he : t.env = s.env) :
    Runs x s [] a t := Runs.silent (fun q => ⟨q, h q⟩) he

theorem Runs.pure {α : Type} (a : α) (s : State) : Runs (Pure.pure a : M α) s [] a s :=
  Runs.still (fun _ => rfl) rfl

theorem Runs.bind {α β : Type} {x : M α} {f : α → M β} {s s' t : State} {ts us : List Talk} {a : α}
    {b : β} (hx : Runs x s ts a s') (hf : Runs (f a) s' us b t) : Runs (x >>= f) s (ts ++ us) b t := by
  intro h
  obtain ⟨h₁, h₂⟩ := (Env.talks_append _ _ _).1 h
  obtain ⟨hx₁, hx₂⟩ := hx h₁
  rw [← hx₁] at h₂
  obtain ⟨hf₁, hf₂⟩ := hf h₂
  refine ⟨by rw [hf₁, hx₁, Env.afterTalk_append], fun q => ?_⟩
  obtain ⟨q₁, hq₁⟩ := hx₂ q
  obtain ⟨q₂, hq₂⟩ := hf₂ q₁
  exact ⟨q₂, (M.bind_ok hq₁).trans hq₂⟩

/-- A last step that only computes the answer. -/
theorem Runs.last {α β : Type} {x : M α} {f : α → M β} {s t : State} {ts : List Talk} {a : α} {b : β}
    (hx : Runs x s ts a t) (hf : f a = Pure.pure b) : Runs (x >>= f) s ts b t := by
  intro h
  obtain ⟨h₁, h₂⟩ := hx h
  refine ⟨h₁, fun q => ?_⟩
  obtain ⟨q', hq⟩ := h₂ q
  exact ⟨q', (M.bind_ok hq).trans (by rw [hf]; rfl)⟩

theorem Runs.to {α : Type} {x : M α} {s t t' : State} {ts ts' : List Talk} {a : α}
    (h : Runs x s ts a t) (hts : ts = ts') (ht : t = t') : Runs x s ts' a t' := by
  subst hts ht
  exact h

theorem Runs.val {α : Type} {x : M α} {s t : State} {ts : List Talk} {a a' : α}
    (h : Runs x s ts a t) (ha : a = a') : Runs x s ts a' t := by
  subst ha
  exact h

theorem exchange_runs (s : State) (t : Talk) :
    s.env.talks [t] = true → ∃ inp, t.agrees inp = true ∧
      Runs (exchange t.frame) s [t] inp { s with env := s.env.after t.frame } := by
  intro h
  obtain ⟨⟨inp, h₁, h₂⟩, -⟩ := (Env.talks_cons _ _ _).1 h
  exact ⟨inp, h₂, fun _ => ⟨rfl, fun q => ⟨q, by simp [exchange, h₁]⟩⟩⟩

/-- A call does what its body does. -/
theorem Runs.call {α : Type} {line : Nat} {op : OpName} {body : M α} {s t : State} {ts : List Talk}
    {a : α} (h : Runs body s ts a t) : Runs (call line op body) s ts a t := by
  intro hs
  obtain ⟨h₁, h₂⟩ := h hs
  refine ⟨h₁, fun q => ?_⟩
  obtain ⟨q', hq⟩ := h₂ ((q.atLine line).push op)
  exact ⟨q.atLine line, by simp [Machine.call, hq]⟩

theorem goLine_runs (n : Nat) (s : State) : Runs (goLine n) s [] () s :=
  Runs.silent (fun _ => ⟨_, rfl⟩) rfl
theorem goLines_runs (ns : List Nat) (s : State) : Runs (goLines ns) s [] () s :=
  Runs.silent (fun _ => ⟨_, rfl⟩) rfl
theorem become_runs (op : OpName) (s : State) : Runs (become op) s [] () s :=
  Runs.silent (fun _ => ⟨_, rfl⟩) rfl

/-- Moving to a line first changes nothing of what follows. -/
theorem Runs.go {α : Type} {n : Nat} {f : Unit → M α} {s t : State} {ts : List Talk} {a : α}
    (h : Runs (f ()) s ts a t) : Runs (goLine n >>= f) s ts a t := (goLine_runs n s).bind h

/-- Passing through lines first changes nothing of what follows. -/
theorem Runs.goes {α : Type} {ns : List Nat} {f : Unit → M α} {s t : State} {ts : List Talk} {a : α}
    (h : Runs (f ()) s ts a t) : Runs (goLines ns >>= f) s ts a t := (goLines_runs ns s).bind h

/-- Going on as another operation changes nothing of what follows. -/
theorem Runs.become {α : Type} {op : OpName} {f : Unit → M α} {s t : State} {ts : List Talk} {a : α}
    (h : Runs (f ()) s ts a t) : Runs (Machine.become op >>= f) s ts a t := (become_runs op s).bind h

/-- What follows a look at the response registers. -/
theorem Runs.resp {α : Type} {f : RespRegs → M α} {s t : State} {ts : List Talk} {a : α}
    (h : Runs (f s.resp) s ts a t) : Runs (readResp >>= f) s ts a t :=
  Runs.bind (ts := []) (Runs.still (fun _ => rfl) rfl) h

/-- What follows a look at the registers of the anti-collision engine. -/
theorem Runs.sel {α : Type} {f : SelectRegs → M α} {s t : State} {ts : List Talk} {a : α}
    (h : Runs (f s.sel) s ts a t) : Runs (readSelect >>= f) s ts a t :=
  Runs.bind (ts := []) (Runs.still (fun _ => rfl) rfl) h

/-- What follows a look at the parameters. -/
theorem Runs.params {α : Type} {f : Params → M α} {s t : State} {ts : List Talk} {a : α}
    (h : Runs (f s.config) s ts a t) : Runs (readParams >>= f) s ts a t :=
  Runs.bind (ts := []) (Runs.still (fun _ => rfl) rfl) h

theorem framerWr_runs (a : Reg) (v : Byte) (s : State) :
    Runs (framerWr a v) s [talkWr a v] () { s with env := s.env.after (frameWr a v) } := by
  intro h
  obtain ⟨inp, -, hr⟩ := exchange_runs s _ h
  exact (show Runs (framerWr a v) s [talkWr a v] () _ from hr.last rfl) h

theorem framerWrb_runs (a : Reg) (vs : List Byte) (s : State) :
    Runs (framerWrb a vs) s [talkWrb a vs] () { s with env := s.env.after (frameWrb a vs) } := by
  intro h
  obtain ⟨inp, -, hr⟩ := exchange_runs s _ h
  exact (show Runs (framerWrb a vs) s [talkWrb a vs] () _ from hr.last rfl) h

theorem framerRd_runs (a : Reg) (v : Byte) (s : State) :
    Runs (framerRd a) s [.get a v] v { s with env := s.env.after (frameRd a) } := by
  intro h
  obtain ⟨inp, hi, hr⟩ := exchange_runs s _ h
  obtain rfl : inp.getD 1 0#8 = v := by simpa [Talk.agrees] using hi
  exact (show Runs (framerRd a) s [.get a _] _ _ from hr.bind ((goLine_runs 2 _).last rfl)) h

/-- The exchanges of RDB: none for no byte. -/
def burstTalk (a : Reg) (vs : List Byte) : List Talk := if vs = [] then [] else [.burst a vs]

theorem framerRdb_runs (a : Reg) (vs : List Byte) (rxAlign : Nat) (mergeIn : Byte) (s : State) :
    Runs (framerRdb a vs.length rxAlign mergeIn) s (burstTalk a vs) (mergeFirst rxAlign mergeIn vs)
      { s with env := s.env.afterTalk (burstTalk a vs) } := by
  cases vs with
  | nil => exact Runs.pure _ _
  | cons v vs =>
    have ht : burstTalk a (v :: vs) = [.burst a (v :: vs)] := by simp [burstTalk]
    rw [ht]
    intro h
    obtain ⟨inp, hi, hr⟩ := exchange_runs s _ h
    have hv : inp.drop 1 = v :: vs := by simpa [Talk.agrees] using hi
    have hb : Runs (framerRdb a (v :: vs).length rxAlign mergeIn) s [.burst a (v :: vs)]
        (mergeFirst rxAlign mergeIn (v :: vs)) { s with env := s.env.afterTalk [.burst a (v :: vs)] } := by
      simp only [framerRdb, List.length_cons, Nat.add_one_ne_zero, if_false]
      exact Runs.go (hr.bind ((goLines_runs _ _).last (by rw [hv])))
    exact hb h

theorem callWr_runs (line : Nat) (a : Reg) (v : Byte) (s : State) :
    Runs (callWr line a v) s [talkWr a v] () { s with env := s.env.after (frameWr a v) } :=
  Runs.call (framerWr_runs a v _)

theorem callRd_runs (line : Nat) (a : Reg) (v : Byte) (s : State) :
    Runs (callRd line a) s [.get a v] v { s with env := s.env.after (frameRd a) } :=
  Runs.call (framerRd_runs a v _)

theorem setCrcPoll_runs (n : Nat) (s : State) :
    Runs (setCrcPoll n) s [] () { s with crcPoll := n } := Runs.still (fun _ => rfl) rfl
theorem setCmdPoll_runs (n : Nat) (s : State) :
    Runs (setCmdPoll n) s [] () { s with cmdPoll := n } := Runs.still (fun _ => rfl) rfl
theorem present_runs (st : StatusCode) (s : State) :
    Runs (present st) s [] () { s with status := st } := Runs.still (fun _ => rfl) rfl
theorem clearResponse_runs (s : State) :
    Runs clearResponse s [] () { s with resp := s.resp.cleared } := Runs.still (fun _ => rfl) rfl
theorem storeResponse_runs (vals : List Byte) (s : State) :
    Runs (storeResponse vals) s [] ()
      { s with resp :=
        { s.resp with
          bytes := vals ++ s.resp.bytes.drop vals.length
          len := vals.length } } := Runs.still (fun _ => rfl) rfl
theorem setValidBits_runs (v : BitCount) (s : State) :
    Runs (setValidBits v) s [] () { s with resp := { s.resp with validBits := v } } :=
  Runs.still (fun _ => rfl) rfl
theorem modifySelect_runs (f : SelectRegs → SelectRegs) (s : State) :
    Runs (modifySelect f) s [] () { s with sel := f s.sel } := Runs.still (fun _ => rfl) rfl

theorem framerSetb_runs (a : Reg) (mask v : Byte) (s : State) :
    Runs (framerSetb a mask) s [.get a v, talkWr a (v ||| mask)] ()
      { s with
        env := s.env.afterTalk [.get a v, talkWr a (v ||| mask)] } :=
  (callRd_runs 1 a v s).bind (callWr_runs 2 a (v ||| mask) _)

theorem framerClrb_runs (a : Reg) (mask v : Byte) (s : State) :
    Runs (framerClrb a mask) s [.get a v, talkWr a (v &&& ~~~ mask)] ()
      { s with
        env := s.env.afterTalk [.get a v, talkWr a (v &&& ~~~ mask)] } :=
  (callRd_runs 1 a v s).bind (callWr_runs 2 a (v &&& ~~~ mask) _)

-- Running one operation.

/-- The state in which the body of an operation starts. -/
def State.started (s : State) (i : Instr) (op : OpName) : State :=
  { s with seq := .running { op := op, line := 1 } [], latched := some i }

theorem runOp_next {i : Instr} {op : OpName} {body : Params → M Result} {s t : State} {r : Result}
    {ts : List Talk} (hs : s.seq = .idle) (hd : domainError s.env.chip.fifoSize s.params.respCap i = none)
    (h : Runs (body s.config) (s.started i op) ts r t) (ht : s.env.talks ts = true) :
    runOp i op body s = .next { t with seq := .idle, latched := none, result := r } := by
  obtain ⟨q, hb⟩ := h.ok ht
  simp only [State.started] at hb
  simp only [runOp, hs, hd, hb]

/-- An operation answers a next state only from idle, on operands of its domain, by its body. -/
theorem runOp_next_inv {i : Instr} {op : OpName} {body : Params → M Result} {s t : State}
    (h : runOp i op body s = .next t) :
    s.seq = .idle ∧ domainError s.env.chip.fifoSize s.params.respCap i = none ∧
      ∃ r u, body s.config (s.started i op) = .ok r u ∧ t = { u with seq := .idle, latched := none, result := r } := by
  simp only [runOp] at h
  split at h
  · cases h
  · cases h
  · split at h
    · cases h
    · split at h
      · cases h
        exact ⟨‹_›, ‹_›, _, _, ‹_›, rfl⟩
      · cases h
      · cases h

/-- An operation faults only by its body's transport fault. -/
theorem runOp_fault_inv {i : Instr} {op : OpName} {body : Params → M Result} {s t : State}
    (h : runOp i op body s = .fault (.transportFault t)) :
    s.seq = .idle ∧ domainError s.env.chip.fifoSize s.params.respCap i = none ∧
      body s.config (s.started i op) = .error .transport t := by
  simp only [runOp] at h
  split at h
  · cases h
  · cases h
  · split at h
    · cases h
    · split at h
      · cases h
      · cases h
        exact ⟨‹_›, ‹_›, ‹_›⟩
      · cases h

/-- Operands outside the domain are refused. -/
theorem runOp_domain {i : Instr} {op : OpName} {body : Params → M Result} {s : State} {r : Refusal}
    (hs : s.seq = .idle) (hd : domainError s.env.chip.fifoSize s.params.respCap i = some r) : runOp i op body s = .refused r := by
  simp only [runOp, hs, hd]

end Sys2Proof.Machine
end

