-- ==== Sys2Proof/Laws/Exchange.lean ====
section
/-! SUPPORT. What CALC_CRC and COMMUNICATE do, exit by exit, in terms of the exchanges they make (R150, R160). -/

namespace Sys2Proof.Machine

variable {p : Params}

-- Flags of one byte.

theorem anySet_crcIrq : ∀ n : Byte, anySet n Config.crcIrq = n.getLsbD 2 := by decide +kernel
theorem anySet_timerIrq : ∀ n : Byte, anySet n Config.timerIrq = n.getLsbD 0 := by decide +kernel
theorem anySet_errColl : ∀ n : Byte, anySet n Config.errColl = n.getLsbD 3 := by decide +kernel
theorem lastBitsOf_eq : ∀ n : Byte, lastBitsOf Config.codes n = n.extractLsb' 0 3 := by decide +kernel

/-- The reads of one register, one a sample, at a line. -/
theorem samples_cons (a : Reg) (n : Byte) (ns : List Byte) :
    ([.get a n] ++ ns.map (Talk.get a) : List Talk) = (n :: ns).map (Talk.get a) := rfl

-- CALC_CRC.

theorem crcSetup_runs (data : List Byte) (s : State) :
    Runs (crcSetup p.std data) s (crcStart data) ()
      { s with
        env := s.env.afterTalk (crcStart data)
        crcPoll := 0 } :=
  ((callWr_runs 1 Config.regCommand (commandByte Config.cmdIdle) s).bind
    ((callWr_runs 2 Config.regDivIrq Config.crcIrq _).bind
      ((callWr_runs 3 Config.regFIFOLevel Config.flush _).bind
        ((Runs.call (framerWrb_runs Config.regFIFOData data _)).bind
          ((callWr_runs 5 Config.regCommand (commandByte Config.cmdCalcCRC) _).bind
            (Runs.go (setCrcPoll_runs 0 _))))))).to rfl
    (by simp [crcStart, Talk.frame, commandByte])

/-- The status presented and returned. -/
theorem crcReturn_runs (st : StatusCode) (c : List Byte) (s : State) :
    Runs (crcReturn st c) s [] (st, c) { s with status := st } :=
  (present_runs st s).bind (Runs.pure _ _)

/-- One more sample without the flag. -/
theorem pollCrc_quiet (n : Byte) (hn : n.getLsbD 2 = false) (k : Nat) (s t : State) (ts : List Talk)
    (r : StatusCode × List Byte)
    (h : Runs (pollCrc p.std k)
      { s with
        env := s.env.after (frameRd Config.regDivIrq)
        crcPoll := 255 - k } ts r t) :
    Runs (pollCrc p.std (k + 1)) s (.get Config.regDivIrq n :: ts) r t := by
  refine Runs.go ((callRd_runs 8 Config.regDivIrq n s).bind
    ((setCrcPoll_runs (255 - k) _).bind (Runs.go ?_)))
  simp only [anySet_crcIrq, hn, Bool.false_eq_true, if_false]
  exact h

theorem pollCrc_done (lo hi last : Byte) (hl : last.getLsbD 2 = true) :
    ∀ (q : List Byte) (k : Nat) (s : State), (∀ n ∈ q, n.getLsbD 2 = false) → q.length < k → k ≤ 255 →
      Runs (pollCrc p.std k) s
        (q.map (.get Config.regDivIrq) ++
          [.get Config.regDivIrq last, .get Config.regCRCResultL lo, .get Config.regCRCResultH hi])
        (.ok, [lo, hi])
        { s with
          env := s.env.afterTalk (q.map (.get Config.regDivIrq) ++
            [.get Config.regDivIrq last, .get Config.regCRCResultL lo, .get Config.regCRCResultH hi])
          crcPoll := 255 - k + q.length + 1
          status := .ok }
  | _, 0, _, _, hlen, _ => absurd hlen (Nat.not_lt_zero _)
  | [], k + 1, s, _, _, hk => by
    have hb : Runs (pollCrc p.std (k + 1)) s _ (.ok, [lo, hi]) _ :=
      Runs.go ((callRd_runs 8 Config.regDivIrq last s).bind ((setCrcPoll_runs (255 - k) _).bind
        (Runs.go (by
          simp only [anySet_crcIrq, hl, if_true]
          exact (callRd_runs 10 Config.regCRCResultL lo _).bind
            ((callRd_runs 11 Config.regCRCResultH hi _).bind (Runs.go (crcReturn_runs _ _ _)))))))
    refine hb.to rfl ?_
    simp [Talk.frame]
    omega
  | n :: q, k + 1, s, hq, hlen, hk => by
    refine (pollCrc_quiet n (hq n (by simp)) k s _ _ _
      (pollCrc_done lo hi last hl q k _ (fun m hm => hq m (by simp [hm]))
        (by simpa using hlen) (by omega))).to rfl ?_
    simp [Talk.frame]
    simp at hlen
    omega

/-- CALC_CRC that sees the flag within its budget (R150). -/
theorem calcCrc_done (r : CrcRun) (hr : r.ok = true) (data : List Byte) (s : State) :
    Runs (calcCrc p.std data) s (r.talk data) (.ok, r.bytes)
      { s with
        env := s.env.afterTalk (r.talk data)
        crcPoll := r.quiet.length + 1
        status := .ok } := by
  simp only [CrcRun.ok, Bool.and_eq_true, decide_eq_true_eq, List.all_eq_true,
    Bool.not_eq_true'] at hr
  refine ((crcSetup_runs data s).bind
    (pollCrc_done r.lo r.hi r.last hr.2 r.quiet 255 _ hr.1.2 hr.1.1 (Nat.le_refl _))).to ?_ ?_
  · simp [CrcRun.talk]
  · simp [CrcRun.talk, Env.afterTalk_append]

theorem pollCrc_timeout :
    ∀ (k : Nat) (q : List Byte) (s : State), (∀ n ∈ q, n.getLsbD 2 = false) → q.length = k + 1 →
      k + 1 ≤ 255 →
      Runs (pollCrc p.std (k + 1)) s (q.map (.get Config.regDivIrq)) (.timeout, [])
        { s with
          env := s.env.afterTalk (q.map (.get Config.regDivIrq))
          crcPoll := 255
          status := .timeout }
  | _, [], _, _, hlen, _ => by simp at hlen
  | 0, n :: q, s, hq, hlen, _ => by
    obtain rfl : q = [] := by simpa using hlen
    exact (pollCrc_quiet n (hq n (by simp)) 0 s _ _ _ (Runs.go (crcReturn_runs _ _ _))).to rfl
      (by simp [Talk.frame])
  | k + 1, n :: q, s, hq, hlen, hk => by
    refine (pollCrc_quiet n (hq n (by simp)) (k + 1) s _ _ _
      (pollCrc_timeout k q _ (fun m hm => hq m (by simp [hm])) (by simpa using hlen)
        (by omega))).to rfl ?_
    simp [Talk.frame]

/-- CALC_CRC that does not see the flag in 255 samples (R150, R151). -/
theorem calcCrc_timeout (q : List Byte) (hq : ∀ n ∈ q, n.getLsbD 2 = false) (hlen : q.length = 255)
    (data : List Byte) (s : State) :
    Runs (calcCrc p.std data) s (crcStart data ++ q.map (.get Config.regDivIrq)) (.timeout, [])
      { s with
        env := s.env.afterTalk (crcStart data ++ q.map (.get Config.regDivIrq))
        crcPoll := 255
        status := .timeout } :=
  ((crcSetup_runs data s).bind (pollCrc_timeout 254 q _ hq hlen (Nat.le_refl _))).to rfl
    (by simp [Env.afterTalk_append])

-- COMMUNICATE.

theorem commSetup_runs (a : CommArgs) (framing : Byte) (s : State) :
    Runs (commSetup p.std a) s (commStart a framing) ()
      { s with
        env := s.env.afterTalk (commStart a framing)
        resp := s.resp.cleared } := by
  have tail : ∀ s' : State, Runs
      (if a.command = p.std.codes.cmdTransceive then
        call 9 .setb (framerSetb Config.regBitFraming Config.startSend)
      else pure ()) s'
      (if a.command = Config.cmdTransceive then
        [.get Config.regBitFraming framing, talkWr Config.regBitFraming (framing ||| 0x80#8)]
      else []) ()
      (if a.command = Config.cmdTransceive then
        { s' with
          env := s'.env.afterTalk
            [.get Config.regBitFraming framing, talkWr Config.regBitFraming (framing ||| 0x80#8)] }
      else s') := by
    intro s'
    split
    · exact (Runs.call (framerSetb_runs Config.regBitFraming Config.startSend framing _)).to rfl rfl
    · exact Runs.pure _ _
  refine (Runs.go ((clearResponse_runs s).bind
    ((callWr_runs 2 Config.regCommand (commandByte Config.cmdIdle) _).bind
      ((callWr_runs 3 Config.regComIrq Config.irqAll7 _).bind
        ((callWr_runs 4 Config.regFIFOLevel Config.flush _).bind
          ((Runs.call (framerWrb_runs Config.regFIFOData a.sendData _)).bind
            ((callWr_runs 6 Config.regBitFraming (bitFramingByte a.rxAlign a.txValidBits) _).bind
              ((callWr_runs 7 Config.regCommand (commandByte a.command) _).bind
                (Runs.go (tail _)))))))))).to rfl ?_
  simp only [commStart]
  split <;> simp [Talk.frame, commandByte]

/-- One more sample that ends no poll. -/
theorem pollIrq_quiet (w n : Byte) (hn : quietSample w n = true) (k : Nat) (s t : State)
    (ts : List Talk) (b : Bool)
    (h : Runs (pollIrq p.std w k)
      { s with
        env := s.env.after (frameRd Config.regComIrq)
        cmdPoll := 125 - k } ts b t) :
    Runs (pollIrq p.std w (k + 1)) s (.get Config.regComIrq n :: ts) b t := by
  simp only [quietSample, Bool.and_eq_true, Bool.not_eq_true', beq_iff_eq] at hn
  refine Runs.go ((callRd_runs 12 Config.regComIrq n s).bind ((setCmdPoll_runs (125 - k) _).bind
    (Runs.go ?_)))
  have h₁ : anySet n w = false := by simp [anySet, hn.1]
  have h₂ : anySet n Config.timerIrq = false := (anySet_timerIrq n).trans hn.2
  simp only [h₁, h₂, Bool.false_eq_true, if_false]
  exact Runs.go h

theorem pollIrq_seen (w last : Byte) (hl : (last &&& w != 0#8) = true) :
    ∀ (q : List Byte) (k : Nat) (s : State), (∀ n ∈ q, quietSample w n = true) → q.length < k →
      k ≤ 125 →
      Runs (pollIrq p.std w k) s (q.map (.get Config.regComIrq) ++ [.get Config.regComIrq last]) true
        { s with
          env := s.env.afterTalk (q.map (.get Config.regComIrq) ++ [.get Config.regComIrq last])
          cmdPoll := 125 - k + q.length + 1 }
  | _, 0, _, _, hlen, _ => absurd hlen (Nat.not_lt_zero _)
  | [], k + 1, s, _, _, hk => by
    have hb : Runs (pollIrq p.std w (k + 1)) s _ true _ :=
      Runs.go ((callRd_runs 12 Config.regComIrq last s).bind ((setCmdPoll_runs (125 - k) _).bind
        (Runs.go (by
          simp only [anySet, hl, if_true]
          exact Runs.go (Runs.pure _ _)))))
    refine hb.to rfl ?_
    simp [Talk.frame]
    omega
  | n :: q, k + 1, s, hq, hlen, hk => by
    refine (pollIrq_quiet w n (hq n (by simp)) k s _ _ _
      (pollIrq_seen w last hl q k _ (fun m hm => hq m (by simp [hm]))
        (by simpa using hlen) (by omega))).to rfl ?_
    simp [Talk.frame]
    simp at hlen
    omega

/-- The timer flag in a sample with no awaited flag ends the poll. -/
theorem pollIrq_timer (w last : Byte) (hl : last &&& w = 0#8) (ht : last.getLsbD 0 = true) :
    ∀ (q : List Byte) (k : Nat) (s : State), (∀ n ∈ q, quietSample w n = true) → q.length < k →
      k ≤ 125 →
      Runs (pollIrq p.std w k) s (q.map (.get Config.regComIrq) ++ [.get Config.regComIrq last]) false
        { s with
          env := s.env.afterTalk (q.map (.get Config.regComIrq) ++ [.get Config.regComIrq last])
          cmdPoll := 125 - k + q.length + 1 }
  | _, 0, _, _, hlen, _ => absurd hlen (Nat.not_lt_zero _)
  | [], k + 1, s, _, _, hk => by
    have h₁ : anySet last w = false := by simp [anySet, hl]
    have h₂ : anySet last Config.timerIrq = true := (anySet_timerIrq last).trans ht
    have hb : Runs (pollIrq p.std w (k + 1)) s _ false _ :=
      Runs.go ((callRd_runs 12 Config.regComIrq last s).bind ((setCmdPoll_runs (125 - k) _).bind
        (Runs.go (by
          simp only [h₁, h₂, if_true, Bool.false_eq_true, if_false]
          exact Runs.go (Runs.pure _ _)))))
    refine hb.to rfl ?_
    simp [Talk.frame]
    omega
  | n :: q, k + 1, s, hq, hlen, hk => by
    refine (pollIrq_quiet w n (hq n (by simp)) k s _ _ _
      (pollIrq_timer w last hl ht q k _ (fun m hm => hq m (by simp [hm]))
        (by simpa using hlen) (by omega))).to rfl ?_
    simp [Talk.frame]
    simp at hlen
    omega

theorem pollIrq_budget (w : Byte) :
    ∀ (k : Nat) (q : List Byte) (s : State), (∀ n ∈ q, quietSample w n = true) → q.length = k + 1 →
      k + 1 ≤ 125 →
      Runs (pollIrq p.std w (k + 1)) s (q.map (.get Config.regComIrq)) false
        { s with
          env := s.env.afterTalk (q.map (.get Config.regComIrq))
          cmdPoll := 125 }
  | _, [], _, _, hlen, _ => by simp at hlen
  | 0, n :: q, s, hq, hlen, _ => by
    obtain rfl : q = [] := by simpa using hlen
    exact (pollIrq_quiet w n (hq n (by simp)) 0 s _ _ _ (Runs.go (Runs.pure _ _))).to rfl
      (by simp [Talk.frame])
  | k + 1, n :: q, s, hq, hlen, hk => by
    refine (pollIrq_quiet w n (hq n (by simp)) (k + 1) s _ _ _
      (pollIrq_budget w k q _ (fun m hm => hq m (by simp [hm])) (by simpa using hlen)
        (by omega))).to rfl ?_
    simp [Talk.frame]

/-- A poll that ends with silence. -/
theorem pollIrq_silence (w : Byte) (r : CommSilence) (hr : r.ok w = true) (s : State) :
    Runs (pollIrq p.std w 125) s (r.samples.map (.get Config.regComIrq)) false
      { s with
        env := s.env.afterTalk (r.samples.map (.get Config.regComIrq))
        cmdPoll := r.samples.length } := by
  simp only [CommSilence.ok, Bool.or_eq_true, Bool.and_eq_true, decide_eq_true_eq,
    List.all_eq_true] at hr
  obtain ⟨⟨hlen, hq⟩, hl⟩ | ⟨hlen, hq⟩ := hr
  · rcases List.eq_nil_or_concat r.samples with h | ⟨q, n, h⟩
    · simp [h] at hl
    · rw [h] at hlen hq hl ⊢
      simp only [List.concat_eq_append, List.getLast?_append, List.getLast?_singleton,
        Option.some_or, Bool.and_eq_true, beq_iff_eq] at hl
      refine (pollIrq_timer w n hl.1 hl.2 q 125 s (fun m hm => hq m (by simpa using hm))
        (by simp at hlen; omega) (Nat.le_refl _)).to (by simp) (by simp)
  · exact (pollIrq_budget w 124 r.samples s hq hlen (Nat.le_refl _)).to rfl (by rw [hlen])

/-- The response as it is returned. -/
theorem respond_runs (st : StatusCode) (s : State) :
    Runs (respond st) s []
      { status := st, bytes := s.resp.bytes.take s.resp.len, validBits := s.resp.validBits }
      { s with status := st } :=
  (present_runs st s).bind (Runs.resp (Runs.pure _ _))

/-- COMMUNICATE that no flag ends (R166, R167). -/
theorem communicate_timeout (a : CommArgs) (r : CommSilence) (hr : r.ok a.waitIrq = true)
    (s : State) :
    Runs (communicate p.std a) s (r.talk a) { status := .timeout, bytes := [], validBits := 0#3 }
      { s with
        env := s.env.afterTalk (r.talk a)
        resp := s.resp.cleared
        cmdPoll := r.samples.length
        status := .timeout } := by
  have hb : Runs (communicate p.std a) s _ { status := .timeout, bytes := [], validBits := 0#3 } _ :=
    (commSetup_runs a r.framing s).bind
      (Runs.go ((setCmdPoll_runs 0 _).bind ((pollIrq_silence a.waitIrq r hr _).bind (by
        simp only [Bool.false_eq_true, if_false]
        exact respond_runs .timeout _))))
  refine hb.to ?_ ?_
  · simp [CommSilence.talk]
  · simp [CommSilence.talk, Env.afterTalk_append]

/-- COMMUNICATE up to the error register, which shows no fatal error; what follows is the drain and the
verdict. -/
theorem communicate_completed (a : CommArgs) (r : CommRun) (hr : r.ok a.waitIrq = true)
    (s t : State) (ts : List Talk) (x : Response)
    (h : Runs (if a.wantResponse then do
        let room ← drain p.std a
        if room then classify p.std a r.err else respond .noRoom
      else classify p.std a r.err)
      { s with
        env := s.env.afterTalk (r.talk a)
        resp := s.resp.cleared
        cmdPoll := r.quiet.length + 1 } ts x t) :
    Runs (communicate p.std a) s (r.talk a ++ ts) x t := by
  simp only [CommRun.ok, Bool.and_eq_true, decide_eq_true_eq, List.all_eq_true, beq_iff_eq] at hr
  obtain ⟨⟨⟨hlen, hq⟩, hl⟩, he⟩ := hr
  refine (((commSetup_runs a r.framing s).bind
    (Runs.go ((setCmdPoll_runs 0 _).bind ((pollIrq_seen a.waitIrq r.last hl r.quiet 125 _ hq hlen
      (Nat.le_refl _)).bind (t := t) (us := .get Config.regError r.err :: ts) ?_)))).to ?_ rfl)
  · simp only [if_true]
    refine (callRd_runs 16 Config.regError r.err _).bind (t := t) (us := ts) (Runs.go ?_)
    have he' : anySet r.err Config.errFatal = false := by simp [anySet, he]
    simp only [he', Bool.false_eq_true, if_false]
    refine Runs.go ?_
    simpa [CommRun.talk, Env.afterTalk_append, Talk.frame] using h
  · simp [CommRun.talk]

/-- COMMUNICATE with a fatal error bit set (R168). -/
theorem communicate_error (a : CommArgs) (r : CommRun) (hlen : r.quiet.length < 125)
    (hq : ∀ n ∈ r.quiet, quietSample a.waitIrq n = true) (hl : (r.last &&& a.waitIrq != 0#8) = true)
    (he : (r.err &&& 0x13#8 != 0#8) = true) (s : State) :
    Runs (communicate p.std a) s (r.talk a) { status := .error, bytes := [], validBits := 0#3 }
      { s with
        env := s.env.afterTalk (r.talk a)
        resp := s.resp.cleared
        cmdPoll := r.quiet.length + 1
        status := .error } := by
  have ha : ∀ s', Runs (afterCompletion p.std a) s' _ _ _ := fun s' =>
    (callRd_runs 16 Config.regError r.err s').bind (Runs.go (by
      simp only [anySet, he, if_true]
      exact respond_runs .error _))
  have hb : Runs (communicate p.std a) s _ { status := .error, bytes := [], validBits := 0#3 } _ :=
    (commSetup_runs a r.framing s).bind
      (Runs.go ((setCmdPoll_runs 0 _).bind ((pollIrq_seen a.waitIrq r.last hl r.quiet 125 _ hq hlen
        (Nat.le_refl _)).bind (by
        simp only [if_true]
        exact ha _))))
  refine hb.to ?_ ?_
  · simp [CommRun.talk]
  · simp [CommRun.talk, Env.afterTalk_append, Talk.frame]

/-- The drain (R169). -/
theorem drain_runs (a : CommArgs) (vals : List Byte) (hv : vals.length ≤ 64) (control : Byte)
    (s : State) :
    Runs (drain p.std a) s (drainTalk vals control) true
      { s with
        env := s.env.afterTalk (drainTalk vals control)
        resp := s.resp.drained (mergeFirst a.rxAlign a.rxMerge vals) control } := by
  have hb : (byteOfNat vals.length).toNat = vals.length := by
    simp only [byteOfNat, BitVec.toNat_ofNat]
    omega
  have hn : ¬ 64 < vals.length := by omega
  have hd : Runs (drain p.std a) s _ true _ :=
    (callRd_runs 19 Config.regFIFOLevel (byteOfNat vals.length) s).bind (Runs.go (by
      simp only [hb, hn, if_false]
      exact (Runs.call (framerRdb_runs Config.regFIFOData vals a.rxAlign a.rxMerge _)).bind
        ((storeResponse_runs _ _).bind ((callRd_runs 22 Config.regControl control _).bind
          ((setValidBits_runs _ _).bind (Runs.pure _ _))))))
  refine hd.to ?_ ?_
  · simp [drainTalk, burstTalk]
  · simp [drainTalk, Env.afterTalk_append, burstTalk, RespRegs.drained, lastBitsOf_eq, Talk.frame]

/-- The drain of a level above 64: no room (R169). -/
theorem drain_noRoom (a : CommArgs) (m : Byte) (hm : 64 < m.toNat) (s : State) :
    Runs (drain p.std a) s [.get Config.regFIFOLevel m] false
      { s with
        env := s.env.after (frameRd Config.regFIFOLevel) } :=
  (callRd_runs 19 Config.regFIFOLevel m s).bind (Runs.go (by
    simp only [hm, if_true]
    exact Runs.pure _ _))

theorem mergeFirst_length (rx : Nat) (m : Byte) (vs : List Byte) :
    (mergeFirst rx m vs).length = vs.length := by
  cases vs with
  | nil => rfl
  | cons v vs =>
    simp only [mergeFirst]
    split <;> rfl

@[simp] theorem mergeFirst_zero (m : Byte) (vs : List Byte) : mergeFirst 0 m vs = vs := by
  cases vs <;> rfl

@[simp] theorem RespRegs.drained_take (r : RespRegs) (vals : List Byte) (control : Byte) :
    (r.drained vals control).bytes.take (r.drained vals control).len = vals := by
  simp [RespRegs.drained]

theorem RespRegs.cleared_drained (r : RespRegs) (vals : List Byte) (control : Byte) :
    r.cleared.drained vals control = r.drained vals control := rfl

/-- COMMUNICATE that wants a response and gets it: what follows the drain is the verdict. -/
theorem communicate_answered (a : CommArgs) (r : CommRun) (hr : r.ok a.waitIrq = true)
    (hw : a.wantResponse = true) (vals : List Byte) (hv : vals.length ≤ 64) (control : Byte)
    (s t : State) (ts : List Talk) (x : Response)
    (h : Runs (classify p.std a r.err)
      { s with
        env := s.env.afterTalk (r.talk a ++ drainTalk vals control)
        resp := s.resp.drained (mergeFirst a.rxAlign a.rxMerge vals) control
        cmdPoll := r.quiet.length + 1 } ts x t) :
    Runs (communicate p.std a) s (r.talk a ++ drainTalk vals control ++ ts) x t := by
  refine (communicate_completed a r hr s t (drainTalk vals control ++ ts) x ?_).to (by simp) rfl
  simp only [hw, if_true]
  refine (drain_runs a vals hv control _).bind ?_
  simpa [Env.afterTalk_append, RespRegs.cleared_drained] using h

/-- The verdict where no CRC is checked: collision or OK (R170, R173). -/
theorem classify_unchecked (a : CommArgs) (ha : (a.checkCrc && a.wantResponse) = false) (e : Byte)
    (s : State) :
    Runs (classify p.std a e) s []
      { status := if e.getLsbD 3 then .collision else .ok
        bytes := s.resp.bytes.take s.resp.len
        validBits := s.resp.validBits }
      { s with status := if e.getLsbD 3 then .collision else .ok } := by
  simp only [classify, anySet_errColl, ha, Bool.false_eq_true, if_false]
  refine Runs.go ?_
  split
  · exact respond_runs _ _
  · exact Runs.go (Runs.go (respond_runs _ _))

/-- COMMUNICATE whose answer does not fit (R169). -/
theorem communicate_noRoom (a : CommArgs) (r : CommRun) (hr : r.ok a.waitIrq = true)
    (hw : a.wantResponse = true) (m : Byte) (hm : 64 < m.toNat) (s : State) :
    Runs (communicate p.std a) s (r.talk a ++ [.get Config.regFIFOLevel m])
      { status := .noRoom, bytes := [], validBits := 0#3 }
      { s with
        env := s.env.afterTalk (r.talk a ++ [.get Config.regFIFOLevel m])
        resp := s.resp.cleared
        cmdPoll := r.quiet.length + 1
        status := .noRoom } := by
  have hb := communicate_completed (p := p) a r hr s _ _ _ (by
    simp only [hw, if_true]
    exact (drain_noRoom a m hm _).bind (respond_runs .noRoom _))
  exact (hb.to (by simp) (by simp [Env.afterTalk_append, Talk.frame])).val rfl

/-- COMMUNICATE that wants no response: collision or OK, nothing drained (R170, R173). -/
theorem communicate_unanswered (a : CommArgs) (r : CommRun) (hr : r.ok a.waitIrq = true)
    (hw : a.wantResponse = false) (s : State) :
    Runs (communicate p.std a) s (r.talk a)
      { status := if r.err.getLsbD 3 then .collision else .ok, bytes := [], validBits := 0#3 }
      { s with
        env := s.env.afterTalk (r.talk a)
        resp := s.resp.cleared
        cmdPoll := r.quiet.length + 1
        status := if r.err.getLsbD 3 then .collision else .ok } := by
  have hb := communicate_completed (p := p) a r hr s _ _ _ (by
    simp only [hw, Bool.false_eq_true, if_false]
    exact classify_unchecked a (by simp [hw]) r.err _)
  exact (hb.to (by simp) rfl).val rfl

/-- COMMUNICATE with a response and no CRC to check: collision or OK (R170, R173). -/
theorem communicate_drained (a : CommArgs) (r : CommRun) (hr : r.ok a.waitIrq = true)
    (hw : a.wantResponse = true) (hc : a.checkCrc = false ∨ r.err.getLsbD 3 = true)
    (vals : List Byte) (hv : vals.length ≤ 64) (control : Byte) (s : State) :
    Runs (communicate p.std a) s (r.talk a ++ drainTalk vals control)
      { status := if r.err.getLsbD 3 then .collision else .ok
        bytes := mergeFirst a.rxAlign a.rxMerge vals
        validBits := control.extractLsb' 0 3 }
      { s with
        env := s.env.afterTalk (r.talk a ++ drainTalk vals control)
        resp := s.resp.drained (mergeFirst a.rxAlign a.rxMerge vals) control
        cmdPoll := r.quiet.length + 1
        status := if r.err.getLsbD 3 then .collision else .ok } := by
  have hcl : ∀ s' : State, Runs (classify p.std a r.err) s' []
      { status := if r.err.getLsbD 3 then .collision else .ok
        bytes := s'.resp.bytes.take s'.resp.len
        validBits := s'.resp.validBits }
      { s' with status := if r.err.getLsbD 3 then .collision else .ok } := by
    intro s'
    rcases hc with hc | hc
    · exact classify_unchecked a (by simp [hc]) r.err s'
    · simp only [classify, anySet_errColl, hc, if_true]
      exact Runs.go (respond_runs _ _)
  have hb := communicate_answered (p := p) a r hr hw vals hv control s _ _ _ (hcl _)
  exact (hb.to (by simp) rfl).val (by simp [RespRegs.drained])

/-- The verdict on a response whose shape rules the CRC check out (R171, R172). -/
theorem communicate_shape (a : CommArgs) (r : CommRun) (hr : r.ok a.waitIrq = true)
    (hw : a.wantResponse = true) (hc : a.checkCrc = true) (he : r.err.getLsbD 3 = false)
    (vals : List Byte) (hv : vals.length ≤ 64) (control : Byte) (s : State) (st : StatusCode)
    (hst : (st = .mifareNack ∧ vals.length = 1 ∧ control.extractLsb' 0 3 = 4#3) ∨
      (st = .crcWrong ∧ (vals.length < 2 ∨ control.extractLsb' 0 3 ≠ 0#3) ∧
        ¬ (vals.length = 1 ∧ control.extractLsb' 0 3 = 4#3))) :
    Runs (communicate p.std a) s (r.talk a ++ drainTalk vals control)
      { status := st
        bytes := mergeFirst a.rxAlign a.rxMerge vals
        validBits := control.extractLsb' 0 3 }
      { s with
        env := s.env.afterTalk (r.talk a ++ drainTalk vals control)
        resp := s.resp.drained (mergeFirst a.rxAlign a.rxMerge vals) control
        cmdPoll := r.quiet.length + 1
        status := st } := by
  have hcl : ∀ s' : State,
      s'.resp = s.resp.drained (mergeFirst a.rxAlign a.rxMerge vals) control →
      Runs (classify p.std a r.err) s' []
        { status := st
          bytes := s'.resp.bytes.take s'.resp.len
          validBits := s'.resp.validBits }
        { s' with status := st } := by
    intro s' hs'
    simp only [classify, anySet_errColl, he, hc, hw, Bool.and_self, if_true, Bool.false_eq_true,
      if_false]
    refine Runs.go (Runs.go (Runs.go (Runs.resp ?_)))
    have hl : (s'.resp.bytes.take s'.resp.len).length = vals.length := by
      rw [hs', RespRegs.drained_take, mergeFirst_length]
    have hvb : s'.resp.validBits = control.extractLsb' 0 3 := by rw [hs', RespRegs.drained]
    simp only [hl, hvb, nakShape, tooShortForCrc]
    rcases hst with ⟨rfl, h₁, h₂⟩ | ⟨rfl, h₁, h₂⟩
    · simp only [h₁, h₂, beq_self_eq_true, Bool.and_self, if_true]
      exact (respond_runs .mifareNack s').val (by rw [hvb, h₂])
    · have hn : (vals.length == 1 && control.extractLsb' 0 3 == 4#3) = false := by
        simpa using h₂
      have ht : (decide (vals.length < 2) || control.extractLsb' 0 3 != 0#3) = true := by
        simpa using h₁
      simp only [hn, ht, if_true, Bool.false_eq_true, if_false]
      exact Runs.go ((respond_runs .crcWrong s').val (by rw [hvb]))
  have hb := communicate_answered (p := p) a r hr hw vals hv control s _ _ _ (hcl _ rfl)
  exact (hb.to (by simp) rfl).val (by simp [RespRegs.drained])

/-- The verdict on a response with a CRC_A (R172, R173). -/
theorem communicate_checked (a : CommArgs) (r : CommRun) (hr : r.ok a.waitIrq = true)
    (hw : a.wantResponse = true) (hc : a.checkCrc = true) (he : r.err.getLsbD 3 = false)
    (vals : List Byte) (hv : vals.length ≤ 64) (h2 : 2 ≤ vals.length) (control : Byte)
    (hvb : control.extractLsb' 0 3 = 0#3) (c : CrcRun) (hcr : c.ok = true) (s : State)
    (resp : List Byte) (hresp : resp = mergeFirst a.rxAlign a.rxMerge vals) (st : StatusCode)
    (hst : st = if resp.drop (resp.length - 2) = [c.lo, c.hi] then .ok else .crcWrong) :
    Runs (communicate p.std a) s
      (r.talk a ++ drainTalk vals control ++ c.talk (resp.take (resp.length - 2)))
      { status := st, bytes := resp, validBits := 0#3 }
      { s with
        env := s.env.afterTalk
          (r.talk a ++ drainTalk vals control ++ c.talk (resp.take (resp.length - 2)))
        resp := s.resp.drained resp control
        crcPoll := c.quiet.length + 1
        cmdPoll := r.quiet.length + 1
        status := st } := by
  have hlr : resp.length = vals.length := by rw [hresp, mergeFirst_length]
  have hm : crcMatches [c.lo, c.hi] resp (resp.length - 2) =
      decide (resp.drop (resp.length - 2) = [c.lo, c.hi]) := by
    obtain ⟨x, y, hxy⟩ : ∃ x y, resp.drop (resp.length - 2) = [x, y] := by
      have : (resp.drop (resp.length - 2)).length = 2 := by
        rw [List.length_drop]
        omega
      match h : resp.drop (resp.length - 2), this with
      | [x, y], _ => exact ⟨x, y, rfl⟩
    have h0 : resp.getD (resp.length - 2) 0#8 = x := by
      have : (resp.drop (resp.length - 2)).getD 0 0#8 = x := by rw [hxy]; rfl
      simpa using this
    have h1 : resp.getD (resp.length - 2 + 1) 0#8 = y := by
      have : (resp.drop (resp.length - 2)).getD 1 0#8 = y := by rw [hxy]; rfl
      simpa using this
    rw [crcMatches, h0, h1, hxy]
    simp [eq_comm, Bool.beq_eq_decide_eq]
  have hcl : ∀ s' : State, s'.resp = s.resp.drained resp control →
      Runs (classify p.std a r.err) s' (c.talk (resp.take (resp.length - 2)))
        { status := st, bytes := resp, validBits := 0#3 }
        { s' with
          env := s'.env.afterTalk (c.talk (resp.take (resp.length - 2)))
          crcPoll := c.quiet.length + 1
          status := st } := by
    intro s' hs'
    simp only [classify, anySet_errColl, he, hc, hw, Bool.and_self, if_true, Bool.false_eq_true,
      if_false]
    refine Runs.go (Runs.go (Runs.go (Runs.resp ?_)))
    have hl : s'.resp.bytes.take s'.resp.len = resp := by rw [hs', RespRegs.drained_take]
    have hb : s'.resp.validBits = 0#3 := by rw [hs', RespRegs.drained, hvb]
    have hn : (resp.length == 1 && (0#3 : BitCount) == 4#3) = false := by simp
    have ht : (decide (resp.length < 2) || (0#3 : BitCount) != 0#3) = false := by
      simp
      omega
    simp only [hl, hb, nakShape, tooShortForCrc, hn, ht, Bool.false_eq_true, if_false]
    refine Runs.go
      (((Runs.call (calcCrc_done c hcr _ _)).bind (us := []) ?_).to (List.append_nil _) rfl)
    refine Runs.go ?_
    simp only [CrcRun.bytes, ne_eq, not_true, if_false, hm, decide_eq_true_eq]
    refine Runs.go ?_
    have hend : ∀ x : StatusCode, Runs (respond x)
        { s' with
          env := s'.env.afterTalk (c.talk (resp.take (resp.length - 2)))
          crcPoll := c.quiet.length + 1
          status := .ok } [] { status := x, bytes := resp, validBits := 0#3 }
        { s' with
          env := s'.env.afterTalk (c.talk (resp.take (resp.length - 2)))
          crcPoll := c.quiet.length + 1
          status := x } := by
      intro x
      exact (respond_runs x _).val (by simp [hl, hb])
    rw [hst]
    split
    · exact Runs.go (hend _)
    · exact Runs.go (hend _)
  have hb := communicate_answered (p := p) a r hr hw vals hv control s _ _ _ (hcl _ (by rw [hresp]))
  exact hb.to rfl (by simp [Env.afterTalk_append, hresp])

/-- TRANSCEIVE does what its COMMUNICATE does (R175). -/
theorem Runs.transceive {data : List Byte} {want check : Bool} {tx rx : Nat} {merge : Byte}
    {s t : State} {ts : List Talk} {x : Response}
    (h : Runs (transceiveStep p.std data want tx rx check merge) s ts x t) :
    Runs (Machine.transceive p.std data want tx rx check merge) s ts x t := h.call

/-- TRANSCEIVE in its own place does what its COMMUNICATE does (R175, R21). -/
theorem Runs.transceiveInPlace {data : List Byte} {want check : Bool} {tx rx : Nat} {merge : Byte}
    {s t : State} {ts : List Talk} {x : Response}
    (h : Runs (transceiveStep p.std data want tx rx check merge) s ts x t) :
    Runs (Machine.transceiveInPlace p.std data want tx rx check merge) s ts x t := Runs.become h

/-- TRANSCEIVE with an answer and no check (R170 to R173, R175): collision or OK. -/
theorem transceiveStep_answered (r : CommRun) (hr : r.ok p.waitTransceive = true)
    (data : List Byte) (tx rx : Nat) (merge : Byte) (vals : List Byte) (hv : vals.length ≤ 64)
    (control : Byte) (s : State) :
    Runs (transceiveStep p.std data true tx rx false merge) s
      (r.talk (transceiveArgs data true tx rx false 0#8) ++ drainTalk vals control)
      { status := if r.err.getLsbD 3 then .collision else .ok
        bytes := mergeFirst rx merge vals
        validBits := control.extractLsb' 0 3 }
      { s with
        env := s.env.afterTalk
          (r.talk (transceiveArgs data true tx rx false 0#8) ++ drainTalk vals control)
        resp := s.resp.drained (mergeFirst rx merge vals) control
        cmdPoll := r.quiet.length + 1
        status := if r.err.getLsbD 3 then .collision else .ok } :=
  (communicate_drained _ r hr rfl (.inl rfl) vals hv
    control s).to rfl rfl

/-- TRANSCEIVE with an answer whose CRC_A matches (R172, R175). -/
theorem transceiveStep_checked (r : CommRun) (hr : r.ok p.waitTransceive = true)
    (he : r.err.getLsbD 3 = false) (data : List Byte) (vals : List Byte) (hv : vals.length ≤ 64)
    (h2 : 2 ≤ vals.length) (control : Byte) (hvb : control.extractLsb' 0 3 = 0#3) (c : CrcRun)
    (hcr : c.ok = true) (hm : vals.drop (vals.length - 2) = [c.lo, c.hi]) (s : State) :
    Runs (transceiveStep p.std data true 0 0 true 0#8) s
      (r.talk (transceiveArgs data true 0 0 false 0#8) ++ drainTalk vals control ++
        c.talk (vals.take (vals.length - 2)))
      { status := .ok, bytes := vals, validBits := 0#3 }
      { s with
        env := s.env.afterTalk
          (r.talk (transceiveArgs data true 0 0 false 0#8) ++ drainTalk vals control ++
            c.talk (vals.take (vals.length - 2)))
        resp := s.resp.drained vals control
        crcPoll := c.quiet.length + 1
        cmdPoll := r.quiet.length + 1
        status := .ok } :=
  (communicate_checked _ r hr rfl rfl he vals hv h2
    control hvb c hcr s vals (mergeFirst_zero _ _).symm .ok (by rw [if_pos hm])).to rfl rfl

/-- TRANSCEIVE that wants no response: collision or OK (R170, R173, R175). -/
theorem transceiveStep_unanswered (r : CommRun) (hr : r.ok p.waitTransceive = true)
    (data : List Byte) (s : State) :
    Runs (transceiveStep p.std data false 0 0 false 0#8) s
      (r.talk (transceiveArgs data false 0 0 false 0#8))
      { status := if r.err.getLsbD 3 then .collision else .ok, bytes := [], validBits := 0#3 }
      { s with
        env := s.env.afterTalk (r.talk (transceiveArgs data false 0 0 false 0#8))
        resp := s.resp.cleared
        cmdPoll := r.quiet.length + 1
        status := if r.err.getLsbD 3 then .collision else .ok } :=
  (communicate_unanswered _ r hr rfl s).to rfl rfl

/-- TRANSCEIVE with no answer (R166, R167). -/
theorem transceiveStep_silence (r : CommSilence) (hr : r.ok p.waitTransceive = true)
    (data : List Byte) (want check : Bool) (tx rx : Nat) (merge : Byte) (s : State) :
    Runs (transceiveStep p.std data want tx rx check merge) s
      (r.talk (transceiveArgs data want tx rx check merge))
      { status := .timeout, bytes := [], validBits := 0#3 }
      { s with
        env := s.env.afterTalk (r.talk (transceiveArgs data want tx rx check merge))
        resp := s.resp.cleared
        cmdPoll := r.samples.length
        status := .timeout } :=
  (communicate_timeout _ r hr s).to rfl rfl

/-- The exchanges of an operation depend on its frame, not on what is done with the answer. -/
theorem talk_unchecked (r : CommRun) (data : List Byte) (tx rx : Nat) (want want' check check' : Bool)
    (m m' : Byte) :
    r.talk (transceiveArgs data want tx rx check m) =
      r.talk (transceiveArgs data want' tx rx check' m') := rfl

end Sys2Proof.Machine
end

