-- ==== Sys2Proof/Laws/Exec.lean ====
section
/-! SUPPORT. Every instruction is one run of a body: `exec i` is `runOp` of the instruction's own operation name and body. -/

namespace Sys2Proof.Machine

/-- The operation an instruction runs as. -/
def Instr.opName : Instr → OpName
  | .wr _ _ => .wr
  | .wrb _ _ => .wrb
  | .rd _ => .rd
  | .rdb _ _ _ _ => .rdb
  | .setb _ _ => .setb
  | .clrb _ _ => .clrb
  | .calcCrc _ => .calcCrc
  | .communicate _ _ _ _ _ _ _ _ => .communicate
  | .transceive _ _ _ _ _ _ => .transceive
  | .reqa => .reqa
  | .wupa => .wupa
  | .select _ _ => .select
  | .hlta => .hlta
  | .auth _ _ _ _ => .auth
  | .stopCrypto1 => .stopCrypto1
  | .mfTransceive _ _ => .mfTransceive
  | .mfRead _ => .mfRead
  | .mfWrite _ _ => .mfWrite
  | .ulWrite _ _ => .ulWrite
  | .mfIncrement _ _ => .mfIncrement
  | .mfDecrement _ _ => .mfDecrement
  | .mfRestore _ => .mfRestore
  | .mfTransfer _ => .mfTransfer
  | .mfGetValue _ => .mfGetValue
  | .mfSetValue _ _ => .mfSetValue
  | .xferWr _ _ => .transportFrame
  | .xferWrb _ _ => .transportFrame
  | .xferRd _ => .transportFrame
  | .xferRdb _ _ => .transportFrame
  | .cmdIdle => .chipCommand
  | .cmdMem => .chipCommand
  | .cmdCalcCRC => .chipCommand
  | .cmdTransceive => .chipCommand
  | .cmdMFAuthent => .chipCommand
  | .cmdSoftReset => .chipCommand
  | .cmdGenerateRandomID => .chipCommand
  | .cmdTransmit => .chipCommand
  | .cmdNoCmdChange => .chipCommand
  | .cmdReceive => .chipCommand
  | .piccReqa => .cardCommand
  | .piccWupa => .cardCommand
  | .piccSelCl1 _ _ => .cardCommand
  | .piccSelCl2 _ _ => .cardCommand
  | .piccSelCl3 _ _ => .cardCommand
  | .piccHlta => .cardCommand
  | .piccAuthKeyA _ _ _ => .cardCommand
  | .piccAuthKeyB _ _ _ => .cardCommand
  | .piccMfRead _ => .cardCommand
  | .piccMfWrite _ _ => .cardCommand
  | .piccUlWrite _ _ => .cardCommand
  | .piccMfDecrement _ _ => .cardCommand
  | .piccMfIncrement _ _ => .cardCommand
  | .piccMfRestore _ => .cardCommand
  | .piccMfTransfer _ => .cardCommand

/-- The steps of an instruction for the machine's parameters (the rule of each is cited at its meaning). -/
def Instr.body (p : Params) : Instr → M Result
  | .wr reg value => do
    framerWr reg value
    pure (plainResult .none)
  | .wrb reg values => do
    framerWrb reg values
    pure (plainResult .none)
  | .rd reg => do
    let b ← framerRd reg
    pure (plainResult (.byte b))
  | .rdb reg count rxAlign mergeIn => do
    let bs ← framerRdb reg count rxAlign mergeIn
    pure (plainResult (.bytes bs))
  | .setb reg mask => do
    framerSetb reg mask
    pure (plainResult .none)
  | .clrb reg mask => do
    framerClrb reg mask
    pure (plainResult .none)
  | .calcCrc data => do
    let (st, c) ← calcCrc p data
    pure (statusResult st (.bytes c))
  | .communicate command waitIrq sendData wantResponse txValidBits rxAlign checkCrc rxMerge => do
      let r ← communicate p
        { command := command
          waitIrq := waitIrq
          sendData := sendData
          wantResponse := wantResponse
          txValidBits := txValidBits
          rxAlign := rxAlign
          checkCrc := checkCrc
          rxMerge := rxMerge }
      pure (responseResult r)
  | .transceive sendData wantResponse txValidBits rxAlign checkCrc rxMerge => do
    let r ← transceive p sendData wantResponse txValidBits rxAlign checkCrc rxMerge
    pure (responseResult r)
  | .reqa => do
    let x ← request p p.codes.piccREQA
    pure (requestResult x)
  | .wupa => do
    let x ← request p p.codes.piccWUPA
    pure (requestResult x)
  | .select knownUid knownValidBits => do
    let st ← select p knownUid knownValidBits
    let q ← readSelect
    pure (statusResult st (.uid (recordOf q)))
  | .hlta => do
    let st ← halt p
    pure (statusResult st .none)
  | .auth cmd block key uid => do
    let r ← authenticate p (authFrame cmd block key (uidTail uid))
    goLine 3
    let st ← finish r.status
    pure (statusResult st .none)
  | .stopCrypto1 => do
    call 1 .clrb (framerClrb p.codes.regStatus2 p.codes.crypto1On)
    pure (plainResult .none)
  | .mfTransceive payload acceptTimeout => do
    let st ← mfTransceive p payload acceptTimeout
    pure (statusResult st .none)
  | .mfRead block => do
    let (st, d) ← mfRead p block
    pure (statusResult st (if st = .ok then .bytes d else .none))
  | .mfWrite block data => do
    let st ← mfWrite p block data
    pure (statusResult st .none)
  | .ulWrite page data => do
    let st ← ulWrite p page data
    pure (statusResult st .none)
  | .mfIncrement block delta => do
    let st ← twoStep p p.codes.piccMfIncrement block delta
    pure (statusResult st .none)
  | .mfDecrement block delta => do
    let st ← twoStep p p.codes.piccMfDecrement block delta
    pure (statusResult st .none)
  | .mfRestore block => do
    let st ← twoStep p p.codes.piccMfRestore block 0#32
    pure (statusResult st .none)
  | .mfTransfer block => do
    let st ← call 1 .mfTransceive (mfTransceive p [p.codes.piccMfTransfer, block] false)
    pure (statusResult st .none)
  | .mfGetValue block => do
    let (st, d) ← call 1 .mfRead (mfRead p block)
    if st ≠ .ok then do
      present st
      pure (statusResult st .none)
    else do
      goLines [2, 3]
      present .ok
      pure (statusResult .ok (.value (valueOfBytes d)))
  | .mfSetValue block value => do
    goLines [1, 2, 3, 4]
    become .mfWrite
    let st ← mfWrite p block (valueBlock value block)
    pure (statusResult st .none)
  | .xferWr reg value => do
    let _ ← exchange (frameWr reg value)
    pure (plainResult .none)
  | .xferWrb reg values => do
    let _ ← exchange (frameWrb reg values)
    pure (plainResult .none)
  | .xferRd reg => do
    let inp ← exchange (frameRd reg)
    pure (plainResult (.byte (inp.getD 1 0#8)))
  | .xferRdb reg count => do
    let inp ← exchange (frameRdb reg count)
    pure (plainResult (.bytes (inp.drop 1)))
  | .cmdIdle => issueCommand p p.codes.cmdIdle
  | .cmdMem => issueCommand p p.codes.cmdMem
  | .cmdCalcCRC => issueCommand p p.codes.cmdCalcCRC
  | .cmdTransceive => issueCommand p p.codes.cmdTransceive
  | .cmdMFAuthent => issueCommand p p.codes.cmdMFAuthent
  | .cmdSoftReset => issueCommand p p.codes.cmdSoftReset
  | .cmdGenerateRandomID => issueCommand p p.codes.cmdGenerateRandomID
  | .cmdTransmit => issueCommand p p.codes.cmdTransmit
  | .cmdNoCmdChange => issueCommand p p.codes.cmdNoCmdChange
  | .cmdReceive => issueCommand p p.codes.cmdReceive
  | .piccReqa => do
    let r ← call 1 .transceive (transceive p [p.codes.piccREQA] true 7 0 false 0#8)
    pure (responseResult r)
  | .piccWupa => do
    let r ← call 1 .transceive (transceive p [p.codes.piccWUPA] true 7 0 false 0#8)
    pure (responseResult r)
  | .piccSelCl1 known window => do
    let r ← selectCommand p p.codes.piccSelCl1 known window
    pure (responseResult r)
  | .piccSelCl2 known window => do
    let r ← selectCommand p p.codes.piccSelCl2 known window
    pure (responseResult r)
  | .piccSelCl3 known window => do
    let r ← selectCommand p p.codes.piccSelCl3 known window
    pure (responseResult r)
  | .piccHlta => do
    let r ← standardFrame p [p.codes.piccHLTA, 0x00#8] false false
    pure (responseResult r)
  | .piccAuthKeyA block key tail => do
    let r ← authenticate p (authFrame p.codes.piccAuthKeyA block key tail)
    pure (responseResult r)
  | .piccAuthKeyB block key tail => do
    let r ← authenticate p (authFrame p.codes.piccAuthKeyB block key tail)
    pure (responseResult r)
  | .piccMfRead block => do
    let r ← standardFrame p [p.codes.piccMfRead, block] true true
    pure (responseResult r)
  | .piccMfWrite block data => do
    let st ← twoFrames p [p.codes.piccMfWrite, block] data false
    pure (statusResult st .none)
  | .piccUlWrite page data => do
    let st ← call 1 .mfTransceive (mfTransceive p ([p.codes.piccUlWrite, page] ++ data) false)
    pure (statusResult st .none)
  | .piccMfDecrement block delta => do
    let st ← twoFrames p [p.codes.piccMfDecrement, block] (le32 delta) true
    pure (statusResult st .none)
  | .piccMfIncrement block delta => do
    let st ← twoFrames p [p.codes.piccMfIncrement, block] (le32 delta) true
    pure (statusResult st .none)
  | .piccMfRestore block => do
    let st ← twoFrames p [p.codes.piccMfRestore, block] (List.replicate 4 0x00#8) true
    pure (statusResult st .none)
  | .piccMfTransfer block => do
    let st ← call 1 .mfTransceive (mfTransceive p [p.codes.piccMfTransfer, block] false)
    pure (statusResult st .none)

/-- Parameters whose codes and response capacity have the spec's values are what they are with these. -/
theorem State.standard.config_eq {s : State} (h : s.standard) : s.config.std = s.config := by
  obtain ⟨h₁, h₂⟩ := Prod.mk.inj h
  simp only [Params.std, State.config, ← h₁, ← h₂]

theorem exec_eq (i : Instr) (s : State) : exec i s = runOp i (Instr.opName i) (fun p => Instr.body p i) s := by
  cases i <;> rfl

/-- An instruction whose exchanges are answered ends in the state its body ends in, its result presented. -/
theorem exec_next {i : Instr} {s t u : State} {ts : List Talk} {r : Result} (hs : s.seq = .idle)
    (hd : domainError s.env.chip.fifoSize s.params.respCap i = none)
    (h : Runs (Instr.body s.config i) (s.started i (Instr.opName i)) ts r t)
    (ht : s.env.talks ts = true)
    (hu : { t with seq := .idle, latched := none, result := r } = u) : exec i s = .next u :=
  hu ▸ (exec_eq i s).trans (runOp_next hs hd h ht)

/-- The same where these parameters have the spec's values (log 24). -/
theorem exec_next_std {i : Instr} {s t u : State} {ts : List Talk} {r : Result} (hs : s.seq = .idle)
    (hp : s.standard) (hd : domainError s.env.chip.fifoSize s.params.respCap i = none)
    (h : Runs (Instr.body s.config.std i) (s.started i (Instr.opName i)) ts r t)
    (ht : s.env.talks ts = true)
    (hu : { t with seq := .idle, latched := none, result := r } = u) : exec i s = .next u :=
  exec_next hs hd (by rwa [hp.config_eq] at h) ht hu

/-- An instruction that answers a next state ran its body to the end. -/
theorem exec_next_inv {i : Instr} {s t : State} (h : exec i s = .next t) :
    s.seq = .idle ∧ domainError s.env.chip.fifoSize s.params.respCap i = none ∧
      ∃ r u, Instr.body s.config i (s.started i (Instr.opName i)) = .ok r u ∧
        t = { u with seq := .idle, latched := none, result := r } :=
  runOp_next_inv ((exec_eq i s).symm.trans h)

/-- An instruction that faults had its body stopped by a transport fault. -/
theorem exec_fault_inv {i : Instr} {s t : State} (h : exec i s = .fault (.transportFault t)) :
    s.seq = .idle ∧ domainError s.env.chip.fifoSize s.params.respCap i = none ∧
      Instr.body s.config i (s.started i (Instr.opName i)) = .error .transport t :=
  runOp_fault_inv ((exec_eq i s).symm.trans h)

end Sys2Proof.Machine
end

