-- ==== Sys2Proof/Laws/Memory.lean ====
section
/-! SUPPORT. The chip's register memory: reading after a write, the canonical form kept, equal memories equal data (spec/20_memory.md R62, R72). -/

namespace Sys2Proof.Machine

variable {q : Codes}

/-- Every listed address is at least `k`. -/
def Memory.from (k : Nat) : Memory → Bool
  | [] => true
  | c :: m => decide (k ≤ c.1) && Memory.from (c.1 + 1) m

theorem Memory.sorted_cons (c : Host.Cell) (m : Memory) :
    Memory.sorted (c :: m) = Memory.from (c.1 + 1) m := by
  induction m generalizing c with
  | nil => rfl
  | cons d m ih => simp only [Memory.sorted, Memory.from, ih, Nat.succ_le_iff]

theorem Memory.from_mono {j k : Nat} (h : j ≤ k) {m : Memory} (hm : m.from k = true) :
    m.from j = true := by
  cases m with
  | nil => rfl
  | cons c m =>
    simp only [Memory.from, Bool.and_eq_true, decide_eq_true_eq] at hm ⊢
    exact ⟨h.trans hm.1, hm.2⟩

theorem Memory.sorted_from (m : Memory) : m.sorted = m.from 0 := by
  cases m with
  | nil => rfl
  | cons c m => simp [Memory.sorted_cons, Memory.from]

/-- An address below all listed ones is not listed. -/
theorem Memory.read_below {a k : Nat} (h : a < k) {m : Memory} (hm : m.from k = true) :
    m.read q a = Memory.background q a := by
  cases m with
  | nil => rfl
  | cons c m =>
    simp only [Memory.from, Bool.and_eq_true, decide_eq_true_eq] at hm
    have h1 : a ≠ c.1 := by omega
    have h2 : a < c.1 := by omega
    simp [Memory.read, h1, h2]

theorem Memory.read_insert (m : Memory) (a b : Nat) (v : Byte) :
    (m.insert a v).read q b = if b = a then v else m.read q b := by
  induction m with
  | nil => by_cases h : b = a <;> simp [Memory.insert, Memory.read, h]
  | cons c m ih =>
    simp only [Memory.insert]
    split
    · by_cases h : b = a
      · simp [Memory.read, h]
      · by_cases h2 : b < a
        · have h3 : b ≠ c.1 := by omega
          have h4 : b < c.1 := by omega
          simp [Memory.read, h, h2, h3, h4]
        · simp [Memory.read, h, h2]
    · split
      · rename_i h1 h2
        subst h2
        by_cases h : b = c.1 <;> simp [Memory.read, h]
      · rename_i h1 h2
        by_cases h : b = c.1
        · have h3 : b ≠ a := by omega
          have h4 : c.1 ≠ a := by omega
          simp [Memory.read, h, h4]
        · by_cases h3 : b < c.1
          · have h4 : b ≠ a := by omega
            simp [Memory.read, h, h3, h4]
          · simp [Memory.read, h, h3, ih]

theorem Memory.read_erase {m : Memory} (hm : m.sorted = true) (a b : Nat) :
    (m.erase a).read q b = if b = a then Memory.background q a else m.read q b := by
  rw [Memory.sorted_from] at hm
  suffices ∀ k, m.from k = true →
      (m.erase a).read q b = if b = a then Memory.background q a else m.read q b from this 0 hm
  clear hm
  intro k hm
  induction m generalizing k with
  | nil => by_cases h : b = a <;> simp [Memory.erase, Memory.read, h]
  | cons c m ih =>
    simp only [Memory.from, Bool.and_eq_true, decide_eq_true_eq] at hm
    simp only [Memory.erase]
    split
    · by_cases h : b = a
      · subst h
        have h1 : b ≠ c.1 := by omega
        simp [Memory.read, *]
      · simp [h]
    · split
      · rename_i h1 h2
        by_cases h : b = a
        · rw [if_pos h, h]
          exact Memory.read_below (by omega) hm.2
        · rw [if_neg h]
          by_cases h3 : b < c.1
          · have h4 : b ≠ c.1 := by omega
            simp only [Memory.read, h4, if_false, h3, if_true]
            exact Memory.read_below (by omega) hm.2
          · have h4 : b ≠ c.1 := by omega
            simp [Memory.read, h3, h4]
      · rename_i h1 h2
        by_cases h : b = c.1
        · have h3 : b ≠ a := by omega
          have h4 : c.1 ≠ a := by omega
          simp [Memory.read, h, h4]
        · by_cases h3 : b < c.1
          · have h4 : b ≠ a := by omega
            simp [Memory.read, h, h3, h4]
          · simp [Memory.read, h, h3, ih _ hm.2]

/-- A byte written is read back, and every other address reads as before (R71, R72). -/
theorem Memory.read_write {m : Memory} (hm : m.wf q = true) (a b : Nat) (v : Byte) :
    (m.write q a v).read q b = if b = a then v else m.read q b := by
  simp only [Memory.wf, Bool.and_eq_true] at hm
  unfold Memory.write
  split
  · rename_i h
    rw [Memory.read_erase hm.1, h]
  · exact Memory.read_insert m a b v

@[simp] theorem Memory.read_write_same {m : Memory} (hm : m.wf q = true) (a : Nat) (v : Byte) :
    (m.write q a v).read q a = v := by simp [Memory.read_write hm]

theorem Memory.read_write_other {m : Memory} (hm : m.wf q = true) {a b : Nat} (h : b ≠ a) (v : Byte) :
    (m.write q a v).read q b = m.read q b := by simp [Memory.read_write hm, h]

theorem Memory.from_insert {m : Memory} {k a : Nat} (h : k ≤ a) (v : Byte) (hm : m.from k = true) :
    (m.insert a v).from k = true := by
  induction m generalizing k with
  | nil => simpa [Memory.insert, Memory.from] using h
  | cons c m ih =>
    simp only [Memory.from, Bool.and_eq_true, decide_eq_true_eq] at hm
    simp only [Memory.insert]
    split
    · simp only [Memory.from, Bool.and_eq_true, decide_eq_true_eq]
      exact ⟨h, by omega, hm.2⟩
    · split
      · rename_i h1 h2
        subst h2
        simp only [Memory.from, Bool.and_eq_true, decide_eq_true_eq]
        exact ⟨h, hm.2⟩
      · simp only [Memory.from, Bool.and_eq_true, decide_eq_true_eq]
        exact ⟨hm.1, ih (by omega) hm.2⟩

theorem Memory.from_erase {m : Memory} {k : Nat} (a : Nat) (hm : m.from k = true) :
    (m.erase a).from k = true := by
  induction m generalizing k with
  | nil => rfl
  | cons c m ih =>
    have hm0 := hm
    simp only [Memory.from, Bool.and_eq_true, decide_eq_true_eq] at hm
    simp only [Memory.erase]
    split
    · exact hm0
    · split
      · exact Memory.from_mono (by omega) hm.2
      · simp only [Memory.from, Bool.and_eq_true, decide_eq_true_eq]
        exact ⟨hm.1, ih hm.2⟩

/-- What `Memory.insert` lists. -/
theorem Memory.mem_insert {m : Memory} {a : Nat} {v : Byte} {c : Host.Cell}
    (h : c ∈ m.insert a v) : c = (a, v) ∨ c ∈ m := by
  induction m with
  | nil => simpa [Memory.insert] using h
  | cons d m ih =>
    simp only [Memory.insert] at h
    split at h
    · simpa using h
    · split at h
      · simp only [List.mem_cons] at h ⊢
        tauto
      · simp only [List.mem_cons] at h ⊢
        rcases h with h | h
        · exact .inr (.inl h)
        · rcases ih h with h | h
          · exact .inl h
          · exact .inr (.inr h)

theorem Memory.mem_erase {m : Memory} {a : Nat} {c : Host.Cell} (h : c ∈ m.erase a) : c ∈ m := by
  induction m with
  | nil => exact h
  | cons d m ih =>
    simp only [Memory.erase] at h
    split at h
    · exact h
    · split at h
      · exact List.mem_cons_of_mem _ h
      · simp only [List.mem_cons] at h ⊢
        exact h.imp_right ih

/-- A write keeps the canonical form. -/
theorem Memory.wf_write {m : Memory} (hm : m.wf q = true) {a : Nat} (ha : a ≤ 0x3F) (v : Byte) :
    (m.write q a v).wf q = true := by
  simp only [Memory.wf, Bool.and_eq_true, Memory.sorted_from, List.all_eq_true,
    decide_eq_true_eq] at hm ⊢
  unfold Memory.write
  split
  · exact ⟨Memory.from_erase a hm.1, fun c hc => hm.2 c (Memory.mem_erase hc)⟩
  · rename_i hv
    refine ⟨Memory.from_insert (Nat.zero_le a) v hm.1, fun c hc => ?_⟩
    rcases Memory.mem_insert hc with rfl | hc
    · exact ⟨ha, hv⟩
    · exact hm.2 c hc

/-- The memory after reset has the canonical form. -/
theorem Memory.wf_reset : State.reset.env.chip.regs.wf q = true := rfl

end Sys2Proof.Machine
end

