-- ==== Sys2Proof/Laws/Mifare.lean ====
section
/-! SUPPORT. What the MIFARE frames do, in terms of the exchanges they make (R250, R255, R260). -/

namespace Sys2Proof.Machine

variable {p : Params}

theorem finish_runs (st : StatusCode) (s : State) : Runs (finish st) s [] st { s with status := st } :=
  (present_runs st s).bind (Runs.pure _ _)

/-- The parts of an answer run. -/
theorem AnswerRun.ok_iff (r : AnswerRun) (w : Byte) : r.ok w = true ↔
    r.comm.ok w = true ∧ r.comm.err.getLsbD 3 = false ∧ r.vals.length ≤ 64 := by
  simp only [AnswerRun.ok, Bool.and_eq_true, Bool.not_eq_true', decide_eq_true_eq, and_assoc]

theorem MifareRun.acked_iff (r : MifareRun) (w : Byte) : r.acked w = true ↔
    r.ok w = true ∧ r.answer.vals = [0x0A#8] ∧ r.answer.control.extractLsb' 0 3 = 4#3 := by
  simp only [MifareRun.acked, Bool.and_eq_true, beq_iff_eq, and_assoc]

/-- TRANSCEIVE with an answer and no collision. -/
theorem transceiveStep_ok (r : AnswerRun) (hr : r.ok p.waitTransceive = true) (data : List Byte) (tx rx : Nat)
    (merge : Byte) (s : State) :
    Runs (transceiveStep p.std data true tx rx false merge) s (r.talk data tx rx)
      { status := .ok
        bytes := mergeFirst rx merge r.vals
        validBits := r.control.extractLsb' 0 3 }
      { s with
        env := s.env.afterTalk (r.talk data tx rx)
        resp := s.resp.drained (mergeFirst rx merge r.vals) r.control
        cmdPoll := r.comm.quiet.length + 1
        status := .ok } := by
  obtain ⟨h₁, h₂, h₃⟩ := (r.ok_iff p.waitTransceive).1 hr
  have h := transceiveStep_answered r.comm h₁ data tx rx merge r.vals h₃ r.control s
  simp only [h₂, Bool.false_eq_true, if_false] at h
  exact h

/-- The verdict on an answer (R250 lines 5 to 7). -/
def answerVerdict (r : AnswerRun) : StatusCode :=
  if r.vals.length ≠ 1 ∨ r.control.extractLsb' 0 3 ≠ 4#3 then .error
  else if r.vals = [0x0A#8] then .ok else .mifareNack

/-- What lines 3 to 7 of R250 answer for a response. -/
def ackVerdict (acceptTimeout : Bool) (r : Response) : StatusCode :=
  if acceptTimeout && r.status == .timeout then .ok
  else if r.status ≠ .ok then r.status
  else if r.bytes.length ≠ 1 || r.validBits ≠ 4#3 then .error
  else if r.bytes.getD 0 0#8 ≠ Config.ack then .mifareNack
  else .ok

/-- Judging a response presents its verdict and changes nothing else (R250 lines 3 to 7). -/
theorem judgeAck_runs (accept : Bool) (r : Response) (s : State) :
    Runs (judgeAck accept r) s [] (ackVerdict accept r)
      { s with status := ackVerdict accept r } := by
  unfold judgeAck ackVerdict
  refine Runs.go ?_
  split
  · exact finish_runs _ _
  · refine Runs.go ?_
    split
    · exact finish_runs _ _
    · refine Runs.go ?_
      split
      · exact finish_runs _ _
      · refine Runs.go ?_
        split
        · exact finish_runs _ _
        · exact Runs.go (finish_runs _ _)

theorem ackVerdict_answer (accept : Bool) (r : AnswerRun) :
    ackVerdict accept { status := .ok, bytes := r.vals, validBits := r.control.extractLsb' 0 3 } =
      answerVerdict r := by
  have h0 : (StatusCode.ok == StatusCode.timeout) = false := rfl
  simp only [ackVerdict, answerVerdict, h0, Bool.and_false, Bool.false_eq_true, if_false, ne_eq,
    not_true, Bool.or_eq_true, decide_eq_true_eq]
  split
  · rfl
  · rename_i h
    obtain ⟨v, hv⟩ : ∃ v, r.vals = [v] := by
      simp only [not_or, not_not] at h
      exact List.length_eq_one_iff.1 h.1
    simp only [hv, List.getD_cons_zero, List.cons.injEq, and_true, Config.ack]
    split <;> simp_all

/-- MF_TRANSCEIVE with an answer (R250). -/
theorem mfTransceive_answered (r : MifareRun) (hr : r.ok p.waitTransceive = true) (payload : List Byte)
    (accept : Bool) (s : State) :
    Runs (mfTransceive p.std payload accept) s (r.talk payload) (answerVerdict r.answer)
      { s with
        env := s.env.afterTalk (r.talk payload)
        resp := s.resp.drained r.answer.vals r.answer.control
        crcPoll := r.crc.quiet.length + 1
        cmdPoll := r.answer.comm.quiet.length + 1
        status := answerVerdict r.answer } := by
  simp only [MifareRun.ok, Bool.and_eq_true] at hr
  have hb : Runs (mfTransceive p.std payload accept) s _ (answerVerdict r.answer) _ :=
    (Runs.call (calcCrc_done r.crc hr.1 payload _)).bind (by
      simp only [ne_eq, not_true, if_false]
      exact (Runs.call (Runs.transceiveInPlace
        (transceiveStep_ok r.answer hr.2 (payload ++ r.crc.bytes) 0 0 0#8 _))).bind
        ((judgeAck_runs accept _ _).val (by rw [mergeFirst_zero, ackVerdict_answer])))
  exact hb.to (by simp [MifareRun.talk])
    (by simp [MifareRun.talk, Env.afterTalk_append, mergeFirst_zero, ackVerdict_answer])

/-- MF_TRANSCEIVE that is acknowledged. -/
theorem mfTransceive_acked (r : MifareRun) (hr : r.acked p.waitTransceive = true) (payload : List Byte)
    (accept : Bool) (s : State) :
    Runs (mfTransceive p.std payload accept) s (r.talk payload) .ok
      { s with
        env := s.env.afterTalk (r.talk payload)
        resp := s.resp.drained [0x0A#8] r.answer.control
        crcPoll := r.crc.quiet.length + 1
        cmdPoll := r.answer.comm.quiet.length + 1
        status := .ok } := by
  obtain ⟨h₁, h₂, h₃⟩ := (r.acked_iff p.waitTransceive).1 hr
  have hv : answerVerdict r.answer = .ok := by simp [answerVerdict, h₂, h₃]
  have h := mfTransceive_answered r h₁ payload accept s
  simp only [hv, h₂] at h
  exact h

/-- MF_TRANSCEIVE with no answer (R250). -/
theorem mfTransceive_silence (r : MifareSilence) (hr : r.ok p.waitTransceive = true) (payload : List Byte)
    (accept : Bool) (s : State) :
    Runs (mfTransceive p.std payload accept) s (r.talk payload) (if accept then .ok else .timeout)
      { s with
        env := s.env.afterTalk (r.talk payload)
        resp := s.resp.cleared
        crcPoll := r.crc.quiet.length + 1
        cmdPoll := r.silence.samples.length
        status := if accept then .ok else .timeout } := by
  simp only [MifareSilence.ok, Bool.and_eq_true] at hr
  have hv : ackVerdict accept { status := .timeout, bytes := [], validBits := 0#3 } =
      if accept then .ok else .timeout := by
    cases accept <;> rfl
  have hb : Runs (mfTransceive p.std payload accept) s _ (if accept then .ok else .timeout) _ :=
    (Runs.call (calcCrc_done r.crc hr.1 payload _)).bind (by
      simp only [ne_eq, not_true, if_false]
      exact (Runs.call (Runs.transceiveInPlace
        (transceiveStep_silence r.silence hr.2 (payload ++ r.crc.bytes) true false 0 0
        0#8 _))).bind ((judgeAck_runs accept _ _).val hv))
  exact hb.to (by simp [MifareSilence.talk])
    (by simp [MifareSilence.talk, Env.afterTalk_append, hv])

/-- Two frames, both acknowledged (R256, R260). -/
theorem twoFrames_acked (r₁ r₂ : MifareRun) (h₁ : r₁.acked p.waitTransceive = true)
    (h₂ : r₂.acked p.waitTransceive = true) (first second : List Byte) (accept : Bool) (s : State) :
    Runs (twoFrames p.std first second accept) s (r₁.talk first ++ r₂.talk second) .ok
      { s with
        env := s.env.afterTalk (r₁.talk first ++ r₂.talk second)
        resp := (s.resp.drained [0x0A#8] r₁.answer.control).drained [0x0A#8] r₂.answer.control
        crcPoll := r₂.crc.quiet.length + 1
        cmdPoll := r₂.answer.comm.quiet.length + 1
        status := .ok } := by
  have hb : Runs (twoFrames p.std first second accept) s _ .ok _ :=
    (Runs.call (mfTransceive_acked r₁ h₁ first false _)).bind (by
      simp only [ne_eq, not_true, if_false]
      exact Runs.call (mfTransceive_acked r₂ h₂ second accept _))
  exact hb.to rfl (by simp [Env.afterTalk_append])

/-- Two frames, the second not answered (R260). -/
theorem twoFrames_silence (r₁ : MifareRun) (r₂ : MifareSilence) (h₁ : r₁.acked p.waitTransceive = true)
    (h₂ : r₂.ok p.waitTransceive = true) (first second : List Byte) (s : State) :
    Runs (twoFrames p.std first second true) s (r₁.talk first ++ r₂.talk second) .ok
      { s with
        env := s.env.afterTalk (r₁.talk first ++ r₂.talk second)
        resp := (s.resp.drained [0x0A#8] r₁.answer.control).cleared
        crcPoll := r₂.crc.quiet.length + 1
        cmdPoll := r₂.silence.samples.length
        status := .ok } := by
  have hb : Runs (twoFrames p.std first second true) s _ .ok _ :=
    (Runs.call (mfTransceive_acked r₁ h₁ first false _)).bind (by
      simp only [ne_eq, not_true, if_false]
      exact Runs.call (mfTransceive_silence r₂ h₂ second true _))
  exact hb.to rfl (by simp [Env.afterTalk_append])

/-- The two-step helper is the two frames of its command and its operand (R260). -/
theorem twoStep_eq (cmd block : Byte) (delta : Word32) :
    twoStep p.std cmd block delta = twoFrames p.std [cmd, block] (le32 delta) true := rfl

/-- The read command with an answer of 18 bytes and a matching CRC_A (R255 lines 1 and 2). -/
theorem readCommand_ok (r : ReadRun) (hr : r.ok p.waitTransceive = true) (block : Byte) (s : State) :
    Runs (readCommand p.std block) s (r.talk block)
      (true, { status := .ok, bytes := r.command.answer.vals, validBits := 0#3 })
      { s with
        env := s.env.afterTalk (r.talk block)
        resp := s.resp.drained r.command.answer.vals r.command.answer.control
        crcPoll := r.check.quiet.length + 1
        cmdPoll := r.command.answer.comm.quiet.length + 1
        status := .ok } := by
  simp only [ReadRun.ok, MifareRun.ok, Bool.and_eq_true, beq_iff_eq] at hr
  obtain ⟨⟨⟨⟨⟨hc, ha⟩, hl⟩, hv⟩, hk⟩, hm⟩ := hr
  obtain ⟨h₁, h₂, h₃⟩ := (AnswerRun.ok_iff _ p.waitTransceive).1 ha
  have h16 : r.command.answer.vals.length - 2 = 16 := by omega
  have hb : Runs (readCommand p.std block) s _ _ _ :=
    (Runs.call (calcCrc_done r.command.crc hc [Config.piccMfRead, block] _)).bind (by
      simp only [ne_eq, not_true, if_false]
      exact (Runs.call (Runs.transceiveInPlace (transceiveStep_checked r.command.answer.comm h₁ h₂
        ([Config.piccMfRead, block] ++ r.command.crc.bytes) r.command.answer.vals h₃ (by omega)
        r.command.answer.control hv r.check hk (by rw [h16]; exact hm.symm) _))).last rfl)
  refine (hb.to ?_ ?_).val rfl
  · simp [ReadRun.talk, MifareRun.talk, AnswerRun.talk, hl]
  · simp [ReadRun.talk, MifareRun.talk, AnswerRun.talk, Env.afterTalk_append, hl]

/-- MF_READ that succeeds (R255). -/
theorem mfRead_ok (r : ReadRun) (hr : r.ok p.waitTransceive = true) (block : Byte) (s : State) :
    Runs (mfRead p.std block) s (r.talk block) (.ok, r.command.answer.vals.take 16)
      { s with
        env := s.env.afterTalk (r.talk block)
        resp := s.resp.drained r.command.answer.vals r.command.answer.control
        crcPoll := r.check.quiet.length + 1
        cmdPoll := r.command.answer.comm.quiet.length + 1
        status := .ok } := by
  have hl : r.command.answer.vals.length = 18 := by
    simp only [ReadRun.ok, Bool.and_eq_true, beq_iff_eq] at hr
    exact hr.1.1.1.2
  have hb : Runs (mfRead p.std block) s _ (.ok, r.command.answer.vals.take 16) _ :=
    (readCommand_ok r hr block s).bind (by
      simp only [ne_eq, not_true, if_false, hl, Bool.not_true, Bool.false_eq_true]
      exact Runs.go (Runs.go (Runs.go ((present_runs .ok _).bind (Runs.pure _ _)))))
  exact hb.to (by simp) rfl

/-- A frame with CRC_A whose answer is taken as it is (R107). -/
theorem standardFrame_ok (r : MifareRun) (hr : r.ok p.waitTransceive = true) (payload : List Byte) (s : State) :
    Runs (standardFrame p.std payload true false) s (r.talk payload)
      { status := .ok
        bytes := r.answer.vals
        validBits := r.answer.control.extractLsb' 0 3 }
      { s with
        env := s.env.afterTalk (r.talk payload)
        resp := s.resp.drained r.answer.vals r.answer.control
        crcPoll := r.crc.quiet.length + 1
        cmdPoll := r.answer.comm.quiet.length + 1
        status := .ok } := by
  simp only [MifareRun.ok, Bool.and_eq_true] at hr
  have hb : Runs (standardFrame p.std payload true false) s _ _ _ :=
    (Runs.call (calcCrc_done r.crc hr.1 payload _)).bind (by
      simp only [ne_eq, not_true, if_false]
      exact Runs.call (Runs.transceive (transceiveStep_ok r.answer hr.2 (payload ++ r.crc.bytes) 0 0 0#8 _)))
  refine (hb.to ?_ ?_).val ?_
  · simp [MifareRun.talk]
  · simp [MifareRun.talk, Env.afterTalk_append]
  · simp

end Sys2Proof.Machine
end

