-- ==== Sys2Proof/Laws/PerInstr.lean ====
section
/-! SUPPORT. Per instruction: its bytes open with its code byte, which has the fixed bits of its row of spec/opcode_table.json (mask and match; of a frame row, the first byte's). -/

namespace Sys2Proof.Laws.CodeByte

/-- The fixed bits of the code byte in each format of the table (R91, R100, R102, R110). -/
def rowMask : Layer → Byte
  | .op => 0x3F#8
  | .xfer | .burst => 0x81#8
  | .chipCmd => 0x0F#8
  | .picc => 0xFF#8

/-- The fixed bits of each row. -/
def rowMatch : Instr → Byte
  | .wr _ _ => 0x00#8
  | .wrb _ _ => 0x01#8
  | .rd _ => 0x02#8
  | .rdb _ _ _ _ => 0x03#8
  | .setb _ _ => 0x04#8
  | .clrb _ _ => 0x05#8
  | .calcCrc _ => 0x08#8
  | .communicate _ _ _ _ _ _ _ _ => 0x10#8
  | .transceive _ _ _ _ _ _ => 0x11#8
  | .reqa => 0x18#8
  | .wupa => 0x19#8
  | .select _ _ => 0x1A#8
  | .hlta => 0x1B#8
  | .auth _ _ _ _ => 0x20#8
  | .stopCrypto1 => 0x21#8
  | .mfTransceive _ _ => 0x22#8
  | .mfRead _ => 0x23#8
  | .mfWrite _ _ => 0x24#8
  | .ulWrite _ _ => 0x25#8
  | .mfIncrement _ _ => 0x26#8
  | .mfDecrement _ _ => 0x27#8
  | .mfRestore _ => 0x28#8
  | .mfTransfer _ => 0x29#8
  | .mfGetValue _ => 0x2A#8
  | .mfSetValue _ _ => 0x2B#8
  | .xferWr _ _ => 0x00#8
  | .xferWrb _ _ => 0x00#8
  | .xferRd _ => 0x80#8
  | .xferRdb _ _ => 0x80#8
  | .cmdIdle => 0x00#8
  | .cmdMem => 0x01#8
  | .cmdCalcCRC => 0x03#8
  | .cmdTransceive => 0x0C#8
  | .cmdMFAuthent => 0x0E#8
  | .cmdSoftReset => 0x0F#8
  | .cmdGenerateRandomID => 0x02#8
  | .cmdTransmit => 0x04#8
  | .cmdNoCmdChange => 0x07#8
  | .cmdReceive => 0x08#8
  | .piccReqa => 0x26#8
  | .piccWupa => 0x52#8
  | .piccSelCl1 _ _ => 0x93#8
  | .piccSelCl2 _ _ => 0x95#8
  | .piccSelCl3 _ _ => 0x97#8
  | .piccHlta => 0x50#8
  | .piccAuthKeyA _ _ _ => 0x60#8
  | .piccAuthKeyB _ _ _ => 0x61#8
  | .piccMfRead _ => 0x30#8
  | .piccMfWrite _ _ => 0xA0#8
  | .piccUlWrite _ _ => 0xA2#8
  | .piccMfDecrement _ _ => 0xC0#8
  | .piccMfIncrement _ _ => 0xC1#8
  | .piccMfRestore _ => 0xC2#8
  | .piccMfTransfer _ => 0xB0#8

/-- The bytes of an instruction start with a byte that matches its row. -/
def Statement (i : Instr) : Prop :=
  (encode i).head? = some i.codeByte ∧ i.codeByte &&& rowMask i.layer = rowMatch i

theorem fits (b : Byte) (l : Layer) (h : b &&& rowMask l = b) {i : Instr} (hb : i.codeByte = b)
    (hl : i.layer = l) (hm : rowMatch i = b) : Statement i :=
  ⟨rfl, by rw [hb, hl, hm, h]⟩

theorem addr_write : ∀ a : Reg, addrWrite a &&& 0x81#8 = 0x00#8 := by decide

theorem addr_read : ∀ a : Reg, addrRead a &&& 0x81#8 = 0x80#8 := by decide

theorem wr (reg : Reg) (value : Byte) :
    Statement (.wr reg value) :=
  fits 0x00#8 .op (by decide) rfl rfl rfl

theorem wrb (reg : Reg) (values : List Byte) :
    Statement (.wrb reg values) :=
  fits 0x01#8 .op (by decide) rfl rfl rfl

theorem rd (reg : Reg) :
    Statement (.rd reg) :=
  fits 0x02#8 .op (by decide) rfl rfl rfl

theorem rdb (reg : Reg) (count rxAlign : Nat) (mergeIn : Byte) :
    Statement (.rdb reg count rxAlign mergeIn) :=
  fits 0x03#8 .op (by decide) rfl rfl rfl

theorem setb (reg : Reg) (mask : Byte) :
    Statement (.setb reg mask) :=
  fits 0x04#8 .op (by decide) rfl rfl rfl

theorem clrb (reg : Reg) (mask : Byte) :
    Statement (.clrb reg mask) :=
  fits 0x05#8 .op (by decide) rfl rfl rfl

theorem calcCrc (data : List Byte) :
    Statement (.calcCrc data) :=
  fits 0x08#8 .op (by decide) rfl rfl rfl

theorem communicate (command : CmdCode) (waitIrq : Byte) (sendData : List Byte)
    (wantResponse : Bool) (txValidBits rxAlign : Nat) (checkCrc : Bool) (rxMerge : Byte) :
    Statement (.communicate command waitIrq sendData wantResponse txValidBits rxAlign checkCrc rxMerge) :=
  fits 0x10#8 .op (by decide) rfl rfl rfl

theorem transceive (sendData : List Byte) (wantResponse : Bool) (txValidBits rxAlign : Nat)
    (checkCrc : Bool) (rxMerge : Byte) :
    Statement (.transceive sendData wantResponse txValidBits rxAlign checkCrc rxMerge) :=
  fits 0x11#8 .op (by decide) rfl rfl rfl

theorem reqa :
    Statement .reqa :=
  fits 0x18#8 .op (by decide) rfl rfl rfl

theorem wupa :
    Statement .wupa :=
  fits 0x19#8 .op (by decide) rfl rfl rfl

theorem select (knownUid : Option Uid) (knownValidBits : Byte) :
    Statement (.select knownUid knownValidBits) :=
  fits 0x1A#8 .op (by decide) rfl rfl rfl

theorem hlta :
    Statement .hlta :=
  fits 0x1B#8 .op (by decide) rfl rfl rfl

theorem auth (cmd block : Byte) (key : List Byte) (uid : Uid) :
    Statement (.auth cmd block key uid) :=
  fits 0x20#8 .op (by decide) rfl rfl rfl

theorem stopCrypto1 :
    Statement .stopCrypto1 :=
  fits 0x21#8 .op (by decide) rfl rfl rfl

theorem mfTransceive (payload : List Byte) (acceptTimeout : Bool) :
    Statement (.mfTransceive payload acceptTimeout) :=
  fits 0x22#8 .op (by decide) rfl rfl rfl

theorem mfRead (block : Byte) :
    Statement (.mfRead block) :=
  fits 0x23#8 .op (by decide) rfl rfl rfl

theorem mfWrite (block : Byte) (data : List Byte) :
    Statement (.mfWrite block data) :=
  fits 0x24#8 .op (by decide) rfl rfl rfl

theorem ulWrite (page : Byte) (data : List Byte) :
    Statement (.ulWrite page data) :=
  fits 0x25#8 .op (by decide) rfl rfl rfl

theorem mfIncrement (block : Byte) (delta : Word32) :
    Statement (.mfIncrement block delta) :=
  fits 0x26#8 .op (by decide) rfl rfl rfl

theorem mfDecrement (block : Byte) (delta : Word32) :
    Statement (.mfDecrement block delta) :=
  fits 0x27#8 .op (by decide) rfl rfl rfl

theorem mfRestore (block : Byte) :
    Statement (.mfRestore block) :=
  fits 0x28#8 .op (by decide) rfl rfl rfl

theorem mfTransfer (block : Byte) :
    Statement (.mfTransfer block) :=
  fits 0x29#8 .op (by decide) rfl rfl rfl

theorem mfGetValue (block : Byte) :
    Statement (.mfGetValue block) :=
  fits 0x2A#8 .op (by decide) rfl rfl rfl

theorem mfSetValue (block : Byte) (value : Word32) :
    Statement (.mfSetValue block value) :=
  fits 0x2B#8 .op (by decide) rfl rfl rfl

theorem xferWr (reg : Reg) (value : Byte) :
    Statement (.xferWr reg value) :=
  ⟨rfl, addr_write reg⟩

theorem xferWrb (reg : Reg) (values : List Byte) :
    Statement (.xferWrb reg values) :=
  ⟨rfl, addr_write reg⟩

theorem xferRd (reg : Reg) :
    Statement (.xferRd reg) :=
  ⟨rfl, addr_read reg⟩

theorem xferRdb (reg : Reg) (count : Nat) :
    Statement (.xferRdb reg count) :=
  ⟨rfl, addr_read reg⟩

theorem cmdIdle :
    Statement .cmdIdle :=
  fits 0x00#8 .chipCmd (by decide) rfl rfl rfl

theorem cmdMem :
    Statement .cmdMem :=
  fits 0x01#8 .chipCmd (by decide) rfl rfl rfl

theorem cmdCalcCRC :
    Statement .cmdCalcCRC :=
  fits 0x03#8 .chipCmd (by decide) rfl rfl rfl

theorem cmdTransceive :
    Statement .cmdTransceive :=
  fits 0x0C#8 .chipCmd (by decide) rfl rfl rfl

theorem cmdMFAuthent :
    Statement .cmdMFAuthent :=
  fits 0x0E#8 .chipCmd (by decide) rfl rfl rfl

theorem cmdSoftReset :
    Statement .cmdSoftReset :=
  fits 0x0F#8 .chipCmd (by decide) rfl rfl rfl

theorem cmdGenerateRandomID :
    Statement .cmdGenerateRandomID :=
  fits 0x02#8 .chipCmd (by decide) rfl rfl rfl

theorem cmdTransmit :
    Statement .cmdTransmit :=
  fits 0x04#8 .chipCmd (by decide) rfl rfl rfl

theorem cmdNoCmdChange :
    Statement .cmdNoCmdChange :=
  fits 0x07#8 .chipCmd (by decide) rfl rfl rfl

theorem cmdReceive :
    Statement .cmdReceive :=
  fits 0x08#8 .chipCmd (by decide) rfl rfl rfl

theorem piccReqa :
    Statement .piccReqa :=
  fits 0x26#8 .picc (by decide) rfl rfl rfl

theorem piccWupa :
    Statement .piccWupa :=
  fits 0x52#8 .picc (by decide) rfl rfl rfl

theorem piccSelCl1 (known : Nat) (window : List Byte) :
    Statement (.piccSelCl1 known window) :=
  fits 0x93#8 .picc (by decide) rfl rfl rfl

theorem piccSelCl2 (known : Nat) (window : List Byte) :
    Statement (.piccSelCl2 known window) :=
  fits 0x95#8 .picc (by decide) rfl rfl rfl

theorem piccSelCl3 (known : Nat) (window : List Byte) :
    Statement (.piccSelCl3 known window) :=
  fits 0x97#8 .picc (by decide) rfl rfl rfl

theorem piccHlta :
    Statement .piccHlta :=
  fits 0x50#8 .picc (by decide) rfl rfl rfl

theorem piccAuthKeyA (block : Byte) (key uidTail : List Byte) :
    Statement (.piccAuthKeyA block key uidTail) :=
  fits 0x60#8 .picc (by decide) rfl rfl rfl

theorem piccAuthKeyB (block : Byte) (key uidTail : List Byte) :
    Statement (.piccAuthKeyB block key uidTail) :=
  fits 0x61#8 .picc (by decide) rfl rfl rfl

theorem piccMfRead (block : Byte) :
    Statement (.piccMfRead block) :=
  fits 0x30#8 .picc (by decide) rfl rfl rfl

theorem piccMfWrite (block : Byte) (data : List Byte) :
    Statement (.piccMfWrite block data) :=
  fits 0xA0#8 .picc (by decide) rfl rfl rfl

theorem piccUlWrite (page : Byte) (data : List Byte) :
    Statement (.piccUlWrite page data) :=
  fits 0xA2#8 .picc (by decide) rfl rfl rfl

theorem piccMfDecrement (block : Byte) (delta : Word32) :
    Statement (.piccMfDecrement block delta) :=
  fits 0xC0#8 .picc (by decide) rfl rfl rfl

theorem piccMfIncrement (block : Byte) (delta : Word32) :
    Statement (.piccMfIncrement block delta) :=
  fits 0xC1#8 .picc (by decide) rfl rfl rfl

theorem piccMfRestore (block : Byte) :
    Statement (.piccMfRestore block) :=
  fits 0xC2#8 .picc (by decide) rfl rfl rfl

theorem piccMfTransfer (block : Byte) :
    Statement (.piccMfTransfer block) :=
  fits 0xB0#8 .picc (by decide) rfl rfl rfl

end Sys2Proof.Laws.CodeByte
end

