-- ==== Sys2Proof/Laws/Select.lean ====
section
/-! SUPPORT. What a round and a level of SELECT do, in terms of the windows and exchanges of Sys2Proof/Safety.lean (R206 to R219). -/

namespace Sys2Proof.Machine

variable {p : Params}

/-- The engine's registers hold a window of a level: `BUF` is the SEL byte, any NVB, the seven window
bytes. -/
def SelectRegs.holds (r : SelectRegs) (level : Nat) (w : Window) : Prop :=
  r.level = level ∧ r.known = w.known ∧ w.bytes.length = 7 ∧
    ∃ b : Byte, r.buf = levelByte level :: b :: w.bytes

/-- What the rounds of a level leave alone: all but ENV, the response and poll registers, the status, the
sequencer, and the engine's registers other than those named here. -/
structure KeepsRecord (s t : State) : Prop where
  latched : t.latched = s.latched
  result : t.result = s.result
  params : t.params = s.params
  pending : t.pending = s.pending
  host : t.host = s.host
  uidAcc : t.sel.uidAcc = s.sel.uidAcc
  uidSize : t.sel.uidSize = s.sel.uidSize
  sakOut : t.sel.sakOut = s.sel.sakOut
  uidx : t.sel.uidx = s.sel.uidx

theorem KeepsRecord.trans {s t u : State} (h₁ : KeepsRecord s t) (h₂ : KeepsRecord t u) :
    KeepsRecord s u where
  latched := h₂.latched.trans h₁.latched
  result := h₂.result.trans h₁.result
  params := h₂.params.trans h₁.params
  pending := h₂.pending.trans h₁.pending
  host := h₂.host.trans h₁.host
  uidAcc := h₂.uidAcc.trans h₁.uidAcc
  uidSize := h₂.uidSize.trans h₁.uidSize
  sakOut := h₂.sakOut.trans h₁.sakOut
  uidx := h₂.uidx.trans h₁.uidx

theorem collisionNotValid_eq : ∀ n : Byte, collisionNotValid Config.codes n = n.getLsbD 5 := by decide +kernel

theorem collisionPosition_eq (r : Round) : collisionPosition Config.codes r.coll = r.position := by
  have h : ∀ n : Byte, collisionPosition Config.codes n =
      if (n.extractLsb' 0 5).toNat = 0 then 32 else (n.extractLsb' 0 5).toNat := by decide +kernel
  exact h r.coll

theorem position_le (r : Round) : r.position ≤ 32 := by
  unfold Round.position
  have := (r.coll.extractLsb' 0 5).isLt
  split <;> omega

theorem cascadeSet_eq : ∀ n : Byte, cascadeSet n = n.getLsbD 2 := by decide +kernel

theorem overwrite_length (l vs : List Byte) (k : Nat) (h : k + vs.length ≤ l.length) :
    (overwrite l k vs).length = l.length := by
  simp only [overwrite, List.length_append, List.length_take, List.length_drop]
  omega

/-- The frame bytes of the anti-collision branch (R207). -/
theorem nvb_eq (k : Nat) (h : k < 32) :
    (byteOfNat (2 + k / 8) <<< 4) ||| byteOfNat (k % 8) = byteOfNat (16 * (2 + k / 8) + k % 8) := by
  have h' : ∀ k : Fin 32, (byteOfNat (2 + k.1 / 8) <<< 4) ||| byteOfNat (k.1 % 8) =
      byteOfNat (16 * (2 + k.1 / 8) + k.1 % 8) := by decide +kernel
  exact h' ⟨k, h⟩

theorem bytesKnown (k : Nat) : (k / 8 + if k % 8 = 0 then 0 else 1) = (k + 7) / 8 := by
  split <;> omega

/-- The registers of an anti-collision round. -/
theorem setupAnticollision_frame (r : SelectRegs) (level : Nat) (w : Window)
    (h : r.holds level w) (hk : w.known < 32) :
    let q := setupAnticollision r
    q.buf.take q.used = w.frame level ∧ q.txl = w.known % 8 ∧ q.woff = 2 + w.known / 8 ∧
      q.wlen = 7 - w.known / 8 ∧ q.buf.getD q.woff 0#8 = w.bytes.getD (w.known / 8) 0#8 ∧
      q.holds level w ∧ q.uidAcc = r.uidAcc ∧ q.uidSize = r.uidSize ∧ q.sakOut = r.sakOut ∧
      q.uidx = r.uidx := by
  obtain ⟨h₁, h₂, h₃, b, h₄⟩ := h
  have hu : 2 + w.known / 8 + (if w.known % 8 = 0 then 0 else 1) = (w.known + 7) / 8 + 2 := by
    split <;> omega
  refine ⟨?_, by simp [setupAnticollision, h₂], by simp [setupAnticollision, h₂], ?_, ?_, ?_, rfl,
    rfl, rfl, rfl⟩
  · simp only [setupAnticollision, h₂, h₄, List.set_cons_succ, List.set_cons_zero, hu, Window.frame,
      nvb_eq _ hk]
    rfl
  · simp only [setupAnticollision, h₂]
    omega
  · have : 2 + w.known / 8 = w.known / 8 + 1 + 1 := by omega
    simp only [setupAnticollision, h₂, h₄, List.set_cons_succ, List.set_cons_zero, this,
      List.getD_cons_succ]
  · exact ⟨h₁, h₂, h₃, _, by
      simp only [setupAnticollision, h₄, List.set_cons_succ, List.set_cons_zero]
      rfl⟩

/-- The buffer after an answer is stored. -/
theorem overwrite_window (x y : Byte) (l vs : List Byte) (k : Nat) :
    overwrite (x :: y :: l) (2 + k) vs =
      x :: y :: (l.take k ++ vs ++ l.drop (k + vs.length)) := by
  have h : 2 + k = k + 1 + 1 := by omega
  have h' : k + 1 + 1 + vs.length = k + vs.length + 1 + 1 := by omega
  simp only [overwrite, h, h', List.take_succ_cons, List.drop_succ_cons, List.cons_append]

/-- The state after the exchange of a round. -/
def State.exchanged (s : State) (r : CommRun) (vals : List Byte) (control : Byte) : State :=
  { s with
    env := s.env.afterTalk (r.talk (transceiveArgs (s.sel.buf.take s.sel.used) true s.sel.txl
      s.sel.txl false 0#8) ++ drainTalk vals control)
    resp := s.resp.drained (mergeFirst s.sel.txl (s.sel.buf.getD s.sel.woff 0#8) vals) control
    cmdPoll := r.quiet.length + 1
    status := if r.err.getLsbD 3 then .collision else .ok }

/-- A round whose exchange is answered: what follows lines 35 to 46 (R210 to R213). -/
theorem roundExchange_answered (r : CommRun) (hr : r.ok p.waitTransceive = true)
    (vals : List Byte) (hv : vals.length ≤ 64) (control : Byte) (s t : State) (ts : List Talk)
    (e : RoundEnd)
    (h : Runs (if s.sel.wlen < vals.length then pure (.stop .noRoom)
      else do
        goLine 36
        modifySelect fun x =>
          { x with buf := overwrite x.buf x.woff
                     (mergeFirst s.sel.txl (s.sel.buf.getD s.sel.woff 0#8) vals) }
        goLine 37
        if r.err.getLsbD 3 then resolveCollision p.std
        else do
          goLines [45, 46]
          if s.sel.known < 32 then do
            modifySelect fun x => { x with known := 32 }
            pure .again
          else pure (.selected
            { status := .ok
              bytes := mergeFirst s.sel.txl (s.sel.buf.getD s.sel.woff 0#8) vals
              validBits := control.extractLsb' 0 3 })) (s.exchanged r vals control) ts e t) :
    Runs (roundExchange p.std) s
      (r.talk (transceiveArgs (s.sel.buf.take s.sel.used) true s.sel.txl s.sel.txl false 0#8) ++
        drainTalk vals control ++ ts) e t := by
  refine Runs.sel ((Runs.call (Runs.transceive (transceiveStep_answered r hr (s.sel.buf.take s.sel.used)
    s.sel.txl s.sel.txl (s.sel.buf.getD s.sel.woff 0#8) vals hv control s))).bind (us := ts)
    (t := t) ?_)
  cases hc : r.err.getLsbD 3
  · simp only [State.exchanged, hc, Bool.false_eq_true, if_false, true_or, if_true,
      mergeFirst_length, reduceCtorEq] at h ⊢
    exact Runs.go (Runs.go h)
  · simp only [State.exchanged, hc, if_true, or_true, mergeFirst_length] at h ⊢
    exact Runs.go (Runs.go h)

/-- A collision at a valid position beyond the known bits (R211). -/
theorem resolveCollision_goesOn (coll : Byte) (hn : coll.getLsbD 5 = false) (s : State)
    (hp : s.sel.known < collisionPosition Config.codes coll) :
    Runs (resolveCollision p.std) s [.get Config.regColl coll] .again
      { s with
        env := s.env.after (frameRd Config.regColl)
        sel :=
          { s.sel with
            known := collisionPosition Config.codes coll
            buf := s.sel.buf.set (2 + (collisionPosition Config.codes coll - 1) / 8)
              (s.sel.buf.getD (2 + (collisionPosition Config.codes coll - 1) / 8) 0#8 |||
                (1#8 <<< ((collisionPosition Config.codes coll - 1) % 8))) } } := by
  have hb : Runs (resolveCollision p.std) s _ .again _ :=
    (callRd_runs 38 Config.regColl coll s).bind (Runs.go (Runs.sel (by
      simp only [collisionNotValid_eq, hn, Bool.false_eq_true, if_false, Nat.not_le.2 hp]
      exact Runs.goes (Runs.goes ((modifySelect_runs _ _).bind (Runs.go (Runs.pure _ _)))))))
  exact hb.to rfl rfl

/-- A collision whose position is not valid, or not beyond the known bits (R211). -/
theorem resolveCollision_stops (coll : Byte) (s : State) (st : StatusCode)
    (h : (coll.getLsbD 5 = true ∧ st = .collision) ∨
      (coll.getLsbD 5 = false ∧ collisionPosition Config.codes coll ≤ s.sel.known ∧ st = .internalError)) :
    Runs (resolveCollision p.std) s [.get Config.regColl coll] (.stop st)
      { s with env := s.env.after (frameRd Config.regColl) } := by
  have hb : Runs (resolveCollision p.std) s _ (.stop st) _ :=
    (callRd_runs 38 Config.regColl coll s).bind (Runs.go (Runs.sel (by
      rcases h with ⟨h₁, rfl⟩ | ⟨h₁, h₂, rfl⟩
      · simp only [collisionNotValid_eq, h₁, if_true]
        exact Runs.pure _ _
      · simp only [collisionNotValid_eq, h₁, Bool.false_eq_true, if_false, h₂, if_true]
        exact Runs.goes (Runs.pure _ _))))
  exact hb.to rfl rfl

/-- One anti-collision round that goes on (R207 to R213). -/
theorem selectRound_goesOn (r : Round) (level : Nat) (w : Window) (s : State)
    (h : s.sel.holds level w) (hr : r.goesOn p.waitTransceive w = true) :
    ∃ t, Runs (selectRound p.std) s (r.talk level w) .again t ∧ t.sel.holds level (r.next w) ∧
      KeepsRecord s t := by
  simp only [Round.goesOn, Bool.and_eq_true, decide_eq_true_eq, Bool.or_eq_true,
    Bool.not_eq_true'] at hr
  obtain ⟨⟨⟨hk, hc⟩, hv⟩, hcoll⟩ := hr
  have hnk : ¬ 32 ≤ s.sel.known := by
    rw [h.2.1]
    omega
  obtain ⟨f₁, f₂, f₃, f₄, f₅, f₆, f₇, f₈, f₉, f₁₀⟩ := setupAnticollision_frame s.sel level w h hk
  rw [f₃] at f₅
  obtain ⟨g₁, g₂, g₃, b, g₄⟩ := f₆
  have hml : (mergeFirst (w.known % 8) (w.bytes.getD (w.known / 8) 0#8) r.vals).length =
      r.vals.length := mergeFirst_length _ _ _
  have hstored : overwrite (setupAnticollision s.sel).buf (2 + w.known / 8)
      (mergeFirst (w.known % 8) (w.bytes.getD (w.known / 8) 0#8) r.vals) =
        levelByte level :: b :: r.stored w := by
    rw [g₄, overwrite_window, hml]
    rfl
  have hsl : (r.stored w).length = 7 := by
    simp only [Round.stored, List.length_append, List.length_take, List.length_drop, hml, g₃]
    omega
  have hx : ∀ (ts : List Talk) (t : State), Runs
      (do
        goLine 36
        modifySelect fun x =>
          { x with buf := overwrite x.buf x.woff
                     (mergeFirst (w.known % 8) (w.bytes.getD (w.known / 8) 0#8) r.vals) }
        goLine 37
        if r.comm.err.getLsbD 3 then resolveCollision p.std
        else do
          goLines [45, 46]
          modifySelect fun x => { x with known := 32 }
          pure .again)
      (State.exchanged { s with sel := setupAnticollision s.sel } r.comm r.vals r.control) ts .again t →
      Runs (selectRound p.std) s (r.exchange level w ++ ts) .again t := by
    intro ts t ht
    refine Runs.go (Runs.sel ?_)
    simp only [hnk, if_false]
    refine Runs.goes (((modifySelect_runs setupAnticollision s).bind (roundExchange_answered r.comm hc
      r.vals (by omega) r.control _ t ts .again ?_)).to ?_ rfl)
    · have hw : ¬ 7 - w.known / 8 < r.vals.length := by omega
      simp only [f₂, f₃, f₄, f₅, hw, if_false, g₂, hk, if_true] at ht ⊢
      exact ht
    · simp only [f₁, f₂, List.nil_append]
      rfl
  cases hcl : r.comm.err.getLsbD 3
  · have hcl' : r.collides = false := hcl
    have hrun := hx [] _ (by
      simp only [hcl, Bool.false_eq_true, if_false]
      exact Runs.go ((modifySelect_runs _ _).bind (Runs.go (Runs.goes ((modifySelect_runs _ _).bind
        (Runs.pure _ _))))))
    refine ⟨_, hrun.to ?_ rfl, ?_, ?_⟩
    · simp [Round.talk, hcl']
    · refine ⟨g₁, ?_, ?_, b, ?_⟩
      · simp [Round.next, hcl']
      · simp [Round.next, hcl', hsl]
      · simp only [Round.next, hcl', Bool.false_eq_true, if_false, State.exchanged, f₃]
        exact hstored
    · exact ⟨rfl, rfl, rfl, rfl, rfl, f₇, f₈, f₉, f₁₀⟩
  · have hcl' : r.collides = true := hcl
    simp only [hcl', Bool.true_eq_false, false_or] at hcoll
    have hpos := position_le r
    have hpe := collisionPosition_eq r
    have hrun := hx [.get Config.regColl r.coll] _ (by
      simp only [hcl, if_true]
      exact Runs.go ((modifySelect_runs _ _).bind (Runs.go (resolveCollision_goesOn r.coll hcoll.1 _
        (by
          rw [hpe]
          exact g₂.symm ▸ hcoll.2)))))
    refine ⟨_, hrun.to ?_ rfl, ?_, ?_⟩
    · simp [Round.talk, hcl']
    · have hi : 2 + (r.position - 1) / 8 = (r.position - 1) / 8 + 1 + 1 := by omega
      refine ⟨g₁, ?_, ?_, b, ?_⟩
      · simp [Round.next, hcl', hpe]
      · simp [Round.next, hcl', hsl]
      · simp only [Round.next, hcl', if_true, State.exchanged, f₃, hpe]
        rw [hstored, hi]
        rfl
    · exact ⟨rfl, rfl, rfl, rfl, rfl, f₇, f₈, f₉, f₁₀⟩

/-- The registers of a select round (R208). -/
theorem setupSelect_frame (r : SelectRegs) (level : Nat) (w : Window) (h : r.holds level w)
    (c0 c1 : Byte) :
    (setupSelect r).buf.take 7 = w.select level ∧
      (finishSelectFrame [c0, c1] (setupSelect r)).buf.take 9 = w.select level ++ [c0, c1] ∧
      ∀ vs : List Byte, vs.length ≤ 3 →
        ((overwrite (finishSelectFrame [c0, c1] (setupSelect r)).buf 6 vs).drop 2).take 4 =
          w.bytes.take 4 := by
  obtain ⟨h₁, h₂, h₃, b, h₄⟩ := h
  obtain ⟨k, bytes⟩ := w
  match bytes, h₃ with
  | [b0, b1, b2, b3, b4, b5, b6], _ =>
    refine ⟨?_, ?_, fun vs hv => ?_⟩
    · simp [setupSelect, h₄, Window.select, bccOf, Config.nvbSelect]
    · simp [setupSelect, finishSelectFrame, h₄, Window.select, bccOf, Config.nvbSelect]
    · simp [setupSelect, finishSelectFrame, h₄, overwrite]

/-- The state of a select round when its exchange begins: the CRC_A done, the frame in `BUF` (R208). -/
def State.selectFramed (s : State) (crc : CrcRun) (frame : List Byte) : State :=
  { s with
    env := s.env.afterTalk (crc.talk frame)
    crcPoll := crc.quiet.length + 1
    status := .ok
    sel := finishSelectFrame crc.bytes (setupSelect s.sel) }

/-- The frame that stands in `BUF` then (R208). -/
theorem selectFramed_frame (s : State) (crc : CrcRun) (frame : List Byte) (level : Nat) (w : Window)
    (h : s.sel.holds level w) :
    (s.selectFramed crc frame).sel.buf.take (s.selectFramed crc frame).sel.used =
      w.select level ++ crc.bytes :=
  (setupSelect_frame s.sel level w h crc.lo crc.hi).2.1

/-- A select round is its CRC_A, then its exchange (R208). -/
theorem selectRound_framed (crc : CrcRun) (hcrc : crc.ok = true) (level : Nat) (w : Window)
    (s t : State)
    (h : s.sel.holds level w) (hk : 32 ≤ w.known) (ts : List Talk) (e : RoundEnd)
    (hr : Runs (roundExchange p.std) (s.selectFramed crc (w.select level)) ts e t) :
    Runs (selectRound p.std) s (crc.talk (w.select level) ++ ts) e t := by
  obtain ⟨f₁, -, -⟩ := setupSelect_frame s.sel level w h crc.lo crc.hi
  have hks : 32 ≤ s.sel.known := h.2.1 ▸ hk
  refine Runs.go (Runs.sel ?_)
  simp only [hks, if_true]
  refine Runs.goes (((modifySelect_runs setupSelect s).bind (Runs.sel (t := t)
    (ts := crc.talk (w.select level) ++ ts) ?_)).to rfl rfl)
  rw [show (List.take 7 _ : List Byte) = w.select level from f₁]
  refine (Runs.call (calcCrc_done crc hcrc (w.select level) _)).bind ?_
  simp only [ne_eq, not_true, if_false]
  exact Runs.goes (((modifySelect_runs (finishSelectFrame crc.bytes) _).bind hr).to rfl rfl)

/-- The select round: the select frame is answered (R208, R214). -/
theorem selectRound_selects (crc : CrcRun) (ans : AnswerRun) (level : Nat) (w : Window) (s : State)
    (h : s.sel.holds level w) (hk : 32 ≤ w.known)
    (hcrc : crc.ok = true) (hans : ans.ok p.waitTransceive = true) (hv : ans.vals.length ≤ 3) :
    ∃ t, Runs (selectRound p.std) s
        (crc.talk (w.select level) ++ ans.talk (w.select level ++ crc.bytes) 0 0)
        (.selected
          { status := .ok, bytes := ans.vals, validBits := ans.control.extractLsb' 0 3 }) t ∧
      KeepsRecord s t ∧ t.sel.level = level ∧ (t.sel.buf.drop 2).take 4 = w.bytes.take 4 := by
  obtain ⟨-, -, f₃⟩ := setupSelect_frame s.sel level w h crc.lo crc.hi
  have hf := selectFramed_frame s crc (w.select level) level w h
  obtain ⟨a₁, a₂, a₃⟩ := (ans.ok_iff p.waitTransceive).1 hans
  have hnk : ¬ s.sel.known < 32 := Nat.not_lt.2 (h.2.1 ▸ hk)
  have hw : ¬ (3 : Nat) < ans.vals.length := Nat.not_lt.2 hv
  have hrun : Runs (roundExchange p.std) (s.selectFramed crc (w.select level)) _ (.selected
      { status := .ok, bytes := ans.vals, validBits := ans.control.extractLsb' 0 3 }) _ :=
    roundExchange_answered ans.comm a₁ ans.vals a₃ ans.control _ _ [] _ (by
      simp only [State.selectFramed, finishSelectFrame, setupSelect, hw, if_false, a₂,
        Bool.false_eq_true, mergeFirst_zero, hnk]
      exact Runs.go ((modifySelect_runs _ _).bind (Runs.go (Runs.goes (Runs.pure _ _)))))
  refine ⟨_, selectRound_framed crc hcrc level w s _ h hk _ _ (hrun.to ?_ rfl),
    ⟨rfl, rfl, rfl, rfl, rfl, rfl, rfl, rfl, rfl⟩, h.1, f₃ ans.vals hv⟩
  rw [hf, List.append_nil]
  rfl

theorem selectRounds_again {k : Nat} {s s' t : State} {ts us : List Talk}
    {x : StatusCode × Option Response} (h : Runs (selectRound p.std) s ts .again s')
    (g : Runs (selectRounds p.std k) s' us x t) : Runs (selectRounds p.std (k + 1)) s (ts ++ us) x t := by
  rw [selectRounds]
  exact h.bind g

theorem selectRounds_selected {k : Nat} {s t : State} {ts : List Talk} {r : Response}
    (h : Runs (selectRound p.std) s ts (.selected r) t) :
    Runs (selectRounds p.std (k + 1)) s ts (.ok, some r) t := by
  rw [selectRounds]
  exact h.last rfl

theorem selectRounds_stop {k : Nat} {s t : State} {ts : List Talk} {st : StatusCode}
    (h : Runs (selectRound p.std) s ts (.stop st) t) : Runs (selectRounds p.std (k + 1)) s ts (st, none) t := by
  rw [selectRounds]
  exact h.last rfl

/-- The rounds of a level that go on are at most as many as the bits not yet known (R220). -/
theorem roundsGoOn_length (m : Byte) (rs : List Round) (w : Window) (h : roundsGoOn m rs w = true) :
    rs.length ≤ 32 - w.known := by
  induction rs generalizing w with
  | nil => simp
  | cons r rs ih =>
    simp only [roundsGoOn, Bool.and_eq_true] at h
    have hn := ih _ h.2
    have hr := h.1
    simp only [Round.goesOn, Bool.and_eq_true, decide_eq_true_eq, Bool.or_eq_true,
      Bool.not_eq_true'] at hr
    obtain ⟨⟨⟨hk, -⟩, -⟩, hc⟩ := hr
    simp only [List.length_cons]
    cases hcl : r.collides
    · simp only [Round.next, hcl, Bool.false_eq_true, if_false] at hn
      omega
    · simp only [hcl, Bool.true_eq_false, false_or] at hc
      simp only [Round.next, hcl, if_true] at hn
      omega

/-- Rounds that go on, then the rest of the level with the budget that is left. -/
theorem selectRounds_prefix (rs : List Round) (level : Nat) :
    ∀ (w : Window) (s : State), s.sel.holds level w →
      roundsGoOn p.waitTransceive rs w = true →
      ∃ s', s'.sel.holds level (roundsNext rs w) ∧ KeepsRecord s s' ∧
        ∀ (k : Nat) (ts : List Talk) (x : StatusCode × Option Response) (t : State),
          Runs (selectRounds p.std k) s' ts x t →
          Runs (selectRounds p.std (k + rs.length)) s (roundsTalk level rs w ++ ts) x t := by
  induction rs with
  | nil =>
    intro w s h _
    exact ⟨s, h, ⟨rfl, rfl, rfl, rfl, rfl, rfl, rfl, rfl, rfl⟩,
      fun k ts x t hr => hr⟩
  | cons r rs ih =>
    intro w s h hg
    simp only [roundsGoOn, Bool.and_eq_true] at hg
    obtain ⟨s₁, h₁, h₂, h₃⟩ := selectRound_goesOn r level w s h hg.1
    obtain ⟨s₂, g₁, g₂, g₃⟩ := ih (r.next w) s₁ h₂ hg.2
    refine ⟨s₂, g₁, h₃.trans g₂, fun k ts x t hr => ?_⟩
    exact (selectRounds_again h₁ (g₃ k ts x t hr)).to (by simp [roundsTalk]) rfl

/-- The rounds of a level up to the select answer (R206 to R214). -/
theorem selectRounds_selects (l : LevelRun) (level : Nat) (w : Window) (s : State)
    (h : s.sel.holds level w) (hl : l.selects p.waitTransceive w = true)
    (hv : l.answer.vals.length ≤ 3) :
    ∃ t, Runs (selectRounds p.std roundBound) s (l.selectTalk level w)
        (.ok, some
          { status := .ok
            bytes := l.answer.vals
            validBits := l.answer.control.extractLsb' 0 3 }) t ∧
      KeepsRecord s t ∧ t.sel.level = level ∧
      (t.sel.buf.drop 2).take 4 = (l.window w).bytes.take 4 ∧ (l.window w).bytes.length = 7 := by
  simp only [LevelRun.selects, Bool.and_eq_true, decide_eq_true_eq] at hl
  obtain ⟨⟨⟨hg, hk⟩, hc⟩, ha⟩ := hl
  obtain ⟨s₁, h₁, h₂, h₃⟩ := selectRounds_prefix l.rounds level w s h hg
  obtain ⟨t, g₁, g₂, g₃, g₄⟩ := selectRound_selects l.crc l.answer level _ s₁ h₁ hk hc ha hv
  have hb := roundsGoOn_length _ _ _ hg
  refine ⟨t, ?_, h₂.trans g₂, g₃, g₄, h₁.2.2.1⟩
  have hlast := h₃ (33 - l.rounds.length + 1) _ _ t (selectRounds_selected g₁)
  have hn : 33 - l.rounds.length + 1 + l.rounds.length = roundBound := by
    show _ = 34
    omega
  rw [hn] at hlast
  exact hlast.to (by simp [LevelRun.selectTalk, LevelRun.window]) rfl

/-- A round that ends SELECT ends the level's rounds. -/
theorem selectRounds_stops (rs : List Round) (level : Nat) (w : Window) (s : State)
    (h : s.sel.holds level w) (hg : roundsGoOn p.waitTransceive rs w = true)
    (ts : List Talk) (st : StatusCode)
    (hstop : ∀ s', s'.sel.holds level (roundsNext rs w) →
      ∃ t, Runs (selectRound p.std) s' ts (.stop st) t ∧ KeepsRecord s' t) :
    ∃ t, Runs (selectRounds p.std roundBound) s (roundsTalk level rs w ++ ts) (st, none) t ∧
      KeepsRecord s t := by
  obtain ⟨s₁, h₁, h₂, h₃⟩ := selectRounds_prefix rs level w s h hg
  obtain ⟨t, g₁, g₂⟩ := hstop s₁ h₁
  have hb := roundsGoOn_length _ _ _ hg
  refine ⟨t, ?_, h₂.trans g₂⟩
  have hlast := h₃ (33 - rs.length + 1) _ _ t (selectRounds_stop g₁)
  have hn : 33 - rs.length + 1 + rs.length = roundBound := by
    show _ = 34
    omega
  rw [hn] at hlast
  exact hlast.to (by simp) rfl

/-- Window bytes and zeros, written over an empty buffer. -/
theorem overwrite_empty (x : Byte) (l : List Byte) (_h : l.length ≤ 7) :
    overwrite (x :: List.replicate 8 0#8) 2 l = x :: 0#8 :: (l ++ List.replicate (7 - l.length) 0#8) := by
  have hr : (List.replicate 8 0#8 : List Byte) = 0#8 :: List.replicate 7 0#8 := rfl
  have h' : 2 + l.length = l.length + 1 + 1 := by omega
  have hd : List.drop (2 + l.length) (x :: 0#8 :: List.replicate 7 0#8) =
      List.replicate (7 - l.length) 0#8 := by
    rw [h', List.drop_succ_cons, List.drop_succ_cons, List.drop_replicate]
  rw [hr, overwrite, hd]
  rfl

/-- The start of a level (R204, R205). -/
theorem setupLevel_holds (u : Option Uid) (kvb level : Nat) (hl : level = 1 ∨ level = 2 ∨ level = 3)
    (r : SelectRegs) (hsize : r.uidSize = firstSize u) :
    (setupLevel Config.codes u.isSome kvb level r).holds level (Window.start u kvb level r.uidAcc) := by
  have htag : usesTag u.isSome r.uidSize level = tagged u level := by
    rw [hsize]
    cases u <;> rfl
  have hsel : selByte Config.codes level = levelByte level := by
    rcases hl with rfl | rfl | rfl <;> rfl
  have hoff : 8 * uidOffset level = 24 * (level - 1) := by
    rw [uidOffset]
    omega
  cases hx : usesTag u.isSome r.uidSize level
  · rw [hx] at htag
    have hp : ∀ known : Nat, preloadCount known false = min ((known + 7) / 8) 4 := fun known => by
      simp only [preloadCount, bytesKnown, Bool.false_eq_true, if_false]
    refine ⟨rfl, ?_, ?_, 0#8, ?_⟩
    · simp only [setupLevel, hx, Bool.false_eq_true, if_false, hoff, Window.start, ← htag]
    · simp only [Window.start, ← htag, Bool.false_eq_true, if_false, List.length_append,
        List.length_replicate, List.length_take]
      omega
    · simp only [setupLevel, hx, Bool.false_eq_true, if_false, hoff, Window.start, ← htag, hp,
        List.nil_append, hsel]
      refine (overwrite_empty _ _ ?_).trans ?_
      · simp only [List.length_take]
        omega
      · rfl
  · rw [hx] at htag
    have hp : ∀ known : Nat, preloadCount known true = min ((known + 7) / 8) 3 := fun known => by
      simp only [preloadCount, bytesKnown, if_true]
    refine ⟨rfl, ?_, ?_, 0#8, ?_⟩
    · simp only [setupLevel, hx, if_true, hoff, Window.start, ← htag]
    · simp only [Window.start, ← htag, if_true, List.length_append, List.length_cons,
        List.length_replicate, List.length_take]
      omega
    · simp only [setupLevel, hx, if_true, hoff, Window.start, ← htag, hp, hsel]
      refine (overwrite_empty _ _ ?_).trans ?_
      · simp only [List.length_append, List.length_cons, List.length_nil, List.length_take]
        omega
      · rfl

/-- The UID bytes a level confirms (R217). -/
theorem copyLevelBytes_record (l : LevelRun) (level : Nat) (w : Window) (r : SelectRegs)
    (h₁ : r.level = level) (h₂ : r.uidx = 3 * (level - 1))
    (h₃ : (r.buf.drop 2).take 4 = (l.window w).bytes.take 4)
    (hlen : (l.window w).bytes.length = 7) :
    copyLevelBytes Config.codes r = { r with uidAcc := l.record level w r.uidAcc } := by
  obtain ⟨b0, b1, b2, b3, rest, hb⟩ : ∃ b0 b1 b2 b3 rest, (l.window w).bytes =
      b0 :: b1 :: b2 :: b3 :: rest := by
    match (l.window w).bytes, hlen with
    | [b0, b1, b2, b3, b4, b5, b6], _ => exact ⟨b0, b1, b2, b3, [b4, b5, b6], rfl⟩
  obtain ⟨x, y, rest', hr⟩ : ∃ x y rest', r.buf = x :: y :: b0 :: b1 :: b2 :: b3 :: rest' := by
    rw [hb] at h₃
    match hbuf : r.buf with
    | x :: y :: c0 :: c1 :: c2 :: c3 :: rest' =>
      rw [hbuf] at h₃
      simp only [List.drop_succ_cons, List.drop_zero, List.take_succ_cons, List.take_zero,
        List.cons.injEq, and_true] at h₃
      obtain ⟨rfl, rfl, rfl, rfl⟩ := h₃
      exact ⟨x, y, rest', rfl⟩
    | [] => simp [hbuf] at h₃
    | [_] => simp [hbuf] at h₃
    | [_, _] => simp [hbuf] at h₃
    | [_, _, _] => simp [hbuf] at h₃
    | [_, _, _, _] => simp [hbuf] at h₃
    | [_, _, _, _, _] => simp [hbuf] at h₃
  simp only [copyLevelBytes, LevelRun.record, hb, hr, h₁, h₂, List.getD_cons_succ,
    List.getD_cons_zero, Bool.and_eq_true, decide_eq_true_eq, beq_iff_eq, Config.piccCT, overwrite,
    List.drop_succ_cons, List.drop_zero, List.take_succ_cons, List.take_zero, List.length_cons,
    List.length_nil]
  split <;> rfl

/-- The SAK is confirmed: the UID bytes are recorded (R215 to R218). -/
theorem confirmLevel_ok (l : LevelRun) (level : Nat) (w : Window) (s : State) {m : Byte}
    (hl : l.confirmed m w = true) (h₁ : s.sel.level = level) (h₂ : s.sel.uidx = 3 * (level - 1))
    (h₃ : (s.sel.buf.drop 2).take 4 = (l.window w).bytes.take 4)
    (hlen : (l.window w).bytes.length = 7) :
    Runs (confirmLevel p.std
        { status := .ok
          bytes := l.answer.vals
          validBits := l.answer.control.extractLsb' 0 3 }) s (l.sakCrc.talk [l.sak])
      (.ok, l.sak.getLsbD 2)
      { s with
        env := s.env.afterTalk (l.sakCrc.talk [l.sak])
        crcPoll := l.sakCrc.quiet.length + 1
        status := .ok
        sel := { s.sel with sakLatch := l.sak, uidAcc := l.record level w s.sel.uidAcc } } := by
  simp only [LevelRun.confirmed, Bool.and_eq_true, beq_iff_eq] at hl
  obtain ⟨⟨⟨⟨-, hv⟩, hc⟩, hk⟩, hm⟩ := hl
  obtain ⟨v0, v1, v2, hvals⟩ : ∃ v0 v1 v2, l.answer.vals = [v0, v1, v2] := by
    match l.answer.vals, hv with
    | [v0, v1, v2], _ => exact ⟨v0, v1, v2, rfl⟩
  have hsak : l.sak = v0 := by simp [LevelRun.sak, hvals]
  have hm' : l.sakCrc.bytes = [v1, v2] := by rw [hm, hvals]; rfl
  have hcm : crcMatches [v1, v2] [v0, v1, v2] 1 = true := by simp [crcMatches]
  have hrec := copyLevelBytes_record l level w { s.sel with sakLatch := v0 } h₁ h₂ h₃ hlen
  have hend : ∀ s' : State, Runs (do
      let q ← readSelect
      goLines (copyLines Config.codes q)
      modifySelect fun x => copyLevelBytes Config.codes { x with sakLatch := [v0, v1, v2].getD 0 0#8 }
      goLine 54
      pure (StatusCode.ok, cascadeSet ([v0, v1, v2].getD 0 0#8)) : M (StatusCode × Bool)) s' []
      (.ok, l.sak.getLsbD 2)
      { s' with sel := copyLevelBytes Config.codes { s'.sel with sakLatch := v0 } } := fun s' =>
    Runs.sel (Runs.goes ((modifySelect_runs _ s').bind (us := []) (Runs.go ((Runs.pure _ _).val (by
      simp only [List.getD_cons_zero, cascadeSet_eq, hsak])))))
  have hshape : ([v0, v1, v2].length ≠ 3 || l.answer.control.extractLsb' 0 3 ≠ 0#3) = false := by
    simp [hc]
  rw [hvals]
  unfold confirmLevel
  simp only [hshape, Bool.false_eq_true, if_false, List.take_succ_cons, List.take_zero]
  refine Runs.go (((Runs.call (calcCrc_done l.sakCrc hk [v0] _)).bind (us := []) (t := _) ?_).to
    (by rw [List.append_nil, hsak]) rfl)
  simp only [ne_eq, not_true, if_false, hm', hcm, if_true]
  refine Runs.go ((hend _).to rfl ?_)
  rw [hrec, hsak]

/-- What the levels of SELECT leave alone. -/
structure KeepsHost (s t : State) : Prop where
  latched : t.latched = s.latched
  result : t.result = s.result
  params : t.params = s.params
  pending : t.pending = s.pending
  host : t.host = s.host

theorem KeepsHost.trans {s t u : State} (h₁ : KeepsHost s t) (h₂ : KeepsHost t u) :
    KeepsHost s u :=
  ⟨h₂.latched.trans h₁.latched, h₂.result.trans h₁.result, h₂.params.trans h₁.params,
    h₂.pending.trans h₁.pending, h₂.host.trans h₁.host⟩

theorem KeepsRecord.keepsHost {s t : State} (h : KeepsRecord s t) : KeepsHost s t :=
  ⟨h.latched, h.result, h.params, h.pending, h.host⟩

/-- One confirmed level: what follows is the next level where the SAK has the cascade bit, the completed
record where it has not (R204 to R219). -/
theorem selectLevels_confirmed (l : LevelRun) (u : Option Uid) (kvb n level : Nat) (w : Window)
    (s : State) (hn : n ≤ 2) (hlevel : level = 3 - n)
    (hw : w = Window.start u kvb level s.sel.uidAcc) (hsize : s.sel.uidSize = firstSize u)
    (hl : l.confirmed p.waitTransceive w = true) :
    ∃ s', KeepsHost s s' ∧ s'.sel.uidAcc = l.record level w s.sel.uidAcc ∧
      s'.sel.uidSize = s.sel.uidSize ∧ s'.sel.sakOut = s.sel.sakOut ∧ s'.sel.level = level ∧
      s'.sel.sakLatch = l.sak ∧
      ∀ (ts : List Talk) (st : StatusCode) (t : State),
        Runs (if l.sak.getLsbD 2 then selectLevels p.std u.isSome kvb n else do
          goLine 55
          modifySelect completeRecord
          goLine 56
          pure .ok) s' ts st t →
        Runs (selectLevels p.std u.isSome kvb (n + 1)) s (l.talk level w ++ ts) st t := by
  have hl3 : level = 1 ∨ level = 2 ∨ level = 3 := by omega
  have hsel : l.selects p.waitTransceive w = true := by
    simp only [LevelRun.confirmed, Bool.and_eq_true] at hl
    exact hl.1.1.1.1
  have hv : l.answer.vals.length ≤ 3 := by
    simp only [LevelRun.confirmed, Bool.and_eq_true, beq_iff_eq] at hl
    omega
  have hholds := setupLevel_holds u kvb level hl3 s.sel hsize
  rw [← hw] at hholds
  obtain ⟨t₁, g₁, g₂, g₃, g₄, g₅⟩ := selectRounds_selects l level w
    { s with sel := setupLevel Config.codes u.isSome kvb level s.sel } hholds hsel hv
  have hc := confirmLevel_ok (p := p) l level w t₁ hl g₃ (g₂.uidx) g₄ g₅
  refine ⟨{ t₁ with
    env := t₁.env.afterTalk (l.sakCrc.talk [l.sak])
    crcPoll := l.sakCrc.quiet.length + 1
    status := .ok
    sel := { t₁.sel with sakLatch := l.sak, uidAcc := l.record level w t₁.sel.uidAcc } },
    ⟨g₂.latched, g₂.result, g₂.params, g₂.pending, g₂.host⟩, ?_, g₂.uidSize, g₂.sakOut, g₃, rfl,
    fun ts st t ht => ?_⟩
  rotate_left 1
  · rw [selectLevels, ← hlevel]
    refine Runs.goes (((modifySelect_runs _ s).bind (g₁.bind (us := l.sakCrc.talk [l.sak] ++ ts)
      (t := t) (hc.bind (us := ts) (t := t) ?_))).to (by simp [LevelRun.talk]) rfl)
    simp only [ne_eq, not_true, if_false]
    exact ht
  · show l.record level w t₁.sel.uidAcc = _
    rw [g₂.uidAcc]
    rfl

theorem startRecord_eq (u : Option Uid) (r : SelectRegs) :
    (startRecord u r).uidAcc = firstRecord u ∧ (startRecord u r).uidSize = firstSize u ∧
      (startRecord u r).sakOut = none := by
  cases u <;> exact ⟨rfl, rfl, rfl⟩

/-- The levels of a SELECT that succeeds (R200). -/
theorem selectLevels_ok (u : Option Uid) (kvb : Nat) (last : LevelRun) :
    ∀ (ls : List LevelRun) (n level : Nat) (s : State), ls.getLast? = some last → n ≤ 3 →
      ls.length ≤ n → level = 4 - n → s.sel.uidSize = firstSize u →
      levelsConfirmed p.waitTransceive u kvb false ls level s.sel.uidAcc = true →
      ∃ t, Runs (selectLevels p.std u.isSome kvb n) s (levelsTalk u kvb ls level s.sel.uidAcc) .ok t ∧
        KeepsHost s t ∧ t.sel.uidAcc = levelsRecord u kvb ls level s.sel.uidAcc ∧
        t.sel.uidSize = 3 * (level + ls.length - 1) + 1 ∧ t.sel.sakOut = some last.sak
  | [], _, _, _, h, _, _, _, _, _ => by simp at h
  | l :: ls, 0, _, _, _, _, h, _, _, _ => by simp at h
  | l :: ls, n + 1, level, s, hlast, hn, hlen, hlevel, hsize, hconf => by
    simp only [levelsConfirmed, Bool.and_eq_true] at hconf
    obtain ⟨⟨hl, hsak⟩, hrest⟩ := hconf
    obtain ⟨s', g₁, g₂, g₃, g₄, g₅, g₆, g₇⟩ := selectLevels_confirmed l u kvb n level _ s (by omega)
      (by omega) rfl hsize hl
    by_cases hls : ls = []
    · subst hls
      simp only [if_true, beq_iff_eq] at hsak
      obtain rfl : l = last := by simpa using hlast
      refine ⟨{ s' with sel := completeRecord s'.sel }, (g₇ [] .ok _ ?_).to ?_ rfl,
        ⟨g₁.latched, g₁.result, g₁.params, g₁.pending, g₁.host⟩, ?_, ?_, ?_⟩
      · simp only [hsak, Bool.false_eq_true, if_false]
        exact Runs.go ((modifySelect_runs _ _).bind (Runs.go (Runs.pure _ _)))
      · simp [levelsTalk]
      · exact g₂
      · simp [completeRecord, g₅]
      · simp [completeRecord, g₆]
    · simp only [hls, if_false] at hsak
      rw [← g₂] at hrest
      obtain ⟨t, k₁, k₂, k₃, k₄, k₅⟩ := selectLevels_ok u kvb last ls n (level + 1) s'
        (by
          cases ls with
          | nil => exact absurd rfl hls
          | cons a as => rwa [List.getLast?_cons_cons] at hlast) (by omega)
        (by simpa using hlen) (by omega) (g₃.trans hsize) hrest
      refine ⟨t, (g₇ _ _ t (by
        simp only [hsak, if_true]
        exact k₁)).to ?_ rfl, g₁.trans k₂, ?_, ?_, k₅⟩
      · simp only [levelsTalk, g₂]
      · rw [k₃, g₂]
        rfl
      · rw [k₄, List.length_cons]
        congr 2
        omega

/-- Levels confirmed with the cascade bit, then the rest of SELECT at the level reached (R204, R217). -/
theorem selectLevels_prefix (u : Option Uid) (kvb : Nat) :
    ∀ (ls : List LevelRun) (n level : Nat) (s : State), level = 4 - n → n ≤ 3 → ls.length ≤ n →
      s.sel.uidSize = firstSize u → s.sel.sakOut = none →
      levelsConfirmed p.waitTransceive u kvb true ls level s.sel.uidAcc = true →
      ∃ s', KeepsHost s s' ∧ s'.sel.uidAcc = levelsRecord u kvb ls level s.sel.uidAcc ∧
        s'.sel.uidSize = firstSize u ∧ s'.sel.sakOut = none ∧
        ∀ (ts : List Talk) (st : StatusCode) (t : State),
          Runs (selectLevels p.std u.isSome kvb (n - ls.length)) s' ts st t →
          Runs (selectLevels p.std u.isSome kvb n) s (levelsTalk u kvb ls level s.sel.uidAcc ++ ts) st t := by
  intro ls
  induction ls with
  | nil =>
    intro n level s _ _ _ hsize hsak _
    exact ⟨s, ⟨rfl, rfl, rfl, rfl, rfl⟩, rfl, hsize, hsak, fun ts st t h => h⟩
  | cons l ls ih =>
    intro n level s hlevel hn hlen hsize hsak hc
    simp only [levelsConfirmed, Bool.and_eq_true] at hc
    obtain ⟨⟨hl, hmore⟩, hrest⟩ := hc
    have hmore' : l.sak.getLsbD 2 = true := by
      split at hmore
      · simpa using hmore
      · exact hmore
    obtain ⟨k, rfl⟩ : ∃ k, n = k + 1 := ⟨n - 1, by simp only [List.length_cons] at hlen; omega⟩
    obtain ⟨s₁, g₁, g₂, g₃, g₄, -, -, g₇⟩ :=
      selectLevels_confirmed l u kvb k level _ s (by omega) (by omega) rfl hsize hl
    obtain ⟨s', k₁, k₂, k₃, k₄, k₅⟩ := ih k (level + 1) s₁
      (by omega) (by omega) (by simpa using hlen) (g₃.trans hsize) (g₄.trans hsak) (by rw [g₂]; exact hrest)
    refine ⟨s', g₁.trans k₁, ?_, k₃, k₄, fun ts st t h => ?_⟩
    · rw [k₂, g₂]
      rfl
    · have hlen' : k + 1 - (l :: ls).length = k - ls.length := by simp
      rw [hlen'] at h
      refine (g₇ _ st t (by simp only [hmore', if_true]; exact k₅ ts st t h)).to ?_ rfl
      simp [levelsTalk, g₂]

/-- A round that ends SELECT: an answer too long for the window, a collision whose position is not valid
or not beyond the known bits, silence (R210 to R212). -/
theorem selectRound_stops (level : Nat) (w : Window) (s : State) (ts : List Talk) (st : StatusCode)
    (h : s.sel.holds level w) (hk : w.known < 32)
    (hr : (∃ r : Round, r.comm.ok p.waitTransceive = true ∧ r.vals.length ≤ 64 ∧
        7 - w.known / 8 < r.vals.length ∧ ts = r.exchange level w ∧ st = .noRoom) ∨
      (∃ r : Round, r.comm.ok p.waitTransceive = true ∧ r.vals.length ≤ 7 - w.known / 8 ∧
        r.collides = true ∧ ts = r.talk level w ∧
        ((r.coll.getLsbD 5 = true ∧ st = .collision) ∨
          (r.coll.getLsbD 5 = false ∧ r.position ≤ w.known ∧ st = .internalError))) ∨
      (∃ r : CommSilence, r.ok p.waitTransceive = true ∧
        ts = r.talk (transceiveArgs (w.frame level) true (w.known % 8) (w.known % 8) false 0#8) ∧
        st = .timeout)) :
    ∃ t, Runs (selectRound p.std) s ts (.stop st) t ∧ KeepsRecord s t := by
  have hnk : ¬ 32 ≤ s.sel.known := by
    rw [h.2.1]
    omega
  obtain ⟨f₁, f₂, f₃, f₄, f₅, f₆, f₇, f₈, f₉, f₁₀⟩ := setupAnticollision_frame s.sel level w h hk
  rw [f₃] at f₅
  obtain ⟨-, g₂, -, -⟩ := f₆
  have hround : ∀ (us : List Talk) (t : State),
      Runs (roundExchange p.std) { s with sel := setupAnticollision s.sel } us (.stop st) t →
      Runs (selectRound p.std) s us (.stop st) t := by
    intro us t ht
    refine Runs.go (Runs.sel ?_)
    simp only [hnk, if_false]
    exact Runs.goes (((modifySelect_runs setupAnticollision s).bind ht).to (by simp) rfl)
  have hkeeps : ∀ t : State, t.latched = s.latched → t.result = s.result → t.params = s.params →
      t.pending = s.pending → t.host = s.host →
      t.sel.uidAcc = (setupAnticollision s.sel).uidAcc →
      t.sel.uidSize = (setupAnticollision s.sel).uidSize →
      t.sel.sakOut = (setupAnticollision s.sel).sakOut →
      t.sel.uidx = (setupAnticollision s.sel).uidx → KeepsRecord s t :=
    fun t h₁ h₂ h₃ h₄ h₅ h₇ h₈ h₉ h₁₀ => ⟨h₁, h₂, h₃, h₄, h₅, h₇.trans f₇, h₈.trans f₈,
      h₉.trans f₉, h₁₀.trans f₁₀⟩
  rcases hr with ⟨r, hc, hv, hl, rfl, rfl⟩ | ⟨r, hc, hv, hcl, rfl, hcoll⟩ | ⟨r, hc, rfl, rfl⟩
  · refine ⟨_, (hround _ _ (roundExchange_answered r.comm hc r.vals hv r.control _
      (State.exchanged { s with sel := setupAnticollision s.sel } r.comm r.vals r.control) []
      (.stop .noRoom) ?_)).to ?_ rfl, hkeeps _ rfl rfl rfl rfl rfl rfl rfl rfl rfl⟩
    · simp only [f₄, hl, if_true]
      exact Runs.pure _ _
    · simp only [f₁, f₂, List.append_nil]
      rfl
  · have hcl' : r.comm.err.getLsbD 3 = true := hcl
    have hw : ¬ 7 - w.known / 8 < r.vals.length := by omega
    have hrun := hround _ _ (roundExchange_answered r.comm hc r.vals (by omega) r.control _ _
      [.get Config.regColl r.coll] (.stop st) (by
        simp only [f₄, hw, if_false, hcl', if_true]
        exact Runs.go ((modifySelect_runs _ _).bind (Runs.go (resolveCollision_stops r.coll _ st
          (hcoll.imp_right fun ⟨h₁, h₂, h₃⟩ => ⟨h₁, by
            rw [collisionPosition_eq]
            exact g₂.symm ▸ h₂, h₃⟩))))))
    refine ⟨_, hrun.to ?_ rfl, hkeeps _ rfl rfl rfl rfl rfl rfl rfl rfl rfl⟩
    simp only [f₁, f₂, Round.talk, hcl, if_true]
    rfl
  · have hrun : Runs (roundExchange p.std) { s with sel := setupAnticollision s.sel } _ (.stop .timeout) _ :=
      Runs.sel (((Runs.call (Runs.transceive (transceiveStep_silence r hc
        ((setupAnticollision s.sel).buf.take (setupAnticollision s.sel).used) true false
        (setupAnticollision s.sel).txl (setupAnticollision s.sel).txl
        ((setupAnticollision s.sel).buf.getD (setupAnticollision s.sel).woff 0#8) _))).bind (us := []) (by
          simp only [reduceCtorEq, or_self, if_false]
          exact Runs.go (Runs.goes (Runs.pure _ _)))).to (List.append_nil _) rfl)
    refine ⟨_, (hround _ _ hrun).to ?_ rfl, hkeeps _ rfl rfl rfl rfl rfl rfl rfl rfl rfl⟩
    simp only [f₁, f₂]
    rfl

/-- A level whose rounds end SELECT (R210 to R212). -/
theorem selectLevels_stopped (u : Option Uid) (kvb n : Nat) (hn : n ≤ 2) (rs : List Round) (s : State)
    (hsize : s.sel.uidSize = firstSize u)
    (hg : roundsGoOn p.waitTransceive rs (Window.start u kvb (3 - n) s.sel.uidAcc) = true) (ts : List Talk)
    (st : StatusCode)
    (hstop : ∀ s', s'.sel.holds (3 - n)
        (roundsNext rs (Window.start u kvb (3 - n) s.sel.uidAcc)) →
      ∃ t, Runs (selectRound p.std) s' ts (.stop st) t ∧ KeepsRecord s' t) :
    ∃ t, Runs (selectLevels p.std u.isSome kvb (n + 1)) s
        (roundsTalk (3 - n) rs (Window.start u kvb (3 - n) s.sel.uidAcc) ++ ts) st t ∧
      KeepsHost s t ∧ t.sel.uidAcc = s.sel.uidAcc ∧ t.sel.uidSize = s.sel.uidSize ∧
      t.sel.sakOut = s.sel.sakOut := by
  have hh := setupLevel_holds u kvb (3 - n) (by omega) s.sel hsize
  obtain ⟨t, g₁, g₂⟩ := selectRounds_stops rs (3 - n) _
    { s with sel := setupLevel Config.codes u.isSome kvb (3 - n) s.sel } hh hg ts st hstop
  refine ⟨t, ?_, ⟨g₂.latched, g₂.result, g₂.params, g₂.pending, g₂.host⟩, g₂.uidAcc, g₂.uidSize,
    g₂.sakOut⟩
  rw [selectLevels]
  exact Runs.goes (((modifySelect_runs _ s).bind (g₁.last
    (f := fun (x : StatusCode × Option Response) => match x.2 with
      | none => pure x.1
      | some r => do
        let (st, more) ← confirmLevel p.std r
        if st ≠ .ok then pure st
        else if more then selectLevels p.std u.isSome kvb n
        else do
          goLine 55
          modifySelect completeRecord
          goLine 56
          pure .ok) rfl)).to (by simp) rfl)

/-- A select round that ends SELECT: its CRC_A times out, its answer is too long, collides, or does not
come (R208, R210 to R212). -/
theorem selectRound_select_stops (level : Nat) (w : Window) (s : State) (ts : List Talk)
    (st : StatusCode)
    (h : s.sel.holds level w)
    (hk : 32 ≤ w.known)
    (hr : (∃ q : List Byte, (∀ n ∈ q, n.getLsbD 2 = false) ∧ q.length = 255 ∧
        ts = crcStart (w.select level) ++ q.map (.get Config.regDivIrq) ∧ st = .timeout) ∨
      (∃ (crc : CrcRun) (ans : AnswerRun), crc.ok = true ∧ ans.comm.ok p.waitTransceive = true ∧
        3 < ans.vals.length ∧ ans.vals.length ≤ 64 ∧
        ts = crc.talk (w.select level) ++ ans.talk (w.select level ++ crc.bytes) 0 0 ∧
        st = .noRoom) ∨
      (∃ (crc : CrcRun) (ans : AnswerRun) (cr : Byte), crc.ok = true ∧ ans.comm.ok p.waitTransceive = true ∧
        ans.comm.err.getLsbD 3 = true ∧ ans.vals.length ≤ 3 ∧
        ts = crc.talk (w.select level) ++
          (ans.talk (w.select level ++ crc.bytes) 0 0 ++ [.get Config.regColl cr]) ∧
        st = if cr.getLsbD 5 then .collision else .internalError) ∨
      (∃ (crc : CrcRun) (q : CommSilence), crc.ok = true ∧ q.ok p.waitTransceive = true ∧
        ts = crc.talk (w.select level) ++
          q.talk (transceiveArgs (w.select level ++ crc.bytes) true 0 0 false 0#8) ∧
        st = .timeout)) :
    ∃ t, Runs (selectRound p.std) s ts (.stop st) t ∧ KeepsRecord s t := by
  have hks : 32 ≤ s.sel.known := h.2.1 ▸ hk
  rcases hr with ⟨q, hq, hlen, rfl, rfl⟩ | ⟨crc, ans, hc, ha, h₃, h₆, rfl, rfl⟩ |
    ⟨crc, ans, cr, hc, ha, he, h₃, rfl, rfl⟩ | ⟨crc, q, hc, hq, rfl, rfl⟩
  · obtain ⟨f₁, -, -⟩ := setupSelect_frame s.sel level w h 0#8 0#8
    have hrun : Runs (selectRound p.std) s (crcStart (w.select level) ++ q.map (.get Config.regDivIrq))
        (.stop .timeout) _ := Runs.go (Runs.sel (by
      simp only [hks, if_true]
      exact Runs.goes (((modifySelect_runs setupSelect s).bind (Runs.sel (by
        rw [show (List.take 7 _ : List Byte) = w.select level from f₁]
        exact (Runs.call (calcCrc_timeout q hq hlen (w.select level) _)).bind (us := []) (by
          simp only [ne_eq, reduceCtorEq, not_false_eq_true, if_true]
          exact Runs.pure _ _)))).to (by simp) rfl)))
    exact ⟨_, hrun, rfl, rfl, rfl, rfl, rfl, rfl, rfl, rfl, rfl⟩
  · have hf := selectFramed_frame s crc (w.select level) level w h
    have hrun : Runs (roundExchange p.std) (s.selectFramed crc (w.select level)) _ (.stop .noRoom) _ :=
      roundExchange_answered ans.comm ha ans.vals h₆ ans.control _ _ [] _ (by
        simp only [State.selectFramed, finishSelectFrame, h₃, if_true]
        exact Runs.pure _ _)
    refine ⟨_, selectRound_framed crc hc level w s _ h hk _ _ (hrun.to ?_ rfl), rfl, rfl, rfl, rfl,
      rfl, rfl, rfl, rfl, rfl⟩
    rw [hf, List.append_nil]
    rfl
  · have hf := selectFramed_frame s crc (w.select level) level w h
    have hp : ∀ n : Byte, collisionPosition Config.codes n ≤ 32 := by decide +kernel
    have hw : ¬ 3 < ans.vals.length := by omega
    have hrun : Runs (roundExchange p.std) (s.selectFramed crc (w.select level)) _
        (.stop (if cr.getLsbD 5 then .collision else .internalError)) _ :=
      roundExchange_answered ans.comm ha ans.vals (by omega) ans.control _ _
        [.get Config.regColl cr] _ (by
        simp only [State.selectFramed, finishSelectFrame, hw, if_false, he, if_true]
        exact Runs.go ((modifySelect_runs _ _).bind (Runs.go (resolveCollision_stops cr _ _ (by
          by_cases hn : cr.getLsbD 5 = true
          · exact .inl ⟨hn, if_pos hn⟩
          · exact .inr ⟨eq_false_of_ne_true hn, Nat.le_trans (hp cr) hks, if_neg hn⟩)))))
    refine ⟨_, selectRound_framed crc hc level w s _ h hk _ _ (hrun.to ?_ rfl), rfl, rfl, rfl, rfl,
      rfl, rfl, rfl, rfl, rfl⟩
    rw [hf]
    rfl
  · have hf := selectFramed_frame s crc (w.select level) level w h
    have hrun : Runs (roundExchange p.std) (s.selectFramed crc (w.select level)) _ (.stop .timeout) _ :=
      Runs.sel (((Runs.call (Runs.transceive (transceiveStep_silence q hq
        ((s.selectFramed crc (w.select level)).sel.buf.take
          (s.selectFramed crc (w.select level)).sel.used) true false 0 0
        ((s.selectFramed crc (w.select level)).sel.buf.getD 6 0#8) _))).bind
          (us := []) (by
          simp only [reduceCtorEq, or_self, if_false]
          exact Runs.go (Runs.goes (Runs.pure _ _)))).to (List.append_nil _) rfl)
    refine ⟨_, selectRound_framed crc hc level w s _ h hk _ _ (hrun.to ?_ rfl), rfl, rfl, rfl, rfl,
      rfl, rfl, rfl, rfl, rfl⟩
    rw [hf]
    rfl

/-- A select answer that ends SELECT: of another shape than three whole bytes, or with a CRC_A that times out
or is not the SAK's (R215, R216). -/
theorem confirmLevel_stops (vals : List Byte) (vb : BitCount) (s : State) (ts : List Talk)
    (st : StatusCode)
    (h : (¬ (vals.length = 3 ∧ vb = 0#3) ∧ ts = [] ∧ st = .error) ∨
      (vals.length = 3 ∧ vb = 0#3 ∧
        ((∃ q : List Byte, (∀ n ∈ q, n.getLsbD 2 = false) ∧ q.length = 255 ∧
            ts = crcStart [vals.getD 0 0#8] ++ q.map (.get Config.regDivIrq) ∧ st = .timeout) ∨
          ∃ c : CrcRun, c.ok = true ∧ c.bytes ≠ vals.drop 1 ∧ ts = c.talk [vals.getD 0 0#8] ∧
            st = .crcWrong))) :
    ∃ t, Runs (confirmLevel p.std { status := .ok, bytes := vals, validBits := vb }) s ts (st, false) t ∧
      KeepsRecord s t := by
  rcases h with ⟨hs, rfl, rfl⟩ | ⟨hv, rfl, h⟩
  · refine ⟨s, Runs.go ?_, rfl, rfl, rfl, rfl, rfl, rfl, rfl, rfl, rfl⟩
    have : (vals.length ≠ 3 || vb ≠ 0#3) = true := by
      simp only [ne_eq, decide_not, Bool.or_eq_true, Bool.not_eq_true', decide_eq_false_iff_not]
      exact Decidable.not_and_iff_not_or_not.1 hs
    simp only [this, if_true]
    exact Runs.pure _ _
  · obtain ⟨v0, v1, v2, rfl⟩ : ∃ v0 v1 v2, vals = [v0, v1, v2] := by
      match vals, hv with
      | [v0, v1, v2], _ => exact ⟨v0, v1, v2, rfl⟩
    have hshape : ([v0, v1, v2].length ≠ 3 || (0#3 : BitCount) ≠ 0#3) = false := by simp
    rcases h with ⟨q, hq, hlen, rfl, rfl⟩ | ⟨c, hc, hne, rfl, rfl⟩
    · have hrun : Runs (confirmLevel p.std { status := .ok, bytes := [v0, v1, v2], validBits := 0#3 }) s
          (crcStart [v0] ++ q.map (.get Config.regDivIrq)) (.timeout, false) _ := Runs.go (by
        simp only [hshape, Bool.false_eq_true, if_false, List.take_succ_cons, List.take_zero]
        exact ((Runs.call (calcCrc_timeout q hq hlen [v0] _)).bind (us := []) (by
          simp only [ne_eq, reduceCtorEq, not_false_eq_true, if_true]
          exact Runs.pure _ _)).to (List.append_nil _) rfl)
      exact ⟨_, hrun, rfl, rfl, rfl, rfl, rfl, rfl, rfl, rfl, rfl⟩
    · have hm : crcMatches c.bytes [v0, v1, v2] 1 = false := by
        refine eq_false_of_ne_true fun hcm => hne ?_
        simp only [crcMatches, CrcRun.bytes, List.getD_cons_zero, List.getD_cons_succ,
          Bool.and_eq_true, beq_iff_eq] at hcm
        simp only [CrcRun.bytes, hcm, List.drop_succ_cons, List.drop_zero]
      have hrun : Runs (confirmLevel p.std { status := .ok, bytes := [v0, v1, v2], validBits := 0#3 }) s
          (c.talk [v0]) (.crcWrong, false) _ := Runs.go (by
        simp only [hshape, Bool.false_eq_true, if_false, List.take_succ_cons, List.take_zero]
        exact ((Runs.call (calcCrc_done c hc [v0] _)).bind (us := []) (by
          simp only [ne_eq, not_true, if_false, hm, Bool.false_eq_true]
          exact Runs.go (Runs.pure _ _))).to (List.append_nil _) rfl)
      exact ⟨_, hrun, rfl, rfl, rfl, rfl, rfl, rfl, rfl, rfl, rfl⟩

/-- A level whose select answer ends SELECT (R215, R216). -/
theorem selectLevels_unconfirmed (l : LevelRun) (u : Option Uid) (kvb n : Nat) (hn : n ≤ 2) (s : State)
    (hsize : s.sel.uidSize = firstSize u)
    (hl : l.selects p.waitTransceive (Window.start u kvb (3 - n) s.sel.uidAcc) = true)
    (hv : l.answer.vals.length ≤ 3) (ts : List Talk) (st : StatusCode) (hst : st ≠ .ok)
    (hstop : ∀ s', ∃ t, Runs (confirmLevel p.std
        { status := .ok
          bytes := l.answer.vals
          validBits := l.answer.control.extractLsb' 0 3 }) s' ts (st, false) t ∧ KeepsRecord s' t) :
    ∃ t, Runs (selectLevels p.std u.isSome kvb (n + 1)) s
        (l.selectTalk (3 - n) (Window.start u kvb (3 - n) s.sel.uidAcc) ++ ts) st t ∧
      KeepsHost s t ∧ t.sel.uidAcc = s.sel.uidAcc ∧ t.sel.uidSize = s.sel.uidSize ∧
      t.sel.sakOut = s.sel.sakOut := by
  have hh := setupLevel_holds u kvb (3 - n) (by omega) s.sel hsize
  obtain ⟨t₁, g₁, g₂, -, -, -⟩ := selectRounds_selects l (3 - n) _
    { s with sel := setupLevel Config.codes u.isSome kvb (3 - n) s.sel } hh hl hv
  obtain ⟨t, k₁, k₂⟩ := hstop t₁
  have g₃ := g₂.trans k₂
  refine ⟨t, ?_, ⟨g₃.latched, g₃.result, g₃.params, g₃.pending, g₃.host⟩, g₃.uidAcc, g₃.uidSize,
    g₃.sakOut⟩
  rw [selectLevels]
  refine Runs.goes (((modifySelect_runs _ s).bind (g₁.bind (us := ts) (t := t)
    ((k₁.bind (us := []) (t := t) ?_).to (List.append_nil _) rfl))).to rfl rfl)
  simp only [ne_eq, hst, not_false_eq_true, if_true]
  exact Runs.pure _ _

/-- The preparation of the collision register (R201). -/
theorem prepareColl_runs (line : Nat) (coll : Byte) (s : State) :
    Runs (prepareColl p.std line) s (prepareTalk p.toSettings coll) ()
      { s with env := s.env.afterTalk (prepareTalk p.toSettings coll) } := by
  refine Runs.go ?_
  by_cases h : p.selectClearsValuesAfterColl = true
  · simp only [h, if_true, prepareTalk]
    exact Runs.call (framerClrb_runs Config.regColl Config.valuesAfterColl coll _)
  · simp only [h, prepareTalk]
    exact Runs.pure _ _

theorem domainError_select (cap respCap : Nat) (u : Option Uid) (kvb : Byte) (h : seedOk u = true) :
    domainError cap respCap (.select u kvb) = none := by
  cases u with
  | none => rfl
  | some v =>
    simp only [seedOk, Uid.wellFormed, Bool.and_eq_true, Bool.or_eq_true, beq_iff_eq] at h
    have h2 : v.size = 4 ∨ v.size = 7 ∨ v.size = 10 := by omega
    simp only [domainError, needUid, firstReason, needLength, h.1, h2, if_true]

/-- SELECT around its levels: the record started, the preparation, the status presented (R201 to R203,
R221). -/
theorem select_runs (u : Option Uid) (kvb coll : Byte) (hk : kvb.toNat ≤ 80) (s : State) :
    ∃ s', KeepsHost s s' ∧ s'.sel.uidAcc = firstRecord u ∧ s'.sel.uidSize = firstSize u ∧
      s'.sel.sakOut = none ∧
      ∀ (ts : List Talk) (st : StatusCode) (t : State),
        Runs (selectLevels p.std u.isSome kvb.toNat 3) s' ts st t →
        Runs (select p.std u kvb) s (prepareTalk p.toSettings coll ++ ts) st { t with status := st } := by
  obtain ⟨e₁, e₂, e₃⟩ := startRecord_eq u s.sel
  have hp := prepareColl_runs (p := p) 5 coll { s with sel := startRecord u s.sel }
  have hn : ¬ Config.maxKnownBits < kvb.toNat := by simpa using hk
  refine ⟨{ s with
    sel := startRecord u s.sel
    env := s.env.afterTalk (prepareTalk p.toSettings coll) },
    ⟨rfl, rfl, rfl, rfl, rfl⟩, e₁, e₂, e₃, fun ts st t h => ?_⟩
  unfold select
  refine (Runs.goes ((modifySelect_runs _ _).bind (us := prepareTalk p.toSettings coll ++ ts)
    (t := { t with status := st }) (Runs.go ?_))).to rfl rfl
  simp only [hn, if_false]
  refine (hp.bind (Runs.go (h.bind ((present_runs st t).last
    (f := fun _ => (pure st : M StatusCode)) rfl)))).to ?_ rfl
  simp [prepareTalk]

/-- SELECT as an operation, from what its levels do (R200, R221). -/
theorem exec_select (u : Option Uid) (kvb coll : Byte) (hu : seedOk u = true) (hk : kvb.toNat ≤ 80)
    (s : State) (hp : s.standard) (hs : s.seq = .idle) :
    ∃ s', KeepsHost (s.started (.select u kvb) .select) s' ∧ s'.sel.uidAcc = firstRecord u ∧
      s'.sel.uidSize = firstSize u ∧ s'.sel.sakOut = none ∧
      ∀ (ts : List Talk) (st : StatusCode) (t : State),
        Runs (selectLevels s.config.std u.isSome kvb.toNat 3) s' ts st t →
        s.env.talks (prepareTalk s.params coll ++ ts) = true →
        exec (.select u kvb) s = .next { t with
          seq := .idle
          latched := none
          status := st
          result := statusResult st (.uid (recordOf t.sel)) } ∧
        t.env = s.env.afterTalk (prepareTalk s.params coll ++ ts) := by
  obtain ⟨s', h₁, h₂, h₃, h₄, h₅⟩ := select_runs (p := s.config) u kvb coll hk
    (s.started (.select u kvb) .select)
  refine ⟨s', h₁, h₂, h₃, h₄, fun ts st t h ht => ?_⟩
  have hrun : Runs (Instr.body s.config.std (.select u kvb)) (s.started (.select u kvb) .select)
      (prepareTalk s.params coll ++ ts) (statusResult st (.uid (recordOf t.sel))) { t with status := st } :=
    ((h₅ ts st t h).bind (us := []) (Runs.sel (f := fun q : SelectRegs =>
      (pure (statusResult st (.uid (recordOf q))) : M Result)) (Runs.pure _ _))).to
        (List.append_nil _) rfl
  exact ⟨exec_next_std hs hp (domainError_select _ _ u kvb hu) hrun ht rfl, (hrun ht).1⟩

/-- SELECT that ends with a failure status after confirmed levels, from what its last level does (R221). -/
theorem exec_select_ends (s : State) (hp : s.standard) (u : Option Uid)
    (kvb coll : Byte) (before : List LevelRun) (ts : List Talk) (st : StatusCode)
    (record : List Byte) (hs : s.seq = .idle)
    (hu : seedOk u = true) (hk : kvb.toNat ≤ 80) (hb : before.length ≤ 2)
    (hconf : levelsConfirmed s.params.waitTransceive u kvb.toNat true before 1 (firstRecord u) = true)
    (hl : ∀ s', s'.sel.uidAcc = levelsRecord u kvb.toNat before 1 (firstRecord u) →
      s'.sel.uidSize = firstSize u → s'.sel.sakOut = none →
      ∃ t, Runs (selectLevels s.config.std u.isSome kvb.toNat (3 - before.length)) s' ts st t ∧
        KeepsHost s' t ∧
        t.sel.uidAcc = record ∧ t.sel.uidSize = firstSize u ∧ t.sel.sakOut = none)
    (ht : s.env.talks (prepareTalk s.params coll ++
      (levelsTalk u kvb.toNat before 1 (firstRecord u) ++ ts)) = true) :
    ∃ t, exec (.select u kvb) s = .next t ∧
      t.env = s.env.afterTalk
        (prepareTalk s.params coll ++ (levelsTalk u kvb.toNat before 1 (firstRecord u) ++ ts)) ∧
      t.status = st ∧
      t.result = statusResult st (.uid { bytes := record, size := firstSize u, sak := none }) ∧
      s.selectFrame t := by
  obtain ⟨s', h₁, h₂, h₃, h₄, h₅⟩ := exec_select u kvb coll hu hk s hp hs
  obtain ⟨s₂, k₁, k₂, k₃, k₄, k₅⟩ := selectLevels_prefix (p := s.config) u kvb.toNat before 3 1 s' rfl (by omega)
    (by omega) h₃ h₄ (by rw [h₂]; exact hconf)
  rw [h₂] at k₂
  obtain ⟨t, j₁, j₂, j₃, j₄, j₅⟩ := hl s₂ k₂ k₃ k₄
  have hrun := k₅ _ _ _ j₁
  rw [h₂] at hrun
  obtain ⟨g₁, g₂⟩ := h₅ _ _ _ hrun ht
  have hh := h₁.trans (k₁.trans j₂)
  refine ⟨_, g₁, g₂, rfl, ?_, rfl, rfl, hh.params, hh.pending, hh.host⟩
  simp [recordOf, j₃, j₄, j₅]

end Sys2Proof.Machine
end

