-- ==== Sys2Proof/Tests/Slice0.lean ====
section
/-! SUPPORT. Tests: words and vectors of the spec (spec/30_encoding.md, spec/95_test_vectors.md) against the model, the WellFormed smoke, and a witness for the hypotheses of every statement. -/

namespace Sys2Proof.Machine.Tests

set_option Elab.async false

open Sys2Proof Sys2Proof.Machine

-- Helpers: a state whose environment answers given exchanges, and one with a chip and a field.

/-- The answer that says what an exchange supposes. -/
def answer : Talk → EnvAnswer
  | .put f => .bytes (List.replicate f.length 0#8)
  | .get _ v => .bytes [0#8, v]
  | .burst _ vs => .bytes (0#8 :: vs)

/-- The reset state with an environment that answers these exchanges, in order. -/
def scripted (ts : List Talk) : State :=
  { State.reset with env := { State.reset.env with script := ts.map answer } }

/-- A spec vector's write and reads. -/
abbrev W (a : Reg) (vs : List Byte) : Talk := talkWrb a vs
abbrev R (a : Reg) (v : Byte) : Talk := .get a v
abbrev B (vs : List Byte) : Talk := .burst Config.regFIFOData vs

/-- The instruction makes exactly these exchanges and ends with this result. -/
def replays (i : Instr) (ts : List Talk) (r : Result) : Bool :=
  match exec i (scripted ts) with
  | .next t => t.env.trace.map (·.out) == ts.map Talk.frame && t.result == r
  | .fault _ => false
  | .refused _ => false

/-- The instruction runs to its end and sends exactly these frames. -/
abbrev sends (i : Instr) (fs : List (List Byte)) : Prop :=
  (match exec i State.reset with
    | .next t => t.env.trace.map (·.out) == fs
    | .fault _ => false
    | .refused _ => false) = true

/-- A chip `init()` has programmed: CRC preset, antenna, timer (R336, R337). -/
def tuned : Chip :=
  { Chip.reset with
    regs := [(Config.regMode.toNat, 0x3D#8), (Config.regTxControl.toNat, 0x03#8),
      (Config.regTMode.toNat, 0x80#8)] }

/-- The reset state with a chip of its own, the contract answering. -/
def withChip (c : Chip) : State :=
  { State.reset with env := { State.reset.env with chip := c } }

/-- The reset state with another register map, command code and card byte (R8), all codes still distinct. -/
def otherCodes (c : Chip) : State :=
  withChip { c with codes :=
    { Config.codes with
      regCommand := 0x0B#6
      cmdTransceive := 0x5#4
      piccREQA := 0x27#8 } }

/-- The reset state with a response buffer of `cap` bytes (R8). -/
def otherCap (cap : Nat) (c : Chip) : State :=
  { withChip c with
    params := { State.reset.params with respCap := cap }
    resp := { State.reset.resp with bytes := List.replicate cap 0#8 } }

/-- What holds of the chip after an instruction. -/
def chipAfter (i : Instr) (c : Chip) (p : Chip → Bool) : Bool :=
  match exec i (withChip c) with
  | .next t => p t.env.chip
  | .fault _ => false
  | .refused _ => false

/-- What holds after an instruction with these answers of the field. -/
def inField (i : Instr) (rf : List RfAnswer) (p : State → Bool) : Bool :=
  match exec i (withChip { tuned with rf := rf }) with
  | .next t => p t
  | .fault _ => false
  | .refused _ => false

/-- The bits of a frame, bit 0 of its first byte first (R63(d)). -/
def bitsOf (bs : List Byte) : List Bool := bs.flatMap fun b => (List.range 8).map fun k => b.getLsbD k

/-- An answer of whole bytes. -/
def bytesAnswer (bs : List Byte) : RfAnswer := .frame (bitsOf bs) 0#8 none 0#8

/-- An answer of four bits (R108). -/
def nibble (n : BitVec 4) : RfAnswer := .frame ((List.range 4).map fun k => n.getLsbD k) 0#8 none 0#8

def airFrame (bs : List Byte) (vb : BitCount) : RfFrame :=
  { bytes := bs, validBits := vb, enciphered := false }

/-- The instruction ends in a transport fault at exchange number `n`. -/
def faults (i : Instr) (s : State) (n : Nat) : Bool :=
  match exec i s with
  | .next _ => false
  | .fault (.transportFault t) => t.seq == .faulted && t.env.trace.length == n
  | .refused _ => false

/-- A host sequence sends exactly these frames. -/
def hostSends {α : Type} (x : M α) (s : State) (fs : List (List Byte)) : Bool :=
  match x s with
  | .ok _ t => t.env.trace.map (·.out) == fs
  | .error _ _ => false

/-- What a wait for the removal of a card ends with, polled twice a round, given the field's answers and the
events of its back-offs. -/
def removal (rf : List RfAnswer) (es : List HostEvent) : Option (Option Bool) :=
  match waitForCardRemoved 2 { withChip { tuned with rf := rf } with host := { State.reset.host with events := es } } with
  | .ok x _ => some x
  | .error _ _ => none

/-- What a wait for an interrupt ends with, given the events of its intervals. -/
def waits (es : List HostEvent) : Option (Option Bool) :=
  match waitForInterrupt { State.reset with host := { State.reset.host with events := es } } with
  | .ok x _ => some x
  | .error _ _ => none

/-- The trace of CALC_CRC with the CRC done at the first poll (V10). -/
def vCrc (d : List Byte) (lo hi : Byte) : List Talk :=
  [W Config.regCommand [0x00#8], W Config.regDivIrq [0x04#8], W Config.regFIFOLevel [0x80#8],
   W Config.regFIFOData d, W Config.regCommand [0x03#8], R Config.regDivIrq 0x04#8,
   R Config.regCRCResultL lo, R Config.regCRCResultH hi]

/-- The first eight exchanges of a TRANSCEIVE (V20), `f` the bit framing. -/
def vStart (d : List Byte) (f : Byte) : List Talk :=
  [W Config.regCommand [0x00#8], W Config.regComIrq [0x7F#8], W Config.regFIFOLevel [0x80#8],
   W Config.regFIFOData d, W Config.regBitFraming [f], W Config.regCommand [0x0C#8],
   R Config.regBitFraming f, W Config.regBitFraming [f ||| 0x80#8]]

/-- A TRANSCEIVE answered at the first poll. -/
def vAnswer (d : List Byte) (f err : Byte) (vals : List Byte) (control : Byte) : List Talk :=
  vStart d f ++
    [R Config.regComIrq 0x20#8, R Config.regError err,
     R Config.regFIFOLevel (byteOfNat vals.length)] ++
    (if vals = [] then [] else [B vals]) ++ [R Config.regControl control]

/-- A TRANSCEIVE whose timer expires at the first poll. -/
def vSilence (d : List Byte) (f : Byte) : List Talk := vStart d f ++ [R Config.regComIrq 0x01#8]

def okUid (bs : List Byte) (n : Nat) (sak : Byte) : Result :=
  statusResult .ok (.uid { bytes := bs ++ List.replicate (10 - bs.length) 0#8, size := n, sak := some sak })

def badUid (st : StatusCode) (bs : List Byte) (n : Nat) : Result :=
  statusResult st (.uid { bytes := bs ++ List.replicate (10 - bs.length) 0#8, size := n, sak := none })

def key6 : List Byte := [1#8, 2#8, 3#8, 4#8, 5#8, 6#8]

/-- `DE AD BE EF`, size 4. -/
def uid4 : Uid :=
  { bytes := [0xDE#8, 0xAD#8, 0xBE#8, 0xEF#8, 0#8, 0#8, 0#8, 0#8, 0#8, 0#8], size := 4, sak := none }

/-- `01 .. 0A`, size 10. -/
def uid10 : Uid :=
  { bytes := [1#8, 2#8, 3#8, 4#8, 5#8, 6#8, 7#8, 8#8, 9#8, 10#8], size := 10, sak := none }

-- The decoder, on words written out from the rules.

/-- R110, one word for each operation of units 1 to 4. -/
theorem test_decode_operations :
    decode .op [0x00#8, 0b00000001#8, 0x0C#8] = .ok (.wr 0x01#6 0x0C#8) ∧
    decode .op [0x01#8, 0b00001001#8, 0x02#8, 0x93#8, 0x20#8] = .ok (.wrb 0x09#6 [0x93#8, 0x20#8]) ∧
    decode .op [0x02#8, 0b00111111#8] = .ok (.rd 0x3F#6) ∧
    decode .op [0x03#8, 0x09#8, 0x03#8, 0x06#8, 0x36#8] = .ok (.rdb 0x09#6 3 6 0x36#8) ∧
    decode .op [0x04#8, 0x0D#8, 0x80#8] = .ok (.setb 0x0D#6 0x80#8) ∧
    decode .op [0x05#8, 0x08#8, 0x08#8] = .ok (.clrb 0x08#6 0x08#8) ∧
    decode .op [0x08#8, 0x02#8, 0x12#8, 0x34#8] = .ok (.calcCrc [0x12#8, 0x34#8]) ∧
    decode .op [0x10#8, 0x0E#8, 0x10#8, 0x00#8, 0xA5#8, 0x00#8, 0x07#8, 0x05#8, 0x01#8, 0x3C#8] =
      .ok (.communicate 0xE#4 0x10#8 [0xA5#8] false 7 5 true 0x3C#8) ∧
    decode .op [0x11#8, 0x00#8, 0x26#8, 0x01#8, 0x07#8, 0x00#8, 0x00#8, 0x00#8] =
      .ok (.transceive [0x26#8] true 7 0 false 0x00#8) ∧
    decode .op [0b00011000#8] = .ok .reqa ∧
    decode .op [0b00011001#8] = .ok .wupa ∧
    decode .op [0b00011010#8, 0x00#8, 0x00#8] = .ok (.select none 0x00#8) ∧
    decode .op [0x1A#8, 0x01#8, 0xDE#8, 0xAD#8, 0xBE#8, 0xEF#8, 0#8, 0#8, 0#8, 0#8, 0#8, 0#8, 0x00#8,
        0x01#8, 0x08#8, 0x0C#8] =
      .ok (.select (some { bytes := [0xDE#8, 0xAD#8, 0xBE#8, 0xEF#8, 0#8, 0#8, 0#8, 0#8, 0#8, 0#8]
                           size := 4
                           sak := some 0x08#8 }) 0x0C#8) ∧
    decode .op [0b00011011#8] = .ok .hlta := by decide

/-- R110, one word for each operation of unit 5. -/
theorem test_decode_mifare_operations :
    decode .op [0x20#8, 0x60#8, 0x07#8, 0xFF#8, 0xFE#8, 0xFD#8, 0xFC#8, 0xFB#8, 0xFA#8, 0xDE#8, 0xAD#8,
        0xBE#8, 0xEF#8, 0#8, 0#8, 0#8, 0#8, 0#8, 0#8, 0x00#8, 0x00#8] =
      .ok (.auth 0x60#8 0x07#8 [0xFF#8, 0xFE#8, 0xFD#8, 0xFC#8, 0xFB#8, 0xFA#8]
        { bytes := [0xDE#8, 0xAD#8, 0xBE#8, 0xEF#8, 0#8, 0#8, 0#8, 0#8, 0#8, 0#8]
          size := 4
          sak := none }) ∧
    decode .op [0b00100001#8] = .ok .stopCrypto1 ∧
    decode .op [0x22#8, 0x01#8, 0xA0#8, 0x04#8, 0x01#8] = .ok (.mfTransceive [0xA0#8, 0x04#8] true) ∧
    decode .op [0b00100011#8, 0x04#8] = .ok (.mfRead 0x04#8) ∧
    decode .op [0x24#8, 0x04#8, 0x02#8, 0xA5#8, 0x5A#8] = .ok (.mfWrite 0x04#8 [0xA5#8, 0x5A#8]) ∧
    decode .op [0x25#8, 0x04#8, 0x01#8, 0xA5#8] = .ok (.ulWrite 0x04#8 [0xA5#8]) ∧
    decode .op [0x26#8, 0x05#8, 0x0A#8, 0x0B#8, 0x0C#8, 0x0D#8] = .ok (.mfIncrement 0x05#8 0x0D0C0B0A#32) ∧
    decode .op [0x27#8, 0x05#8, 0xC8#8, 0x00#8, 0x00#8, 0x00#8] = .ok (.mfDecrement 0x05#8 200#32) ∧
    decode .op [0x28#8, 0x05#8] = .ok (.mfRestore 0x05#8) ∧
    decode .op [0x29#8, 0x05#8] = .ok (.mfTransfer 0x05#8) ∧
    decode .op [0x2A#8, 0x05#8] = .ok (.mfGetValue 0x05#8) ∧
    decode .op [0x2B#8, 0x05#8, 0xFE#8, 0xFF#8, 0xFF#8, 0xFF#8] = .ok (.mfSetValue 0x05#8 0xFFFFFFFE#32) := by decide

/-- The frames of V2, V4a, V3a and V6 (R92 to R95). -/
theorem test_decode_frames :
    decode .xfer [0b01111110#8, 0xFF#8] = .ok (.xferWr 0x3F#6 0xFF#8) ∧
    decode .xfer [0b11101110#8, 0x00#8] = .ok (.xferRd 0x37#6) ∧
    decode .burst [0b00010010#8] = .ok (.xferWrb 0x09#6 []) ∧
    decode .burst [0b10010010#8, 0b10010010#8, 0b10010010#8, 0x00#8] = .ok (.xferRdb 0x09#6 3) := by decide

/-- The codes of R100. -/
theorem test_decode_chip_commands :
    decode .chipCmd [0b0000#8] = .ok .cmdIdle ∧
    decode .chipCmd [0b0001#8] = .ok .cmdMem ∧
    decode .chipCmd [0b0010#8] = .ok .cmdGenerateRandomID ∧
    decode .chipCmd [0b0011#8] = .ok .cmdCalcCRC ∧
    decode .chipCmd [0b0100#8] = .ok .cmdTransmit ∧
    decode .chipCmd [0b0111#8] = .ok .cmdNoCmdChange ∧
    decode .chipCmd [0b1000#8] = .ok .cmdReceive ∧
    decode .chipCmd [0b1100#8] = .ok .cmdTransceive ∧
    decode .chipCmd [0b1110#8] = .ok .cmdMFAuthent ∧
    decode .chipCmd [0b1111#8] = .ok .cmdSoftReset := by decide

/-- The bytes of R102. -/
theorem test_decode_card_commands :
    decode .picc [0x26#8] = .ok .piccReqa ∧
    decode .picc [0x52#8] = .ok .piccWupa ∧
    decode .picc [0x93#8, 22#8, 0x12#8, 0x34#8, 0x36#8, 0x00#8] =
      .ok (.piccSelCl1 22 [0x12#8, 0x34#8, 0x36#8, 0x00#8]) ∧
    decode .picc [0x95#8, 32#8, 0x3D#8, 0x4C#8, 0x5B#8, 0x6A#8] =
      .ok (.piccSelCl2 32 [0x3D#8, 0x4C#8, 0x5B#8, 0x6A#8]) ∧
    decode .picc [0x93#8, 255#8, 1#8, 2#8, 3#8, 4#8] = .ok (.piccSelCl1 255 [1#8, 2#8, 3#8, 4#8]) ∧
    decode .picc [0x97#8, 0#8, 0#8, 0#8, 0#8, 0#8] = .ok (.piccSelCl3 0 [0#8, 0#8, 0#8, 0#8]) ∧
    decode .picc [0x50#8] = .ok .piccHlta ∧
    decode .picc ([0x60#8, 0x07#8] ++ [1#8, 2#8, 3#8, 4#8, 5#8, 6#8] ++ [0xDE#8, 0xAD#8, 0xBE#8, 0xEF#8]) =
      .ok (.piccAuthKeyA 0x07#8 [1#8, 2#8, 3#8, 4#8, 5#8, 6#8] [0xDE#8, 0xAD#8, 0xBE#8, 0xEF#8]) ∧
    decode .picc ([0x61#8, 0x3F#8] ++ [1#8, 2#8, 3#8, 4#8, 5#8, 6#8] ++ [7#8, 8#8, 9#8, 10#8]) =
      .ok (.piccAuthKeyB 0x3F#8 [1#8, 2#8, 3#8, 4#8, 5#8, 6#8] [7#8, 8#8, 9#8, 10#8]) ∧
    decode .picc [0x30#8, 0x04#8] = .ok (.piccMfRead 0x04#8) ∧
    decode .picc ([0xA0#8, 0x04#8] ++ List.replicate 16 0xA5#8) =
      .ok (.piccMfWrite 0x04#8 (List.replicate 16 0xA5#8)) ∧
    decode .picc [0xA2#8, 0x04#8, 1#8, 2#8, 3#8, 4#8] = .ok (.piccUlWrite 0x04#8 [1#8, 2#8, 3#8, 4#8]) ∧
    decode .picc [0xC0#8, 0x05#8, 0xC8#8, 0#8, 0#8, 0#8] = .ok (.piccMfDecrement 0x05#8 200#32) ∧
    decode .picc [0xC1#8, 0x05#8, 0x07#8, 0#8, 0#8, 0x80#8] = .ok (.piccMfIncrement 0x05#8 0x80000007#32) ∧
    decode .picc [0xC2#8, 0x05#8] = .ok (.piccMfRestore 0x05#8) ∧
    decode .picc [0xB0#8, 0x06#8] = .ok (.piccMfTransfer 0x06#8) := by decide

/-- Bytes that are no instruction are rejected by name. -/
theorem test_decode_rejects :
    decode .op [0x06#8, 0#8] = .error (.unknownIndex 0x06#8) ∧
    decode .op [0x02#8, 0x40#8] = .error (.registerAbove3F 0x40#8) ∧
    decode .op [0x03#8, 0#8, 1#8, 8#8, 0#8] = .error (.bitCountAbove7 8#8) ∧
    decode .op [0x22#8, 0x3E#8] = .error .truncated ∧
    decode .op [0x23#8] = .error .truncated ∧
    decode .op [0x23#8, 0#8, 0#8] = .error .trailing ∧
    decode .op [0x10#8, 0x10#8] = .error (.codeAbove4Bits 0x10#8) ∧
    decode .op [0x1A#8, 0x02#8] = .error (.flagNotBool 0x02#8) ∧
    decode .op (0x1A#8 :: 1#8 :: List.replicate 10 0#8 ++ [3#8]) = .error (.uidSizeCode 3#8) ∧
    decode .chipCmd [0x05#8] = .error (.unknownCommandCode 0x05#8) ∧
    decode .chipCmd [0x1C#8] = .error (.unknownCommandCode 0x1C#8) ∧
    decode .picc [0x27#8] = .error (.unknownCardCommand 0x27#8) ∧
    decode .picc [0x93#8, 33#8] = .error .truncated ∧
    decode .xfer [0x03#8, 0#8] = .error .notAFrame ∧
    decode .burst [0x92#8, 0x94#8, 0x00#8] = .error .notAFrame := by decide

/-- Words as spec/opcode_table.json numbers them. -/
theorem test_table_words :
    decodeTableWord 8 0x1A = some (.select none 0#8) ∧
    decodeTableWord 16 0x1255 = some (.xferWr 0x09#6 0x55#8) ∧
    decodeTableWord 16 0xEE00 = some (.xferRd 0x37#6) ∧
    decodeTableWord 8 0x92 = some (.xferRdb 0x09#6 1) ∧
    decodeTableWord 8 0x0C = some .cmdTransceive ∧
    decodeTableWord 8 0x93 = some (.piccSelCl1 0 [0#8, 0#8, 0#8, 0#8]) := by decide +kernel

/-- A table word is presented and the very next step runs it. -/
theorem test_presented_word_runs :
    step (State.reset.withFetchWord 8 0x19) = exec .wupa State.reset ∧
    step (State.reset.withFetchWord 16 0x0200) = exec (.xferWr 0x01#6 0#8) State.reset := ⟨rfl, rfl⟩

-- WellFormed refuses each ill-formed operand.

theorem test_ill_formed :
    (Instr.wrb 0#6 (List.replicate 256 0#8)).wellFormed = false ∧
    (Instr.rdb 0#6 256 0 0#8).wellFormed = false ∧
    (Instr.rdb 0#6 64 8 0#8).wellFormed = false ∧
    (Instr.calcCrc (List.replicate 256 0#8)).wellFormed = false ∧
    (Instr.communicate 0#4 0#8 [] true 0 0 false 0#8).wellFormed = false ∧
    (Instr.communicate 0#4 0#8 [0#8] true 8 0 false 0#8).wellFormed = false ∧
    (Instr.communicate 0#4 0#8 [0#8] true 0 8 false 0#8).wellFormed = false ∧
    (Instr.transceive [] true 0 0 false 0#8).wellFormed = false ∧
    (Instr.transceive (List.replicate 257 0#8) true 0 0 false 0#8).wellFormed = false ∧
    (Instr.transceive [0#8] true 8 0 false 0#8).wellFormed = false ∧
    (Instr.transceive [0#8] true 0 8 false 0#8).wellFormed = false ∧
    (Instr.select (some { bytes := [], size := 4, sak := none }) 0#8).wellFormed = false ∧
    (Instr.select (some { bytes := List.replicate 10 0#8, size := 5, sak := none }) 0#8).wellFormed =
      false ∧
    (Instr.auth 0#8 0#8 [] uid4).wellFormed = false ∧
    (Instr.auth 0#8 0#8 key6 { uid4 with size := 0 }).wellFormed = false ∧
    (Instr.mfTransceive [] false).wellFormed = false ∧
    (Instr.mfTransceive (List.replicate 257 0#8) false).wellFormed = false ∧
    (Instr.mfWrite 0#8 (List.replicate 256 0#8)).wellFormed = false ∧
    (Instr.ulWrite 0#8 (List.replicate 256 0#8)).wellFormed = false ∧
    (Instr.xferRdb 0#6 0).wellFormed = false ∧
    (Instr.piccSelCl1 256 [0#8, 0#8, 0#8, 0#8]).wellFormed = false ∧
    (Instr.piccSelCl2 0 [0#8]).wellFormed = false ∧
    (Instr.piccSelCl3 256 [0#8, 0#8, 0#8, 0#8]).wellFormed = false ∧
    (Instr.piccAuthKeyA 0#8 [0#8] [0#8, 0#8, 0#8, 0#8]).wellFormed = false ∧
    (Instr.piccAuthKeyB 0#8 key6 [0#8]).wellFormed = false ∧
    (Instr.piccMfWrite 0#8 [0#8]).wellFormed = false ∧
    (Instr.piccUlWrite 0#8 [0#8]).wellFormed = false := by decide +kernel

-- Unit 1 and layer L0 (V1 to V9a).

theorem test_v1_wr :
    sends (.wr 0x01#6 0x00#8) [[0x02#8, 0x00#8]] ∧ sends (.wr 0x3F#6 0xFF#8) [[0x7E#8, 0xFF#8]] := by decide +kernel

theorem test_v3_wrb :
    sends (.wrb 0x09#6 [0x26#8]) [[0x12#8, 0x26#8]] ∧ sends (.wrb 0x09#6 []) [[0x12#8]] := by decide +kernel

theorem test_v4_rd :
    replays (.rd 0x04#6)
      ([R Config.regComIrq 0x45#8])
      (plainResult (.byte 0x45#8)) = true := by decide +kernel

theorem test_v6_rdb :
    replays (.rdb 0x09#6 3 6 0x36#8)
      ([B [0x40#8, 0x78#8, 0x28#8]])
      (plainResult (.bytes [0x76#8, 0x78#8, 0x28#8])) = true := by decide +kernel

theorem test_v8_rdb_none :
    sends (.rdb 0x09#6 0 0 0#8) [] := by decide +kernel

theorem test_v9_setb :
    replays (.setb 0x0D#6 0x80#8)
      ([R Config.regBitFraming 0x07#8, W Config.regBitFraming [0x87#8]])
      (plainResult .none) = true := by decide +kernel

theorem test_v9a_clrb :
    replays (.clrb 0x08#6 0x08#8)
      ([R Config.regStatus2 0x0D#8, W Config.regStatus2 [0x05#8]])
      (plainResult .none) = true := by decide +kernel

theorem test_frames :
    sends (.xferWr 0x01#6 0x00#8) [[0x02#8, 0x00#8]] ∧ sends (.xferWrb 0x09#6 [0x26#8]) [[0x12#8, 0x26#8]] ∧
    replays (.xferRd 0x37#6) [R Config.regVersion 0x92#8] (plainResult (.byte 0x92#8)) = true ∧
    replays (.xferRdb 0x09#6 2) [B [0x04#8, 0x00#8]] (plainResult (.bytes [0x04#8, 0x00#8])) = true := by decide +kernel

-- Layer L1: the write of each code.

theorem test_chip_commands :
    sends .cmdIdle [[0x02#8, 0x00#8]] ∧ sends .cmdMem [[0x02#8, 0x01#8]] ∧
    sends .cmdGenerateRandomID [[0x02#8, 0x02#8]] ∧ sends .cmdCalcCRC [[0x02#8, 0x03#8]] ∧
    sends .cmdTransmit [[0x02#8, 0x04#8]] ∧ sends .cmdNoCmdChange [[0x02#8, 0x07#8]] ∧
    sends .cmdReceive [[0x02#8, 0x08#8]] ∧ sends .cmdTransceive [[0x02#8, 0x0C#8]] ∧
    sends .cmdMFAuthent [[0x02#8, 0x0E#8]] ∧ sends .cmdSoftReset [[0x02#8, 0x0F#8]] := by decide +kernel

/-- R48, R73 to R76, R340, with the contract answering. -/
theorem test_chip_command_effects :
    chipAfter .cmdMem { tuned with fifo := [1#8, 2#8] } (fun c =>
      c.internalBuf.take 3 == [1#8, 2#8, 0#8] && c.fifo == []) = true ∧
    chipAfter .cmdCalcCRC { tuned with fifo := [0#8, 0#8] } (fun c =>
      c.get Config.regCRCResultL == 0xA0#8 && c.get Config.regCRCResultH == 0x1E#8 &&
        c.get Config.regDivIrq == 0x04#8 && c.fifo == []) = true ∧
    chipAfter .cmdSoftReset tuned (fun c => c.regs == [] && c.active == none) = true ∧
    chipAfter .cmdIdle { tuned with active := some 0xC#4 } (fun c => c.active == none) = true ∧
    chipAfter .cmdTransceive tuned (fun c => c.active == some 0xC#4 && c.air == []) = true ∧
    chipAfter .cmdMFAuthent { tuned with rf := [.authenticated] } (fun c =>
      c.cryptoOn && c.get Config.regComIrq == 0x10#8) = true := by decide +kernel

-- Unit 2 (V10, V11).

theorem test_v10_calc_crc :
    replays (.calcCrc [0#8, 0#8])
      (vCrc [0x00#8, 0x00#8] 0xA0#8 0x1E#8)
      (statusResult .ok (.bytes [0xA0#8, 0x1E#8])) = true := by decide +kernel

theorem test_v11_calc_crc :
    replays (.calcCrc [0x12#8, 0x34#8])
      ((vCrc [0x12#8, 0x34#8] 0x26#8 0xCF#8).take 5 ++ [R Config.regDivIrq 0#8, R Config.regDivIrq 0#8] ++ (vCrc [0x12#8, 0x34#8] 0x26#8 0xCF#8).drop 5)
      (statusResult .ok (.bytes [0x26#8, 0xCF#8])) = true := by decide +kernel

-- Unit 3 (V20, V27a, V28b, V29g).

theorem test_v20_transceive :
    replays (.transceive [0x26#8] true 7 0 false 0#8)
      (vAnswer [0x26#8] 0x07#8 0x00#8 [0x04#8, 0x00#8] 0x00#8)
      (statusResult .ok (.response [0x04#8, 0x00#8] 0#3)) = true := by decide +kernel

theorem test_v27a_collision :
    replays (.transceive [0x93#8, 0x20#8] true 0 0 false 0#8)
      (vAnswer [0x93#8, 0x20#8] 0x00#8 0x08#8 [0x12#8, 0x34#8, 0x16#8] 0x05#8)
      (statusResult .collision (.response [0x12#8, 0x34#8, 0x16#8] 5#3)) = true := by decide +kernel

theorem test_v28b_crc_wrong :
    replays (.communicate 0xC#4 0x30#8 [0x30#8, 0x04#8, 0x26#8, 0xEE#8] true 0 0 true 0#8)
      (vAnswer [0x30#8, 0x04#8, 0x26#8, 0xEE#8] 0x00#8 0x00#8 [0x10#8, 0x11#8, 0x12#8, 0x13#8, 0x14#8, 0x15#8, 0x16#8, 0x17#8, 0x18#8, 0x19#8, 0x1A#8, 0x1B#8, 0x1C#8, 0x1D#8, 0x1E#8, 0x1F#8, 0x00#8, 0x00#8] 0x00#8 ++
       vCrc [0x10#8, 0x11#8, 0x12#8, 0x13#8, 0x14#8, 0x15#8, 0x16#8, 0x17#8, 0x18#8, 0x19#8, 0x1A#8, 0x1B#8, 0x1C#8, 0x1D#8, 0x1E#8, 0x1F#8] 0x22#8 0xE8#8)
      (statusResult .crcWrong (.response [0x10#8, 0x11#8, 0x12#8, 0x13#8, 0x14#8, 0x15#8, 0x16#8, 0x17#8, 0x18#8, 0x19#8, 0x1A#8, 0x1B#8, 0x1C#8, 0x1D#8, 0x1E#8, 0x1F#8, 0x00#8, 0x00#8] 0#3)) = true := by decide +kernel

theorem test_v29g_communicate :
    replays (.communicate 0xE#4 0x10#8 (List.replicate 12 0#8) false 0 0 false 0#8)
      ([W Config.regCommand [0x00#8], W Config.regComIrq [0x7F#8], W Config.regFIFOLevel [0x80#8],
       W Config.regFIFOData (List.replicate 12 0#8), W Config.regBitFraming [0x00#8],
       W Config.regCommand [0x0E#8], R Config.regComIrq 0x20#8, R Config.regComIrq 0x10#8,
       R Config.regError 0x00#8])
      (statusResult .ok (.response [] 0#3)) = true := by decide +kernel

-- Unit 4 (V31, V34, V50 to V55).

theorem test_v50_reqa :
    replays (.reqa)
      (vAnswer [0x26#8] 0x07#8 0x00#8 [0x04#8, 0x00#8] 0x00#8)
      (statusResult .ok (.bytes [0x04#8, 0x00#8])) = true := by decide +kernel

theorem test_v52_reqa :
    replays (.reqa)
      (vAnswer [0x26#8] 0x07#8 0x00#8 [0x04#8] 0x00#8)
      (statusResult .error .none) = true := by decide +kernel

theorem test_v53_wupa :
    replays (.wupa)
      (vAnswer [0x52#8] 0x07#8 0x00#8 [0x04#8, 0x00#8] 0x00#8)
      (statusResult .ok (.bytes [0x04#8, 0x00#8])) = true := by decide +kernel

theorem test_v54_hlta :
    replays (.hlta)
      (vCrc [0x50#8, 0x00#8] 0x57#8 0xCD#8 ++
       vSilence [0x50#8, 0x00#8, 0x57#8, 0xCD#8] 0x00#8)
      (statusResult .ok .none) = true := by decide +kernel

theorem test_v55_hlta :
    replays (.hlta)
      (vCrc [0x50#8, 0x00#8] 0x57#8 0xCD#8 ++
       vStart [0x50#8, 0x00#8, 0x57#8, 0xCD#8] 0#8 ++
       [R Config.regComIrq 0x20#8, R Config.regError 0x00#8])
      (statusResult .error .none) = true := by decide +kernel

theorem test_v31_select :
    replays (.select none 0#8)
      (vAnswer [0x93#8, 0x20#8] 0x00#8 0x08#8 [0x12#8, 0x34#8, 0x16#8, 0x00#8, 0x00#8] 0x00#8 ++
       [R Config.regColl 0x96#8] ++
       vAnswer [0x93#8, 0x46#8, 0x12#8, 0x34#8, 0x36#8] 0x66#8 0x00#8 [0x40#8, 0x78#8, 0x28#8] 0x00#8 ++
       vCrc [0x93#8, 0x70#8, 0x12#8, 0x34#8, 0x76#8, 0x78#8, 0x28#8] 0x05#8 0x80#8 ++
       vAnswer [0x93#8, 0x70#8, 0x12#8, 0x34#8, 0x76#8, 0x78#8, 0x28#8, 0x05#8, 0x80#8] 0x00#8 0x00#8 [0x08#8, 0xB6#8, 0xDD#8] 0x00#8 ++
       vCrc [0x08#8] 0xB6#8 0xDD#8)
      (okUid [0x12#8, 0x34#8, 0x76#8, 0x78#8] 4 0x08#8) = true := by decide +kernel

theorem test_v34_select :
    replays (.select (some uid10) 21#8)
      (vAnswer [0x93#8, 0x55#8, 0x88#8, 0x01#8, 0x02#8, 0x03#8] 0x55#8 0x00#8 [0x00#8, 0x88#8] 0x00#8 ++
       vCrc [0x93#8, 0x70#8, 0x88#8, 0x01#8, 0x02#8, 0x03#8, 0x88#8] 0xC2#8 0x82#8 ++
       vAnswer [0x93#8, 0x70#8, 0x88#8, 0x01#8, 0x02#8, 0x03#8, 0x88#8, 0xC2#8, 0x82#8] 0x00#8 0x00#8 [0x04#8, 0xDA#8, 0x17#8] 0x00#8 ++
       vCrc [0x04#8] 0xDA#8 0x17#8 ++
       vAnswer [0x95#8, 0x30#8, 0x88#8] 0x00#8 0x00#8 [0x04#8, 0x05#8, 0x06#8, 0x8F#8] 0x00#8 ++
       vCrc [0x95#8, 0x70#8, 0x88#8, 0x04#8, 0x05#8, 0x06#8, 0x8F#8] 0x5A#8 0x32#8 ++
       vAnswer [0x95#8, 0x70#8, 0x88#8, 0x04#8, 0x05#8, 0x06#8, 0x8F#8, 0x5A#8, 0x32#8] 0x00#8 0x00#8 [0x04#8, 0xDA#8, 0x17#8] 0x00#8 ++
       vCrc [0x04#8] 0xDA#8 0x17#8 ++
       vAnswer [0x97#8, 0x20#8] 0x00#8 0x00#8 [0x07#8, 0x08#8, 0x09#8, 0x0A#8, 0x0C#8] 0x00#8 ++
       vCrc [0x97#8, 0x70#8, 0x07#8, 0x08#8, 0x09#8, 0x0A#8, 0x0C#8] 0xEC#8 0xC8#8 ++
       vAnswer [0x97#8, 0x70#8, 0x07#8, 0x08#8, 0x09#8, 0x0A#8, 0x0C#8, 0xEC#8, 0xC8#8] 0x00#8 0x00#8 [0x20#8, 0xFC#8, 0x70#8] 0x00#8 ++
       vCrc [0x20#8] 0xFC#8 0x70#8)
      (okUid [0x01#8, 0x02#8, 0x03#8, 0x04#8, 0x05#8, 0x06#8, 0x07#8, 0x08#8, 0x09#8, 0x0A#8] 10 0x20#8) = true := by decide +kernel

-- Unit 5 (V40 to V49, S5).

theorem test_v40_auth :
    replays (.auth 0x60#8 0x07#8 (List.replicate 6 0xFF#8) uid4)
      ([W Config.regCommand [0x00#8], W Config.regComIrq [0x7F#8], W Config.regFIFOLevel [0x80#8],
       W Config.regFIFOData [0x60#8, 0x07#8, 0xFF#8, 0xFF#8, 0xFF#8, 0xFF#8, 0xFF#8, 0xFF#8, 0xDE#8, 0xAD#8, 0xBE#8, 0xEF#8],
       W Config.regBitFraming [0x00#8], W Config.regCommand [0x0E#8], R Config.regComIrq 0x10#8, R Config.regError 0x00#8])
      (statusResult .ok .none) = true := by decide +kernel

theorem test_v48_auth :
    replays (.auth 0x61#8 0x3F#8 key6 uid10)
      ([W Config.regCommand [0x00#8], W Config.regComIrq [0x7F#8], W Config.regFIFOLevel [0x80#8],
       W Config.regFIFOData [0x61#8, 0x3F#8, 0x01#8, 0x02#8, 0x03#8, 0x04#8, 0x05#8, 0x06#8, 0x07#8, 0x08#8, 0x09#8, 0x0A#8],
       W Config.regBitFraming [0x00#8], W Config.regCommand [0x0E#8], R Config.regComIrq 0x10#8, R Config.regError 0x00#8])
      (statusResult .ok .none) = true := by decide +kernel

theorem test_v49_stop_crypto1 :
    replays (.stopCrypto1)
      ([R Config.regStatus2 0x08#8, W Config.regStatus2 [0x00#8]])
      (plainResult .none) = true := by decide +kernel

theorem test_v43a_mf_transceive :
    replays (.mfTransceive [0xA0#8, 0x04#8] false)
      (vCrc [0xA0#8, 0x04#8] 0x7B#8 0xF7#8 ++
       vAnswer [0xA0#8, 0x04#8, 0x7B#8, 0xF7#8] 0x00#8 0x00#8 [0x04#8] 0x04#8)
      (statusResult .mifareNack .none) = true := by decide +kernel

theorem test_v43e_mf_transceive :
    replays (.mfTransceive [0x01#8, 0#8, 0#8, 0#8] true)
      (vCrc [0x01#8, 0x00#8, 0x00#8, 0x00#8] 0xBB#8 0x4A#8 ++
       vSilence [0x01#8, 0x00#8, 0x00#8, 0x00#8, 0xBB#8, 0x4A#8] 0x00#8)
      (statusResult .ok .none) = true := by decide +kernel

theorem test_v42_mf_read :
    replays (.mfRead 0x04#8)
      (vCrc [0x30#8, 0x04#8] 0x26#8 0xEE#8 ++
       vAnswer [0x30#8, 0x04#8, 0x26#8, 0xEE#8] 0x00#8 0x00#8 [0x40#8, 0x41#8, 0x42#8, 0x43#8, 0x44#8, 0x45#8, 0x46#8, 0x47#8, 0x48#8, 0x49#8, 0x4A#8, 0x4B#8, 0x4C#8, 0x4D#8, 0x4E#8, 0x4F#8, 0x23#8, 0x80#8] 0x00#8 ++
       vCrc [0x40#8, 0x41#8, 0x42#8, 0x43#8, 0x44#8, 0x45#8, 0x46#8, 0x47#8, 0x48#8, 0x49#8, 0x4A#8, 0x4B#8, 0x4C#8, 0x4D#8, 0x4E#8, 0x4F#8] 0x23#8 0x80#8)
      (statusResult .ok (.bytes [0x40#8, 0x41#8, 0x42#8, 0x43#8, 0x44#8, 0x45#8, 0x46#8, 0x47#8, 0x48#8, 0x49#8, 0x4A#8, 0x4B#8, 0x4C#8, 0x4D#8, 0x4E#8, 0x4F#8])) = true := by decide +kernel

theorem test_v42a_mf_read :
    replays (.mfRead 0x04#8)
      (vCrc [0x30#8, 0x04#8] 0x26#8 0xEE#8 ++
       vAnswer [0x30#8, 0x04#8, 0x26#8, 0xEE#8] 0x00#8 0x00#8 [0x04#8] 0x04#8)
      (statusResult .mifareNack .none) = true := by decide +kernel

theorem test_v41_mf_write :
    replays (.mfWrite 0x04#8 [0x10#8, 0x11#8, 0x12#8, 0x13#8, 0x14#8, 0x15#8, 0x16#8, 0x17#8, 0x18#8, 0x19#8, 0x1A#8, 0x1B#8, 0x1C#8, 0x1D#8, 0x1E#8, 0x1F#8])
      (vCrc [0xA0#8, 0x04#8] 0x7B#8 0xF7#8 ++
       vAnswer [0xA0#8, 0x04#8, 0x7B#8, 0xF7#8] 0x00#8 0x00#8 [0x0A#8] 0x04#8 ++
       vCrc [0x10#8, 0x11#8, 0x12#8, 0x13#8, 0x14#8, 0x15#8, 0x16#8, 0x17#8, 0x18#8, 0x19#8, 0x1A#8, 0x1B#8, 0x1C#8, 0x1D#8, 0x1E#8, 0x1F#8] 0x22#8 0xE8#8 ++
       vAnswer [0x10#8, 0x11#8, 0x12#8, 0x13#8, 0x14#8, 0x15#8, 0x16#8, 0x17#8, 0x18#8, 0x19#8, 0x1A#8, 0x1B#8, 0x1C#8, 0x1D#8, 0x1E#8, 0x1F#8, 0x22#8, 0xE8#8] 0x00#8 0x00#8 [0x0A#8] 0x04#8)
      (statusResult .ok .none) = true := by decide +kernel

theorem test_v41b_mf_write :
    replays (.mfWrite 0x06#8 [0x00#8, 0x01#8, 0x02#8, 0x03#8, 0x04#8, 0x05#8, 0x06#8, 0x07#8, 0x08#8, 0x09#8, 0x0A#8, 0x0B#8, 0x0C#8, 0x0D#8, 0x0E#8, 0x0F#8, 0x10#8])
      (vCrc [0xA0#8, 0x06#8] 0x69#8 0xD4#8 ++
       vAnswer [0xA0#8, 0x06#8, 0x69#8, 0xD4#8] 0x00#8 0x00#8 [0x0A#8] 0x04#8 ++
       vCrc [0x00#8, 0x01#8, 0x02#8, 0x03#8, 0x04#8, 0x05#8, 0x06#8, 0x07#8, 0x08#8, 0x09#8, 0x0A#8, 0x0B#8, 0x0C#8, 0x0D#8, 0x0E#8, 0x0F#8] 0x77#8 0xF5#8 ++
       vAnswer [0x00#8, 0x01#8, 0x02#8, 0x03#8, 0x04#8, 0x05#8, 0x06#8, 0x07#8, 0x08#8, 0x09#8, 0x0A#8, 0x0B#8, 0x0C#8, 0x0D#8, 0x0E#8, 0x0F#8, 0x77#8, 0xF5#8] 0x00#8 0x00#8 [0x0A#8] 0x04#8)
      (statusResult .ok .none) = true := by decide +kernel

theorem test_v44_ul_write :
    replays (.ulWrite 0x04#8 [1#8, 2#8, 3#8, 4#8])
      (vCrc [0xA2#8, 0x04#8, 0x01#8, 0x02#8, 0x03#8, 0x04#8] 0x78#8 0x57#8 ++
       vAnswer [0xA2#8, 0x04#8, 0x01#8, 0x02#8, 0x03#8, 0x04#8, 0x78#8, 0x57#8] 0x00#8 0x00#8 [0x0A#8] 0x04#8)
      (statusResult .ok .none) = true := by decide +kernel

theorem test_v44a_short_writes :
    sends (.ulWrite 0x04#8 [1#8, 2#8, 3#8]) [] ∧ sends (.mfWrite 0x04#8 (List.replicate 15 0#8)) [] := by decide +kernel

theorem test_v45_mf_increment :
    replays (.mfIncrement 0x05#8 7#32)
      (vCrc [0xC1#8, 0x05#8] 0x7F#8 0x9A#8 ++
       vAnswer [0xC1#8, 0x05#8, 0x7F#8, 0x9A#8] 0x00#8 0x00#8 [0x0A#8] 0x04#8 ++
       vCrc [0x07#8, 0x00#8, 0x00#8, 0x00#8] 0x21#8 0x01#8 ++
       vSilence [0x07#8, 0x00#8, 0x00#8, 0x00#8, 0x21#8, 0x01#8] 0x00#8)
      (statusResult .ok .none) = true := by decide +kernel

theorem test_v45b_mf_decrement :
    replays (.mfDecrement 0x05#8 200#32)
      (vCrc [0xC0#8, 0x05#8] 0xA7#8 0x83#8 ++
       vAnswer [0xC0#8, 0x05#8, 0xA7#8, 0x83#8] 0x00#8 0x00#8 [0x0A#8] 0x04#8 ++
       vCrc [0xC8#8, 0x00#8, 0x00#8, 0x00#8] 0x01#8 0x88#8 ++
       vSilence [0xC8#8, 0x00#8, 0x00#8, 0x00#8, 0x01#8, 0x88#8] 0x00#8)
      (statusResult .ok .none) = true := by decide +kernel

theorem test_v45c_mf_restore :
    replays (.mfRestore 0x05#8)
      (vCrc [0xC2#8, 0x05#8] 0x17#8 0xB0#8 ++
       vAnswer [0xC2#8, 0x05#8, 0x17#8, 0xB0#8] 0x00#8 0x00#8 [0x0A#8] 0x04#8 ++
       vCrc [0x00#8, 0x00#8, 0x00#8, 0x00#8] 0x00#8 0x56#8 ++
       vSilence [0x00#8, 0x00#8, 0x00#8, 0x00#8, 0x00#8, 0x56#8] 0x00#8)
      (statusResult .ok .none) = true := by decide +kernel

theorem test_v45a_mf_transfer :
    replays (.mfTransfer 0x05#8)
      (vCrc [0xB0#8, 0x05#8] 0x63#8 0x73#8 ++
       vAnswer [0xB0#8, 0x05#8, 0x63#8, 0x73#8] 0x00#8 0x00#8 [0x0A#8] 0x04#8)
      (statusResult .ok .none) = true := by decide +kernel

theorem test_v47_mf_get_value :
    replays (.mfGetValue 0x05#8)
      (vCrc [0x30#8, 0x05#8] 0xAF#8 0xFF#8 ++
       vAnswer [0x30#8, 0x05#8, 0xAF#8, 0xFF#8] 0x00#8 0x00#8 [0x64#8, 0x00#8, 0x00#8, 0x00#8, 0x9B#8, 0xFF#8, 0xFF#8, 0xFF#8, 0x64#8, 0x00#8, 0x00#8, 0x00#8, 0x05#8, 0xFA#8, 0x05#8, 0xFA#8, 0xFD#8, 0xB4#8] 0x00#8 ++
       vCrc [0x64#8, 0x00#8, 0x00#8, 0x00#8, 0x9B#8, 0xFF#8, 0xFF#8, 0xFF#8, 0x64#8, 0x00#8, 0x00#8, 0x00#8, 0x05#8, 0xFA#8, 0x05#8, 0xFA#8] 0xFD#8 0xB4#8)
      (statusResult .ok (.value 100#32)) = true := by decide +kernel

theorem test_s5_mf_set_value :
    replays (.mfSetValue 0x05#8 0xFFFFFFFE#32)
      (vCrc [0xA0#8, 0x05#8] 0xF2#8 0xE6#8 ++
       vAnswer [0xA0#8, 0x05#8, 0xF2#8, 0xE6#8] 0x00#8 0x00#8 [0x0A#8] 0x04#8 ++
       vCrc [0xFE#8, 0xFF#8, 0xFF#8, 0xFF#8, 0x01#8, 0x00#8, 0x00#8, 0x00#8, 0xFE#8, 0xFF#8, 0xFF#8, 0xFF#8, 0x05#8, 0xFA#8, 0x05#8, 0xFA#8] 0x86#8 0x06#8 ++
       vAnswer [0xFE#8, 0xFF#8, 0xFF#8, 0xFF#8, 0x01#8, 0x00#8, 0x00#8, 0x00#8, 0xFE#8, 0xFF#8, 0xFF#8, 0xFF#8, 0x05#8, 0xFA#8, 0x05#8, 0xFA#8, 0x86#8, 0x06#8] 0x00#8 0x00#8 [0x0A#8] 0x04#8)
      (statusResult .ok .none) = true := by decide +kernel

theorem test_v46c_value_block :
    valueBlock 0x80000000#32 0xFF#8 = [0x00#8, 0x00#8, 0x00#8, 0x80#8, 0xFF#8, 0xFF#8, 0xFF#8, 0x7F#8, 0x00#8, 0x00#8, 0x00#8, 0x80#8, 0xFF#8, 0x00#8, 0xFF#8, 0x00#8] := by decide +kernel

-- Layer L2.

theorem test_picc_reqa :
    replays (.piccReqa)
      (vAnswer [0x26#8] 0x07#8 0x00#8 [0x04#8, 0x00#8] 0x00#8)
      (statusResult .ok (.response [0x04#8, 0x00#8] 0#3)) = true := by decide +kernel

theorem test_picc_wupa :
    replays (.piccWupa)
      (vSilence [0x52#8] 0x07#8)
      (statusResult .timeout (.response [] 0#3)) = true := by decide +kernel

/-- The second round of V31. -/
theorem test_picc_sel_cl1 :
    replays (.piccSelCl1 22 [0x12#8, 0x34#8, 0x36#8, 0x00#8])
      (vAnswer [0x93#8, 0x46#8, 0x12#8, 0x34#8, 0x36#8] 0x66#8 0x00#8 [0x40#8, 0x78#8, 0x28#8] 0x00#8)
      (statusResult .ok (.response [0x76#8, 0x78#8, 0x28#8] 0#3)) = true := by decide +kernel

/-- The select frame of V32's level 2. -/
theorem test_picc_sel_cl2 :
    replays (.piccSelCl2 32 [0x3D#8, 0x4C#8, 0x5B#8, 0x6A#8])
      (vCrc [0x95#8, 0x70#8, 0x3D#8, 0x4C#8, 0x5B#8, 0x6A#8, 0x40#8] 0x13#8 0xD8#8 ++
       vAnswer [0x95#8, 0x70#8, 0x3D#8, 0x4C#8, 0x5B#8, 0x6A#8, 0x40#8, 0x13#8, 0xD8#8] 0x00#8 0x00#8 [0x00#8, 0xFE#8, 0x51#8] 0x00#8)
      (statusResult .ok (.response [0x00#8, 0xFE#8, 0x51#8] 0#3)) = true := by decide +kernel

theorem test_picc_sel_cl3 :
    replays (.piccSelCl3 0 [0#8, 0#8, 0#8, 0#8])
      (vAnswer [0x97#8, 0x20#8] 0x00#8 0x00#8 [0x07#8, 0x08#8, 0x09#8, 0x0A#8, 0x0C#8] 0x00#8)
      (statusResult .ok (.response [0x07#8, 0x08#8, 0x09#8, 0x0A#8, 0x0C#8] 0#3)) = true := by decide +kernel

theorem test_picc_hlta :
    replays (.piccHlta)
      (vCrc [0x50#8, 0x00#8] 0x57#8 0xCD#8 ++
       vSilence [0x50#8, 0x00#8, 0x57#8, 0xCD#8] 0x00#8)
      (statusResult .timeout (.response [] 0#3)) = true := by decide +kernel

theorem test_picc_auth_a :
    replays (.piccAuthKeyA 0x07#8 (List.replicate 6 0xFF#8) [0xDE#8, 0xAD#8, 0xBE#8, 0xEF#8])
      ([W Config.regCommand [0x00#8], W Config.regComIrq [0x7F#8], W Config.regFIFOLevel [0x80#8],
       W Config.regFIFOData [0x60#8, 0x07#8, 0xFF#8, 0xFF#8, 0xFF#8, 0xFF#8, 0xFF#8, 0xFF#8, 0xDE#8, 0xAD#8, 0xBE#8, 0xEF#8],
       W Config.regBitFraming [0x00#8], W Config.regCommand [0x0E#8], R Config.regComIrq 0x10#8, R Config.regError 0x00#8])
      (statusResult .ok (.response [] 0#3)) = true := by decide +kernel

theorem test_picc_auth_b :
    replays (.piccAuthKeyB 0x07#8 key6 [0xDE#8, 0xAD#8, 0xBE#8, 0xEF#8])
      ([W Config.regCommand [0x00#8], W Config.regComIrq [0x7F#8], W Config.regFIFOLevel [0x80#8],
       W Config.regFIFOData [0x61#8, 0x07#8, 0x01#8, 0x02#8, 0x03#8, 0x04#8, 0x05#8, 0x06#8, 0xDE#8, 0xAD#8, 0xBE#8, 0xEF#8],
       W Config.regBitFraming [0x00#8], W Config.regCommand [0x0E#8], R Config.regComIrq 0x01#8])
      (statusResult .timeout (.response [] 0#3)) = true := by decide +kernel

theorem test_picc_mf_read :
    replays (.piccMfRead 0x04#8)
      (vCrc [0x30#8, 0x04#8] 0x26#8 0xEE#8 ++
       vAnswer [0x30#8, 0x04#8, 0x26#8, 0xEE#8] 0x00#8 0x00#8 [0x40#8, 0x41#8, 0x42#8, 0x43#8, 0x44#8, 0x45#8, 0x46#8, 0x47#8, 0x48#8, 0x49#8, 0x4A#8, 0x4B#8, 0x4C#8, 0x4D#8, 0x4E#8, 0x4F#8, 0x23#8, 0x80#8] 0x00#8 ++
       vCrc [0x40#8, 0x41#8, 0x42#8, 0x43#8, 0x44#8, 0x45#8, 0x46#8, 0x47#8, 0x48#8, 0x49#8, 0x4A#8, 0x4B#8, 0x4C#8, 0x4D#8, 0x4E#8, 0x4F#8] 0x23#8 0x80#8)
      (statusResult .ok (.response [0x40#8, 0x41#8, 0x42#8, 0x43#8, 0x44#8, 0x45#8, 0x46#8, 0x47#8, 0x48#8, 0x49#8, 0x4A#8, 0x4B#8, 0x4C#8, 0x4D#8, 0x4E#8, 0x4F#8, 0x23#8, 0x80#8] 0#3)) = true := by decide +kernel

theorem test_picc_mf_write :
    replays (.piccMfWrite 0x04#8 [0x10#8, 0x11#8, 0x12#8, 0x13#8, 0x14#8, 0x15#8, 0x16#8, 0x17#8, 0x18#8, 0x19#8, 0x1A#8, 0x1B#8, 0x1C#8, 0x1D#8, 0x1E#8, 0x1F#8])
      (vCrc [0xA0#8, 0x04#8] 0x7B#8 0xF7#8 ++
       vAnswer [0xA0#8, 0x04#8, 0x7B#8, 0xF7#8] 0x00#8 0x00#8 [0x0A#8] 0x04#8 ++
       vCrc [0x10#8, 0x11#8, 0x12#8, 0x13#8, 0x14#8, 0x15#8, 0x16#8, 0x17#8, 0x18#8, 0x19#8, 0x1A#8, 0x1B#8, 0x1C#8, 0x1D#8, 0x1E#8, 0x1F#8] 0x22#8 0xE8#8 ++
       vAnswer [0x10#8, 0x11#8, 0x12#8, 0x13#8, 0x14#8, 0x15#8, 0x16#8, 0x17#8, 0x18#8, 0x19#8, 0x1A#8, 0x1B#8, 0x1C#8, 0x1D#8, 0x1E#8, 0x1F#8, 0x22#8, 0xE8#8] 0x00#8 0x00#8 [0x0A#8] 0x04#8)
      (statusResult .ok .none) = true := by decide +kernel

theorem test_picc_ul_write :
    replays (.piccUlWrite 0x04#8 [1#8, 2#8, 3#8, 4#8])
      (vCrc [0xA2#8, 0x04#8, 0x01#8, 0x02#8, 0x03#8, 0x04#8] 0x78#8 0x57#8 ++
       vAnswer [0xA2#8, 0x04#8, 0x01#8, 0x02#8, 0x03#8, 0x04#8, 0x78#8, 0x57#8] 0x00#8 0x00#8 [0x0A#8] 0x04#8)
      (statusResult .ok .none) = true := by decide +kernel

theorem test_picc_mf_increment :
    replays (.piccMfIncrement 0x05#8 7#32)
      (vCrc [0xC1#8, 0x05#8] 0x7F#8 0x9A#8 ++
       vAnswer [0xC1#8, 0x05#8, 0x7F#8, 0x9A#8] 0x00#8 0x00#8 [0x0A#8] 0x04#8 ++
       vCrc [0x07#8, 0x00#8, 0x00#8, 0x00#8] 0x21#8 0x01#8 ++
       vSilence [0x07#8, 0x00#8, 0x00#8, 0x00#8, 0x21#8, 0x01#8] 0x00#8)
      (statusResult .ok .none) = true := by decide +kernel

theorem test_picc_mf_decrement :
    replays (.piccMfDecrement 0x05#8 200#32)
      (vCrc [0xC0#8, 0x05#8] 0xA7#8 0x83#8 ++
       vAnswer [0xC0#8, 0x05#8, 0xA7#8, 0x83#8] 0x00#8 0x00#8 [0x0A#8] 0x04#8 ++
       vCrc [0xC8#8, 0x00#8, 0x00#8, 0x00#8] 0x01#8 0x88#8 ++
       vSilence [0xC8#8, 0x00#8, 0x00#8, 0x00#8, 0x01#8, 0x88#8] 0x00#8)
      (statusResult .ok .none) = true := by decide +kernel

theorem test_picc_mf_restore :
    replays (.piccMfRestore 0x05#8)
      (vCrc [0xC2#8, 0x05#8] 0x17#8 0xB0#8 ++
       vAnswer [0xC2#8, 0x05#8, 0x17#8, 0xB0#8] 0x00#8 0x00#8 [0x0A#8] 0x04#8 ++
       vCrc [0x00#8, 0x00#8, 0x00#8, 0x00#8] 0x00#8 0x56#8 ++
       vSilence [0x00#8, 0x00#8, 0x00#8, 0x00#8, 0x00#8, 0x56#8] 0x00#8)
      (statusResult .ok .none) = true := by decide +kernel

theorem test_picc_mf_transfer :
    replays (.piccMfTransfer 0x05#8)
      (vCrc [0xB0#8, 0x05#8] 0x63#8 0x73#8 ++
       vAnswer [0xB0#8, 0x05#8, 0x63#8, 0x73#8] 0x00#8 0x00#8 [0x0A#8] 0x04#8)
      (statusResult .ok .none) = true := by decide +kernel

-- The environment contract (S1, V30, V31, V40): the chip answers, the field is scripted.

theorem test_contract_reqa :
    inField .reqa [bytesAnswer [0x04#8, 0x00#8]] (fun t =>
      t.result == statusResult .ok (.bytes [0x04#8, 0x00#8]) && t.env.chip.air == [airFrame [0x26#8] 7#3]) = true := by decide +kernel

theorem test_contract_silent_field :
    inField .reqa [] (fun t => t.result == statusResult .timeout .none && t.cmdPoll == 1) = true := by decide +kernel

/-- V30 and the end state of S1. -/
theorem test_contract_select :
    inField (.select none 0#8)
      [bytesAnswer [0xDE#8, 0xAD#8, 0xBE#8, 0xEF#8, 0x22#8], bytesAnswer [0x08#8, 0xB6#8, 0xDD#8]] (fun t =>
      t.result == okUid [0xDE#8, 0xAD#8, 0xBE#8, 0xEF#8] 4 0x08#8 &&
        t.env.chip.air == [airFrame [0x93#8, 0x20#8] 0#3,
          airFrame [0x93#8, 0x70#8, 0xDE#8, 0xAD#8, 0xBE#8, 0xEF#8, 0x22#8, 0xB9#8, 0x9C#8] 0#3] &&
        t.sel.buf == [0x93#8, 0x70#8, 0xDE#8, 0xAD#8, 0xBE#8, 0xEF#8, 0x08#8, 0xB6#8, 0xDD#8] && t.sel.known == 32) = true := by decide +kernel

/-- V31: the second answer starts at bit 6. -/
theorem test_contract_collision :
    inField (.select none 0#8)
      [.frame (bitsOf [0x12#8, 0x34#8, 0x16#8, 0x00#8, 0x00#8]) 0#8 (some { good := 21, coll := 0x16#8 }) 0#8,
       .frame ((bitsOf [0x40#8, 0x78#8, 0x28#8]).drop 6) 0#8 none 0#8, bytesAnswer [0x08#8, 0xB6#8, 0xDD#8]] (fun t =>
      t.result == okUid [0x12#8, 0x34#8, 0x76#8, 0x78#8] 4 0x08#8 &&
        t.env.chip.air == [airFrame [0x93#8, 0x20#8] 0#3, airFrame [0x93#8, 0x46#8, 0x12#8, 0x34#8, 0x36#8] 6#3,
          airFrame [0x93#8, 0x70#8, 0x12#8, 0x34#8, 0x76#8, 0x78#8, 0x28#8, 0x05#8, 0x80#8] 0#3]) = true := by decide +kernel

theorem test_contract_auth :
    inField (.auth 0x60#8 0x07#8 (List.replicate 6 0xFF#8) uid4) [.authenticated] (fun t =>
      t.result == statusResult .ok .none && t.env.chip.cryptoOn) = true := by decide +kernel

/-- V41. -/
theorem test_contract_mf_write :
    inField (.mfWrite 0x04#8 [0x10#8, 0x11#8, 0x12#8, 0x13#8, 0x14#8, 0x15#8, 0x16#8, 0x17#8, 0x18#8, 0x19#8, 0x1A#8, 0x1B#8, 0x1C#8, 0x1D#8, 0x1E#8, 0x1F#8]) [nibble 0xA#4, nibble 0xA#4] (fun t =>
      t.result == statusResult .ok .none && t.env.chip.air == [airFrame [0xA0#8, 0x04#8, 0x7B#8, 0xF7#8] 0#3,
        airFrame [0x10#8, 0x11#8, 0x12#8, 0x13#8, 0x14#8, 0x15#8, 0x16#8, 0x17#8, 0x18#8, 0x19#8, 0x1A#8, 0x1B#8, 0x1C#8, 0x1D#8, 0x1E#8, 0x1F#8, 0x22#8, 0xE8#8] 0#3]) = true := by decide +kernel

-- Faults, refusals, reset.

theorem test_transport_fault :
    faults .wupa { State.reset with env := { State.reset.env with script := [.contract, .fault false] } } 2 = true ∧
    faults (.rd 0#6) { State.reset with env := { State.reset.env with handleOpen := false } } 1 = true := by decide +kernel

theorem test_reset_memory :
    State.reset.env.chip.regs.wf Config.codes = true ∧ State.reset.env.chip.get Config.regModWidth = 0x26#8 ∧
    State.reset.env.chip.get Config.regMode = 0x00#8 := by decide +kernel

-- Derived functions (V60 to V65) and host sequences (V70, V71, R336).

theorem test_v60_number :
    uidNumber { uid4 with bytes := [0x04#8, 0x1F#8, 0x2E#8, 0x3D#8, 0x4C#8, 0x5B#8, 0x6A#8, 0x00#8, 0x00#8, 0x00#8] } = 0x041F2E3D4C ∧ uidNumber uid4 = 0xDEADBEEF00 := by decide +kernel

theorem test_v61_type :
    [0x00#8, 0x01#8, 0x04#8, 0x08#8, 0x09#8, 0x10#8, 0x11#8, 0x18#8, 0x20#8, 0x40#8, 0x88#8, 0x98#8, 0xA0#8,
      0x28#8, 0x02#8].map (sakType Config.sakTable) =
      [.mifareUL, .tnp3xxx, .notComplete, .mifare1K, .mifareMini, .mifarePlus, .mifarePlus, .mifare4K,
        .iso14443_4, .iso18092, .mifare1K, .mifare4K, .iso14443_4, .unknown, .unknown] ∧
    piccType Config.sakTable uid4 = .unknown ∧ sakType [] 0x08#8 = .unknown := by decide +kernel

theorem test_v62_sectors :
    [0, 1, 2, 15, 31, 32, 33, 39].map (fun s => (sectorDefinition .mifare4K s).map fun d =>
      (d.firstDataBlock, d.trailerBlock, d.dataBlockCount)) =
      [some (1, 3, 2), some (4, 7, 3), some (8, 11, 3), some (60, 63, 3), some (124, 127, 3),
        some (128, 143, 15), some (144, 159, 15), some (240, 255, 15)] ∧
    [PiccType.mifareMini, .mifare1K, .mifare4K, .mifareUL, .unknown].map sectorCount = [5, 16, 40, 0, 0] := by decide +kernel

theorem test_v70_rearm :
    hostSends rearm State.reset [[0x08#8, 0x00#8], [0x04#8, 0xA0#8], [0x12#8, 0x26#8], [0x02#8, 0x0C#8], [0x1A#8, 0x87#8]] = true := by decide +kernel

theorem test_v71_cancel :
    waits [{ irq := false, cancel := true }] = some (some false) ∧
    waits [{ irq := true, cancel := true }] = some (some true) ∧ waits [] = some none := by decide +kernel

/-- R315: the back-off passes with or without an event; a cancellation in it is seen after the next polls. -/
theorem test_card_removed :
    removal [bytesAnswer [0x44#8, 0x00#8]] [] = some (some true) ∧
    removal [.silence, bytesAnswer [0x44#8, 0x00#8], .silence, .silence] [{ irq := false, cancel := false }] =
      some (some true) ∧
    removal (List.replicate 3 (bytesAnswer [0x44#8, 0x00#8])) [{ irq := false, cancel := true }] = some (some false) := by decide +kernel

/-- R312: the re-arm step repeats on every poll timeout, with no event of the agents. -/
theorem test_poll_interval_passes :
    (match waitForInterrupt (withChip { tuned with rf := [.silence, .silence, bytesAnswer [0x44#8, 0x00#8]] }) with
      | .ok x t => x == some true && t.env.chip.air.length == 3
      | .error _ _ => false) = true := by decide +kernel

/-- R42: `VALUES_AFTER_COLL` is 0, bits after the collision read as 0; a frame does not change it. -/
theorem test_collision_zeroes_the_rest :
    inField (.transceive [0x93#8, 0x20#8] true 0 0 false 0#8)
      [.frame (bitsOf [0xFF#8, 0xFF#8]) 0#8 (some { good := 11, coll := 0x8C#8 }) 0#8] (fun t =>
      t.result == statusResult .collision (.response [0xFF#8, 0x07#8] 0#3) &&
        t.env.chip.get Config.regColl == 0x0C#8) = true := by decide +kernel

/-- R36, R75: a frame longer than the FIFO sets the overflow bit. -/
theorem test_overflow :
    inField (.transceive [0x26#8] true 7 0 false 0#8) [bytesAnswer (List.replicate 65 0xFF#8)] (fun t =>
      t.status == .error && t.env.chip.get Config.regError == 0x10#8 &&
        t.env.chip.fifo.length == 64) = true := by decide +kernel

/-- R75. -/
theorem test_transceive_ends_idle :
    chipAfter .cmdIdle { tuned with active := some 0xC#4, armed := true } (fun c =>
      c.get Config.regComIrq == 0x10#8 && !c.armed) = true := by decide +kernel

/-- R37, R375(a), R405, log 18. -/
theorem test_status2_write :
    chipAfter (.wr Config.regStatus2 0xFF#8) tuned (fun c => c.get Config.regStatus2 == 0x00#8) = true ∧
    chipAfter (.wr Config.regStatus2 0xFF#8) (tuned.put Config.regStatus2 0x08#8) (fun c =>
      c.get Config.regStatus2 == 0x08#8) = true ∧
    chipAfter (.wr Config.regStatus2 0xF7#8) (tuned.put Config.regStatus2 0x08#8) (fun c =>
      c.get Config.regStatus2 == 0x00#8) = true := by decide +kernel

/-- R380, log 41. -/
theorem test_power_down :
    chipAfter (.wr Config.regCommand 0x1C#8) tuned (fun c => c.poweredDown && c.active == none) = true ∧
    chipAfter (.wr Config.regTMode 0x55#8) { tuned with resetPinHigh := false } (fun c =>
      c.get Config.regTMode == 0x80#8) = true ∧
    chipAfter .cmdSoftReset { tuned with regs := [(Config.regCommand.toNat, 0x10#8)] } (fun c =>
      !c.poweredDown) = true := by decide +kernel

/-- R48(g), R312: the chip's own answer lets the line fall, which ends the wait at once, with no event to come. -/
theorem test_interrupt_line :
    chipAfter (.wr Config.regDivIEn 0x04#8) { tuned with regs := [(Config.regDivIrq.toNat, 0x04#8)] }
      (·.irqAsserted) = true ∧
    (match waitForInterrupt (withChip { tuned with rf := [bytesAnswer [0x04#8, 0x00#8]] }) with
      | .ok x _ => x == some true
      | .error _ _ => false) = true := by decide +kernel

/-- R48(d), R312. -/
theorem test_wait_disarms :
    (match passInterval { withChip { tuned with armed := true } with
        host := { State.reset.host with events := [{ irq := false, cancel := false }] } } with
      | .ok () t => !t.env.chip.armed
      | .error _ _ => false) = true := by decide +kernel

/-- D8: the mask of Transceive is a parameter. -/
theorem test_mask_parameter :
    (match exec (.transceive [0x26#8] false 7 0 false 0#8)
        { scripted (vStart [0x26#8] 0x07#8 ++ [R Config.regComIrq 0x40#8, R Config.regError 0#8]) with
          params := { State.reset.params with waitTransceive := 0x40#8 } } with
      | .next t => t.status == .ok
      | .fault _ => false
      | .refused _ => false) = true := by decide +kernel

/-- R21, R250: the test that decides is the line at which the sequencer stands. -/
theorem test_line_of_the_verdict :
    (match judgeAck false { status := .error, bytes := [], validBits := 0#3 }
        { State.reset with seq := .running { op := .mfTransceive, line := 2 } [] } with
      | .ok st t => some (st, t.seq)
      | .error _ _ => none) = some (.error, .running { op := .mfTransceive, line := 4 } []) := by decide +kernel

/-- R21: its two chains; the deepest stack holds four positions. -/
theorem test_call_depth :
    (((Seq.running { op := .select, line := 33 } []).push .transceive).push .communicate).push .rdb =
      .running { op := .rdb, line := 1 }
        [{ op := .communicate, line := 1 }, { op := .transceive, line := 1 }, { op := .select, line := 33 }] ∧
    ((((((Seq.running { op := .mfWrite, line := 2 } []).push .mfTransceive).push .transceive).become
      .communicate).push .setb).push .rd) =
      .running { op := .rd, line := 1 }
        [{ op := .setb, line := 1 }, { op := .communicate, line := 1 }, { op := .mfTransceive, line := 1 },
         { op := .mfWrite, line := 2 }] := by decide +kernel

/-- R8: another register map, command code and card byte are sent, and the contract's chip follows them. -/
theorem test_codes_are_parameters :
    (match exec .reqa (otherCodes { tuned with rf := [bytesAnswer [0x44#8, 0x00#8]] }) with
      | .next t => t.result == statusResult .ok (.bytes [0x44#8, 0x00#8]) &&
        t.env.chip.air == [airFrame [0x27#8] 7#3] && (t.env.trace.map (·.out)).take 5 ==
          [[addrWrite 0x0B#6, 0x00#8], [addrWrite Config.regComIrq, 0x7F#8],
            [addrWrite Config.regFIFOLevel, 0x80#8], [addrWrite Config.regFIFOData, 0x27#8],
            [addrWrite Config.regBitFraming, 0x07#8]]
      | .fault _ => false
      | .refused _ => false) = true ∧
    (match exec .cmdTransceive (otherCodes tuned) with
      | .next t => t.env.trace.map (·.out) == [[addrWrite 0x0B#6, 0x05#8]]
      | .fault _ => false
      | .refused _ => false) = true := by decide +kernel

/-- R8, R336 row 3: the register's reset value stands at its address. -/
theorem test_mod_width_moves :
    (withChip { Chip.reset with codes := { Config.codes with regModWidth := 0x25#6 } }).env.chip.get 0x25#6 = 0x26#8 := by decide +kernel

/-- R31, R100, R102. -/
theorem test_codes_distinct :
    Config.codes.distinct = true ∧ (otherCodes tuned).env.chip.codes.distinct = true ∧
    Codes.distinct { Config.codes with regCommand := Config.regFIFOLevel } = false ∧
    Codes.distinct { Config.codes with cmdMFAuthent := Config.cmdTransceive } = false ∧
    Codes.distinct { Config.codes with piccWUPA := Config.piccREQA } = false := by decide +kernel

/-- R172, log 24: the CALC_CRC of a running operation takes more than 64 bytes. -/
theorem test_crc_of_a_long_response :
    (match exec (.communicate Config.cmdTransceive 0x30#8 [0x26#8] true 0 0 true 0#8)
        { scripted (vStart [0x26#8] 0x00#8 ++ [R Config.regComIrq 0x20#8, R Config.regError 0#8,
            R Config.regFIFOLevel 67#8, B (List.replicate 67 0#8), R Config.regControl 0#8] ++
            vCrc (List.replicate 65 0#8) 0#8 0#8) with
          params := { State.reset.params with respCap := 128 } } with
      | .next t => t.status == .ok
      | .fault _ => false
      | .refused _ => false) = true := by decide +kernel

theorem test_names_complete (r : RegName) : r ∈ RegName.all := by cases r <;> decide

/-- R8, R133, R169: `RESP_CAP` is a parameter. -/
theorem test_response_capacity :
    (match exec (.transceive [0x26#8] true 7 0 false 0#8) (otherCap 2 { tuned with rf := [bytesAnswer [1#8, 2#8, 3#8]] }) with
      | .next t => t.status == .noRoom && t.resp.len == 0
      | .fault _ => false
      | .refused _ => false) = true ∧
    (match exec (.rdb Config.regFIFOData 3 0 0#8) (otherCap 2 tuned) with
      | .next _ => false
      | .fault _ => false
      | .refused r => r == .countOutOfRange) = true := by decide +kernel

/-- R350: the table. -/
theorem test_status_numbers :
    StatusCode.all.map (StatusCode.code State.reset.params.statusNumbers) =
      [0#4, 1#4, 2#4, 3#4, 4#4, 5#4, 6#4, 7#4, 8#4, 9#4] ∧
    ({ State.reset with status := .mifareNack }).statusNumber = 8#4 := by decide +kernel

/-- R310, R316 line 6, R361: with no event to come, a card that is no MIFARE Classic is halted, the next wait is made and the next card is met. -/
theorem test_not_classic_waits_again :
    (match readSession 0#8 key6 (withChip { tuned with rf :=
        [bytesAnswer [0x44#8, 0x00#8], bytesAnswer [0xDE#8, 0xAD#8, 0xBE#8, 0xEF#8, 0x22#8], bytesAnswer [0x00#8, 0xFE#8, 0x51#8],
         .silence, bytesAnswer [0x44#8, 0x00#8]] }) with
      | .ok x t => x == some (.timeout, []) && t.env.chip.rf == [] && t.host.session == .idle
      | .error _ _ => false) = true := by decide +kernel

/-- R340, D38: with 63 bytes at the bound the result is false. -/
theorem test_selftest_bound :
    [63, 64].map (fun n => match selftestPolls State.reset.config 2 (withChip { tuned with fifo := List.replicate n 0#8 }) with
      | .ok filled _ => some filled
      | .error _ _ => none) = [some false, some true] := by decide +kernel

theorem test_init :
    (match init State.reset with
      | .ok _ t => Config.initConst.all (fun x => t.env.chip.get (Config.codes.addr x.1) == x.2) && t.env.chip.antennaOn
      | .error _ _ => false) = true := by decide +kernel

-- Witnesses: for every statement with hypotheses, concrete data that meet them together.

theorem answers_talk (ts : List Talk) : ∀ e : Env, e.handleOpen = true →
    e.script = ts.map answer → e.talks ts = true := by
  induction ts with
  | nil => exact fun _ _ _ => rfl
  | cons x xs ih =>
    intro e ho hs
    refine (Env.talks_cons e x xs).2 ⟨?_, ih _ ho (by simp [Env.after, hs])⟩
    have hr : e.respond x.frame = some (fit e.count x.frame.length (match answer x with
        | .bytes bs => bs
        | _ => [])) := by
      cases x <;> simp [Env.respond, ho, hs, answer]
    refine ⟨_, hr, ?_⟩
    cases x with
    | put f => rfl
    | get a v => simp [Talk.agrees, fit, Talk.frame, frameRd, answer]
    | burst a vs => simp [Talk.agrees, fit, Talk.frame, frameRdb, answer]

/-- The scripted state answers its own exchanges. -/
theorem scripted_talks (ts : List Talk) : (scripted ts).env.talks ts = true :=
  answers_talk ts _ rfl rfl

theorem ran {o : Host.Outcome State Fault Refusal} (h : (match o with
    | .next _ => true
    | .fault _ => false
    | .refused _ => false) = true) : ∃ t, o = .next t := by
  cases o with
  | next t => exact ⟨t, rfl⟩
  | fault f => cases h
  | refused r => cases h

-- The runs of the vectors.

def crcRun (lo hi : Byte) : CrcRun := { quiet := [], last := 0x04#8, lo := lo, hi := hi }
/-- The done flag in the last of 255 samples (V14). -/
def crcLate : CrcRun := { quiet := List.replicate 254 0x00#8, last := 0x04#8, lo := 0x57#8, hi := 0xCD#8 }
def noCrc : List Byte := List.replicate 255 0x00#8
def commRun (framing err : Byte) : CommRun :=
  { framing := framing, quiet := [], last := 0x20#8, err := err }
/-- The awaited flag in the last of 125 samples (V23). -/
def commLate (err : Byte) : CommRun :=
  { framing := 0x00#8, quiet := List.replicate 124 0x00#8, last := 0x20#8, err := err }
def authRun (err : Byte) : CommRun := { framing := 0#8, quiet := [0x20#8], last := 0x10#8, err := err }
/-- The timer flag at the first sample (V21), and 125 samples with no flag (V22). -/
def silentRun : CommSilence := { framing := 0x00#8, samples := [0x01#8] }
def budgetRun : CommSilence := { framing := 0x00#8, samples := List.replicate 125 0x00#8 }
def answerRun (framing : Byte) (vals : List Byte) (control : Byte) : AnswerRun :=
  { comm := commRun framing 0x00#8, vals := vals, control := control }
def ackRun : MifareRun := { crc := crcRun 0x7B#8 0xF7#8, answer := answerRun 0#8 [0x0A#8] 0x04#8 }
def nakRun : MifareRun := { crc := crcRun 0x7B#8 0xF7#8, answer := answerRun 0#8 [0x04#8] 0x04#8 }
def mifareSilence : MifareSilence := { crc := crcRun 0x21#8 0x01#8, silence := silentRun }
def readRun : ReadRun :=
  { command :=
      { crc := crcRun 0x26#8 0xEE#8
        answer := answerRun 0#8 (0x64#8 :: 0x00#8 :: 0x00#8 :: 0x00#8 :: List.replicate 12 0x05#8 ++
          [0xFD#8, 0xB4#8]) 0x00#8 }
    check := crcRun 0xFD#8 0xB4#8 }

/-- The operands of a COMMUNICATE. -/
def commArgs (data : List Byte) (want check : Bool) (tx rx : Nat) : CommArgs :=
  { transceiveArgs data want tx rx check 0x05#8 with waitIrq := 0x30#8 }

-- SELECT: V30, V31, V33 and V34's first level, V35, V36, V39b, V39c, V37, V38, V39d.

def roundV30 : Round :=
  { comm := commRun 0#8 0#8, vals := [0xDE#8, 0xAD#8, 0xBE#8, 0xEF#8, 0x22#8], control := 0#8, coll := 0#8 }
def levelV30 : LevelRun :=
  { rounds := [roundV30]
    crc := crcRun 0xB9#8 0x9C#8
    answer := answerRun 0#8 [0x08#8, 0xB6#8, 0xDD#8] 0#8
    sakCrc := crcRun 0xB6#8 0xDD#8 }
def collisionV31 : Round :=
  { comm := commRun 0#8 0x08#8, vals := [0x12#8, 0x34#8, 0x16#8, 0x00#8, 0x00#8], control := 0#8
    coll := 0x96#8 }
def levelV31 : LevelRun :=
  { levelV30 with
    rounds := [collisionV31, { roundV30 with vals := [0x40#8, 0x78#8, 0x28#8] }]
    crc := crcRun 0x05#8 0x80#8 }
/-- A level with all bits known; the SAK `04` has the cascade bit (V33). -/
def levelV33 (lo hi : Byte) : LevelRun :=
  { rounds := []
    crc := crcRun lo hi
    answer := answerRun 0#8 [0x04#8, 0xDA#8, 0x17#8] 0#8
    sakCrc := crcRun 0xDA#8 0x17#8 }
def lastV33 : LevelRun :=
  { rounds := []
    crc := crcRun 0xEC#8 0xC8#8
    answer := answerRun 0#8 [0x20#8, 0xFC#8, 0x70#8] 0#8
    sakCrc := crcRun 0xFC#8 0x70#8 }
def levelsV33 : List LevelRun := [levelV33 0xC2#8 0x82#8, levelV33 0x5A#8 0x32#8, lastV33]
/-- Level 1 of V34: 29 bits known. -/
def levelV34 : LevelRun :=
  { levelV33 0xC2#8 0x82#8 with rounds := [{ roundV30 with vals := [0x00#8, 0x88#8] }] }
/-- A level that answers `88 01 02 03 88` (V39d). -/
def levelV39d : LevelRun :=
  { levelV33 0xC2#8 0x82#8 with
    rounds := [{ roundV30 with vals := [0x88#8, 0x01#8, 0x02#8, 0x03#8, 0x88#8] }] }
/-- The first round of V36. -/
def roundV36 : Round := { comm := commRun 0#8 0x08#8, vals := [], control := 0#8, coll := 0x89#8 }

theorem witness_EncodedInstructionDecodesBack :
    (Instr.rdb 0x3F#6 64 7 0xFF#8).wellFormed = true ∧
    (Instr.select (some uid10) 80#8).wellFormed = true ∧ (Instr.xferRdb 0x3F#6 1).wellFormed = true ∧
    (Instr.mfTransceive (List.replicate 62 0#8) true).wellFormed = true := by decide +kernel

theorem witness_DecodedBytesAreTheEncoding : decode .op [0x23#8, 0x04#8] = .ok (.mfRead 0x04#8) := by
  decide

theorem witness_StepRunsThePresentedInstruction :
    State.reset.seq = .idle ∧ State.reset.pending = [] ∧
    decode .op [0x19#8] = .ok .wupa ∧ decode .op [0xFF#8] = .error (.unknownIndex 0xFF#8) ∧
    ∃ s : State, s.seq = .idle ∧ s.pending = [{ layer := .op, bytes := [0x19#8] }] :=
  ⟨rfl, rfl, by decide, by decide, { State.reset with pending := _ }, rfl, rfl⟩

theorem witness_BusyAndFaultedRefuse :
    (∃ s : State, s.seq = .running { op := .rd, line := 1 } [{ op := .wupa, line := 2 }]) ∧
    ∃ s : State, s.seq = .faulted :=
  ⟨⟨{ State.reset with seq := _ }, rfl⟩, ⟨{ State.reset with seq := _ }, rfl⟩⟩

theorem witness_WriteOperationsIssueOneFrame :
    State.reset.seq = .idle ∧ State.reset.env.talks [.put [addrWrite 0x3F#6, 0xFF#8]] = true ∧
    State.reset.env.talks [.put (addrWrite 0x09#6 :: List.replicate 64 0#8)] = true ∧
    State.reset.env.talks [.put [addrWrite 0x09#6]] = true := ⟨rfl, rfl, rfl, rfl⟩

theorem witness_ReadReturnsSecondByte :
    ∃ s : State, s.seq = .idle ∧ s.env.respond [addrRead 0x3F#6, 0x00#8] = some [0#8, 0x45#8] :=
  ⟨scripted [R 0x3F#6 0x45#8], rfl, by decide +kernel⟩

theorem witness_BurstReadMergesFirstByte :
    ∃ s : State, s.seq = .idle ∧
      s.env.respond (List.replicate 64 (addrRead 0x09#6) ++ [0x00#8]) =
        some (0#8 :: 0xFF#8 :: List.replicate 63 0x28#8) :=
  ⟨scripted [B (0xFF#8 :: List.replicate 63 0x28#8)], rfl, by decide +kernel⟩

theorem witness_SetAndClearBits :
    (∃ s : State, s.seq = .idle ∧
      s.env.talks [.get 0x0D#6 0x07#8, talkWr 0x0D#6 (0x07#8 ||| 0x80#8)] = true) ∧
    (∃ s : State, s.seq = .idle ∧
      s.env.talks [.get 0x08#6 0x0D#8, talkWr 0x08#6 (0x0D#8 &&& ~~~ 0x08#8)] = true) ∧
    (∃ s : State, s.seq = .idle ∧ s.env.respond [addrRead 0x0D#6, 0x00#8] = none) ∧
    ∃ s : State, s.seq = .idle ∧ s.env.talks [.get 0x0D#6 0x07#8] = true ∧
      (s.env.after [addrRead 0x0D#6, 0x00#8]).respond [addrWrite 0x0D#6, 0x87#8] = none :=
  ⟨⟨scripted _, rfl, scripted_talks _⟩, ⟨scripted _, rfl, scripted_talks _⟩,
    ⟨{ State.reset with env := { State.reset.env with handleOpen := false } }, rfl, rfl⟩,
    { State.reset with env := { State.reset.env with
        script := [.bytes [0#8, 0x07#8], .fault true] } }, rfl, by decide +kernel, rfl⟩

theorem witness_OperandsOutsideTheirDomainAreRefused :
    State.reset.seq = .idle ∧ State.reset.env.chip.fifoSize = 64 ∧ State.reset.params.respCap = 64 ∧
    64 < (List.replicate 65 (0#8 : Byte)).length ∧ 64 < (List.replicate 63 (0#8 : Byte)).length + 2 ∧
    (List.replicate 63 (0#8 : Byte)) ≠ [] ∧ uid4.bytes.length = 10 ∧ key6.length = 6 ∧
    ({ uid4 with size := 5 } : Uid).size ≠ 4 ∧ ({ uid4 with bytes := [] } : Uid).bytes.length ≠ 10 ∧
    ([0#8, 0#8, 0#8] : List Byte).length ≠ 4 := by decide +kernel

theorem witness_TransportFramesAreExchanged :
    State.reset.env.talks [.put [addrWrite 0x3F#6, 0xFF#8]] = true ∧
    State.reset.env.talks [.put (addrWrite 0x09#6 :: List.replicate 64 0#8)] = true ∧
    (∃ s : State, s.seq = .idle ∧ s.env.respond [addrRead 0x37#6, 0x00#8] = some [0#8, 0x92#8]) ∧
    (∃ s : State, s.seq = .idle ∧
      s.env.respond (List.replicate 64 (addrRead 0x09#6) ++ [0x00#8]) = some (0#8 :: List.replicate 64 0x28#8)) ∧
    ∃ s : State, s.seq = .idle ∧ s.env.respond (List.replicate 1 (addrRead 0x09#6) ++ [0x00#8]) = some [0#8, 0x28#8] :=
  ⟨rfl, rfl, ⟨scripted [R 0x37#6 0x92#8], rfl, by decide +kernel⟩,
    ⟨scripted [B (List.replicate 64 0x28#8)], rfl, by decide +kernel⟩,
    ⟨scripted [B [0x28#8]], rfl, by decide +kernel⟩⟩

theorem witness_ChipCommandsWriteTheirCode :
    State.reset.seq = .idle ∧ State.reset.standard ∧
    State.reset.env.talks [.put [0x02#8, 0x0C#8]] = true ∧
    State.reset.env.talks [.put [0x02#8, 0x0F#8]] = true ∧
    (otherCodes tuned).env.chip.codes.regCommand = 0x0B#6 ∧
    (otherCodes tuned).env.talks [.put [addrWrite 0x0B#6, 0x05#8]] = true := ⟨rfl, rfl, rfl, rfl, rfl, rfl⟩

theorem witness_CalcCrcReturnsTheResult :
    crcLate.ok = true ∧ (crcRun 0#8 0#8).ok = true ∧ ∃ s : State, s.seq = .idle ∧ s.standard ∧
      s.env.talks (crcLate.talk (List.replicate 64 0#8)) = true :=
  ⟨by decide +kernel, by decide +kernel, scripted _, rfl, rfl, scripted_talks _⟩

theorem witness_CalcCrcTimesOut :
    noCrc.length = 255 ∧ (∀ n ∈ noCrc, n.getLsbD 2 = false) ∧ ∃ s : State, s.seq = .idle ∧ s.standard ∧
      s.env.talks (crcStart [] ++ noCrc.map (.get Config.regDivIrq)) = true :=
  ⟨by decide +kernel, by decide +kernel, scripted _, rfl, rfl, scripted_talks _⟩

theorem witness_CalcCrcGivesCrcA :
    (withChip tuned).seq = .idle ∧ (withChip tuned).standard ∧ (withChip tuned).env.handleOpen = true ∧
    (withChip tuned).env.script = [] ∧ tuned.regs.wf Config.codes = true ∧ tuned.get Config.regMode = 0x3D#8 ∧
    tuned.selftestOn = false ∧ tuned.poweredDown = false ∧ tuned.fifoSize = 64 ∧
    ({ tuned with active := some 0xC#4 } : Chip).poweredDown = false :=
  ⟨rfl, rfl, rfl, rfl, by decide +kernel, by decide +kernel, by decide +kernel, by decide +kernel, rfl,
    by decide +kernel⟩

/-- The example of ISO/IEC 14443-3, as spec/95_test_vectors.md E4 gives it. -/
theorem witness_CrcOverItsOwnBytesIsZero :
    crcABytes [0#8, 0#8] = [0xA0#8, 0x1E#8] ∧
    crcFrom 0x6363#16 [0#8, 0#8, 0xA0#8, 0x1E#8] = 0#16 := by decide +kernel

theorem witness_CommunicateTimesOut :
    silentRun.ok 0x30#8 = true ∧ budgetRun.ok 0x30#8 = true ∧
    (∃ s : State, s.seq = .idle ∧ s.standard ∧ s.env.talks (silentRun.talk (commArgs [0#8] true true 7 7)) = true) ∧
    ∃ s : State, s.seq = .idle ∧ s.standard ∧
      s.env.talks (budgetRun.talk (commArgs (List.replicate 64 0#8) false false 0 0)) = true :=
  ⟨by decide +kernel, by decide +kernel, ⟨scripted _, rfl, rfl, scripted_talks _⟩,
    ⟨scripted _, rfl, rfl, scripted_talks _⟩⟩

theorem witness_CommunicateErrorAndNoRoom :
    (commLate 0x0A#8).quiet.length < 125 ∧
    (∀ n ∈ (commLate 0x0A#8).quiet, quietSample 0x30#8 n = true) ∧
    (commLate 0x0A#8).last &&& 0x30#8 ≠ 0#8 ∧ (commLate 0x0A#8).err &&& 0x13#8 ≠ 0#8 ∧
    (commRun 0#8 0#8).ok 0x30#8 = true ∧ 64 < (0x41#8 : Byte).toNat ∧
    (∃ s : State, s.seq = .idle ∧ s.standard ∧
      s.env.talks ((commLate 0x0A#8).talk (commArgs [0#8] true true 7 7)) = true) ∧
    ∃ s : State, s.seq = .idle ∧ s.standard ∧ s.env.talks
      ((commRun 0#8 0#8).talk (commArgs [0#8] true false 7 7) ++ [.get Config.regFIFOLevel 0x41#8]) =
        true :=
  ⟨by decide +kernel, by decide +kernel, by decide, by decide, by decide +kernel, by decide,
    ⟨scripted _, rfl, rfl, scripted_talks _⟩, ⟨scripted _, rfl, rfl, scripted_talks _⟩⟩

theorem witness_CommunicateCompletes :
    (commLate 0x08#8).ok 0x30#8 = true ∧ (commRun 0#8 0x44#8).ok 0x30#8 = true ∧
    (∃ s : State, s.seq = .idle ∧ s.standard ∧
      s.env.talks ((commLate 0x08#8).talk (commArgs [0#8] false true 0 0)) = true) ∧
    (∃ s : State, s.seq = .idle ∧ s.standard ∧ s.env.talks ((commRun 0#8 0x44#8).talk (commArgs [0#8] true false 7 7) ++
      drainTalk (List.replicate 64 0xFF#8) 0x07#8) = true) ∧
    ∃ s : State, s.seq = .idle ∧ s.standard ∧ s.env.talks ((commLate 0x08#8).talk (commArgs [0#8] true true 0 0) ++
      drainTalk [] 0x00#8) = true :=
  ⟨by decide +kernel, by decide +kernel, ⟨scripted _, rfl, rfl, scripted_talks _⟩,
    ⟨scripted _, rfl, rfl, scripted_talks _⟩, ⟨scripted _, rfl, rfl, scripted_talks _⟩⟩

theorem witness_CommunicateChecksTheCrc :
    (commRun 0#8 0#8).ok 0x30#8 = true ∧ (commRun 0#8 0#8).err.getLsbD 3 = false ∧
    (crcRun 0x63#8 0x63#8).ok = true ∧
    (∃ s : State, s.seq = .idle ∧ s.standard ∧ s.env.talks ((commRun 0#8 0#8).talk (commArgs [0#8] true true 0 0) ++
      drainTalk [0x04#8] 0x04#8) = true) ∧
    (∃ s : State, s.seq = .idle ∧ s.standard ∧ s.env.talks ((commRun 0#8 0#8).talk (commArgs [0#8] true true 0 0) ++
      drainTalk [0x0A#8] 0x00#8) = true) ∧
    (∃ s : State, s.seq = .idle ∧ s.standard ∧ s.env.talks ((commRun 0#8 0#8).talk (commArgs [0#8] true true 0 0) ++
      drainTalk [0x63#8, 0x63#8] 0x00#8 ++ (crcRun 0x63#8 0x63#8).talk []) = true) ∧
    noCrc.length = 255 ∧ (∀ n ∈ noCrc, n.getLsbD 2 = false) ∧ ∃ s : State, s.seq = .idle ∧ s.standard ∧
      s.env.talks ((commRun 0#8 0#8).talk (commArgs [0#8] true true 0 0) ++
        drainTalk [0x63#8, 0x63#8] 0x00#8 ++ (crcStart [] ++ noCrc.map (.get Config.regDivIrq))) = true :=
  ⟨by decide +kernel, by decide, by decide +kernel, ⟨scripted _, rfl, rfl, scripted_talks _⟩,
    ⟨scripted _, rfl, rfl, scripted_talks _⟩, ⟨scripted _, rfl, rfl, scripted_talks _⟩, by decide +kernel,
    by decide +kernel, scripted _, rfl, rfl, scripted_talks _⟩

theorem witness_TransceiveIsACommunicate :
    ∃ s t, exec (.transceive [0x26#8] true 7 0 false 0#8) s = .next t :=
  ⟨scripted (vSilence [0x26#8] 0x07#8), ran (by decide +kernel)⟩

theorem witness_TransceiveReturnsTheAnswer :
    (answerRun 0x77#8 (List.replicate 64 0#8) 0#8).ok 0x30#8 = true ∧ ∃ s : State, s.seq = .idle ∧ s.standard ∧
      s.env.talks ((answerRun 0x77#8 (List.replicate 64 0#8) 0#8).talk [0x26#8] 7 7) = true :=
  ⟨by decide +kernel, scripted _, rfl, rfl, scripted_talks _⟩

/-- The reset state with the other value of the parameter of R201, answering these exchanges. -/
def clearing (ts : List Talk) : State :=
  { scripted ts with params := { State.reset.params with selectClearsValuesAfterColl := true } }

theorem witness_RequestsAskWithAShortFrame :
    (answerRun 0x07#8 [0x04#8, 0x00#8] 0#8).ok 0x30#8 = true ∧ silentRun.ok 0x30#8 = true ∧
    (∃ s : State, s.seq = .idle ∧ s.standard ∧ s.params.selectClearsValuesAfterColl = true ∧
      s.env.talks (prepareTalk s.params 0xFF#8 ++
        (answerRun 0x07#8 [0x04#8, 0x00#8] 0#8).talk [0x26#8] 7 0) = true) ∧
    ∃ s : State, s.seq = .idle ∧ s.standard ∧ s.env.talks (prepareTalk s.params 0xFF#8 ++
      silentRun.talk (transceiveArgs [0x52#8] true 7 0 false 0#8)) = true :=
  ⟨by decide +kernel, by decide +kernel, ⟨clearing ([.get Config.regColl 0xFF#8, talkWr Config.regColl 0x7F#8] ++
      (answerRun 0x07#8 [0x04#8, 0x00#8] 0#8).talk [0x26#8] 7 0), rfl, rfl, rfl, answers_talk _ _ rfl rfl⟩,
    ⟨scripted (silentRun.talk (transceiveArgs [0x52#8] true 7 0 false 0#8)), rfl, rfl,
      answers_talk _ _ rfl rfl⟩⟩

theorem witness_HaltTakesSilenceForSuccess :
    (crcRun 0x57#8 0xCD#8).ok = true ∧ silentRun.ok 0x30#8 = true ∧
    (commRun 0#8 0#8).ok 0x30#8 = true ∧
    (∃ s : State, s.seq = .idle ∧ s.standard ∧ s.env.talks ((crcRun 0x57#8 0xCD#8).talk [0x50#8, 0x00#8] ++
      silentRun.talk (transceiveArgs [0x50#8, 0x00#8, 0x57#8, 0xCD#8] false 0 0 false 0#8)) = true) ∧
    ∃ s : State, s.seq = .idle ∧ s.standard ∧ s.env.talks ((crcRun 0x57#8 0xCD#8).talk [0x50#8, 0x00#8] ++
      (commRun 0#8 0#8).talk (transceiveArgs [0x50#8, 0x00#8, 0x57#8, 0xCD#8] false 0 0 false 0#8)) =
        true :=
  ⟨by decide +kernel, by decide +kernel, by decide +kernel, ⟨scripted _, rfl, rfl, scripted_talks _⟩,
    ⟨scripted _, rfl, rfl, scripted_talks _⟩⟩

theorem witness_SelectRejectsTooManyKnownBits :
    State.reset.seq = .idle ∧ seedOk (some uid10) = true ∧ seedOk none = true ∧
    80 < (81#8 : Byte).toNat := ⟨rfl, rfl, rfl, by decide⟩

/-- One level (V30), one level with a collision (V31), three levels with all 80 bits known (V33). -/
theorem witness_SelectResolvesTheUid :
    levelsConfirmed 0x30#8 none 0 false [levelV30] 1 (firstRecord none) = true ∧
    levelsConfirmed 0x30#8 none 0 false [levelV31] 1 (firstRecord none) = true ∧
    levelsConfirmed 0x30#8 (some uid10) 80 false levelsV33 1 (firstRecord (some uid10)) = true ∧
    levelsV33.getLast? = some lastV33 ∧ seedOk (some uid10) = true ∧
    (∃ s : State, s.seq = .idle ∧ s.standard ∧
      s.env.talks (prepareTalk s.params 0#8 ++ levelsTalk none 0 [levelV31] 1 (firstRecord none)) = true) ∧
    ∃ s : State, s.seq = .idle ∧ s.standard ∧ s.env.talks (prepareTalk s.params 0#8 ++
      levelsTalk (some uid10) 80 levelsV33 1 (firstRecord (some uid10))) = true :=
  ⟨by decide +kernel, by decide +kernel, by decide +kernel, by decide +kernel, rfl,
    ⟨scripted (levelsTalk none 0 [levelV31] 1 (firstRecord none)), rfl, rfl, answers_talk _ _ rfl rfl⟩,
    ⟨scripted (levelsTalk (some uid10) 80 levelsV33 1 (firstRecord (some uid10))), rfl, rfl,
      answers_talk _ _ rfl rfl⟩⟩

/-- The path of V36's second round, at 9 known bits. -/
def pathV36 : SelectPath := { coll := 0#8, levels := [], rounds := [roundV36] }

/-- V36's second round, V35, V39c and V39b. -/
theorem witness_SelectRoundsThatFail :
    pathV36.ok 0x30#8 none 0 = true ∧ (pathV36.window none 0).known = 9 ∧
    (pathV36.start none 0).known < 32 ∧
    (roundV36.comm.ok 0x30#8 = true ∧ roundV36.collides = true ∧ roundV36.coll.getLsbD 5 = false ∧
      roundV36.position ≤ 9) ∧
    (let r : Round := { roundV36 with vals := [0x12#8], coll := 0xA9#8 }
     r.comm.ok 0x30#8 = true ∧ r.collides = true ∧ r.coll.getLsbD 5 = true) ∧
    (let r : Round := { roundV30 with vals := List.replicate 7 0x01#8 }
     r.comm.ok 0x30#8 = true ∧ r.vals.length ≤ 64 ∧ 7 - 9 / 8 < r.vals.length) ∧
    silentRun.ok 0x30#8 = true ∧
    ∃ s : State, s.seq = .idle ∧ s.standard ∧ s.env.talks (pathV36.talk s.params none 0 ++
      roundV36.talk 1 (pathV36.window none 0)) = true :=
  ⟨by decide +kernel, by decide +kernel, by decide +kernel, by decide +kernel, by decide +kernel,
    by decide +kernel, by decide +kernel,
    scripted (levelsTalk none 0 pathV36.levels 1 (firstRecord none) ++
      roundsTalk 1 pathV36.rounds (pathV36.start none 0) ++ roundV36.talk 1 (pathV36.window none 0)),
    rfl, rfl, answers_talk _ _ rfl rfl⟩

/-- A select answer of four bytes; a collision on the select frame with a position, and without one; V37,
V38, V39d. -/
theorem witness_SelectAnswersThatFail :
    (let l : LevelRun := { levelV30 with answer := answerRun 0#8 [0x08#8, 0xB6#8, 0xDD#8, 0x00#8] 0#8 }
     l.selects 0x30#8 (Window.start none 0 1 (firstRecord none)) = true ∧ 3 < l.answer.vals.length) ∧
    (let l : LevelRun := { levelV30 with answer :=
       { comm := commRun 0#8 0x08#8, vals := [0x08#8], control := 0#8 } }
     let w := Window.start none 0 1 (firstRecord none)
     roundsGoOn 0x30#8 l.rounds w = true ∧ 32 ≤ (l.window w).known ∧ l.crc.ok = true ∧
       l.answer.comm.ok 0x30#8 = true ∧ l.answer.comm.err.getLsbD 3 = true ∧
       l.answer.vals.length ≤ 3 ∧ silentRun.ok 0x30#8 = true ∧
       ∃ s : State, s.seq = .idle ∧ s.standard ∧ s.env.talks (prepareTalk s.params 0#8 ++
         levelsTalk none 0 [] 1 (firstRecord none) ++
           (l.selectTalk 1 w ++ [.get Config.regColl 0x81#8])) = true) ∧
    (let l : LevelRun := { levelV30 with answer := answerRun 0#8 [0x08#8, 0xB6#8] 0#8 }
     l.selects 0x30#8 (Window.start none 0 1 (firstRecord none)) = true) ∧
    (let l : LevelRun := { levelV30 with answer := answerRun 0#8 [0x08#8, 0xB6#8, 0xDC#8] 0#8 }
     l.selects 0x30#8 (Window.start none 0 1 (firstRecord none)) = true ∧ l.sakCrc.ok = true ∧
       l.sakCrc.bytes ≠ l.answer.vals.drop 1) ∧
    levelsConfirmed 0x30#8 none 0 true [levelV39d, levelV39d] 1 (firstRecord none) = true ∧
    (let acc := levelsRecord none 0 [levelV39d, levelV39d] 1 (firstRecord none)
     levelV39d.confirmed 0x30#8 (Window.start none 0 3 acc) = true ∧ levelV39d.sak.getLsbD 2 = true ∧
     ∃ s : State, s.seq = .idle ∧ s.standard ∧ s.env.talks (prepareTalk s.params 0#8 ++
       levelsTalk none 0 [levelV39d, levelV39d] 1 (firstRecord none) ++
         levelV39d.talk 3 (Window.start none 0 3 acc)) = true) ∧
    levelsConfirmed 0x30#8 (some uid10) 21 true [levelV34] 1 (firstRecord (some uid10)) = true :=
  ⟨by decide +kernel,
    ⟨by decide +kernel, by decide +kernel, by decide +kernel, by decide +kernel, by decide +kernel,
      by decide +kernel, by decide +kernel, scripted (LevelRun.selectTalk { levelV30 with answer :=
        { comm := commRun 0#8 0x08#8, vals := [0x08#8], control := 0#8 } } 1
        (Window.start none 0 1 (firstRecord none)) ++ [.get Config.regColl 0x81#8]), rfl, rfl,
      answers_talk _ _ rfl rfl⟩,
    by decide +kernel, by decide +kernel, by decide +kernel,
    ⟨by decide +kernel, by decide +kernel,
      scripted (levelsTalk none 0 [levelV39d, levelV39d] 1 (firstRecord none) ++
        levelV39d.talk 3 (Window.start none 0 3
          (levelsRecord none 0 [levelV39d, levelV39d] 1 (firstRecord none)))), rfl, rfl,
      answers_talk _ _ rfl rfl⟩, by decide +kernel⟩

theorem witness_SelectRecordIsComplete : ∃ s t, exec (.select none 0#8) s = .next t :=
  ⟨scripted (levelsTalk none 0 [levelV30] 1 (firstRecord none)), ran (by decide +kernel)⟩

theorem witness_AuthSendsTheTwelveByteFrame :
    uid10.wellFormed = true ∧ uid4.wellFormed = true ∧ (authRun 0x08#8).ok 0x10#8 = true ∧
    (authRun 0x00#8).ok 0x10#8 = true ∧ silentRun.ok 0x10#8 = true ∧
    (∃ s : State, s.seq = .idle ∧ s.standard ∧ s.env.talks ((authRun 0x00#8).talk
      { transceiveArgs (authFrame 0x60#8 0x07#8 key6 (uidTail uid4)) false 0 0 false 0#8 with
        command := 0xE#4
        waitIrq := 0x10#8 }) = true) ∧
    ∃ s : State, s.seq = .idle ∧ s.standard ∧ s.env.talks (silentRun.talk
      { transceiveArgs (authFrame 0x61#8 0x07#8 key6 (uidTail uid10)) false 0 0 false 0#8 with
        command := 0xE#4
        waitIrq := 0x10#8 }) = true :=
  ⟨by decide, by decide, by decide +kernel, by decide +kernel, by decide +kernel,
    ⟨scripted _, rfl, rfl, scripted_talks _⟩, ⟨scripted _, rfl, rfl, scripted_talks _⟩⟩

theorem witness_StopCrypto1ClearsTheBit :
    (∃ s : State, s.seq = .idle ∧ s.standard ∧
      s.env.talks [.get 0x08#6 0x0D#8, talkWr 0x08#6 (0x0D#8 &&& 0xF7#8)] = true) ∧
    (∃ s : State, s.seq = .idle ∧ s.standard ∧ s.env.respond [0x90#8, 0x00#8] = none) ∧
    ∃ s : State, s.seq = .idle ∧ s.standard ∧ s.env.talks [.get 0x08#6 0x0D#8] = true ∧
      (s.env.after [0x90#8, 0x00#8]).respond [0x10#8, 0x05#8] = none :=
  ⟨⟨scripted _, rfl, rfl, scripted_talks _⟩,
    ⟨{ State.reset with env := { State.reset.env with handleOpen := false } }, rfl, rfl, rfl⟩,
    { State.reset with env := { State.reset.env with
        script := [.bytes [0#8, 0x0D#8], .fault true] } }, rfl, rfl, by decide +kernel, rfl⟩

theorem witness_MifareTransceiveWantsTheAck :
    ackRun.ok 0x30#8 = true ∧ nakRun.ok 0x30#8 = true ∧ mifareSilence.ok 0x30#8 = true ∧
    (∃ s : State, s.seq = .idle ∧ s.standard ∧ s.env.talks (nakRun.talk (List.replicate 62 0#8)) = true) ∧
    ∃ s : State, s.seq = .idle ∧ s.standard ∧ s.env.talks (mifareSilence.talk [0x01#8]) = true :=
  ⟨by decide +kernel, by decide +kernel, by decide +kernel, ⟨scripted _, rfl, rfl, scripted_talks _⟩,
    ⟨scripted _, rfl, rfl, scripted_talks _⟩⟩

theorem witness_MifareReadReturnsSixteenBytes :
    readRun.ok 0x30#8 = true ∧ ∃ s : State, s.seq = .idle ∧ s.standard ∧ s.env.talks (readRun.talk 0x04#8) = true :=
  ⟨by decide +kernel, scripted _, rfl, rfl, scripted_talks _⟩

theorem witness_MifareGetValueDecodesTheWord :
    readRun.ok 0x30#8 = true ∧ (∃ rest, readRun.command.answer.vals = 0x64#8 :: 0#8 :: 0#8 :: 0#8 :: rest) ∧
    ∃ s : State, s.seq = .idle ∧ s.standard ∧ s.env.talks (readRun.talk 0x05#8) = true :=
  ⟨by decide +kernel, ⟨_, rfl⟩, scripted _, rfl, rfl, scripted_talks _⟩

theorem witness_MifareWriteSendsTwoFrames :
    ackRun.acked 0x30#8 = true ∧ nakRun.ok 0x30#8 = true ∧ nakRun.answer.vals = [0x04#8] ∧
    nakRun.answer.control.extractLsb' 0 3 = 4#3 ∧
    (∃ s : State, s.seq = .idle ∧ s.standard ∧ s.env.talks (ackRun.talk [0xA0#8, 0x04#8] ++
      ackRun.talk ((List.replicate 17 0xA5#8).take 16)) = true) ∧
    ∃ s : State, s.seq = .idle ∧ s.standard ∧ s.env.talks (nakRun.talk [0xA0#8, 0x04#8]) = true :=
  ⟨by decide +kernel, by decide +kernel, rfl, by decide, ⟨scripted _, rfl, rfl, scripted_talks _⟩,
    ⟨scripted _, rfl, rfl, scripted_talks _⟩⟩

theorem witness_InvalidIsMalformedInput :
    State.reset.seq = .idle ∧ (List.replicate 15 (0#8 : Byte)).length < 16 ∧
    (List.replicate 3 (0#8 : Byte)).length < 4 ∧ seedOk (some uid10) = true ∧ 80 < (81#8 : Byte).toNat ∧
    ∃ t, exec (.mfWrite 0#8 []) State.reset = .next t ∧ t.result.status = some .invalid :=
  ⟨rfl, by decide, by decide, rfl, by decide, _, rfl, rfl⟩

theorem witness_OneFrameWritesAreAcknowledged :
    ackRun.acked 0x30#8 = true ∧
    (∃ s : State, s.seq = .idle ∧ s.standard ∧
      s.env.talks (ackRun.talk [0xA2#8, 0x04#8, 1#8, 2#8, 3#8, 4#8]) = true) ∧
    ∃ s : State, s.seq = .idle ∧ s.standard ∧ s.env.talks (ackRun.talk [0xB0#8, 0x05#8]) = true :=
  ⟨by decide +kernel, ⟨scripted _, rfl, rfl, scripted_talks _⟩, ⟨scripted _, rfl, rfl, scripted_talks _⟩⟩

theorem witness_ValueOperationsTakeTwoSteps :
    ackRun.acked 0x30#8 = true ∧ mifareSilence.ok 0x30#8 = true ∧
    (∃ s : State, s.seq = .idle ∧ s.standard ∧ s.env.talks (ackRun.talk [0xC1#8, 0x05#8] ++
      ackRun.talk [0x07#8, 0x00#8, 0x00#8, 0x80#8]) = true) ∧
    ∃ s : State, s.seq = .idle ∧ s.standard ∧ s.env.talks (ackRun.talk [0xC2#8, 0x05#8] ++
      mifareSilence.talk [0x00#8, 0x00#8, 0x00#8, 0x00#8]) = true :=
  ⟨by decide +kernel, by decide +kernel, ⟨scripted _, rfl, rfl, scripted_talks _⟩,
    ⟨scripted _, rfl, rfl, scripted_talks _⟩⟩

theorem witness_MifareSetValueWritesTheValueBlock :
    ackRun.acked 0x30#8 = true ∧ ∃ s : State, s.seq = .idle ∧ s.standard ∧ s.env.talks (ackRun.talk [0xA0#8, 0x05#8] ++
      ackRun.talk (valueBlock 0xFFFFFFFE#32 0x05#8)) = true :=
  ⟨by decide +kernel, scripted _, rfl, rfl, scripted_talks _⟩

theorem witness_CrcTimeoutEndsTheOperation :
    noCrc.length = 255 ∧ (∀ n ∈ noCrc, n.getLsbD 2 = false) ∧
    (∃ s : State, s.seq = .idle ∧ s.standard ∧
      s.env.talks (crcStart [0x50#8, 0x00#8] ++ noCrc.map (.get Config.regDivIrq)) = true) ∧
    (∃ s : State, s.seq = .idle ∧ s.standard ∧
      s.env.talks (crcStart (List.replicate 62 0#8) ++ noCrc.map (.get Config.regDivIrq)) = true) ∧
    (let w := Window.start none 0 1 (firstRecord none)
     roundsGoOn 0x30#8 levelV30.rounds w = true ∧ 32 ≤ (levelV30.window w).known ∧
     levelV30.selects 0x30#8 w = true ∧ levelV30.answer.vals.length = 3 ∧
     levelV30.answer.control.extractLsb' 0 3 = 0#3 ∧
     (∃ s : State, s.seq = .idle ∧ s.standard ∧ s.env.talks (prepareTalk s.params 0#8 ++
       levelsTalk none 0 [] 1 (firstRecord none) ++ roundsTalk 1 levelV30.rounds w ++
         (crcStart ((levelV30.window w).select 1) ++ noCrc.map (.get Config.regDivIrq))) = true) ∧
     ∃ s : State, s.seq = .idle ∧ s.standard ∧ s.env.talks (prepareTalk s.params 0#8 ++
       levelsTalk none 0 [] 1 (firstRecord none) ++ levelV30.selectTalk 1 w ++
         (crcStart [levelV30.sak] ++ noCrc.map (.get Config.regDivIrq))) = true) :=
  ⟨by decide +kernel, by decide +kernel, ⟨scripted _, rfl, rfl, scripted_talks _⟩,
    ⟨scripted _, rfl, rfl, scripted_talks _⟩, by decide +kernel, by decide +kernel, by decide +kernel,
    by decide +kernel, by decide +kernel,
    ⟨scripted (roundsTalk 1 levelV30.rounds (Window.start none 0 1 (firstRecord none)) ++
      (crcStart ((levelV30.window (Window.start none 0 1 (firstRecord none))).select 1) ++
        noCrc.map (.get Config.regDivIrq))), rfl, rfl, answers_talk _ _ rfl rfl⟩,
    ⟨scripted (levelV30.selectTalk 1 (Window.start none 0 1 (firstRecord none)) ++
      (crcStart [levelV30.sak] ++ noCrc.map (.get Config.regDivIrq))), rfl, rfl,
      answers_talk _ _ rfl rfl⟩⟩

theorem witness_ShortAndHaltFramesGiveTheExchange :
    (answerRun 0x07#8 [0x04#8, 0x00#8] 0#8).ok 0x30#8 = true ∧ (crcRun 0x57#8 0xCD#8).ok = true ∧
    silentRun.ok 0x30#8 = true ∧ (commRun 0#8 0x08#8).ok 0x30#8 = true ∧
    (∃ s : State, s.seq = .idle ∧ s.standard ∧
      s.env.talks ((answerRun 0x07#8 [0x04#8, 0x00#8] 0#8).talk [0x26#8] 7 0) = true) ∧
    (∃ s : State, s.seq = .idle ∧ s.standard ∧ s.env.talks ((crcRun 0x57#8 0xCD#8).talk [0x50#8, 0x00#8] ++
      silentRun.talk (transceiveArgs [0x50#8, 0x00#8, 0x57#8, 0xCD#8] false 0 0 false 0#8)) = true) ∧
    ∃ s : State, s.seq = .idle ∧ s.standard ∧ s.env.talks ((crcRun 0x57#8 0xCD#8).talk [0x50#8, 0x00#8] ++
      (commRun 0#8 0x08#8).talk (transceiveArgs [0x50#8, 0x00#8, 0x57#8, 0xCD#8] false 0 0 false 0#8)) =
        true :=
  ⟨by decide +kernel, by decide +kernel, by decide +kernel, by decide +kernel,
    ⟨scripted _, rfl, rfl, scripted_talks _⟩, ⟨scripted _, rfl, rfl, scripted_talks _⟩,
    ⟨scripted _, rfl, rfl, scripted_talks _⟩⟩

theorem witness_ReadAndWriteFramesAreSent :
    readRun.ok 0x30#8 = true ∧ ackRun.acked 0x30#8 = true ∧
    (∃ s : State, s.seq = .idle ∧ s.standard ∧ s.env.talks (readRun.talk 0x04#8) = true) ∧
    ∃ s : State, s.seq = .idle ∧ s.standard ∧ s.env.talks (ackRun.talk [0xA0#8, 0x04#8] ++
      ackRun.talk (List.replicate 16 0xA5#8)) = true :=
  ⟨by decide +kernel, by decide +kernel, ⟨scripted _, rfl, rfl, scripted_talks _⟩,
    ⟨scripted _, rfl, rfl, scripted_talks _⟩⟩

theorem witness_SelectCodesOpenTheirFrames :
    (answerRun 0x77#8 [0x80#8, 0x88#8] 0#8).ok 0x30#8 = true ∧
    (∃ s : State, s.seq = .idle ∧ s.standard ∧ s.env.talks ((answerRun 0x77#8 [0x80#8, 0x88#8] 0#8).talk
      ((Window.mk 31 [0x12#8, 0x34#8, 0x56#8, 0x78#8]).frame 3) (31 % 8) (31 % 8)) = true) ∧
    (∃ s : State, s.seq = .idle ∧ s.standard ∧ s.env.talks ((answerRun 0x00#8 [0x80#8, 0x88#8] 0#8).talk
      ((Window.mk 0 [0#8, 0#8, 0#8, 0#8]).frame 1) (0 % 8) (0 % 8)) = true) ∧
    nakRun.ok 0x30#8 = true ∧ (∃ s : State, s.seq = .idle ∧ s.standard ∧
      s.env.talks (nakRun.talk ((Window.mk 255 [0x12#8, 0x34#8, 0x56#8, 0x78#8]).select 1)) = true) ∧
    ∃ s : State, s.seq = .idle ∧ s.standard ∧
      s.env.talks (nakRun.talk ((Window.mk 32 [0x12#8, 0x34#8, 0x56#8, 0x78#8]).select 2)) = true :=
  ⟨by decide +kernel, ⟨scripted _, rfl, rfl, scripted_talks _⟩, ⟨scripted _, rfl, rfl, scripted_talks _⟩,
    by decide +kernel, ⟨scripted _, rfl, rfl, scripted_talks _⟩, scripted _, rfl, rfl, scripted_talks _⟩

theorem witness_EveryInstructionCompletes :
    State.reset.ready = true ∧ domainError 64 64 .wupa = none ∧ State.reset.env.chip.fifoSize = 64 ∧
    State.reset.params.respCap = 64 ∧ domainError 64 64 (.transceive (List.replicate 64 0#8) true 7 7 true 0#8) = none := ⟨rfl, rfl, rfl, rfl, rfl⟩

theorem witness_StatusesOfEachOperation :
    (∃ s t, exec .wupa s = .next t) ∧ (∃ s t, exec (.calcCrc []) s = .next t) ∧
    (∃ s t, exec .stopCrypto1 s = .next t) ∧ (∃ s t, exec (.mfRead 0#8) s = .next t) ∧
    (∃ s t, exec (.auth 0#8 0#8 key6 uid4) s = .next t) ∧
    (∃ s t, exec (.mfWrite 0#8 []) s = .next t) ∧ ∃ s t, exec (.mfTransfer 0x05#8) s = .next t :=
  ⟨⟨scripted (vSilence [0x52#8] 0x07#8), ran (by decide +kernel)⟩,
    ⟨scripted (vCrc [] 0x63#8 0x63#8), ran (by decide +kernel)⟩,
    ⟨State.reset, ran (by decide +kernel)⟩,
    ⟨scripted (readRun.talk 0#8), ran (by decide +kernel)⟩,
    ⟨withChip { tuned with rf := [.authenticated] }, ran (by decide +kernel)⟩,
    ⟨State.reset, ran (by decide +kernel)⟩,
    ⟨scripted (ackRun.talk [0xB0#8, 0x05#8]), ran (by decide +kernel)⟩⟩

theorem witness_TransportFaultStopsTheBlock :
    ∃ s t, exec .wupa s = .fault (.transportFault t) :=
  ⟨{ State.reset with env := { State.reset.env with handleOpen := false } }, _, rfl⟩

theorem witness_FailedExchangeIsAFault :
    ∃ s : State, s.seq = .idle ∧ s.env.handleOpen = true ∧
      s.env.respond [addrWrite 0x01#6, 0x00#8] = none ∧
      s.env.respond [addrRead 0x01#6, 0x00#8] = none ∧
      s.env.respond (List.replicate 64 (addrRead 0x09#6) ++ [0x00#8]) = none :=
  ⟨{ State.reset with env := { State.reset.env with script := [.fault true] } }, rfl, rfl, rfl, rfl, rfl⟩

theorem witness_StepKeepsTheInvariant :
    ∃ s t : State, s.Inv ∧ s.pending ≠ [] ∧ step s = .next t := by
  have h := ran (o := step (State.reset.withFetchWord 8 0x21)) (by decide +kernel)
  obtain ⟨t, ht⟩ := h
  exact ⟨_, t, ⟨by decide +kernel, by decide +kernel, by decide +kernel, by decide +kernel, by decide,
    by decide, by decide +kernel⟩, by decide, ht⟩

/-- Another operation's run, for the statements about every next state. -/
theorem witness_OnlySelectWritesItsRegisters :
    (∃ s t, exec .wupa s = .next t) ∧ ∀ u k, Instr.wupa ≠ .select u k :=
  ⟨⟨scripted (vSilence [0x52#8] 0x07#8), ran (by decide +kernel)⟩, by simp⟩

theorem witness_InstructionsLeaveTheHost : ∃ s t, exec (.mfTransfer 0x05#8) s = .next t :=
  ⟨scripted (ackRun.talk [0xB0#8, 0x05#8]), ran (by decide +kernel)⟩

theorem witness_EveryExchangeIsAFrame : ∃ s t, exec (.xferRdb 0x09#6 64) s = .next t :=
  ⟨State.reset, ran (by decide +kernel)⟩

theorem witness_OperationsLeaveTheConfiguration :
    (∃ t, exec .hlta (withChip tuned) = .next t) ∧ (withChip tuned).standard ∧ (withChip tuned).env.chip.regs.wf Config.codes = true ∧
    Instr.hlta.layer = .op := ⟨ran (by decide +kernel), rfl, by decide +kernel, rfl⟩

theorem witness_RegisterReadsBackWhatWasWritten :
    (withChip tuned).env.script = [] ∧ tuned.regs.wf Config.codes = true ∧ tuned.undescribed = false ∧
    Config.regTReloadH ∉ [Config.regCommand, Config.regComIrq, Config.regDivIrq, Config.regFIFOData,
      Config.regFIFOLevel, Config.regBitFraming, Config.regError, Config.regStatus2,
      Config.regCRCResultL, Config.regCRCResultH, Config.regVersion] ∧ tuned.poweredDown = false ∧
    (withChip tuned).standard :=
  ⟨rfl, by decide +kernel, rfl, by decide, by decide +kernel, rfl⟩

theorem witness_FifoIsAQueue :
    Config.codes.addressesDistinct = true ∧ (otherCodes tuned).env.chip.codes.addressesDistinct = true ∧
    (otherCodes tuned).env.chip.poweredDown = false ∧ State.reset.params.respCap = 64 ∧
    (withChip { tuned with fifo := [1#8] }).env.script = [] ∧
    ({ tuned with fifo := [1#8] } : Chip).undescribed = false ∧
    ([1#8] : List Byte).length + (List.replicate 63 (2#8 : Byte)).length ≤ 64 ∧
    (withChip { tuned with fifo := [1#8] }).env.chip.fifo = 1#8 :: [] ∧
    ({ tuned with fifo := [1#8] } : Chip).poweredDown = false ∧ tuned.fifoSize = 64 :=
  ⟨by decide +kernel, by decide +kernel, by decide +kernel, rfl, rfl, rfl, by decide, rfl,
    by decide +kernel, rfl⟩

theorem witness_FlagRegistersClearAndSet :
    Config.codes.addressesDistinct = true ∧ (otherCodes tuned).env.chip.codes.addressesDistinct = true ∧
    (withChip tuned).seq = .idle ∧ (withChip tuned).env.handleOpen = true ∧
    (withChip tuned).env.script = [] ∧ tuned.regs.wf Config.codes = true ∧ tuned.poweredDown = false :=
  ⟨by decide +kernel, by decide +kernel, rfl, rfl, rfl, by decide +kernel, by decide +kernel⟩

/-- The registers whose behaviour is not that of a plain byte, and the antenna's. -/
abbrev notPlain : List RegName :=
  [.command, .comIrq, .divIrq, .fifoData, .fifoLevel, .bitFraming, .error, .status2, .crcResultL,
    .crcResultH, .version, .txControl]

theorem init_constants_plain : (Config.initConst.map (·.1)).Nodup ∧
    ∀ x ∈ Config.initConst, x.1 ∉ notPlain := by decide

theorem witness_InitProgramsTheChip :
    State.reset.seq = .idle ∧ State.reset.standard ∧ State.reset.env.script = [] ∧
    State.reset.env.chip.resetPinHigh = true ∧
    (State.reset.params.initConst.map (·.1)).Nodup ∧
    (∀ x ∈ State.reset.params.initConst, x.1 ∉ notPlain) ∧
    ∃ s : State, s.seq = .idle ∧ s.standard ∧ s.env.script = [] ∧ s.env.chip.resetPinHigh = false ∧
      s.host.resetPinConfigured = true :=
  ⟨rfl, rfl, rfl, rfl, init_constants_plain.1, init_constants_plain.2, { withChip { tuned with resetPinHigh := false } with
    host := { State.reset.host with resetPinConfigured := true } }, rfl, rfl, rfl, rfl, rfl⟩

theorem witness_SectorGeometry :
    (∃ d, sectorDefinition .mifare4K 39 = some d) ∧ (∃ d, sectorDefinition .mifareMini 0 = some d) ∧
    (∃ d, sectorDefinition .mifare4K 31 = some d) ∧ (∃ d, sectorDefinition .mifare4K 32 = some d) ∧
    sectorDefinition .mifare4K 40 = none := ⟨⟨_, rfl⟩, ⟨_, rfl⟩, ⟨_, rfl⟩, ⟨_, rfl⟩, rfl⟩

theorem witness_CardNumberAndType :
    uid4.bytes.length = 10 ∧ uid10.bytes.length = 10 ∧ uid4.sak = none ∧
    (∃ u : Uid, u.sak = some 0x88#8) ∧ (Config.sakTable.map (·.1)).Nodup ∧
    (0x88#8 &&& 0x7F#8, PiccType.mifare1K) ∈ Config.sakTable ∧
    ∀ row ∈ Config.sakTable, row.1 ≠ 0x28#8 &&& 0x7F#8 :=
  ⟨rfl, rfl, rfl, ⟨{ uid4 with sak := some 0x88#8 }, rfl⟩, by decide, by decide, by decide⟩

end Sys2Proof.Machine.Tests
end

section
namespace Sys2Proof.Machine

-- Every operation is made of the single steps of the block.

/-- The frames the framer and the transport layer send (R92 to R95). -/
inductive Frame : List Byte → Prop
  | wr (a : Reg) (v : Byte) : Frame (frameWr a v)
  | wrb (a : Reg) (vs : List Byte) : Frame (frameWrb a vs)
  | rd (a : Reg) : Frame (frameRd a)
  | rdb (a : Reg) {n : Nat} (h : n ≠ 0) : Frame (frameRdb a n)

/-- A step that answers at once and writes at most `SEQ`, `STATUS`, the response registers and the poll
counters. -/
def OwnStep {α : Type} (x : M α) : Prop :=
  ∀ s, ∃ a q st resp crc cmd,
    x s = .ok a { s with seq := q, status := st, resp := resp, crcPoll := crc, cmdPoll := cmd }

/-- Steps put together from single steps of the block, calls and exchanges of one frame each; `W` says
whether the registers of the anti-collision engine may be written (R25 to R27: by SELECT only). -/
inductive BlockSteps (W : Prop) : {α : Type} → M α → Prop
  | own {α : Type} {x : M α} (h : OwnStep x) : BlockSteps W x
  | select (h : W) (f : SelectRegs → SelectRegs) : BlockSteps W (modifySelect f)
  | refuse {α : Type} (r : Refusal) : BlockSteps W (refuse r : M α)
  | exchange {out : List Byte} (h : Frame out) : BlockSteps W (exchange out)
  | call {α : Type} {body : M α} (line : Nat) (op : OpName) (h : BlockSteps W body) :
      BlockSteps W (call line op body)
  | bind {α β : Type} {x : M α} {f : α → M β} (hx : BlockSteps W x)
      (hf : ∀ a, BlockSteps W (f a)) : BlockSteps W (x >>= f)

namespace BlockSteps
variable {W : Prop} {α : Type}

theorem pure (a : α) : BlockSteps W (Pure.pure a : M α) := .own fun _ => ⟨_, _, _, _, _, _, rfl⟩

theorem ite {c : Prop} [Decidable c] {x y : M α} (hx : BlockSteps W x) (hy : BlockSteps W y) :
    BlockSteps W (if c then x else y) := by
  split
  · exact hx
  · exact hy

/-- Steps of which only the answer is changed afterwards. -/
theorem map {β : Type} {x : M α} {f : α → β} (hx : BlockSteps W x) :
    BlockSteps W (x >>= fun a => Pure.pure (f a)) := hx.bind fun a => .pure (f a)

theorem go {n : Nat} {f : Unit → M α} (h : BlockSteps W (f ())) : BlockSteps W (goLine n >>= f) :=
  .bind (.own fun _ => ⟨_, _, _, _, _, _, rfl⟩) fun _ => h

theorem goes {ns : List Nat} {f : Unit → M α} (h : BlockSteps W (f ())) :
    BlockSteps W (goLines ns >>= f) :=
  .bind (.own fun _ => ⟨_, _, _, _, _, _, rfl⟩) fun _ => h

theorem become {op : OpName} {f : Unit → M α} (h : BlockSteps W (f ())) :
    BlockSteps W (Machine.become op >>= f) :=
  .bind (.own fun _ => ⟨_, _, _, _, _, _, rfl⟩) fun _ => h

theorem present {st : StatusCode} {f : Unit → M α} (h : BlockSteps W (f ())) :
    BlockSteps W (Machine.present st >>= f) :=
  .bind (.own fun _ => ⟨_, _, _, _, _, _, rfl⟩) fun _ => h

theorem resp {f : RespRegs → M α} (h : ∀ r, BlockSteps W (f r)) : BlockSteps W (readResp >>= f) :=
  .bind (.own fun _ => ⟨_, _, _, _, _, _, rfl⟩) h

theorem sel {f : SelectRegs → M α} (h : ∀ r, BlockSteps W (f r)) : BlockSteps W (readSelect >>= f) :=
  .bind (.own fun _ => ⟨_, _, _, _, _, _, rfl⟩) h

end BlockSteps

section
variable {W : Prop} {p : Params}

-- The framer and the status.

theorem framerWr_steps (a : Reg) (v : Byte) : BlockSteps W (framerWr a v) :=
  (BlockSteps.exchange (.wr a v)).map

theorem framerWrb_steps (a : Reg) (vs : List Byte) : BlockSteps W (framerWrb a vs) :=
  (BlockSteps.exchange (.wrb a vs)).map

theorem framerRd_steps (a : Reg) : BlockSteps W (framerRd a) :=
  .bind (.exchange (.rd a)) fun _ => .go (.pure _)

theorem framerRdb_steps (a : Reg) (count rxAlign : Nat) (mergeIn : Byte) :
    BlockSteps W (framerRdb a count rxAlign mergeIn) := by
  unfold framerRdb
  split
  · exact .pure _
  · exact .go (.bind (.exchange (.rdb a ‹_›)) fun _ => .goes (.pure _))

theorem callWr_steps {line : Nat} {a : Reg} {v : Byte} : BlockSteps W (callWr line a v) :=
  .call line .wr (framerWr_steps a v)

theorem callRd_steps {line : Nat} {a : Reg} : BlockSteps W (callRd line a) :=
  .call line .rd (framerRd_steps a)

theorem framerSetb_steps (a : Reg) (mask : Byte) : BlockSteps W (framerSetb a mask) :=
  .bind callRd_steps fun _ => callWr_steps

theorem framerClrb_steps (a : Reg) (mask : Byte) : BlockSteps W (framerClrb a mask) :=
  .bind callRd_steps fun _ => callWr_steps

theorem finish_steps {st : StatusCode} : BlockSteps W (finish st) := .present (.pure _)

theorem respond_steps {st : StatusCode} : BlockSteps W (respond st) :=
  .present (.resp fun _ => .pure _)

-- CALC_CRC.

theorem setCrcPoll_steps (n : Nat) : BlockSteps W (setCrcPoll n) :=
  .own fun _ => ⟨_, _, _, _, _, _, rfl⟩

theorem crcReturn_steps {st : StatusCode} {c : List Byte} : BlockSteps W (crcReturn st c) :=
  .present (.pure _)

theorem pollCrc_steps : ∀ k, BlockSteps W (pollCrc p k)
  | 0 => .go crcReturn_steps
  | k + 1 =>
    .go <| .bind callRd_steps fun _ => .bind (setCrcPoll_steps _) fun _ => .go <| .ite
      (.bind callRd_steps fun _ => .bind callRd_steps fun _ => .go crcReturn_steps)
      (pollCrc_steps k)

theorem crcSetup_steps (data : List Byte) : BlockSteps W (crcSetup p data) :=
  .bind callWr_steps fun _ => .bind callWr_steps fun _ => .bind callWr_steps fun _ =>
    .bind (.call 4 .wrb (framerWrb_steps _ data)) fun _ => .bind callWr_steps fun _ =>
      .go (setCrcPoll_steps 0)

theorem calcCrc_steps (data : List Byte) : BlockSteps W (calcCrc p data) :=
  .bind (crcSetup_steps data) fun _ => pollCrc_steps _

-- COMMUNICATE and TRANSCEIVE.

theorem setCmdPoll_steps (n : Nat) : BlockSteps W (setCmdPoll n) :=
  .own fun _ => ⟨_, _, _, _, _, _, rfl⟩

theorem clearResponse_steps : BlockSteps W clearResponse :=
  .own fun _ => ⟨_, _, _, _, _, _, rfl⟩

theorem storeResponse_steps (vals : List Byte) : BlockSteps W (storeResponse vals) :=
  .own fun _ => ⟨_, _, _, _, _, _, rfl⟩

theorem setValidBits_steps (v : BitCount) : BlockSteps W (setValidBits v) :=
  .own fun _ => ⟨_, _, _, _, _, _, rfl⟩

theorem commSetup_steps (a : CommArgs) : BlockSteps W (commSetup p a) :=
  .go <| .bind clearResponse_steps fun _ => .bind callWr_steps fun _ => .bind callWr_steps fun _ =>
    .bind callWr_steps fun _ => .bind (.call 5 .wrb (framerWrb_steps _ _)) fun _ =>
      .bind callWr_steps fun _ => .bind callWr_steps fun _ => .go <|
        .ite (.call 9 .setb (framerSetb_steps _ _)) (.pure ())

theorem pollIrq_steps (waitIrq : Byte) : ∀ k, BlockSteps W (pollIrq p waitIrq k)
  | 0 => .go (.pure _)
  | k + 1 =>
    .go <| .bind callRd_steps fun _ => .bind (setCmdPoll_steps _) fun _ => .go <|
      .ite (.go (.pure _)) (.go (.ite (.pure _) (pollIrq_steps waitIrq k)))

theorem drain_steps (a : CommArgs) : BlockSteps W (drain p a) :=
  .bind callRd_steps fun _ => .go <| .ite (.pure _) <|
    .bind (.call 21 .rdb (framerRdb_steps _ _ _ _)) fun vals => .bind (storeResponse_steps vals) fun _ =>
      .bind callRd_steps fun _ => .bind (setValidBits_steps _) fun _ => .pure _

theorem checkResponse_steps : BlockSteps W (checkResponse p) :=
  .go <| .resp fun _ => .ite respond_steps <| .go <| .ite respond_steps <|
    .bind (.call 27 .calcCrc (calcCrc_steps _)) fun _ => .go <| .ite respond_steps <| .go <|
      .ite (.go respond_steps) (.go respond_steps)

theorem classify_steps (a : CommArgs) (e : Byte) : BlockSteps W (classify p a e) :=
  .go <| .ite respond_steps <| .go <| .ite checkResponse_steps (.go respond_steps)

theorem afterCompletion_steps (a : CommArgs) : BlockSteps W (afterCompletion p a) :=
  .bind callRd_steps fun e => .go <| .ite respond_steps <| .go <| .ite
    (.bind (drain_steps a) fun _ => .ite (classify_steps a e) respond_steps)
    (classify_steps a e)

theorem communicate_steps (a : CommArgs) : BlockSteps W (communicate p a) :=
  .bind (commSetup_steps a) fun _ => .go <| .bind (setCmdPoll_steps 0) fun _ =>
    .bind (pollIrq_steps _ _) fun _ => .ite (afterCompletion_steps a) respond_steps

theorem transceive_steps {data : List Byte} {want check : Bool} {tx rx : Nat} {merge : Byte} :
    BlockSteps W (transceive p data want tx rx check merge) :=
  .call 1 .communicate (communicate_steps _)

theorem transceiveInPlace_steps {data : List Byte} {want check : Bool} {tx rx : Nat} {merge : Byte} :
    BlockSteps W (transceiveInPlace p data want tx rx check merge) :=
  .become (communicate_steps _)

-- REQA, WUPA and HLTA.

theorem prepareColl_steps (line : Nat) : BlockSteps W (prepareColl p line) :=
  .go (.ite (.call line .clrb (framerClrb_steps _ _)) (.pure ()))

theorem request_steps (piccByte : Byte) : BlockSteps W (request p piccByte) :=
  .bind (prepareColl_steps 1) fun _ => .bind (.call 2 .transceive transceive_steps) fun _ => .go <|
    .ite (.present (.pure _)) <| .go <| .ite (.present (.pure _)) (.go (.present (.pure _)))

theorem judgeHalt_steps (st : StatusCode) : BlockSteps W (judgeHalt st) :=
  .go <| .ite finish_steps <| .go <| .ite finish_steps (.go finish_steps)

theorem halt_steps : BlockSteps W (halt p) :=
  .bind (.call 1 .calcCrc (calcCrc_steps _)) fun _ => .ite finish_steps <|
    .bind (.call 2 .transceive transceive_steps) fun _ => judgeHalt_steps _

-- The MIFARE sequencer.

theorem authenticate_steps (frame : List Byte) : BlockSteps W (authenticate p frame) :=
  .call 2 .communicate (communicate_steps _)

theorem judgeAck_steps (acceptTimeout : Bool) (r : Response) :
    BlockSteps W (judgeAck acceptTimeout r) :=
  .go <| .ite finish_steps <| .go <| .ite finish_steps <| .go <| .ite finish_steps <| .go <|
    .ite finish_steps (.go finish_steps)

theorem mfTransceive_steps (payload : List Byte) (acceptTimeout : Bool) :
    BlockSteps W (mfTransceive p payload acceptTimeout) :=
  .bind (.call 1 .calcCrc (calcCrc_steps payload)) fun _ => .ite finish_steps <|
    .bind (.call 2 .transceive transceiveInPlace_steps) fun r => judgeAck_steps acceptTimeout r

theorem readCommand_steps (block : Byte) : BlockSteps W (readCommand p block) :=
  .bind (.call 1 .calcCrc (calcCrc_steps _)) fun _ => .ite (.present (.pure _)) <|
    .map (.call 2 .transceive transceiveInPlace_steps)

theorem mfRead_steps (block : Byte) : BlockSteps W (mfRead p block) :=
  .bind (readCommand_steps block) fun _ => .ite (.pure _) <| .go <| .ite (.present (.pure _)) <|
    .go <| .ite (.present (.pure _)) (.go (.present (.pure _)))

theorem twoFrames_steps (first second : List Byte) (acceptTimeout : Bool) :
    BlockSteps W (twoFrames p first second acceptTimeout) :=
  .bind (.call 1 .mfTransceive (mfTransceive_steps first false)) fun _ =>
    .ite finish_steps (.call 2 .mfTransceive (mfTransceive_steps second acceptTimeout))

theorem twoStep_steps (cmd block : Byte) (delta : Word32) :
    BlockSteps W (twoStep p cmd block delta) :=
  .bind (.call 1 .mfTransceive (mfTransceive_steps _ _)) fun _ =>
    .ite finish_steps (.call 2 .mfTransceive (mfTransceive_steps _ _))

theorem mfWrite_steps (block : Byte) (data : List Byte) : BlockSteps W (mfWrite p block data) :=
  .ite finish_steps <| .bind (.call 2 .mfTransceive (mfTransceive_steps _ _)) fun _ =>
    .ite finish_steps (.call 3 .mfTransceive (mfTransceive_steps _ _))

theorem ulWrite_steps (page : Byte) (data : List Byte) : BlockSteps W (ulWrite p page data) :=
  .ite finish_steps (.call 2 .mfTransceive (mfTransceive_steps _ _))

-- Chip and card commands.

theorem issueCommand_steps (c : CmdCode) : BlockSteps W (issueCommand p c) := .map callWr_steps

theorem standardFrame_steps (payload : List Byte) (want check : Bool) :
    BlockSteps W (standardFrame p payload want check) :=
  .bind (.call 1 .calcCrc (calcCrc_steps payload)) fun _ => .ite (.present (.pure _))
    (.call 2 .transceive transceive_steps)

theorem selectCommand_steps (sel : Byte) (known : Nat) (window : List Byte) :
    BlockSteps W (selectCommand p sel known window) :=
  .ite (.call 1 .transceive transceive_steps) (standardFrame_steps _ _ _)

-- SELECT, which alone writes the registers of the anti-collision engine.

theorem resolveCollision_steps (hW : W) : BlockSteps W (resolveCollision p) :=
  .bind callRd_steps fun _ => .go <| .sel fun _ => .ite (.pure _) <| .goes <| .ite (.pure _) <|
    .goes <| .bind (.select hW _) fun _ => .go (.pure _)

theorem roundExchange_steps (hW : W) : BlockSteps W (roundExchange p) :=
  .sel fun _ => .bind (.call 33 .transceive transceive_steps) fun _ => .go <| .ite
    (.go <| .ite (.pure _) <| .go <| .bind (.select hW _) fun _ => .go <|
      .ite (resolveCollision_steps hW) <| .goes <| .ite
        (.bind (.select hW _) fun _ => .pure _) (.pure _))
    (.goes (.pure _))

theorem selectRound_steps (hW : W) : BlockSteps W (selectRound p) :=
  .go <| .sel fun _ => .ite
    (.goes <| .bind (.select hW _) fun _ => .sel fun _ =>
      .bind (.call 24 .calcCrc (calcCrc_steps _)) fun _ => .ite (.pure _) <| .goes <|
        .bind (.select hW _) fun _ => roundExchange_steps hW)
    (.goes <| .bind (.select hW _) fun _ => roundExchange_steps hW)

theorem selectRounds_steps (hW : W) : ∀ k, BlockSteps W (selectRounds p k)
  | 0 => .refuse _
  | k + 1 => .bind (selectRound_steps hW) fun
    | .again => selectRounds_steps hW k
    | .selected _ => .pure _
    | .stop _ => .pure _

theorem confirmLevel_steps (hW : W) (r : Response) : BlockSteps W (confirmLevel p r) :=
  .go <| .ite (.pure _) <| .bind (.call 49 .calcCrc (calcCrc_steps _)) fun _ => .ite (.pure _) <|
    .go <| .ite
      (.sel fun _ => .goes <| .bind (.select hW _) fun _ => .go (.pure _))
      (.pure _)

theorem selectLevels_steps (hW : W) (seeded : Bool) (kvb : Nat) :
    ∀ n, BlockSteps W (selectLevels p seeded kvb n)
  | 0 => .goes <| .bind (.select hW _) fun _ => .pure _
  | n + 1 => .goes <| .bind (.select hW _) fun _ => .bind (selectRounds_steps hW _) fun
    | (_, none) => .pure _
    | (_, some r) => .bind (confirmLevel_steps hW r) fun _ => .ite (.pure _) <|
      .ite (selectLevels_steps hW seeded kvb n) <| .go <| .bind (.select hW _) fun _ => .go (.pure _)

theorem select_steps (hW : W) (u : Option Uid) (kvb : Byte) : BlockSteps W (select p u kvb) :=
  .goes <| .bind (.select hW _) fun _ => .go <| .ite (.present (.pure _)) <|
    .bind (prepareColl_steps 5) fun _ => .go <| .bind (selectLevels_steps hW _ _ 3) fun _ =>
      .present (.pure _)

/-- Every instruction on operands of its domain; of them SELECT alone needs `W`. -/
theorem Instr.body_steps {cap respCap : Nat} (i : Instr) (hd : domainError cap respCap i = none)
    (hW : ∀ u k, i = .select u k → W) : BlockSteps W (Instr.body p i) := by
  cases i with
  | wr a v => exact .map (framerWr_steps a v)
  | wrb a vs => exact .map (framerWrb_steps a vs)
  | rd a => exact .map (framerRd_steps a)
  | rdb a n rx m => exact .map (framerRdb_steps a n rx m)
  | setb a m => exact .map (framerSetb_steps a m)
  | clrb a m => exact .map (framerClrb_steps a m)
  | calcCrc d => exact .map (calcCrc_steps d)
  | communicate => exact .map (communicate_steps _)
  | transceive => exact .map transceive_steps
  | reqa => exact .map (request_steps _)
  | wupa => exact .map (request_steps _)
  | select u k => exact .bind (select_steps (hW u k rfl) u k) fun _ => .sel fun _ => .pure _
  | hlta => exact .map halt_steps
  | auth => exact .bind (authenticate_steps _) fun _ => .go (.map finish_steps)
  | stopCrypto1 => exact .map (.call 1 .clrb (framerClrb_steps _ _))
  | mfTransceive d accept => exact .map (mfTransceive_steps d accept)
  | mfRead b => exact .map (mfRead_steps b)
  | mfWrite b d => exact .map (mfWrite_steps b d)
  | ulWrite b d => exact .map (ulWrite_steps b d)
  | mfIncrement b x => exact .map (twoStep_steps _ b x)
  | mfDecrement b x => exact .map (twoStep_steps _ b x)
  | mfRestore b => exact .map (twoStep_steps _ b 0#32)
  | mfTransfer => exact .map (.call 1 .mfTransceive (mfTransceive_steps _ _))
  | mfGetValue b =>
    exact .bind (.call 1 .mfRead (mfRead_steps b)) fun _ =>
      .ite (.present (.pure _)) (.goes (.present (.pure _)))
  | mfSetValue b v => exact .goes (.become (.map (mfWrite_steps b _)))
  | xferWr a v => exact .map (.exchange (.wr a v))
  | xferWrb a vs => exact .map (.exchange (.wrb a vs))
  | xferRd a => exact .map (.exchange (.rd a))
  | xferRdb a n =>
    have hn : n ≠ 0 := by
      rintro rfl
      cases hd
    exact .map (.exchange (.rdb a hn))
  | cmdIdle => exact issueCommand_steps _
  | cmdMem => exact issueCommand_steps _
  | cmdCalcCRC => exact issueCommand_steps _
  | cmdTransceive => exact issueCommand_steps _
  | cmdMFAuthent => exact issueCommand_steps _
  | cmdSoftReset => exact issueCommand_steps _
  | cmdGenerateRandomID => exact issueCommand_steps _
  | cmdTransmit => exact issueCommand_steps _
  | cmdNoCmdChange => exact issueCommand_steps _
  | cmdReceive => exact issueCommand_steps _
  | piccReqa => exact .map (.call 1 .transceive transceive_steps)
  | piccWupa => exact .map (.call 1 .transceive transceive_steps)
  | piccSelCl1 n w => exact .map (selectCommand_steps _ n w)
  | piccSelCl2 n w => exact .map (selectCommand_steps _ n w)
  | piccSelCl3 n w => exact .map (selectCommand_steps _ n w)
  | piccHlta => exact .map (standardFrame_steps _ _ _)
  | piccAuthKeyA => exact .map (authenticate_steps _)
  | piccAuthKeyB => exact .map (authenticate_steps _)
  | piccMfRead => exact .map (standardFrame_steps _ _ _)
  | piccMfWrite _ d => exact .map (twoFrames_steps _ d _)
  | piccUlWrite => exact .map (.call 1 .mfTransceive (mfTransceive_steps _ _))
  | piccMfDecrement _ x => exact .map (twoFrames_steps _ (le32 x) _)
  | piccMfIncrement _ x => exact .map (twoFrames_steps _ (le32 x) _)
  | piccMfRestore => exact .map (twoFrames_steps _ _ _)
  | piccMfTransfer => exact .map (.call 1 .mfTransceive (mfTransceive_steps _ _))

end

-- What every single step keeps, all of them keep.

/-- A relation of the state before to the state after that the block's single steps keep. -/
structure StepRule (W : Prop) (R : State → State → Prop) : Prop where
  trans {s t u : State} : R s t → R t u → R s u
  own (s : State) (q : Seq) (st : StatusCode) (resp : RespRegs) (crc cmd : Nat) :
    R s { s with seq := q, status := st, resp := resp, crcPoll := crc, cmdPoll := cmd }
  select (h : W) (s : State) (r : SelectRegs) : R s { s with sel := r }
  exchange {s : State} {out inp : List Byte} (h : Frame out) (hi : s.env.respond out = some inp) :
    R s { s with env := s.env.after out }

/-- `t` is `u` stopped by a transport fault at an exchange of `out` (R356). -/
def FaultsAt (u : State) (out : List Byte) (t : State) : Prop :=
  u.env.respond out = none ∧ t = { u with env := u.env.after out, seq := .faulted }

/-- The steps keep `R` up to where they end: with an answer, or at an exchange that failed. -/
structure Keeps {α : Type} (R : State → State → Prop) (x : M α) : Prop where
  answers {s t : State} {a : α} : x s = .ok a t → R s t
  faults {s t : State} : x s = .error .transport t → ∃ u out, Frame out ∧ R s u ∧ FaultsAt u out t

theorem exchange_ok_inv {s t : State} {out inp : List Byte} (h : exchange out s = .ok inp t) :
    s.env.respond out = some inp ∧ t = { s with env := s.env.after out } := by
  unfold exchange at h
  split at h
  · cases h
    exact ⟨‹_›, rfl⟩
  · cases h

theorem exchange_error_inv {s t : State} {out : List Byte} {e : Stop}
    (h : exchange out s = .error e t) : FaultsAt s out t := by
  unfold exchange at h
  split at h
  · cases h
  · cases h
    exact ⟨‹_›, rfl⟩

theorem call_ok_inv {α : Type} {line : Nat} {op : OpName} {body : M α} {s t : State} {a : α}
    (h : call line op body s = .ok a t) : ∃ u,
      body { s with seq := (s.seq.atLine line).push op } = .ok a u ∧
        t = { u with seq := s.seq.atLine line } := by
  unfold call at h
  split at h
  · cases h
    exact ⟨_, ‹_›, rfl⟩
  · cases h

theorem call_error_inv {α : Type} {line : Nat} {op : OpName} {body : M α} {s t : State} {e : Stop}
    (h : call line op body s = .error e t) :
    body { s with seq := (s.seq.atLine line).push op } = .error e t := by
  unfold call at h
  split at h
  · cases h
  · cases h
    assumption

/-- A relation every single step keeps is kept by all steps of the block. -/
theorem BlockSteps.keeps {W : Prop} {R : State → State → Prop} (hR : StepRule W R) {α : Type}
    {x : M α} (hx : BlockSteps W x) : Keeps R x := by
  have moved (s : State) (q : Seq) : R s { s with seq := q } := hR.own s q _ _ _ _
  induction hx with
  | own h =>
    constructor
    · intro s t a hs
      obtain ⟨_, q, st, resp, crc, cmd, h⟩ := h s
      cases h.symm.trans hs
      exact hR.own s q st resp crc cmd
    · intro s t hs
      obtain ⟨_, _, _, _, _, _, h⟩ := h s
      cases h.symm.trans hs
  | select h f =>
    constructor
    · intro s t a hs
      cases hs
      exact hR.select h s _
    · intro s t hs
      cases hs
  | refuse r =>
    constructor
    · intro s t a hs
      cases hs
    · intro s t hs
      cases hs
  | exchange h =>
    constructor
    · intro s t inp hs
      obtain ⟨hi, rfl⟩ := exchange_ok_inv hs
      exact hR.exchange h hi
    · intro s t hs
      exact ⟨s, _, h, moved s s.seq, exchange_error_inv hs⟩
  | call line op h ih =>
    constructor
    · intro s t a hs
      obtain ⟨u, hu, rfl⟩ := call_ok_inv hs
      exact hR.trans (hR.trans (moved s _) (ih.answers hu)) (moved u _)
    · intro s t hs
      obtain ⟨u, out, hf, hu, ht⟩ := ih.faults (call_error_inv hs)
      exact ⟨u, out, hf, hR.trans (moved s _) hu, ht⟩
  | bind hx hf ihx ihf =>
    constructor
    · intro s t b hs
      obtain ⟨a, u, hu, ht⟩ := M.bind_ok_inv hs
      exact hR.trans (ihx.answers hu) ((ihf a).answers ht)
    · intro s t hs
      obtain hs | ⟨a, v, hv, ht⟩ := M.bind_error_inv hs
      · exact ihx.faults hs
      · obtain ⟨u, out, hfr, hu, ht⟩ := (ihf a).faults ht
        exact ⟨u, out, hfr, hR.trans (ihx.answers hv) hu, ht⟩

/-- An instruction keeps such a relation up to where it ends. -/
theorem Instr.body_keeps {W : Prop} {R : State → State → Prop} (hR : StepRule W R) (i : Instr)
    {s : State} (hd : domainError s.env.chip.fifoSize s.params.respCap i = none)
    (hW : ∀ u k, i = .select u k → W) : Keeps R (Instr.body s.config i) :=
  (Instr.body_steps i hd hW).keeps hR

-- A transport fault (O47).

/-- What the host holds is untouched, and the exchanges added to the trace were all answered. -/
structure AddsAnswers (s t : State) : Prop extends KeepsHost s t where
  trace : ∃ done : List Exchange, t.env.trace = s.env.trace ++ done ∧ ∀ x ∈ done, x.inp ≠ none

theorem AddsAnswers.trans {s t u : State} (h₁ : AddsAnswers s t) (h₂ : AddsAnswers t u) :
    AddsAnswers s u := by
  obtain ⟨d₁, ht₁, ha₁⟩ := h₁.trace
  obtain ⟨d₂, ht₂, ha₂⟩ := h₂.trace
  refine ⟨h₁.toKeepsHost.trans h₂.toKeepsHost, d₁ ++ d₂, ?_, List.forall_mem_append.2 ⟨ha₁, ha₂⟩⟩
  rw [ht₂, ht₁, List.append_assoc]

theorem addsAnswers_rule : StepRule True AddsAnswers where
  trans := AddsAnswers.trans
  own _ _ _ _ _ _ := ⟨⟨rfl, rfl, rfl, rfl, rfl⟩, [], (List.append_nil _).symm, by simp⟩
  select _ _ _ := ⟨⟨rfl, rfl, rfl, rfl, rfl⟩, [], (List.append_nil _).symm, by simp⟩
  exchange _ hi := ⟨⟨rfl, rfl, rfl, rfl, rfl⟩, _, Env.after_trace _ _, by simp [hi]⟩

/-- Settles O47: the body keeps what the host holds up to the exchange that failed, and the fault adds
that exchange alone to the trace. -/
theorem transportFaultStopsTheBlock : Obligations.TransportFaultStopsTheBlock := by
  intro i s t h
  obtain ⟨-, hd, hb⟩ := exec_fault_inv h
  obtain ⟨u, out, -, hu, hi, rfl⟩ :=
    (Instr.body_keeps addsAnswers_rule i hd fun _ _ _ => trivial).faults hb
  obtain ⟨done, ht, ha⟩ := hu.trace
  refine ⟨rfl, hu.result, hu.params, hu.pending, hu.host, done, out, ?_, ha⟩
  calc (u.env.after out).trace
      = u.env.trace ++ [{ out := out, inp := none }] := by rw [Env.after_trace, hi]
    _ = s.env.trace ++ done ++ [{ out := out, inp := none }] := by rw [ht]; rfl

end Sys2Proof.Machine
end

section
namespace Sys2Proof.Machine

-- The chip of the environment contract stays in range (R30, R66, R340).

theorem Chip.inRange_iff {c : Chip} : c.inRange = true ↔
    c.codes.distinct = true ∧ c.regs.wf c.codes = true ∧ c.fifo.length ≤ c.fifoSize ∧
      c.internalBuf.length = 25 := by
  simp only [Chip.inRange, Bool.and_eq_true, decide_eq_true_eq, beq_iff_eq, and_assoc]

theorem packBits_length (bits : List Bool) : (packBits bits).length = (bits.length + 7) / 8 := by
  simp [packBits]

namespace Chip
variable {c : Chip}

theorem inRange_ite {p : Prop} [Decidable p] {d : Chip} (hc : c.inRange = true)
    (hd : d.inRange = true) : (if p then c else d).inRange = true := by
  split
  · exact hc
  · exact hd

theorem inRange_put (h : c.inRange = true) (a : Reg) (v : Byte) : (c.put a v).inRange = true := by
  obtain ⟨hk, hm, hf, hb⟩ := inRange_iff.1 h
  exact inRange_iff.2 ⟨hk, Memory.wf_write hm (Nat.le_of_lt_succ a.isLt) v, hf, hb⟩

/-- The FIFO filled anew within its size. -/
theorem inRange_fifo (h : c.inRange = true) {bs : List Byte} (hb : bs.length ≤ c.fifoSize) :
    { c with fifo := bs }.inRange = true := by
  obtain ⟨hk, hm, -, hi⟩ := inRange_iff.1 h
  exact inRange_iff.2 ⟨hk, hm, hb, hi⟩

theorem inRange_raise (h : c.inRange = true) (a : Reg) (m : Byte) : (c.raise a m).inRange = true :=
  inRange_put h a _

theorem inRange_writeFlags (h : c.inRange = true) (a : Reg) (v : Byte) :
    (c.writeFlags a v).inRange = true :=
  inRange_ite (inRange_put h a _) (inRange_put h a _)

theorem inRange_silence (h : c.inRange = true) : c.silence.inRange = true :=
  inRange_ite (inRange_raise h _ _) h

theorem inRange_receive (h : c.inRange = true) (bits : List Bool) (pad : Byte)
    (coll : Option RfCollision) (fatal : Byte) : (c.receive bits pad coll fatal).inRange = true := by
  have held (all : List Bool) : (packBits (all.take (8 * c.fifoSize))).length ≤ c.fifoSize := by
    rw [packBits_length, List.length_take]
    omega
  cases coll with
  | none => exact inRange_raise (inRange_put (inRange_put (inRange_fifo h (held _)) _ _) _ _) _ _
  | some k =>
    exact inRange_raise (inRange_put (inRange_put (inRange_put (inRange_fifo h (held _)) _ _) _ _) _ _) _ _

theorem inRange_takeAnswer (h : c.inRange = true) : c.takeAnswer.2.inRange = true := by
  unfold takeAnswer
  split
  · split
    · exact h
    · exact h
  · exact h

theorem inRange_await (h : c.inRange = true) : c.await.inRange = true := by
  have ht := inRange_takeAnswer h
  unfold await
  split <;> rename_i ha <;> rw [ha] at ht
  · exact inRange_receive ht _ _ _ _
  · exact inRange_silence ht
  · exact inRange_silence ht

theorem inRange_transmit (h : c.inRange = true) : c.transmit.inRange = true :=
  inRange_await (inRange_put (inRange_fifo h (Nat.zero_le _)) _ _)

theorem inRange_authenticate (h : c.inRange = true) : c.authenticate.inRange = true := by
  have ht := inRange_takeAnswer (inRange_put (inRange_fifo h (Nat.zero_le _) (bs := [])) c.codes.regError 0#8)
  unfold authenticate
  simp only
  split <;> rename_i ha <;> rw [ha] at ht
  · exact inRange_raise (inRange_raise ht _ _) _ _
  · exact inRange_silence ht
  · exact inRange_silence ht

theorem inRange_calcCrc (h : c.inRange = true) : c.calcCrc.inRange = true := by
  unfold calcCrc
  split
  · exact inRange_fifo h (by simp)
  · exact inRange_raise (inRange_put (inRange_put (inRange_fifo h (Nat.zero_le _)) _ _) _ _) _ _

theorem inRange_mem (h : c.inRange = true) : c.mem.inRange = true := by
  obtain ⟨hk, hm, hf, hb⟩ := inRange_iff.1 h
  refine inRange_iff.2 ⟨hk, hm, ?_, ?_⟩
  · simp only [mem, List.length_drop]
    omega
  · simp only [mem, List.length_append, List.length_take, List.length_drop, hb, Config.internalSize]
    omega

theorem inRange_softReset (h : c.inRange = true) : c.softReset.inRange = true := by
  obtain ⟨hk, -, -, -⟩ := inRange_iff.1 h
  exact inRange_iff.2 ⟨hk, rfl, Nat.zero_le _, rfl⟩

theorem inRange_endCommand (h : c.inRange = true) : c.endCommand.inRange = true :=
  inRange_ite (inRange_raise h _ _) h

theorem inRange_writeCommand (h : c.inRange = true) (v : Byte) :
    (c.writeCommand v).inRange = true :=
  have hp : { c.endCommand.put c.codes.regCommand v with active := some (v.setWidth 4) }.inRange = true :=
    inRange_put (inRange_endCommand h) _ v
  inRange_ite hp <| inRange_ite hp <| inRange_ite (inRange_mem hp) <|
    inRange_ite (inRange_calcCrc hp) <| inRange_ite (inRange_authenticate hp) <|
    inRange_ite (inRange_softReset hp) hp

theorem inRange_push (h : c.inRange = true) (v : Byte) : (c.push v).inRange = true := by
  unfold push
  split
  · exact inRange_fifo h (by simpa using ‹_›)
  · exact inRange_raise h _ _

theorem inRange_writeBitFraming (h : c.inRange = true) (v : Byte) :
    (c.writeBitFraming v).inRange = true :=
  have hp := inRange_put h c.codes.regBitFraming v
  inRange_ite (inRange_transmit hp) hp

theorem inRange_writeAsleep (h : c.inRange = true) (a : Reg) (v : Byte) :
    (c.writeAsleep a v).inRange = true :=
  inRange_ite (inRange_softReset h) h

theorem inRange_write (h : c.inRange = true) (a : Reg) (v : Byte) : (c.write a v).inRange = true :=
  inRange_ite (inRange_writeAsleep h a v) <| inRange_ite (inRange_writeCommand h v) <|
    inRange_ite (inRange_writeFlags h a v) <| inRange_ite (inRange_writeFlags h a v) <|
    inRange_ite (inRange_push h v) <|
    inRange_ite (inRange_ite (inRange_fifo h (Nat.zero_le _)) h) <|
    inRange_ite (inRange_writeBitFraming h v) <| inRange_ite (inRange_put h _ _) <|
    inRange_ite h <| inRange_ite h <| inRange_ite h <| inRange_ite h (inRange_put h a v)

theorem inRange_readReg (h : c.inRange = true) (a : Reg) (free : Byte) :
    (c.readReg a free).2.inRange = true := by
  obtain ⟨-, -, hf, -⟩ := inRange_iff.1 h
  unfold readReg
  split_ifs
  · exact h
  · split
    · exact h
    · rename_i hq
      rw [hq] at hf
      exact inRange_fifo h (Nat.le_of_succ_le hf)
  · exact h
  · exact h

theorem inRange_readAll (free : Nat → Byte) (bs : List Byte) (k : Nat) (h : c.inRange = true) :
    (readAll free bs k c).2.inRange = true := by
  induction bs generalizing k c with
  | nil => exact h
  | cons b bs ih => exact ih (k + 1) (inRange_readReg h _ _)

theorem inRange_writes (a : Reg) (vs : List Byte) (h : c.inRange = true) :
    (vs.foldl (fun c v => c.write a v) c).inRange = true := by
  induction vs generalizing c with
  | nil => exact h
  | cons v vs ih => exact ih (inRange_write h a v)

theorem inRange_exchange (h : c.inRange = true) (free : Nat → Byte) (out : List Byte) :
    (c.exchange free out).2.inRange = true := by
  cases out with
  | nil => exact h
  | cons b bs =>
    simp only [exchange]
    split
    · exact inRange_readAll free _ 1 h
    · exact inRange_writes _ bs h

theorem readAll_length (free : Nat → Byte) (bs : List Byte) (k : Nat) :
    (readAll free bs k c).1.length = bs.length := by
  induction bs generalizing k c with
  | nil => rfl
  | cons b bs ih => exact congrArg (· + 1) (ih (k + 1))

/-- The contract answers as many bytes as it gets (R12). -/
theorem exchange_length (free : Nat → Byte) (out : List Byte) :
    (c.exchange free out).1.length = out.length := by
  cases out with
  | nil => rfl
  | cons b bs =>
    simp only [exchange]
    split
    · simp [readAll_length]
    · simp

end Chip

theorem Env.after_inRange {e : Env} (h : e.chip.inRange = true) (out : List Byte) :
    (e.after out).chip.inRange = true := by
  unfold Env.after
  simp only
  split
  · exact Chip.inRange_exchange h _ out
  · exact h

/-- ENV answers as many bytes as it gets, where it answers (R12, R13). -/
theorem Env.respond_length {e : Env} {out inp : List Byte} (h : e.respond out = some inp) :
    inp.length = out.length := by
  have hc : (e.contract out).1.length = out.length := Chip.exchange_length _ _
  unfold Env.respond at h
  split at h
  · split at h
    · cases h
      exact hc
    · cases h
      exact hc
    · cases h
      simp only [fit, List.length_append, List.length_take, List.length_map, List.length_range]
      omega
    · cases h
  · cases h

-- The block's registers stay in range, step by step (R24 to R28).

/-- The response registers and the poll counters stand in their ranges, and the registers of the
anti-collision engine are as `F` says. -/
structure State.Bounded (cap : Nat) (F : SelectRegs → Prop) (s : State) : Prop where
  resp : s.resp.inRange cap = true
  crcPoll : s.crcPoll ≤ 255
  cmdPoll : s.cmdPoll ≤ 125
  sel : F s.sel

/-- Steps that answer from registers in range leave them in range, and lead the anti-collision engine
from `F` to `G` of the answer. -/
def Leads {α : Type} (cap : Nat) (F : SelectRegs → Prop) (x : M α) (G : α → SelectRegs → Prop) : Prop :=
  ∀ s a t, s.Bounded cap F → x s = .ok a t → t.Bounded cap (G a)

/-- The same where the steps keep whatever holds of the anti-collision engine. -/
def Bounds {α : Type} (cap : Nat) (x : M α) : Prop := ∀ F, Leads cap F x fun _ => F

namespace Leads
variable {α β : Type} {cap : Nat} {F : SelectRegs → Prop}

theorem bind {x : M α} {f : α → M β} {G : α → SelectRegs → Prop} {H : β → SelectRegs → Prop}
    (hx : Leads cap F x G) (hf : ∀ a, Leads cap (G a) (f a) H) : Leads cap F (x >>= f) H := by
  intro s b t hs h
  obtain ⟨a, u, hu, ht⟩ := M.bind_ok_inv h
  exact hf a u b t (hx s a u hs hu) ht

/-- Steps that keep whatever holds come first. -/
theorem after {x : M α} {f : α → M β} {H : β → SelectRegs → Prop} (hx : Bounds cap x)
    (hf : ∀ a, Leads cap F (f a) H) : Leads cap F (x >>= f) H := (hx F).bind hf

theorem pure {a : α} {G : α → SelectRegs → Prop} (h : ∀ r, F r → G a r) :
    Leads cap F (Pure.pure a) G := by
  intro s b t hs ht
  cases ht
  exact { hs with sel := h _ hs.sel }

theorem ite {c : Prop} [Decidable c] {x y : M α} {G : α → SelectRegs → Prop}
    (hx : c → Leads cap F x G) (hy : ¬ c → Leads cap F y G) :
    Leads cap F (if c then x else y) G := by
  split
  · exact hx ‹_›
  · exact hy ‹_›

theorem modify {f : SelectRegs → SelectRegs} {G : SelectRegs → Prop} (h : ∀ r, F r → G (f r)) :
    Leads cap F (modifySelect f) fun _ => G := by
  intro s a t hs ht
  cases ht
  exact { hs with sel := h _ hs.sel }

/-- Once the registers of the anti-collision engine are read, they are what was read. -/
theorem read {f : SelectRegs → M α} {G : α → SelectRegs → Prop}
    (h : ∀ q, F q → Leads cap (· = q) (f q) G) : Leads cap F (readSelect >>= f) G := by
  intro s a t hs ht
  exact h s.sel hs.sel s a t { hs with sel := rfl } ht

end Leads

namespace Bounds
variable {α β : Type} {cap : Nat}

/-- Steps that answer at once and write at most `SEQ` and `STATUS`. -/
theorem own {x : M α} (h : ∀ s, ∃ a q st, x s = .ok a { s with seq := q, status := st }) :
    Bounds cap x := by
  intro F s b t hs ht
  obtain ⟨a, q, st, h⟩ := h s
  cases h.symm.trans ht
  exact { hs with }

theorem bind {x : M α} {f : α → M β} (hx : Bounds cap x) (hf : ∀ a, Bounds cap (f a)) :
    Bounds cap (x >>= f) := fun F => (hx F).bind fun a => hf a F

theorem pure {a : α} : Bounds cap (Pure.pure a : M α) := fun _ => .pure fun _ => id

theorem map {x : M α} {f : α → β} (hx : Bounds cap x) :
    Bounds cap (x >>= fun a => Pure.pure (f a)) := hx.bind fun _ => .pure

theorem ite {c : Prop} [Decidable c] {x y : M α} (hx : Bounds cap x) (hy : Bounds cap y) :
    Bounds cap (if c then x else y) := fun F => .ite (fun _ => hx F) (fun _ => hy F)

theorem call {line : Nat} {op : OpName} {body : M α} (h : Bounds cap body) :
    Bounds cap (call line op body) := by
  intro F s a t hs ht
  obtain ⟨u, hu, rfl⟩ := call_ok_inv ht
  have hb : u.Bounded cap F := h F { s with seq := (s.seq.atLine line).push op } a u { hs with } hu
  exact { hb with }

theorem exchange {out : List Byte} : Bounds cap (exchange out) := by
  intro F s inp t hs ht
  obtain ⟨-, rfl⟩ := exchange_ok_inv ht
  exact { hs with }

theorem present {st : StatusCode} : Bounds cap (present st) := own fun _ => ⟨_, _, _, rfl⟩

theorem go {n : Nat} {f : Unit → M α} (h : Bounds cap (f ())) : Bounds cap (goLine n >>= f) :=
  bind (own fun _ => ⟨_, _, _, rfl⟩) fun _ => h

theorem goes {ns : List Nat} {f : Unit → M α} (h : Bounds cap (f ())) :
    Bounds cap (goLines ns >>= f) := bind (own fun _ => ⟨_, _, _, rfl⟩) fun _ => h

theorem become {op : OpName} {f : Unit → M α} (h : Bounds cap (f ())) :
    Bounds cap (Machine.become op >>= f) := bind (own fun _ => ⟨_, _, _, rfl⟩) fun _ => h

theorem resp {f : RespRegs → M α} (h : ∀ r, Bounds cap (f r)) : Bounds cap (readResp >>= f) :=
  bind (own fun _ => ⟨_, _, _, rfl⟩) h

end Bounds

theorem Leads.go {α : Type} {cap n : Nat} {F : SelectRegs → Prop} {f : Unit → M α}
    {G : α → SelectRegs → Prop} (h : Leads cap F (f ()) G) : Leads cap F (goLine n >>= f) G :=
  .after (.own fun _ => ⟨_, _, _, rfl⟩) fun _ => h

theorem Leads.goes {α : Type} {cap : Nat} {ns : List Nat} {F : SelectRegs → Prop} {f : Unit → M α}
    {G : α → SelectRegs → Prop} (h : Leads cap F (f ()) G) : Leads cap F (goLines ns >>= f) G :=
  .after (.own fun _ => ⟨_, _, _, rfl⟩) fun _ => h

section
variable {p : Params}

-- The framer and the status.

theorem framerWr_bounds {cap : Nat} {a : Reg} {v : Byte} : Bounds cap (framerWr a v) :=
  .map .exchange

theorem framerWrb_bounds {cap : Nat} {a : Reg} {vs : List Byte} : Bounds cap (framerWrb a vs) :=
  .map .exchange

theorem framerRd_bounds {cap : Nat} {a : Reg} : Bounds cap (framerRd a) :=
  .bind .exchange fun _ => .go .pure

theorem framerRdb_bounds {cap : Nat} {a : Reg} {count rxAlign : Nat} {mergeIn : Byte} :
    Bounds cap (framerRdb a count rxAlign mergeIn) :=
  .ite .pure (.go (.bind .exchange fun _ => .goes .pure))

/-- RDB answers as many bytes as it is asked for (R133). -/
theorem framerRdb_length {a : Reg} {count rxAlign : Nat} {mergeIn : Byte} {s t : State}
    {vs : List Byte} (h : framerRdb a count rxAlign mergeIn s = .ok vs t) : vs.length = count := by
  unfold framerRdb at h
  split at h
  · cases h
    exact ‹count = 0›.symm
  · obtain ⟨_, _, -, h⟩ := M.bind_ok_inv h
    obtain ⟨inp, _, hi, h⟩ := M.bind_ok_inv h
    obtain ⟨_, _, -, h⟩ := M.bind_ok_inv h
    cases h
    obtain ⟨hi, -⟩ := exchange_ok_inv hi
    rw [mergeFirst_length, List.length_drop, Env.respond_length hi]
    simp [frameRdb]

theorem callWr_bounds {cap line : Nat} {a : Reg} {v : Byte} : Bounds cap (callWr line a v) :=
  .call framerWr_bounds

theorem callRd_bounds {cap line : Nat} {a : Reg} : Bounds cap (callRd line a) :=
  .call framerRd_bounds

theorem framerSetb_bounds {cap : Nat} {a : Reg} {m : Byte} : Bounds cap (framerSetb a m) :=
  .bind callRd_bounds fun _ => callWr_bounds

theorem framerClrb_bounds {cap : Nat} {a : Reg} {m : Byte} : Bounds cap (framerClrb a m) :=
  .bind callRd_bounds fun _ => callWr_bounds

theorem finish_bounds {cap : Nat} {st : StatusCode} : Bounds cap (finish st) :=
  .bind .present fun _ => .pure

theorem respond_bounds {cap : Nat} {st : StatusCode} : Bounds cap (respond st) :=
  .bind .present fun _ => .resp fun _ => .pure

-- CALC_CRC.

theorem setCrcPoll_bounds {cap n : Nat} (hn : n ≤ 255) : Bounds cap (setCrcPoll n) := by
  intro F s a t hs ht
  cases ht
  exact { hs with crcPoll := hn }

theorem pollCrc_bounds {cap : Nat} : ∀ k, Bounds cap (pollCrc p k)
  | 0 => .go (.bind .present fun _ => .pure)
  | k + 1 =>
    .go <| .bind callRd_bounds fun _ => .bind (setCrcPoll_bounds (Nat.sub_le 255 k)) fun _ => .go <|
      .ite (.bind callRd_bounds fun _ => .bind callRd_bounds fun _ => .go <|
        .bind .present fun _ => .pure) (pollCrc_bounds k)

theorem calcCrc_bounds {cap : Nat} {data : List Byte} : Bounds cap (calcCrc p data) :=
  have setup : Bounds cap (crcSetup p data) :=
    .bind callWr_bounds fun _ => .bind callWr_bounds fun _ => .bind callWr_bounds fun _ =>
      .bind (.call framerWrb_bounds) fun _ => .bind callWr_bounds fun _ =>
        .go (setCrcPoll_bounds (Nat.zero_le _))
  .bind setup fun _ => pollCrc_bounds _

-- COMMUNICATE and TRANSCEIVE.

theorem setCmdPoll_bounds {cap n : Nat} (hn : n ≤ 125) : Bounds cap (setCmdPoll n) := by
  intro F s a t hs ht
  cases ht
  exact { hs with cmdPoll := hn }

theorem RespRegs.inRange_iff {r : RespRegs} {cap : Nat} :
    r.inRange cap = true ↔ r.bytes.length = cap ∧ r.len ≤ cap := by
  simp [RespRegs.inRange]

theorem clearResponse_bounds {cap : Nat} : Bounds cap clearResponse := by
  intro F s a t hs ht
  cases ht
  obtain ⟨hb, -⟩ := RespRegs.inRange_iff.1 hs.resp
  exact { hs with resp := RespRegs.inRange_iff.2 ⟨hb, Nat.zero_le _⟩ }

theorem storeResponse_bounds {cap : Nat} {vals : List Byte} (hv : vals.length ≤ cap) :
    Bounds cap (storeResponse vals) := by
  intro F s a t hs ht
  cases ht
  obtain ⟨hb, -⟩ := RespRegs.inRange_iff.1 hs.resp
  refine { hs with resp := RespRegs.inRange_iff.2 ⟨?_, hv⟩ }
  rw [List.length_append, List.length_drop, hb]
  omega

theorem setValidBits_bounds {cap : Nat} {v : BitCount} : Bounds cap (setValidBits v) := by
  intro F s a t hs ht
  cases ht
  exact { hs with resp := hs.resp }

theorem commSetup_bounds {cap : Nat} {a : CommArgs} : Bounds cap (commSetup p a) :=
  .go <| .bind clearResponse_bounds fun _ => .bind callWr_bounds fun _ => .bind callWr_bounds fun _ =>
    .bind callWr_bounds fun _ => .bind (.call framerWrb_bounds) fun _ =>
      .bind callWr_bounds fun _ => .bind callWr_bounds fun _ => .go <|
        .ite (.call framerSetb_bounds) .pure

theorem pollIrq_bounds {cap : Nat} (waitIrq : Byte) : ∀ k, Bounds cap (pollIrq p waitIrq k)
  | 0 => .go .pure
  | k + 1 =>
    .go <| .bind callRd_bounds fun _ => .bind (setCmdPoll_bounds (Nat.sub_le 125 k)) fun _ => .go <|
      .ite (.go .pure) (.go (.ite .pure (pollIrq_bounds waitIrq k)))

/-- The bytes of line 21 are as many as the level says, which line 20 held against the capacity (R169). -/
theorem drain_bounds {a : CommArgs} : Bounds p.respCap (drain p a) := by
  refine .bind callRd_bounds fun m => .go ?_
  split
  · exact .pure
  · rename_i hm
    intro F
    refine .bind (G := fun vals r => F r ∧ vals.length = m.toNat) ?_ fun vals => ?_
    · intro s vals t hs ht
      have hb := (Bounds.call framerRdb_bounds) F s vals t hs ht
      obtain ⟨u, hu, -⟩ := call_ok_inv ht
      exact { hb with sel := ⟨hb.sel, framerRdb_length hu⟩ }
    · refine .bind (G := fun _ => F) ?_ fun _ =>
        (Bounds.bind callRd_bounds fun v => .bind setValidBits_bounds fun _ => .pure) F
      intro s _ t hs ht
      obtain ⟨hF, hv⟩ := hs.sel
      exact storeResponse_bounds (by omega) F s _ t { hs with sel := hF } ht

theorem checkResponse_bounds {cap : Nat} : Bounds cap (checkResponse p) :=
  .go <| .resp fun _ => .ite respond_bounds <| .go <| .ite respond_bounds <|
    .bind (.call calcCrc_bounds) fun _ => .go <| .ite respond_bounds <| .go <|
      .ite (.go respond_bounds) (.go respond_bounds)

theorem classify_bounds {cap : Nat} {a : CommArgs} {e : Byte} : Bounds cap (classify p a e) :=
  .go <| .ite respond_bounds <| .go <| .ite checkResponse_bounds (.go respond_bounds)

theorem afterCompletion_bounds {a : CommArgs} : Bounds p.respCap (afterCompletion p a) :=
  .bind callRd_bounds fun _ => .go <| .ite respond_bounds <| .go <| .ite
    (.bind drain_bounds fun _ => .ite classify_bounds respond_bounds) classify_bounds

theorem communicate_bounds {a : CommArgs} : Bounds p.respCap (communicate p a) :=
  .bind commSetup_bounds fun _ => .go <| .bind (setCmdPoll_bounds (Nat.zero_le _)) fun _ =>
    .bind (pollIrq_bounds _ _) fun _ => .ite afterCompletion_bounds respond_bounds

theorem transceive_bounds {data : List Byte} {want check : Bool} {tx rx : Nat} {merge : Byte} :
    Bounds p.respCap (transceive p data want tx rx check merge) := .call communicate_bounds

-- The operations above COMMUNICATE.

theorem prepareColl_bounds {cap line : Nat} : Bounds cap (prepareColl p line) :=
  .go (.ite (.call framerClrb_bounds) .pure)

theorem request_bounds {piccByte : Byte} : Bounds p.respCap (request p piccByte) :=
  .bind prepareColl_bounds fun _ => .bind (.call transceive_bounds) fun _ => .go <|
    .ite (.bind .present fun _ => .pure) <| .go <| .ite (.bind .present fun _ => .pure) <| .go <|
      .bind .present fun _ => .pure

theorem halt_bounds : Bounds p.respCap (halt p) :=
  .bind (.call calcCrc_bounds) fun _ => .ite finish_bounds <|
    .bind (.call transceive_bounds) fun _ => .go <| .ite finish_bounds <| .go <|
      .ite finish_bounds (.go finish_bounds)

theorem authenticate_bounds {frame : List Byte} : Bounds p.respCap (authenticate p frame) :=
  .call communicate_bounds

theorem mfTransceive_bounds {payload : List Byte} {accept : Bool} :
    Bounds p.respCap (mfTransceive p payload accept) :=
  .bind (.call calcCrc_bounds) fun _ => .ite finish_bounds <|
    .bind (.call (.become communicate_bounds)) fun _ => .go <| .ite finish_bounds <| .go <|
      .ite finish_bounds <| .go <| .ite finish_bounds <| .go <| .ite finish_bounds (.go finish_bounds)

theorem mfRead_bounds {block : Byte} : Bounds p.respCap (mfRead p block) :=
  have command : Bounds p.respCap (readCommand p block) :=
    .bind (.call calcCrc_bounds) fun _ => .ite (.bind .present fun _ => .pure) <|
      .map (.call (.become communicate_bounds))
  .bind command fun _ => .ite .pure <| .go <| .ite (.bind .present fun _ => .pure) <| .go <|
    .ite (.bind .present fun _ => .pure) (.go (.bind .present fun _ => .pure))

theorem twoFrames_bounds {first second : List Byte} {accept : Bool} :
    Bounds p.respCap (twoFrames p first second accept) :=
  .bind (.call mfTransceive_bounds) fun _ => .ite finish_bounds (.call mfTransceive_bounds)

theorem mfWrite_bounds {block : Byte} {data : List Byte} : Bounds p.respCap (mfWrite p block data) :=
  .ite finish_bounds <| .bind (.call mfTransceive_bounds) fun _ =>
    .ite finish_bounds (.call mfTransceive_bounds)

theorem standardFrame_bounds {payload : List Byte} {want check : Bool} :
    Bounds p.respCap (standardFrame p payload want check) :=
  .bind (.call calcCrc_bounds) fun _ => .ite (.bind .present fun _ => .pure) (.call transceive_bounds)

theorem selectCommand_bounds {sel : Byte} {known : Nat} {window : List Byte} :
    Bounds p.respCap (selectCommand p sel known window) :=
  .ite (.call transceive_bounds) standardFrame_bounds

theorem issueCommand_bounds {cap : Nat} {c : CmdCode} : Bounds cap (issueCommand p c) :=
  .map callWr_bounds

end

-- The registers of the anti-collision engine stay in range (R25 to R27).

/-- The ranges of `SelectRegs.inRange`, by name. -/
structure SelectRegs.Ranges (r : SelectRegs) : Prop where
  buf : r.buf.length = 9
  level : 1 ≤ r.level ∧ r.level ≤ 4
  known : r.known ≤ 88
  woff : 2 ≤ r.woff ∧ r.woff ≤ 6
  wlen : 3 ≤ r.wlen ∧ r.wlen ≤ 7
  txl : r.txl ≤ 7
  used : 2 ≤ r.used ∧ r.used ≤ 9
  uidx : r.uidx = 0 ∨ r.uidx = 3 ∨ r.uidx = 6
  uidAcc : r.uidAcc.length = 10
  uidSize : r.uidSize = 0 ∨ r.uidSize = 4 ∨ r.uidSize = 7 ∨ r.uidSize = 10

theorem SelectRegs.inRange_iff {r : SelectRegs} : r.inRange = true ↔ r.Ranges := by
  simp only [SelectRegs.inRange, Bool.and_eq_true, Bool.or_eq_true, beq_iff_eq, decide_eq_true_eq]
  constructor
  · rintro ⟨⟨⟨⟨⟨⟨⟨⟨⟨⟨⟨⟨⟨hb, hl⟩, hl'⟩, hk⟩, ho⟩, ho'⟩, hn⟩, hn'⟩, ht⟩, hu⟩, hu'⟩, hx⟩, ha⟩, hs⟩
    exact ⟨hb, ⟨hl, hl'⟩, hk, ⟨ho, ho'⟩, ⟨hn, hn'⟩, ht, ⟨hu, hu'⟩, by omega, ha, by omega⟩
  · rintro ⟨hb, ⟨hl, hl'⟩, hk, ⟨ho, ho'⟩, ⟨hn, hn'⟩, ht, ⟨hu, hu'⟩, hx, ha, hs⟩
    exact ⟨⟨⟨⟨⟨⟨⟨⟨⟨⟨⟨⟨⟨hb, hl⟩, hl'⟩, hk⟩, ho⟩, ho'⟩, hn⟩, hn'⟩, ht⟩, hu⟩, hu'⟩, by omega⟩, ha⟩,
      by omega⟩

/-- Within a level: `LEVEL` is one of the three that exist, so that the size of line 55 is one of R290's. -/
structure SelectRegs.AtLevel (r : SelectRegs) : Prop extends r.Ranges where
  level_le : r.level ≤ 3

/-- Within a round: the response window ends where `BUF` does (R207, R208). -/
structure SelectRegs.Framed (r : SelectRegs) : Prop extends r.AtLevel where
  window : r.woff + r.wlen = 9

section
variable {p : Params} {r : SelectRegs}

theorem SelectRegs.AtLevel.set_buf (h : r.AtLevel) {b : List Byte} (hb : b.length = 9) :
    { r with buf := b }.AtLevel := { h with buf := hb }

theorem SelectRegs.AtLevel.set_known (h : r.AtLevel) {n : Nat} (hn : n ≤ 32) :
    { r with known := n }.AtLevel := { h with known := hn.trans (by decide) }

theorem startRecord_ranges (h : r.Ranges) {u : Option Uid} {kvb : Byte} {cap : Nat}
    (hd : domainError cap p.respCap (.select u kvb) = none) : (startRecord u r).Ranges := by
  cases u with
  | none => exact { h with uidAcc := rfl, uidSize := .inl rfl }
  | some u =>
    simp only [domainError, needUid, firstReason, needLength] at hd
    split_ifs at hd with hl hs
    · exact { h with uidAcc := hl, uidSize := .inr hs }

theorem setupLevel_atLevel (h : r.Ranges) {k : Codes} {seeded : Bool} {kvb level : Nat}
    (hk : kvb ≤ 80) (hl : 1 ≤ level ∧ level ≤ 3) : (setupLevel k seeded kvb level r).AtLevel := by
  have hx : uidOffset level = 0 ∨ uidOffset level = 3 ∨ uidOffset level = 6 := by
    simp only [uidOffset]
    omega
  have hn : (if usesTag seeded r.uidSize level then kvb - 8 * uidOffset level + 8
      else kvb - 8 * uidOffset level) ≤ 88 := by
    split <;> omega
  refine { h with
    buf := ?_
    level := ⟨hl.1, hl.2.trans (by decide)⟩
    known := hn
    uidx := hx
    level_le := hl.2 }
  simp only [setupLevel]
  generalize usesTag seeded r.uidSize level = ct
  have htag : (if ct then [k.piccCT] else []).length ≤ 1 := by
    split <;> simp
  have hpre : preloadCount (kvb - 8 * uidOffset level) ct ≤ 4 :=
    (Nat.min_le_right _ _).trans (by split <;> decide)
  rw [overwrite_length]
  · rfl
  · rw [List.length_append, List.length_take, List.length_cons, List.length_replicate]
    omega

theorem setupSelect_atLevel (h : r.AtLevel) : (setupSelect r).AtLevel :=
  h.set_buf (by simp [h.buf])

theorem finishSelectFrame_framed (h : r.AtLevel) (c : List Byte) : (finishSelectFrame c r).Framed :=
  { h with
    buf := by simp [finishSelectFrame, h.buf]
    woff := (by decide : 2 ≤ 6 ∧ 6 ≤ 6)
    wlen := (by decide : 3 ≤ 3 ∧ 3 ≤ 7)
    txl := Nat.zero_le 7
    used := (by decide : 2 ≤ 9 ∧ 9 ≤ 9)
    window := rfl }

theorem setupAnticollision_framed (h : r.AtLevel) (hk : r.known < 32) :
    (setupAnticollision r).Framed :=
  { h with
    buf := by simp [setupAnticollision, h.buf]
    woff := by simp only [setupAnticollision]; omega
    wlen := by simp only [setupAnticollision]; omega
    txl := by simp only [setupAnticollision]; omega
    used := by simp only [setupAnticollision]; split <;> omega
    window := by simp only [setupAnticollision]; omega }

/-- The UID bytes of a level fit behind those of the levels before it (R217). -/
theorem SelectRegs.AtLevel.set_uidAcc (h : r.AtLevel) {vs : List Byte} (hv : vs.length ≤ 4) :
    { r with uidAcc := overwrite r.uidAcc r.uidx vs }.AtLevel := by
  have hx := h.uidx
  have hfits : r.uidx + vs.length ≤ r.uidAcc.length := by
    rw [h.uidAcc]
    omega
  exact { h with uidAcc := (overwrite_length _ _ _ hfits).trans h.uidAcc }

theorem copyLevelBytes_atLevel (h : r.AtLevel) (k : Codes) : (copyLevelBytes k r).AtLevel := by
  unfold copyLevelBytes
  split
  · exact h.set_uidAcc ((List.length_take_le 3 _).trans (by decide))
  · exact h.set_uidAcc (List.length_take_le 4 _)

theorem completeRecord_ranges (h : r.AtLevel) : (completeRecord r).Ranges := by
  have hl := h.level.1
  have hl' := h.level_le
  exact { h with uidSize := by simp only [completeRecord]; omega }

theorem collisionPosition_le (k : Codes) (cr : Byte) : collisionPosition k cr ≤ 32 := by
  simp only [collisionPosition]
  split <;> omega

-- The steps of SELECT.

theorem resolveCollision_leads :
    Leads p.respCap SelectRegs.AtLevel (resolveCollision p) fun _ => SelectRegs.AtLevel :=
  .after callRd_bounds fun cr => .go <| .read fun q hq => .ite (fun _ => .pure fun _ h => h ▸ hq) fun _ =>
    .goes <| .ite (fun _ => .pure fun _ h => h ▸ hq) fun _ => .goes <|
      .bind (.modify (G := SelectRegs.AtLevel) fun r h => by
        subst h
        exact (hq.set_known (collisionPosition_le p.codes cr)).set_buf (by simp [hq.buf]))
        fun _ => .go (.pure fun _ => id)

theorem roundExchange_leads :
    Leads p.respCap SelectRegs.Framed (roundExchange p) fun _ => SelectRegs.AtLevel := by
  refine .read fun q hq => .after (.call transceive_bounds) fun r => .go ?_
  have stop {e : RoundEnd} :
      Leads p.respCap (· = q) (pure e : M RoundEnd) fun _ => SelectRegs.AtLevel :=
    .pure fun _ h => h ▸ hq.toAtLevel
  refine .ite (fun _ => .go <| .ite (fun _ => stop) fun hw => .go ?_) fun _ => .goes stop
  have stored : Leads p.respCap (· = q)
      (modifySelect fun x => { x with buf := overwrite x.buf x.woff r.bytes })
      fun _ => SelectRegs.AtLevel := .modify fun x hx => by
    have hwin := hq.window
    subst hx
    exact hq.set_buf ((overwrite_length _ _ _ (by rw [hq.buf]; omega)).trans hq.buf)
  exact stored.bind fun _ => .go <| .ite (fun _ => resolveCollision_leads) fun _ => .goes <|
    .ite (fun _ => .bind (.modify fun _ h => h.set_known le_rfl) fun _ => .pure fun _ => id)
      fun _ => .pure fun _ => id

theorem selectRound_leads :
    Leads p.respCap SelectRegs.AtLevel (selectRound p) fun _ => SelectRegs.AtLevel := by
  refine .go <| .read fun q hq => .ite (fun _ => .goes ?_) fun hk => .goes ?_
  · refine .bind (.modify (G := SelectRegs.AtLevel) fun r h => setupSelect_atLevel (h ▸ hq)) fun _ =>
      .read fun q hq => .after (.call calcCrc_bounds) fun x =>
        .ite (fun _ => .pure fun _ h => h ▸ hq) fun _ => .goes <|
          .bind (.modify (G := SelectRegs.Framed) fun r h => finishSelectFrame_framed (h ▸ hq) x.2)
            fun _ => roundExchange_leads
  · exact .bind (.modify fun r h => setupAnticollision_framed (h ▸ hq) (by subst h; omega)) fun _ =>
      roundExchange_leads

theorem selectRounds_leads :
    ∀ k, Leads p.respCap SelectRegs.AtLevel (selectRounds p k) fun _ => SelectRegs.AtLevel
  | 0 => fun _ _ _ _ h => nomatch h
  | k + 1 => selectRound_leads.bind fun
    | .again => selectRounds_leads k
    | .selected _ => .pure fun _ => id
    | .stop _ => .pure fun _ => id

theorem confirmLevel_leads (a : Response) :
    Leads p.respCap SelectRegs.AtLevel (confirmLevel p a) fun _ => SelectRegs.AtLevel :=
  .go <| .ite (fun _ => .pure fun _ => id) fun _ => .after (.call calcCrc_bounds) fun _ =>
    .ite (fun _ => .pure fun _ => id) fun _ => .go <| .ite
      (fun _ => .read fun _ hq => .goes <|
        .bind (.modify fun _ h => copyLevelBytes_atLevel (h ▸ { hq with }) p.codes) fun _ =>
          .go (.pure fun _ => id))
      fun _ => .pure fun _ => id

theorem selectLevels_leads {seeded : Bool} {kvb : Nat} (hk : kvb ≤ 80) : ∀ n, n ≤ 3 →
    Leads p.respCap SelectRegs.Ranges (selectLevels p seeded kvb n) fun _ => SelectRegs.Ranges
  | 0, _ => .goes <| .bind
      (.modify (G := SelectRegs.Ranges) fun _ h => { h with level := (by decide : 1 ≤ 4 ∧ 4 ≤ 4) })
      fun _ => .pure fun _ => id
  | n + 1, hn => .goes <| .bind (.modify fun _ h => setupLevel_atLevel h hk (by omega)) fun _ =>
    (selectRounds_leads _).bind fun
    | (_, none) => .pure fun _ h => h.toRanges
    | (_, some r) => (confirmLevel_leads r).bind fun _ => .ite (fun _ => .pure fun _ h => h.toRanges)
        fun _ => .ite
          (fun _ _ _ _ hs ht =>
            selectLevels_leads hk n (by omega) _ _ _ { hs with sel := hs.sel.toRanges } ht)
          fun _ => .go <| .bind (.modify fun _ h => completeRecord_ranges h) fun _ =>
            .go (.pure fun _ => id)

theorem select_leads {u : Option Uid} {kvb : Byte} {cap : Nat}
    (hd : domainError cap p.respCap (.select u kvb) = none) :
    Leads p.respCap SelectRegs.Ranges (select p u kvb) fun _ => SelectRegs.Ranges :=
  .goes <| .bind (.modify fun _ h => startRecord_ranges h hd) fun _ => .go <| .ite
    (fun _ => .after .present fun _ => .pure fun _ => id)
    fun hk => .after prepareColl_bounds fun _ => .go <|
      (selectLevels_leads (Nat.not_lt.1 hk) 3 le_rfl).bind fun _ => .after .present fun _ =>
        .pure fun _ => id

/-- Every instruction on operands of its domain leaves the registers in range; SELECT alone writes those of
the anti-collision engine. -/
theorem Instr.body_leads {cap : Nat} (i : Instr) (hd : domainError cap p.respCap i = none) :
    Leads p.respCap SelectRegs.Ranges (Instr.body p i) fun _ => SelectRegs.Ranges := by
  have command {c : CmdCode} :
      Leads p.respCap SelectRegs.Ranges (issueCommand p c) fun _ => SelectRegs.Ranges :=
    issueCommand_bounds _
  cases i with
  | wr => exact (Bounds.map framerWr_bounds) _
  | wrb => exact (Bounds.map framerWrb_bounds) _
  | rd => exact (Bounds.map framerRd_bounds) _
  | rdb => exact (Bounds.map framerRdb_bounds) _
  | setb => exact (Bounds.map framerSetb_bounds) _
  | clrb => exact (Bounds.map framerClrb_bounds) _
  | calcCrc => exact (Bounds.map calcCrc_bounds) _
  | communicate => exact (Bounds.map communicate_bounds) _
  | transceive => exact (Bounds.map transceive_bounds) _
  | reqa => exact (Bounds.map request_bounds) _
  | wupa => exact (Bounds.map request_bounds) _
  | select => exact (select_leads hd).bind fun _ => .read fun _ hq => .pure fun _ h => h ▸ hq
  | hlta => exact (Bounds.map halt_bounds) _
  | auth => exact (Bounds.bind authenticate_bounds fun _ => .go (.map finish_bounds)) _
  | stopCrypto1 => exact (Bounds.map (.call framerClrb_bounds)) _
  | mfTransceive => exact (Bounds.map mfTransceive_bounds) _
  | mfRead => exact (Bounds.map mfRead_bounds) _
  | mfWrite => exact (Bounds.map mfWrite_bounds) _
  | ulWrite => exact (Bounds.map (.ite finish_bounds (.call mfTransceive_bounds))) _
  | mfIncrement => exact (Bounds.map twoFrames_bounds) _
  | mfDecrement => exact (Bounds.map twoFrames_bounds) _
  | mfRestore => exact (Bounds.map twoFrames_bounds) _
  | mfTransfer => exact (Bounds.map (.call mfTransceive_bounds)) _
  | mfGetValue =>
    exact (Bounds.bind (.call mfRead_bounds) fun _ =>
      .ite (.bind .present fun _ => .pure) (.goes (.bind .present fun _ => .pure))) _
  | mfSetValue => exact (Bounds.goes (.become (.map mfWrite_bounds))) _
  | xferWr => exact (Bounds.map .exchange) _
  | xferWrb => exact (Bounds.map .exchange) _
  | xferRd => exact (Bounds.map .exchange) _
  | xferRdb => exact (Bounds.map .exchange) _
  | cmdIdle => exact command
  | cmdMem => exact command
  | cmdGenerateRandomID => exact command
  | cmdCalcCRC => exact command
  | cmdTransmit => exact command
  | cmdNoCmdChange => exact command
  | cmdReceive => exact command
  | cmdTransceive => exact command
  | cmdMFAuthent => exact command
  | cmdSoftReset => exact command
  | piccReqa => exact (Bounds.map (.call transceive_bounds)) _
  | piccWupa => exact (Bounds.map (.call transceive_bounds)) _
  | piccSelCl1 => exact (Bounds.map selectCommand_bounds) _
  | piccSelCl2 => exact (Bounds.map selectCommand_bounds) _
  | piccSelCl3 => exact (Bounds.map selectCommand_bounds) _
  | piccHlta => exact (Bounds.map standardFrame_bounds) _
  | piccAuthKeyA => exact (Bounds.map authenticate_bounds) _
  | piccAuthKeyB => exact (Bounds.map authenticate_bounds) _
  | piccMfRead => exact (Bounds.map standardFrame_bounds) _
  | piccMfWrite => exact (Bounds.map twoFrames_bounds) _
  | piccUlWrite => exact (Bounds.map (.call mfTransceive_bounds)) _
  | piccMfDecrement => exact (Bounds.map twoFrames_bounds) _
  | piccMfIncrement => exact (Bounds.map twoFrames_bounds) _
  | piccMfRestore => exact (Bounds.map twoFrames_bounds) _
  | piccMfTransfer => exact (Bounds.map (.call mfTransceive_bounds)) _

end

-- The invariant (O49).

/-- The settings are the same, and a chip in range stays so. -/
structure KeepsChipInRange (s t : State) : Prop where
  params : t.params = s.params
  chip : s.env.chip.inRange = true → t.env.chip.inRange = true

theorem keepsChipInRange_rule : StepRule True KeepsChipInRange where
  trans h₁ h₂ := ⟨h₂.params.trans h₁.params, h₂.chip ∘ h₁.chip⟩
  own _ _ _ _ _ _ := ⟨rfl, id⟩
  select _ _ _ := ⟨rfl, id⟩
  exchange _ _ := ⟨rfl, fun h => Env.after_inRange h _⟩

theorem exec_keeps_inv {i : Instr} {s t : State} (hs : s.Inv) (h : exec i s = .next t) : t.Inv := by
  obtain ⟨-, hnum, hresp, hsel, hcrc, hcmd, hchip⟩ := hs
  obtain ⟨-, hd, r, u, hb, rfl⟩ := exec_next_inv h
  have hk : KeepsChipInRange (s.started i (Instr.opName i)) u :=
    (Instr.body_keeps keepsChipInRange_rule i hd fun _ _ _ => trivial).answers hb
  have hu : u.Bounded s.params.respCap SelectRegs.Ranges :=
    Instr.body_leads (p := s.config) i hd (s.started i (Instr.opName i)) r u
      ⟨hresp, hcrc, hcmd, SelectRegs.inRange_iff.1 hsel⟩ hb
  have hp : u.params = s.params := hk.params
  exact ⟨rfl, hp ▸ hnum, hp ▸ hu.resp, SelectRegs.inRange_iff.2 hu.sel, hu.crcPoll, hu.cmdPoll,
    hk.chip hchip⟩

/-- A step changes the state only by running an instruction (R21, R61). -/
theorem step_next_inv {s t : State} (h : step s = .next t) :
    t = s ∨ ∃ i rest, exec i { s with pending := rest } = .next t := by
  unfold step at h
  split at h
  · cases h
  · cases h
  · split at h
    · cases h
      exact .inl rfl
    · split at h
      · exact .inr ⟨_, _, h⟩
      · cases h

/-- Settles O49: the block's own steps keep the registers in range, an exchange the chip, and the list of
presented operations stands in no clause. -/
theorem stepKeepsTheInvariant : Obligations.StepKeepsTheInvariant := by
  intro s t hs h
  obtain rfl | ⟨i, rest, h⟩ := step_next_inv h
  · exact hs
  · exact exec_keeps_inv (s := { s with pending := rest }) hs h

/-- Steps without leave to write the registers of the anti-collision engine keep them. -/
theorem keepsSel_rule : StepRule False fun s t => t.sel = s.sel where
  trans h₁ h₂ := h₂.trans h₁
  own _ _ _ _ _ _ := rfl
  select h _ _ := h.elim
  exchange _ _ := rfl

/-- Settles O51: SELECT alone has steps that write the registers of the anti-collision engine. -/
theorem onlySelectWritesItsRegisters : Obligations.OnlySelectWritesItsRegisters := by
  intro i s t h hi
  obtain ⟨-, hd, r, u, hb, rfl⟩ := exec_next_inv h
  have hu : u.sel = (s.started i (Instr.opName i)).sel :=
    (Instr.body_keeps keepsSel_rule i hd hi).answers hb
  exact hu

-- Single accesses of the framer and chip commands, for every answer of ENV (R92 to R95, R100).

section
variable {s : State} {a : Reg}

theorem exec_wr {v : Byte} (hs : s.seq = .idle) (ht : s.env.talks [talkWr a v] = true) :
    exec (.wr a v) s = .next (s.endedPlain [talkWr a v] .none) :=
  exec_next hs rfl ((framerWr_runs a v _).last rfl) ht rfl

theorem exec_wrb {vs : List Byte} (hs : s.seq = .idle) (hv : vs.length ≤ s.env.chip.fifoSize)
    (ht : s.env.talks [talkWrb a vs] = true) :
    exec (.wrb a vs) s = .next (s.endedPlain [talkWrb a vs] .none) :=
  exec_next hs (if_pos hv) ((framerWrb_runs a vs _).last rfl) ht rfl

theorem exec_rd {v : Byte} (hs : s.seq = .idle) (ht : s.env.talks [.get a v] = true) :
    exec (.rd a) s = .next (s.endedPlain [.get a v] (.byte v)) :=
  exec_next hs rfl ((framerRd_runs a v _).last rfl) ht rfl

/-- RDB of whole bytes, none included. -/
theorem exec_rdb {vs : List Byte} (hs : s.seq = .idle) (hv : vs.length ≤ s.params.respCap)
    (ht : s.env.talks (burstTalk a vs) = true) :
    exec (.rdb a vs.length 0 0#8) s = .next (s.endedPlain (burstTalk a vs) (.bytes vs)) :=
  exec_next hs (by simp [domainError, firstReason, needCount, needBits, hv])
    (((framerRdb_runs a vs 0 0#8 _).val (mergeFirst_zero _ _)).last rfl) ht rfl

end

-- The contract answering: the script has run out (log 2).

@[simp] theorem addrOf_addrWrite : ∀ a : Reg, addrOf (addrWrite a) = a := by decide
@[simp] theorem addrOf_addrRead : ∀ a : Reg, addrOf (addrRead a) = a := by decide
@[simp] theorem isReadByte_addrWrite : ∀ a : Reg, isReadByte (addrWrite a) = false := by decide
@[simp] theorem isReadByte_addrRead : ∀ a : Reg, isReadByte (addrRead a) = true := by decide

namespace Env
variable {e : Env}

theorem respond_of_contract (ho : e.handleOpen = true) (hs : e.script = []) (out : List Byte) :
    e.respond out = some (e.contract out).1 := by
  simp [respond, ho, hs]

theorem after_chip_of_contract (ho : e.handleOpen = true) (hs : e.script = []) (out : List Byte) :
    (e.after out).chip = (e.contract out).2 := by
  simp [after, reaches, ho, hs]

/-- With the contract answering, what one exchange supposes is to be held against the contract alone. -/
theorem talks_of_contract (ho : e.handleOpen = true) (hs : e.script = []) {t : Talk}
    (ht : t.agrees (e.contract t.frame).1 = true) : e.talks [t] = true :=
  (talks_cons e t []).2 ⟨⟨_, respond_of_contract ho hs _, ht⟩, rfl⟩

theorem contract_frameWrb (a : Reg) (vs : List Byte) :
    (e.contract (frameWrb a vs)).2 = vs.foldl (fun c v => c.write a v) e.chip := by
  simp [contract, Chip.exchange, frameWrb]

theorem contract_frameRd (a : Reg) : e.contract (frameRd a) =
    ([Config.freeByte e.count 0, (e.chip.readReg a (Config.freeByte e.count 1)).1],
      (e.chip.readReg a (Config.freeByte e.count 1)).2) := by
  simp [contract, Chip.exchange, frameRd, Chip.readAll]

theorem contract_frameRdb (a : Reg) (n : Nat) :
    ((e.contract (frameRdb a (n + 1))).1.drop 1, (e.contract (frameRdb a (n + 1))).2) =
      Chip.readAll (Config.freeByte e.count) (List.replicate (n + 1) (addrRead a)) 1 e.chip := by
  simp only [contract, frameRdb, List.replicate_succ, List.cons_append, Chip.exchange,
    isReadByte_addrRead, if_true]
  rw [← List.cons_append, ← List.replicate_succ, List.dropLast_concat]
  rfl

/-- A burst that reads `vs` of the chip and leaves it as `c`. -/
theorem burst_of_contract (ho : e.handleOpen = true) (hs : e.script = []) {a : Reg}
    {vs : List Byte} {c : Chip}
    (h : Chip.readAll (Config.freeByte e.count) (List.replicate vs.length (addrRead a)) 1 e.chip =
      (vs, c)) :
    e.talks (burstTalk a vs) = true ∧ (e.afterTalk (burstTalk a vs)).chip = c := by
  cases vs with
  | nil => exact ⟨rfl, (Prod.mk.inj h).2⟩
  | cons v vs =>
    obtain ⟨hv, hc⟩ := Prod.mk.inj ((contract_frameRdb a vs.length).trans h)
    rw [burstTalk, if_neg (List.cons_ne_nil v vs)]
    exact ⟨talks_of_contract ho hs (beq_iff_eq.2 hv), (after_chip_of_contract ho hs _).trans hc⟩

end Env

/-- The block between two operations, the handle open and the contract answering every exchange (log 2). -/
structure State.OnContract (s : State) : Prop where
  idle : s.seq = .idle
  opened : s.env.handleOpen = true
  script : s.env.script = []

namespace State.OnContract
variable {s : State}

/-- WRB writes its bytes to the register, one after the other (R71). -/
theorem wrb (h : s.OnContract) (a : Reg) {vs : List Byte} (hv : vs.length ≤ s.env.chip.fifoSize) :
    ∃ t, exec (.wrb a vs) s = .next t ∧ t.OnContract ∧ t.params = s.params ∧
      t.env.chip = vs.foldl (fun c v => c.write a v) s.env.chip :=
  ⟨_, exec_wrb h.idle hv (Env.talks_of_contract h.opened h.script rfl),
    ⟨rfl, h.opened, by simp [endedPlain, h.script]⟩, rfl,
    (Env.after_chip_of_contract h.opened h.script _).trans (Env.contract_frameWrb a vs)⟩

/-- WR writes its byte to the register (R71). -/
theorem wr (h : s.OnContract) (a : Reg) (v : Byte) :
    ∃ t, exec (.wr a v) s = .next t ∧ t.OnContract ∧ t.env.chip = s.env.chip.write a v :=
  ⟨_, exec_wr h.idle (Env.talks_of_contract h.opened h.script rfl),
    ⟨rfl, h.opened, by simp [endedPlain, h.script]⟩,
    (Env.after_chip_of_contract h.opened h.script _).trans (Env.contract_frameWrb a [v])⟩

/-- RD gives what the chip reads, where that does not hang on a free byte (R71). -/
theorem rd (h : s.OnContract) {a : Reg} {v : Byte} {d c : Chip} (hd : s.env.chip = d)
    (hr : ∀ free, d.readReg a free = (v, c)) :
    ∃ t, exec (.rd a) s = .next t ∧ t.result.payload = .byte v ∧ t.env.chip = c := by
  have hc := Env.contract_frameRd (e := s.env) a
  rw [hd, hr] at hc
  refine ⟨_, exec_rd h.idle (v := v) (Env.talks_of_contract h.opened h.script ?_), rfl, ?_⟩
  · simp [Talk.agrees, Talk.frame, hc]
  · exact (Env.after_chip_of_contract h.opened h.script _).trans (congrArg Prod.snd hc)

/-- RDB gives what the chip reads, byte by byte (R71). -/
theorem rdb (h : s.OnContract) {a : Reg} {vs : List Byte} {d c : Chip} (hv : vs.length ≤ s.params.respCap)
    (hd : s.env.chip = d)
    (hr : ∀ free, Chip.readAll free (List.replicate vs.length (addrRead a)) 1 d = (vs, c)) :
    ∃ t, exec (.rdb a vs.length 0 0#8) s = .next t ∧ t.result.payload = .bytes vs ∧ t.env.chip = c := by
  obtain ⟨ht, hc⟩ := Env.burst_of_contract h.opened h.script (hd ▸ hr _)
  exact ⟨_, exec_rdb h.idle hv ht, rfl, hc⟩

end State.OnContract

-- The registers of the contract chip.

/-- Distinct addresses tell the named registers apart (R31). -/
theorem Codes.addr_injective {k : Codes} (h : k.addressesDistinct = true) : Function.Injective k.addr := by
  intro m n hmn
  have hall : ∀ n : RegName, n ∈ RegName.all := by
    intro n
    cases n <;> decide
  exact List.inj_on_of_nodup_map (of_decide_eq_true h) (hall m) (hall n) hmn

theorem Codes.addr_ne {k : Codes} (h : k.addressesDistinct = true) (m n : RegName) (hmn : m ≠ n) :
    k.addr m ≠ k.addr n := (Codes.addr_injective h).ne hmn

namespace Chip
variable {c : Chip}

/-- A register stored is read back, the others keep their byte (R72). -/
theorem get_put (hm : c.regs.wf c.codes = true) (a b : Reg) (v : Byte) :
    (c.put a v).get b = if b = a then v else c.get b := by
  simp only [get, put, Memory.read_write hm, BitVec.toNat_inj]

/-- With the command register untouched the chip stays awake (R380). -/
theorem poweredDown_put (hm : c.regs.wf c.codes = true) {a : Reg} (ha : a ≠ c.codes.regCommand) (v : Byte) :
    (c.put a v).poweredDown = c.poweredDown := by
  simp only [poweredDown, put_resetPinHigh, put_codes, get_put hm, if_neg ha.symm]

/-- Registers without a behaviour of their own store the byte (R71, R96, log 43). -/
theorem write_plain (hp : c.poweredDown = false) {a : Reg} {v : Byte}
    (ha : a ∉ [c.codes.regCommand, c.codes.regComIrq, c.codes.regDivIrq, c.codes.regFIFOData,
      c.codes.regFIFOLevel, c.codes.regBitFraming, c.codes.regError, c.codes.regStatus2,
      c.codes.regCRCResultL, c.codes.regCRCResultH, c.codes.regVersion]) :
    c.write a v = c.put a v := by
  simp only [List.mem_cons, not_or] at ha
  simp [write, hp, ha]

theorem write_flags (hp : c.poweredDown = false) (hd : c.codes.addressesDistinct = true) {a : Reg}
    (ha : a = c.codes.regComIrq ∨ a = c.codes.regDivIrq) (v : Byte) : c.write a v = c.writeFlags a v := by
  obtain rfl | rfl := ha
  · exact (if_neg (Bool.eq_false_iff.1 hp)).trans <|
      (if_neg (Codes.addr_ne hd .comIrq .command nofun)).trans (if_pos rfl)
  · exact (if_neg (Bool.eq_false_iff.1 hp)).trans <|
      (if_neg (Codes.addr_ne hd .divIrq .command nofun)).trans <|
      (if_neg (Codes.addr_ne hd .divIrq .comIrq nofun)).trans (if_pos rfl)

theorem write_fifoData (hp : c.poweredDown = false) (hd : c.codes.addressesDistinct = true) (v : Byte) :
    c.write c.codes.regFIFOData v = c.push v :=
  (if_neg (Bool.eq_false_iff.1 hp)).trans <| (if_neg (Codes.addr_ne hd .fifoData .command nofun)).trans <|
    (if_neg (Codes.addr_ne hd .fifoData .comIrq nofun)).trans <|
    (if_neg (Codes.addr_ne hd .fifoData .divIrq nofun)).trans (if_pos rfl)

theorem write_status2 (hp : c.poweredDown = false) (hd : c.codes.addressesDistinct = true) (v : Byte) :
    c.write c.codes.regStatus2 v = c.writeStatus2 v :=
  (if_neg (Bool.eq_false_iff.1 hp)).trans <| (if_neg (Codes.addr_ne hd .status2 .command nofun)).trans <|
    (if_neg (Codes.addr_ne hd .status2 .comIrq nofun)).trans <|
    (if_neg (Codes.addr_ne hd .status2 .divIrq nofun)).trans <|
    (if_neg (Codes.addr_ne hd .status2 .fifoData nofun)).trans <|
    (if_neg (Codes.addr_ne hd .status2 .fifoLevel nofun)).trans <|
    (if_neg (Codes.addr_ne hd .status2 .bitFraming nofun)).trans (if_pos rfl)

/-- The flags written as 1 take bit 7 of the byte written (R34, R35). -/
theorem getLsbD_writeFlags (hm : c.regs.wf c.codes = true) (a : Reg) (v : Byte) (j : Nat) :
    ((c.writeFlags a v).get a).getLsbD j =
      if c.codes.irqAll7.getLsbD j && v.getLsbD j then v.getLsbD 7 else (c.get a).getLsbD j := by
  by_cases hj : j < 8
  · cases h7 : v.getLsbD 7
    · simp only [writeFlags, h7, Bool.false_eq_true, if_false, get_put hm, if_true, BitVec.getLsbD_and,
        BitVec.getLsbD_not, hj, decide_true]
      cases c.codes.irqAll7.getLsbD j <;> cases v.getLsbD j <;> simp
    · simp only [writeFlags, h7, if_true, get_put hm, BitVec.getLsbD_or, BitVec.getLsbD_and]
      cases c.codes.irqAll7.getLsbD j <;> cases v.getLsbD j <;> simp
  · simp [BitVec.getLsbD_of_ge _ _ (Nat.le_of_not_lt hj)]

/-- A write clears `CRYPTO1_ON` or leaves it, and touches no other bit (R37, R405). -/
theorem getLsbD_writeStatus2 (hm : c.regs.wf c.codes = true) (hk : c.codes.crypto1On = 0x08#8) (v : Byte)
    (j : Nat) : ((c.writeStatus2 v).get c.codes.regStatus2).getLsbD j =
      if j = 3 then (c.get c.codes.regStatus2).getLsbD 3 && v.getLsbD 3
      else (c.get c.codes.regStatus2).getLsbD j := by
  have bit3 : ∀ j < 8, (0x08#8).getLsbD j = decide (j = 3) := by decide
  by_cases hj : j < 8
  · simp only [writeStatus2, get_put hm, if_true, hk, BitVec.getLsbD_and, BitVec.getLsbD_or,
      BitVec.getLsbD_not, hj, decide_true, bit3 j hj]
    by_cases h3 : j = 3
    · simp [h3]
    · simp [h3]
  · have h3 : j ≠ 3 := by omega
    simp [BitVec.getLsbD_of_ge _ _ (Nat.le_of_not_lt hj), h3]

theorem get_writeStatus2_other (hm : c.regs.wf c.codes = true) {b : Reg} (hb : b ≠ c.codes.regStatus2)
    (v : Byte) : (c.writeStatus2 v).get b = c.get b := by
  rw [writeStatus2, get_put hm, if_neg hb]

theorem get_writeFlags_other (hm : c.regs.wf c.codes = true) {a b : Reg} (hb : b ≠ a) (v : Byte) :
    (c.writeFlags a v).get b = c.get b := by
  unfold writeFlags
  split
  · rw [get_put hm, if_neg hb]
  · rw [get_put hm, if_neg hb]

/-- Bytes written to the data port that fit are appended in order (R38, R73). -/
theorem writes_fifoData (hd : c.codes.addressesDistinct = true) (vs : List Byte)
    (hp : c.poweredDown = false) (hv : c.fifo.length + vs.length ≤ c.fifoSize) :
    vs.foldl (fun c' v => c'.write c.codes.regFIFOData v) c = { c with fifo := c.fifo ++ vs } := by
  induction vs generalizing c with
  | nil => simp
  | cons v vs ih =>
    simp only [List.length_cons] at hv
    have hpush : c.push v = { c with fifo := c.fifo ++ [v] } := if_pos (by omega)
    rw [List.foldl_cons, write_fifoData hp hd, hpush]
    refine (ih (c := { c with fifo := c.fifo ++ [v] }) hd hp ?_).trans ?_
    · simp only [List.length_append, List.length_singleton]
      omega
    · simp

theorem readReg_plain (hu : c.undescribed = false) (hp : c.poweredDown = false) {a : Reg}
    (hd : a ≠ c.codes.regFIFOData) (hl : a ≠ c.codes.regFIFOLevel) (free : Byte) :
    c.readReg a free = (c.get a, c) := by
  simp [readReg, hu, hp, hd, hl]

theorem readReg_fifoLevel (hu : c.undescribed = false) (hp : c.poweredDown = false)
    (hd : c.codes.addressesDistinct = true) (free : Byte) :
    c.readReg c.codes.regFIFOLevel free = (byteOfNat c.fifo.length, c) := by
  have hne : c.codes.regFIFOLevel ≠ c.codes.regFIFOData := Codes.addr_ne hd .fifoLevel .fifoData nofun
  simp [readReg, hu, hp, hne]

theorem readReg_fifoData (hu : c.undescribed = false) (hp : c.poweredDown = false) {b : Byte}
    {rest : List Byte} (hf : c.fifo = b :: rest) (free : Byte) :
    c.readReg c.codes.regFIFOData free = (b, { c with fifo := rest }) := by
  simp [readReg, hu, hp, hf]

/-- As many reads of the data port as the FIFO holds give its bytes in order (R38, R73). -/
theorem readAll_fifoData (hu : c.undescribed = false) (hp : c.poweredDown = false) (free : Nat → Byte)
    (k : Nat) :
    readAll free (List.replicate c.fifo.length (addrRead c.codes.regFIFOData)) k c =
      (c.fifo, { c with fifo := [] }) := by
  generalize hf : c.fifo = bs
  induction bs generalizing c k with
  | nil =>
    cases c
    cases hf
    rfl
  | cons b bs ih =>
    simp only [List.length_cons, List.replicate_succ, readAll, addrOf_addrRead,
      readReg_fifoData hu hp hf]
    rw [ih (c := { c with fifo := bs }) hu hp (k + 1) rfl]

end Chip

-- The contract chip's registers, FIFO and flags (O55, O56, O57).

/-- Settles O57: distinct addresses lead the write to the flag convention of R34 and R35, whose bits are then
said one by one. -/
theorem flagRegistersClearAndSet : Obligations.FlagRegistersClearAndSet := by
  rintro s k a v rfl hd hs ho hsc hm hp ha
  obtain ⟨t, ht, -, hc⟩ := State.OnContract.wr ⟨hs, ho, hsc⟩ a v
  rw [Chip.write_flags hp hd ha] at hc
  refine ⟨t, ht, fun j => ?_, fun b hb => ?_⟩
  · rw [hc, Chip.getLsbD_writeFlags hm]
  · rw [hc, Chip.get_writeFlags_other hm hb]

theorem State.standard.codes_eq {s : State} (h : s.standard) : s.env.chip.codes = Config.codes :=
  (Prod.mk.inj h).1

/-- Settles O55: the write stores the byte, the chip stays awake, and the read finds it; `Status2` keeps all but
its bit 3. -/
theorem registerReadsBackWhatWasWritten : Obligations.RegisterReadsBackWhatWasWritten := by
  rintro s k a v rfl hs ho hsc hm hu hp
  obtain ⟨t, ht, hk, hc⟩ := State.OnContract.wr ⟨hs, ho, hsc⟩ a v
  refine ⟨fun ha => ?_, ?_⟩
  · rw [Chip.write_plain hp ha] at hc
    simp only [List.mem_cons, not_or] at ha
    obtain ⟨hcmd, -, -, hdata, hlevel, -⟩ := ha
    obtain ⟨u, hu, hv, hcu⟩ := hk.rd hc (Chip.readReg_plain (c := s.env.chip.put a v) hu
      ((Chip.poweredDown_put hm hcmd v).trans hp) hdata hlevel)
    rw [Chip.get_put hm, if_pos rfl] at hv
    exact ⟨t, u, ht, hu, hv, fun b hb => by rw [hc, Chip.get_put hm, if_neg hb], hcu.trans hc.symm⟩
  · intro hstd ha
    have hk := hstd.codes_eq
    obtain rfl : a = s.env.chip.codes.regStatus2 := by rw [ha, hk]
    rw [Chip.write_status2 hp (by rw [hk]; decide)] at hc
    refine ⟨t, ht, fun j => ?_, fun b hb => ?_⟩
    · rw [hc]
      exact Chip.getLsbD_writeStatus2 hm (by rw [hk]) v j
    · rw [hc]
      exact Chip.get_writeStatus2_other hm hb v

/-- Settles O56: a burst write is one push after another, a burst read one pop after another. -/
theorem fifoIsAQueue : Obligations.FifoIsAQueue := by
  rintro s k vs rfl hd hs ho hsc hu hp hv hcap
  have hk : s.OnContract := ⟨hs, ho, hsc⟩
  refine ⟨?_, ?_, ?_⟩
  · obtain ⟨t, ht, hkt, hpar, hc⟩ := hk.wrb s.env.chip.codes.regFIFOData (vs := vs) (by omega)
    rw [Chip.writes_fifoData hd vs hp hv] at hc
    refine ⟨t, ht, by rw [hc], by rw [hc], ?_, ?_⟩
    · obtain ⟨u, hu, hb, hcu⟩ := hkt.rd hc (Chip.readReg_fifoLevel hu hp hd)
      rw [List.length_append] at hb
      exact ⟨u, hu, hb, hcu.trans hc.symm⟩
    · rw [← List.length_append] at hcap ⊢
      obtain ⟨u, hu, hb, hcu⟩ := hkt.rdb (hpar ▸ hcap) hc fun free =>
        Chip.readAll_fifoData (c := { s.env.chip with fifo := s.env.chip.fifo ++ vs }) hu hp free 1
      exact ⟨u, hu, hb, by rw [hcu]⟩
  · rintro v rfl
    obtain ⟨t, ht, -, hc⟩ := hk.wr s.env.chip.codes.regFIFOData v
    have hc := hc.trans (Chip.writes_fifoData hd [v] hp hv)
    exact ⟨t, ht, by rw [hc], by rw [hc]⟩
  · intro b rest hf
    obtain ⟨t, ht, hb, hc⟩ := hk.rd rfl (Chip.readReg_fifoData hu hp hf)
    exact ⟨t, ht, hb, by rw [hc], by rw [hc]⟩

-- Steps, refusals and chip commands (O5, O6, O11, O13).

/-- Settles O5: the three ways a step from idle can go, by what is presented. -/
theorem stepRunsThePresentedInstruction : Obligations.StepRunsThePresentedInstruction := by
  intro s hs
  refine ⟨fun hp => ?_, fun p rest i hp hd => ?_, fun p rest e hp hd => ?_⟩
  · simp only [step, hs, hp]
  · simp only [step, hs, hp, hd]
  · simp only [step, hs, hp, hd]

theorem exec_running {i : Instr} {s : State} {pos : SeqFrame} {stack : List SeqFrame}
    (hs : s.seq = .running pos stack) : exec i s = .refused .busy := by
  rw [exec_eq, runOp, hs]

theorem exec_faulted {i : Instr} {s : State} (hs : s.seq = .faulted) :
    exec i s = .refused .faultedUntilReset := by
  rw [exec_eq, runOp, hs]

/-- Settles O6: operations and steps alike look at the sequencer first. -/
theorem busyAndFaultedRefuse : Obligations.BusyAndFaultedRefuse := by
  intro i s
  refine ⟨fun pos stack hs => ⟨exec_running hs, ?_⟩, fun hs => ⟨exec_faulted hs, ?_⟩, ?_⟩
  · simp only [step, hs]
  · simp only [step, hs]
  · simp only [resetBlock_seq, resetBlock_latched, resetBlock_status, resetBlock_result, resetBlock_resp,
      resetBlock_sel, resetBlock_crcPoll, resetBlock_cmdPoll, resetBlock_params, resetBlock_pending,
      resetBlock_env, resetBlock_host, and_self]

-- The domain of the operands.

theorem exec_refused {i : Instr} {s : State} {r : Refusal} (hs : s.seq = .idle)
    (hd : domainError s.env.chip.fifoSize s.params.respCap i = some r) : exec i s = .refused r :=
  (exec_eq i s).trans (runOp_domain hs hd)

@[simp] theorem firstReason_some (r : Refusal) (b : Option Refusal) :
    firstReason (some r) b = some r := rfl
@[simp] theorem firstReason_none (b : Option Refusal) : firstReason none b = b := rfl

theorem needFifo_eq_some {n cap : Nat} (h : cap < n) : needFifo n cap = some .fifoOverlong :=
  if_neg (Nat.not_le.2 h)

theorem needBits_eq_some {n : Nat} (h : 7 < n) : needBits n = some .bitCountAbove7 :=
  if_neg (Nat.not_le.2 h)

theorem needLength_eq_some {l : List Byte} {n : Nat} (h : l.length ≠ n) :
    needLength l n = some .malformedOperand := if_neg h

/-- The operands of COMMUNICATE and TRANSCEIVE that are refused, in the order of the tests (R160, U3, U4). -/
theorem needFrame_eq_some {d : List Byte} {cap tx rx : Nat} {r : Refusal}
    (h : (d = [] ∧ r = .nothingToSend) ∨ (d ≠ [] ∧ cap < d.length ∧ r = .fifoOverlong) ∨
      (d ≠ [] ∧ d.length ≤ cap ∧ (7 < tx ∨ 7 < rx) ∧ r = .bitCountAbove7)) :
    firstReason (needSome d.length) (firstReason (needFifo d.length cap)
      (firstReason (needBits tx) (needBits rx))) = some r := by
  have some_needed (hd : d ≠ []) : needSome d.length = none :=
    if_neg (mt List.length_eq_zero_iff.1 hd)
  obtain ⟨rfl, rfl⟩ | ⟨hd, hlen, rfl⟩ | ⟨hd, hlen, hbits, rfl⟩ := h
  · rfl
  · rw [some_needed hd, needFifo_eq_some hlen]
    rfl
  · have hfits : needFifo d.length cap = none := if_pos hlen
    rw [some_needed hd, hfits, firstReason_none, firstReason_none]
    by_cases htx : 7 < tx
    · rw [needBits_eq_some htx, firstReason_some]
    · have hnone : needBits tx = none := if_pos (Nat.not_lt.1 htx)
      rw [hnone, firstReason_none, needBits_eq_some (hbits.resolve_left htx)]

/-- The UID records that are refused (R290, U6, U7). -/
theorem needUid_eq_some {u : Uid} {r : Refusal}
    (h : (u.bytes.length ≠ 10 ∧ r = .malformedOperand) ∨
      (u.bytes.length = 10 ∧ u.size ≠ 4 ∧ u.size ≠ 7 ∧ u.size ≠ 10 ∧ r = .uidSizeNotAdmitted)) :
    needUid u = some r := by
  obtain ⟨hlen, rfl⟩ | ⟨hlen, h4, h7, h10, rfl⟩ := h
  · rw [needUid, needLength_eq_some hlen, firstReason_some]
  · simp [needUid, needLength, hlen, h4, h7, h10]

/-- Settles O11: every refusal is the domain's, which is tested before the body runs. -/
theorem operandsOutsideTheirDomainAreRefused : Obligations.OperandsOutsideTheirDomainAreRefused := by
  rintro s cap respCap hs rfl rfl
  refine ⟨?_, ?_, ?_, ?_, ?_, ?_, ?_, ?_, ?_⟩
  · intro reg vs h
    exact ⟨exec_refused hs (needFifo_eq_some h), exec_refused hs (needFifo_eq_some h),
      exec_refused hs (needFifo_eq_some h)⟩
  · intro reg n a m
    refine ⟨fun hn => exec_refused hs ?_, fun hn ha => exec_refused hs ?_⟩
    · simp [domainError, needCount, Nat.not_le.2 hn]
    · simp [domainError, needCount, hn, needBits_eq_some ha]
  · intro reg
    exact exec_refused hs rfl
  · intro c w d want tx rx check m r h
    exact ⟨exec_refused hs (needFrame_eq_some h), exec_refused hs (needFrame_eq_some h)⟩
  · intro u k c b key r
    refine ⟨fun hu => ⟨exec_refused hs (needUid_eq_some hu), fun hkey => exec_refused hs ?_⟩,
      fun hkey => exec_refused hs ?_⟩
    · simp [domainError, needLength, hkey, needUid_eq_some hu]
    · simp [domainError, needLength_eq_some hkey]
  · intro p accept
    refine ⟨fun hp => exec_refused hs ?_, fun hp hlen => exec_refused hs ?_⟩
    · subst hp
      rfl
    · have hpos := List.length_pos_iff.2 hp
      have hsome : needSome p.length = none := if_neg hpos.ne'
      rw [domainError, hsome, firstReason_none, needFifo_eq_some (by omega)]
  · intro known w hw
    exact ⟨exec_refused hs (needLength_eq_some hw), exec_refused hs (needLength_eq_some hw),
      exec_refused hs (needLength_eq_some hw)⟩
  · intro b key tail h
    have hd : firstReason (needLength key 6) (needLength tail 4) = some .malformedOperand := by
      by_cases hk : key.length = 6
      · have hnone : needLength key 6 = none := if_pos hk
        rw [hnone, firstReason_none, needLength_eq_some (h.resolve_left (not_not.2 hk))]
      · rw [needLength_eq_some hk, firstReason_some]
    exact ⟨exec_refused hs hd, exec_refused hs hd⟩
  · intro b d
    exact ⟨fun hd => exec_refused hs (needLength_eq_some hd),
      fun hd => exec_refused hs (needLength_eq_some hd)⟩

theorem issueCommand_runs (p : Params) (c : CmdCode) (s : State) :
    Runs (issueCommand p c) s [talkWr p.codes.regCommand (commandByte c)] (plainResult .none)
      { s with env := s.env.after (frameWr p.codes.regCommand (commandByte c)) } :=
  (callWr_runs 1 _ _ s).last rfl

/-- An instruction whose body issues a command is one write of its code to the command register (R32, R100). -/
theorem exec_issues {s : State} {i : Instr} {c : CmdCode} {frame : List Byte} (hs : s.seq = .idle)
    (hd : domainError s.env.chip.fifoSize s.params.respCap i = none)
    (hi : Instr.body s.config i = issueCommand s.config c)
    (hf : frame = frameWr s.env.chip.codes.regCommand (commandByte c))
    (ht : s.env.talks [.put frame] = true) : exec i s = .next (s.endedPlain [.put frame] .none) := by
  subst hf
  exact exec_next hs hd (hi ▸ issueCommand_runs s.config c _) ht rfl

/-- Settles O13: the body of each of the ten chip commands issues its code. -/
theorem chipCommandsWriteTheirCode : Obligations.ChipCommandsWriteTheirCode := by
  intro s i hs
  simp only [List.mem_cons, Prod.mk.injEq, List.not_mem_nil, or_false]
  refine ⟨?_, ?_⟩
  · rintro k code rfl hi ht
    rcases hi with ⟨rfl, rfl⟩ | ⟨rfl, rfl⟩ | ⟨rfl, rfl⟩ | ⟨rfl, rfl⟩ | ⟨rfl, rfl⟩ | ⟨rfl, rfl⟩ |
      ⟨rfl, rfl⟩ | ⟨rfl, rfl⟩ | ⟨rfl, rfl⟩ | ⟨rfl, rfl⟩ <;> exact exec_issues hs rfl rfl rfl ht
  · intro code hstd hi ht
    have hk := hstd.codes_eq
    rcases hi with ⟨rfl, rfl⟩ | ⟨rfl, rfl⟩ | ⟨rfl, rfl⟩ | ⟨rfl, rfl⟩ | ⟨rfl, rfl⟩ | ⟨rfl, rfl⟩ |
      ⟨rfl, rfl⟩ | ⟨rfl, rfl⟩ | ⟨rfl, rfl⟩ | ⟨rfl, rfl⟩ <;>
      exact exec_issues hs rfl rfl (by rw [State.config_codes, hk]; rfl) ht

end Sys2Proof.Machine
end

section
namespace Sys2Proof.Machine

-- What a driven frame leaves alone on the chip (R71, R72).

/-- The registers the operations of units 2 to 5 and what the chip does by itself may write, besides the FIFO's
own two (R32 to R42). -/
def drivenRegs : List RegName :=
  [.command, .comIrq, .divIrq, .error, .status2, .control, .bitFraming, .coll, .crcResultH, .crcResultL]

/-- `d`, with the spec's codes and its memory in canonical form, holds the bytes of `c` off the registers `as`. -/
def Chip.KeepsOff (as : List RegName) (c d : Chip) : Prop :=
  d.codes = Config.codes ∧ d.regs.wf d.codes = true ∧ ∀ a ∉ as.map d.codes.addr, d.get a = c.get a

theorem mem_drivenRegs (k : Codes) (n : RegName) (hn : n ∈ drivenRegs := by decide) :
    k.addr n ∈ drivenRegs.map k.addr := List.mem_map_of_mem hn

theorem Chip.endCommand_codes (c : Chip) : c.endCommand.codes = c.codes := by
  unfold endCommand
  split
  · rfl
  · rfl

namespace Chip.KeepsOff
variable {as : List RegName} {c d : Chip}

theorem refl (hk : c.codes = Config.codes) (hm : c.regs.wf c.codes = true) : KeepsOff as c c :=
  ⟨hk, hm, fun _ _ => rfl⟩

theorem codes_eq (h : KeepsOff as c d) : d.codes = Config.codes := h.1

theorem wf (h : KeepsOff as c d) : d.regs.wf d.codes = true := h.2.1

theorem get_eq (h : KeepsOff as c d) {a : Reg} (ha : a ∉ as.map Config.codes.addr) : d.get a = c.get a :=
  h.2.2 a (h.codes_eq ▸ ha)

theorem put (h : KeepsOff as c d) {a : Reg} (ha : a ∈ as.map d.codes.addr) (v : Byte) :
    KeepsOff as c (d.put a v) := by
  obtain ⟨hk, hm, hg⟩ := h
  refine ⟨hk, Memory.wf_write hm (Nat.le_of_lt_succ a.isLt) v, fun b hb => ?_⟩
  have hba : b ≠ a := fun e => hb (e ▸ ha)
  rw [get_put hm, if_neg hba]
  exact hg b hb

theorem raise (h : KeepsOff as c d) {a : Reg} (ha : a ∈ as.map d.codes.addr) (m : Byte) :
    KeepsOff as c (d.raise a m) := h.put ha _

theorem ite {p : Prop} [Decidable p] {e : Chip} (hd : p → KeepsOff as c d)
    (he : ¬ p → KeepsOff as c e) : KeepsOff as c (if p then d else e) := by
  split
  · exact hd ‹_›
  · exact he ‹_›

theorem writeFlags (h : KeepsOff as c d) {a : Reg} (ha : a ∈ as.map d.codes.addr) (v : Byte) :
    KeepsOff as c (d.writeFlags a v) := .ite (fun _ => h.put ha _) fun _ => h.put ha _

theorem endCommand (h : KeepsOff as c d) (hi : d.codes.regComIrq ∈ as.map d.codes.addr) :
    KeepsOff as c d.endCommand := .ite (fun _ => h.raise hi _) fun _ => h

theorem calcCrc (h : KeepsOff as c d) (hl : .crcResultL ∈ as) (hh : .crcResultH ∈ as) (hi : .divIrq ∈ as) :
    KeepsOff as c d.calcCrc :=
  have stored : KeepsOff as c { d with fifo := [] } := h
  have mem {n : RegName} (hn : n ∈ as) : d.codes.addr n ∈ as.map d.codes.addr := List.mem_map_of_mem hn
  .ite (fun _ => h) fun _ => raise (put (stored.put (mem hl) _) (mem hh) _) (mem hi) _

-- The RF side and the commands (R73 to R76).

section
variable (h : KeepsOff drivenRegs c d)
include h

theorem silence : KeepsOff drivenRegs c d.silence :=
  .ite (fun _ => h.raise (mem_drivenRegs _ .comIrq) _) fun _ => h

theorem receive (bits : List Bool) (pad : Byte) (coll : Option RfCollision) (fatal : Byte) :
    KeepsOff drivenRegs c (d.receive bits pad coll fatal) := by
  have hput (v w : Byte) : KeepsOff drivenRegs c ((d.put d.codes.regControl v).put d.codes.regError w) :=
    (h.put (mem_drivenRegs _ .control) v).put (mem_drivenRegs _ .error) w
  cases coll with
  | none => exact raise (hput _ _) (mem_drivenRegs _ .comIrq) _
  | some k => exact raise (put (hput _ _) (mem_drivenRegs _ .coll) _) (mem_drivenRegs _ .comIrq) _

theorem takeAnswer : KeepsOff drivenRegs c d.takeAnswer.2 := by
  unfold Chip.takeAnswer
  split
  · split
    · exact h
    · exact h
  · exact h

theorem await : KeepsOff drivenRegs c d.await := by
  have ht := h.takeAnswer
  unfold Chip.await
  split <;> rename_i ha <;> rw [ha] at ht
  · exact ht.receive _ _ _ _
  · exact ht.silence
  · exact ht.silence

theorem transmit : KeepsOff drivenRegs c d.transmit :=
  await (put h (mem_drivenRegs _ .error) _)

theorem authenticate : KeepsOff drivenRegs c d.authenticate := by
  have ht := takeAnswer
    (put (d := { d with fifo := [] }) h (a := d.codes.regError) (mem_drivenRegs _ .error) 0#8)
  unfold Chip.authenticate
  simp only
  split <;> rename_i ha <;> rw [ha] at ht
  · exact raise (ht.raise (mem_drivenRegs _ .status2) _) (mem_drivenRegs _ .comIrq) _
  · exact ht.silence
  · exact ht.silence

-- Writes and reads (R65, R71, R380).

/-- Every command but SoftReset, which resets the registers (R332). -/
theorem writeCommand {v : Byte} (hv : v.setWidth 4 ≠ Config.cmdSoftReset) :
    KeepsOff drivenRegs c (d.writeCommand v) :=
  have hp : KeepsOff drivenRegs c (d.endCommand.put d.codes.regCommand v) :=
    (h.endCommand (mem_drivenRegs _ .comIrq)).put
      (d.endCommand_codes ▸ mem_drivenRegs d.codes .command) v
  have hs : (d.endCommand.put d.codes.regCommand v).codes.cmdSoftReset = Config.cmdSoftReset :=
    congrArg (fun k : Codes => k.cmdSoftReset) hp.codes_eq
  .ite (fun _ => hp) fun _ => .ite (fun _ => hp) fun _ => .ite (fun _ => hp) fun _ =>
    .ite (fun _ => calcCrc hp (by decide) (by decide) (by decide)) fun _ =>
    .ite (fun _ => authenticate hp) fun _ => .ite (fun e => absurd (e.trans hs) hv) fun _ => hp

theorem push (v : Byte) : KeepsOff drivenRegs c (d.push v) :=
  .ite (fun _ => h) fun _ => h.raise (mem_drivenRegs _ .error) _

theorem writeBitFraming (v : Byte) : KeepsOff drivenRegs c (d.writeBitFraming v) :=
  have hp := h.put (mem_drivenRegs _ .bitFraming) v
  .ite (fun _ => hp.transmit) fun _ => hp

theorem writeAsleep {a : Reg} {v : Byte}
    (hv : a = d.codes.regCommand → v.setWidth 4 ≠ Config.cmdSoftReset) :
    KeepsOff drivenRegs c (d.writeAsleep a v) := by
  refine .ite (fun e => ?_) fun _ => h
  simp only [Bool.and_eq_true, beq_iff_eq] at e
  obtain ⟨⟨⟨-, ha⟩, -⟩, hs⟩ := e
  rw [h.codes_eq] at hs
  exact absurd hs (hv ha)

/-- A byte written to a driven register or to one of the FIFO's own, and no SoftReset. -/
theorem write {a : Reg} {v : Byte}
    (ha : a ∈ d.codes.regFIFOData :: d.codes.regFIFOLevel :: drivenRegs.map d.codes.addr)
    (hv : a = d.codes.regCommand → v.setWidth 4 ≠ Config.cmdSoftReset) :
    KeepsOff drivenRegs c (d.write a v) :=
  .ite (fun _ => h.writeAsleep hv) fun _ => .ite (fun e => h.writeCommand (hv e)) fun _ =>
    .ite (fun e => e ▸ h.writeFlags (mem_drivenRegs _ .comIrq) v) fun _ =>
    .ite (fun e => e ▸ h.writeFlags (mem_drivenRegs _ .divIrq) v) fun _ =>
    .ite (fun _ => h.push v) fun hd => .ite (fun _ => .ite (fun _ => h) fun _ => h) fun hl =>
    .ite (fun _ => h.writeBitFraming v) fun _ =>
    .ite (fun _ => h.put (mem_drivenRegs _ .status2) _) fun _ =>
    .ite (fun _ => h) fun _ => .ite (fun _ => h) fun _ => .ite (fun _ => h) fun _ =>
    .ite (fun _ => h) fun _ => h.put (by simpa [hd, hl] using ha) v

theorem readReg (a : Reg) (free : Byte) : KeepsOff drivenRegs c (d.readReg a free).2 := by
  unfold Chip.readReg
  split_ifs
  · exact h
  · split
    · exact h
    · exact h
  · exact h
  · exact h

theorem readAll (free : Nat → Byte) (bs : List Byte) (k : Nat) :
    KeepsOff drivenRegs c (Chip.readAll free bs k d).2 := by
  induction bs generalizing k d with
  | nil => exact h
  | cons b bs ih => exact ih (h.readReg _ _) (k + 1)

theorem writes {a : Reg} {vs : List Byte}
    (ha : a ∈ Config.regFIFOData :: Config.regFIFOLevel :: drivenRegs.map Config.codes.addr)
    (hv : a = Config.regCommand → ∀ v ∈ vs, v.setWidth 4 ≠ Config.cmdSoftReset) :
    KeepsOff drivenRegs c (vs.foldl (fun d v => d.write a v) d) := by
  induction vs generalizing d with
  | nil => exact h
  | cons v vs ih =>
    refine ih (h.write ?_ ?_) fun e w hw => hv e w (List.mem_cons_of_mem v hw)
    · rwa [h.codes_eq]
    · rw [h.codes_eq]
      exact fun e => hv e v List.mem_cons_self

end
end Chip.KeepsOff

/-- The registers these operations write by name, the command register apart. -/
def sentRegs : List RegName := [.comIrq, .divIrq, .fifoData, .fifoLevel, .bitFraming, .status2, .coll]

/-- The frames of the operations of units 2 to 5 and of the card commands: reads, writes of the registers they
name, and chip commands, none of them SoftReset. -/
inductive DrivenFrame : List Byte → Prop
  | read (a : Reg) (n : Nat) : DrivenFrame (frameRdb a (n + 1))
  | command {c : CmdCode} (hc : c ≠ Config.cmdSoftReset) :
      DrivenFrame (frameWr Config.regCommand (commandByte c))
  | write {n : RegName} (hn : n ∈ sentRegs) (vs : List Byte) :
      DrivenFrame (frameWrb (Config.codes.addr n) vs)

theorem addr_sentRegs : ∀ n ∈ sentRegs, Config.codes.addr n ≠ Config.regCommand ∧
    Config.codes.addr n ∈ Config.regFIFOData :: Config.regFIFOLevel :: drivenRegs.map Config.codes.addr := by
  decide

theorem setWidth_commandByte : ∀ c : CmdCode, (commandByte c).setWidth 4 = c := by decide

namespace Env
variable {c : Chip} {e : Env}

theorem contract_keepsOff (h : Chip.KeepsOff drivenRegs c e.chip) {out : List Byte} (ho : DrivenFrame out) :
    Chip.KeepsOff drivenRegs c (e.contract out).2 := by
  cases ho with
  | read a n =>
    have hr := congrArg Prod.snd (contract_frameRdb (e := e) a n)
    simp only at hr
    rw [hr]
    exact h.readAll _ _ _
  | @command code hc =>
    refine contract_frameWrb (e := e) _ [commandByte code] ▸ h.writes (by decide) fun _ v hv => ?_
    rwa [List.mem_singleton.1 hv, setWidth_commandByte]
  | @write n hn vs =>
    obtain ⟨hc, ha⟩ := addr_sentRegs n hn
    exact contract_frameWrb (e := e) _ vs ▸ h.writes ha fun e => absurd e hc

theorem after_keepsOff (h : Chip.KeepsOff drivenRegs c e.chip) {out : List Byte} (ho : DrivenFrame out) :
    Chip.KeepsOff drivenRegs c (e.after out).chip := by
  unfold after
  simp only
  split
  · exact contract_keepsOff h ho
  · exact h

end Env

-- The operations send driven frames only.

/-- Steps that answer leave the chip's registers off the driven ones alone. -/
def SparesConfig {α : Type} (x : M α) : Prop :=
  ∀ c s a t, Chip.KeepsOff drivenRegs c s.env.chip → x s = .ok a t → Chip.KeepsOff drivenRegs c t.env.chip

namespace SparesConfig
variable {α β : Type} {x : M α}

theorem bind {f : α → M β} (hx : SparesConfig x) (hf : ∀ a, SparesConfig (f a)) :
    SparesConfig (x >>= f) := by
  intro c s b t hs h
  obtain ⟨a, u, hu, ht⟩ := M.bind_ok_inv h
  exact hf a c u b t (hx c s a u hs hu) ht

/-- A step that answers without an exchange. -/
theorem quiet (hx : ∀ s, ∃ a u, x s = .ok a u ∧ u.env = s.env) : SparesConfig x := by
  intro c s a t hs h
  obtain ⟨b, u, hu, he⟩ := hx s
  cases hu.symm.trans h
  exact he ▸ hs

theorem refuse {r : Refusal} : SparesConfig (refuse r : M α) := by
  intro c s a t hs h
  cases h

theorem pure {a : α} : SparesConfig (Pure.pure a : M α) := quiet fun _ => ⟨_, _, rfl, rfl⟩

/-- A step without an exchange, and what follows it. -/
theorem step {f : α → M β} (hf : ∀ a, SparesConfig (f a))
    (hx : ∀ s, ∃ a u, x s = .ok a u ∧ u.env = s.env := by exact fun _ => ⟨_, _, rfl, rfl⟩) :
    SparesConfig (x >>= f) := (quiet hx).bind hf

theorem map {f : α → β} (hx : SparesConfig x) : SparesConfig (x >>= fun a => Pure.pure (f a)) :=
  hx.bind fun _ => pure

theorem ite {p : Prop} [Decidable p] {y : M α} (hx : SparesConfig x) (hy : SparesConfig y) :
    SparesConfig (if p then x else y) := by
  split
  · exact hx
  · exact hy

theorem call {line : Nat} {op : OpName} (hx : SparesConfig x) : SparesConfig (call line op x) := by
  intro c s a t hs h
  obtain ⟨u, hu, rfl⟩ := call_ok_inv h
  exact hx c { s with seq := (s.seq.atLine line).push op } a u hs hu

theorem exchange {out : List Byte} (ho : DrivenFrame out) : SparesConfig (exchange out) := by
  intro c s a t hs h
  obtain ⟨-, rfl⟩ := exchange_ok_inv h
  exact Env.after_keepsOff hs ho

end SparesConfig

section
variable {p : Params}

theorem framerRd_spares {a : Reg} : SparesConfig (framerRd a) :=
  .bind (.exchange (.read a 0)) fun _ => .step fun _ => .pure

theorem framerRdb_spares {a : Reg} {count rxAlign : Nat} {mergeIn : Byte} :
    SparesConfig (framerRdb a count rxAlign mergeIn) := by
  cases count with
  | zero => exact .pure
  | succ n => exact .step fun _ => .bind (.exchange (.read a n)) fun _ => .step fun _ => .pure

theorem callRd_spares {line : Nat} {a : Reg} : SparesConfig (callRd line a) := .call framerRd_spares

theorem framerWrb_spares (n : RegName) {vs : List Byte} (hn : n ∈ sentRegs := by decide) :
    SparesConfig (framerWrb (Config.codes.addr n) vs) := .map (.exchange (.write hn vs))

theorem callWr_spares (n : RegName) {line : Nat} {v : Byte} (hn : n ∈ sentRegs := by decide) :
    SparesConfig (callWr line (Config.codes.addr n) v) := .call (.map (.exchange (.write hn [v])))

theorem callCommand_spares {line : Nat} (c : CmdCode) (hc : c ≠ Config.cmdSoftReset := by decide) :
    SparesConfig (callWr line Config.regCommand (commandByte c)) := .call (.map (.exchange (.command hc)))

theorem framerSetb_spares (n : RegName) {mask : Byte} (hn : n ∈ sentRegs := by decide) :
    SparesConfig (framerSetb (Config.codes.addr n) mask) := .bind callRd_spares fun _ => callWr_spares n hn

theorem framerClrb_spares (n : RegName) {mask : Byte} (hn : n ∈ sentRegs := by decide) :
    SparesConfig (framerClrb (Config.codes.addr n) mask) := .bind callRd_spares fun _ => callWr_spares n hn

theorem finish_spares {st : StatusCode} : SparesConfig (finish st) := .step fun _ => .pure

theorem respond_spares {st : StatusCode} : SparesConfig (respond st) := .step fun _ => .step fun _ => .pure

theorem crcSetup_spares {data : List Byte} : SparesConfig (crcSetup p.std data) :=
  .bind (callCommand_spares Config.cmdIdle) fun _ => .bind (callWr_spares .divIrq) fun _ =>
    .bind (callWr_spares .fifoLevel) fun _ => .bind (.call (framerWrb_spares .fifoData)) fun _ =>
    .bind (callCommand_spares Config.cmdCalcCRC) fun _ => .step fun _ => .quiet fun _ => ⟨_, _, rfl, rfl⟩

theorem pollCrc_spares : ∀ k, SparesConfig (pollCrc p k)
  | 0 => .step fun _ => .step fun _ => .pure
  | k + 1 => .step fun _ => .bind callRd_spares fun _ => .step fun _ => .step fun _ => .ite
      (.bind callRd_spares fun _ => .bind callRd_spares fun _ => .step fun _ => .step fun _ => .pure)
      (pollCrc_spares k)

theorem calcCrc_spares {data : List Byte} : SparesConfig (calcCrc p.std data) :=
  .bind crcSetup_spares fun _ => pollCrc_spares _

/-- COMMUNICATE of any command but SoftReset. -/
theorem commSetup_spares {a : CommArgs} (ha : a.command ≠ Config.cmdSoftReset) :
    SparesConfig (commSetup p.std a) :=
  .step fun _ => .step fun _ => .bind (callCommand_spares Config.cmdIdle) fun _ =>
    .bind (callWr_spares .comIrq) fun _ => .bind (callWr_spares .fifoLevel) fun _ =>
    .bind (.call (framerWrb_spares .fifoData)) fun _ => .bind (callWr_spares .bitFraming) fun _ =>
    .bind (callCommand_spares a.command ha) fun _ => .step fun _ =>
    .ite (.call (framerSetb_spares .bitFraming)) .pure

theorem pollIrq_spares {waitIrq : Byte} : ∀ k, SparesConfig (pollIrq p waitIrq k)
  | 0 => .step fun _ => .pure
  | k + 1 => .step fun _ => .bind callRd_spares fun _ => .step fun _ => .step fun _ =>
      .ite (.step fun _ => .pure) (.step fun _ => .ite .pure (pollIrq_spares k))

theorem drain_spares {a : CommArgs} : SparesConfig (drain p a) :=
  .bind callRd_spares fun _ => .step fun _ => .ite .pure <| .bind (.call framerRdb_spares) fun _ =>
    .step fun _ => .bind callRd_spares fun _ => .step fun _ => .pure

theorem checkResponse_spares : SparesConfig (checkResponse p.std) :=
  .step fun _ => .step fun _ => .ite respond_spares <| .step fun _ => .ite respond_spares <|
    .bind (.call calcCrc_spares) fun _ => .step fun _ => .ite respond_spares <| .step fun _ =>
    .ite (.step fun _ => respond_spares) (.step fun _ => respond_spares)

theorem classify_spares {a : CommArgs} {e : Byte} : SparesConfig (classify p.std a e) :=
  .step fun _ => .ite respond_spares <| .step fun _ => .ite checkResponse_spares (.step fun _ => respond_spares)

theorem afterCompletion_spares {a : CommArgs} : SparesConfig (afterCompletion p.std a) :=
  .bind callRd_spares fun _ => .step fun _ => .ite respond_spares <| .step fun _ =>
    .ite (.bind drain_spares fun _ => .ite classify_spares respond_spares) classify_spares

theorem communicate_spares {a : CommArgs} (ha : a.command ≠ Config.cmdSoftReset) :
    SparesConfig (communicate p.std a) :=
  .bind (commSetup_spares ha) fun _ => .step fun _ => .step fun _ => .bind (pollIrq_spares _) fun _ =>
    .ite afterCompletion_spares respond_spares

theorem transceive_spares {data : List Byte} {want check : Bool} {tx rx : Nat} {merge : Byte} :
    SparesConfig (transceive p.std data want tx rx check merge) :=
  .call (communicate_spares (show Config.cmdTransceive ≠ Config.cmdSoftReset by decide))

theorem transceiveInPlace_spares {data : List Byte} {want check : Bool} {tx rx : Nat} {merge : Byte} :
    SparesConfig (transceiveInPlace p.std data want tx rx check merge) :=
  .step fun _ => communicate_spares (show Config.cmdTransceive ≠ Config.cmdSoftReset by decide)

-- REQA, WUPA, HLTA and SELECT.

theorem prepareColl_spares {line : Nat} : SparesConfig (prepareColl p.std line) :=
  .step fun _ => .ite (.call (framerClrb_spares .coll)) .pure

theorem request_spares {piccByte : Byte} : SparesConfig (request p.std piccByte) :=
  .bind prepareColl_spares fun _ => .bind (.call transceive_spares) fun _ => .step fun _ =>
    .ite (.step fun _ => .pure) <| .step fun _ => .ite (.step fun _ => .pure) <| .step fun _ =>
    .step fun _ => .pure

theorem halt_spares : SparesConfig (halt p.std) :=
  .bind (.call calcCrc_spares) fun _ => .ite finish_spares <| .bind (.call transceive_spares) fun _ =>
    .step fun _ => .ite finish_spares <| .step fun _ => .ite finish_spares <| .step fun _ => finish_spares

theorem resolveCollision_spares : SparesConfig (resolveCollision p) :=
  .bind callRd_spares fun _ => .step fun _ => .step fun _ => .ite .pure <| .step fun _ => .ite .pure <|
    .step fun _ => .step fun _ => .step fun _ => .pure

theorem roundExchange_spares : SparesConfig (roundExchange p.std) :=
  .step fun _ => .bind (.call transceive_spares) fun _ => .step fun _ => .ite
    (.step fun _ => .ite .pure <| .step fun _ => .step fun _ => .step fun _ =>
      .ite resolveCollision_spares <| .step fun _ => .ite (.step fun _ => .pure) .pure)
    (.step fun _ => .pure)

theorem selectRound_spares : SparesConfig (selectRound p.std) :=
  .step fun _ => .step fun _ => .ite
    (.step fun _ => .step fun _ => .step fun _ => .bind (.call calcCrc_spares) fun _ => .ite .pure <|
      .step fun _ => .step fun _ => roundExchange_spares)
    (.step fun _ => .step fun _ => roundExchange_spares)

theorem selectRounds_spares : ∀ k, SparesConfig (selectRounds p.std k)
  | 0 => .refuse
  | k + 1 => .bind selectRound_spares fun
    | .again => selectRounds_spares k
    | .selected _ => .pure
    | .stop _ => .pure

theorem confirmLevel_spares {r : Response} : SparesConfig (confirmLevel p.std r) :=
  .step fun _ => .ite .pure <| .bind (.call calcCrc_spares) fun _ => .ite .pure <| .step fun _ => .ite
    (.step fun _ => .step fun _ => .step fun _ => .step fun _ => .pure) .pure

theorem selectLevels_spares {seeded : Bool} {kvb : Nat} :
    ∀ n, SparesConfig (selectLevels p.std seeded kvb n)
  | 0 => .step fun _ => .step fun _ => .pure
  | n + 1 => .step fun _ => .step fun _ => .bind (selectRounds_spares _) fun
    | (_, none) => .pure
    | (_, some _) => .bind confirmLevel_spares fun _ => .ite .pure <|
      .ite (selectLevels_spares n) <| .step fun _ => .step fun _ => .step fun _ => .pure

theorem select_spares {u : Option Uid} {kvb : Byte} : SparesConfig (select p.std u kvb) :=
  .step fun _ => .step fun _ => .step fun _ => .ite (.step fun _ => .pure) <|
    .bind prepareColl_spares fun _ => .step fun _ => .bind (selectLevels_spares 3) fun _ =>
    .step fun _ => .pure

-- The MIFARE sequencer and the card commands.

theorem authenticate_spares {frame : List Byte} : SparesConfig (authenticate p.std frame) :=
  .call (communicate_spares (show Config.cmdMFAuthent ≠ Config.cmdSoftReset by decide))

theorem judgeAck_spares {accept : Bool} {r : Response} : SparesConfig (judgeAck accept r) :=
  .step fun _ => .ite finish_spares <| .step fun _ => .ite finish_spares <| .step fun _ =>
    .ite finish_spares <| .step fun _ => .ite finish_spares <| .step fun _ => finish_spares

theorem mfTransceive_spares {payload : List Byte} {accept : Bool} :
    SparesConfig (mfTransceive p.std payload accept) :=
  .bind (.call calcCrc_spares) fun _ => .ite finish_spares <|
    .bind (.call transceiveInPlace_spares) fun _ => judgeAck_spares

theorem mfRead_spares {block : Byte} : SparesConfig (mfRead p.std block) :=
  .bind
    (.bind (.call calcCrc_spares) fun _ => .ite (.step fun _ => .pure) (.map (.call transceiveInPlace_spares)))
    fun _ => .ite .pure <| .step fun _ => .ite (.step fun _ => .pure) <| .step fun _ =>
      .ite (.step fun _ => .pure) <| .step fun _ => .step fun _ => .pure

theorem twoFrames_spares {first second : List Byte} {accept : Bool} :
    SparesConfig (twoFrames p.std first second accept) :=
  .bind (.call mfTransceive_spares) fun _ => .ite finish_spares (.call mfTransceive_spares)

theorem mfWrite_spares {block : Byte} {data : List Byte} : SparesConfig (mfWrite p.std block data) :=
  .ite finish_spares <| .bind (.call mfTransceive_spares) fun _ => .ite finish_spares (.call mfTransceive_spares)

theorem standardFrame_spares {payload : List Byte} {want check : Bool} :
    SparesConfig (standardFrame p.std payload want check) :=
  .bind (.call calcCrc_spares) fun _ => .ite (.step fun _ => .pure) (.call transceive_spares)

theorem selectCommand_spares {sel : Byte} {known : Nat} {window : List Byte} :
    SparesConfig (selectCommand p.std sel known window) :=
  .ite (.call transceive_spares) standardFrame_spares

/-- The instructions whose frames are their own choice and not the host's. -/
theorem Instr.body_spares (i : Instr) (hl : i.layer = .op ∨ i.layer = .picc)
    (hcomm : ∀ c w d want tx rx ch m, i ≠ .communicate c w d want tx rx ch m)
    (hwr : ∀ a v, i ≠ .wr a v) (hwrb : ∀ a vs, i ≠ .wrb a vs) (hset : ∀ a m, i ≠ .setb a m)
    (hclr : ∀ a m, i ≠ .clrb a m) : SparesConfig (Instr.body p.std i) := by
  cases i with
  | wr a v => exact absurd rfl (hwr a v)
  | wrb a vs => exact absurd rfl (hwrb a vs)
  | setb a m => exact absurd rfl (hset a m)
  | clrb a m => exact absurd rfl (hclr a m)
  | communicate c w d want tx rx ch m => exact absurd rfl (hcomm c w d want tx rx ch m)
  | rd => exact .map framerRd_spares
  | rdb => exact .map framerRdb_spares
  | calcCrc => exact .map calcCrc_spares
  | transceive => exact .map transceive_spares
  | reqa => exact .map request_spares
  | wupa => exact .map request_spares
  | select => exact .bind select_spares fun _ => .step fun _ => .pure
  | hlta => exact .map halt_spares
  | auth => exact .bind authenticate_spares fun _ => .step fun _ => .map finish_spares
  | stopCrypto1 => exact .map (.call (framerClrb_spares .status2))
  | mfTransceive => exact .map mfTransceive_spares
  | mfRead => exact .map mfRead_spares
  | mfWrite => exact .map mfWrite_spares
  | ulWrite => exact .map (.ite finish_spares (.call mfTransceive_spares))
  | mfIncrement => exact .map twoFrames_spares
  | mfDecrement => exact .map twoFrames_spares
  | mfRestore => exact .map twoFrames_spares
  | mfTransfer => exact .map (.call mfTransceive_spares)
  | mfGetValue =>
    exact .bind (.call mfRead_spares) fun _ => .ite (.step fun _ => .pure) <| .step fun _ => .step fun _ => .pure
  | mfSetValue => exact .step fun _ => .step fun _ => .map mfWrite_spares
  | piccReqa => exact .map (.call transceive_spares)
  | piccWupa => exact .map (.call transceive_spares)
  | piccSelCl1 => exact .map selectCommand_spares
  | piccSelCl2 => exact .map selectCommand_spares
  | piccSelCl3 => exact .map selectCommand_spares
  | piccHlta => exact .map standardFrame_spares
  | piccAuthKeyA => exact .map authenticate_spares
  | piccAuthKeyB => exact .map authenticate_spares
  | piccMfRead => exact .map standardFrame_spares
  | piccMfWrite => exact .map twoFrames_spares
  | piccUlWrite => exact .map (.call mfTransceive_spares)
  | piccMfDecrement => exact .map twoFrames_spares
  | piccMfIncrement => exact .map twoFrames_spares
  | piccMfRestore => exact .map twoFrames_spares
  | piccMfTransfer => exact .map (.call mfTransceive_spares)
  | xferWr | xferWrb | xferRd | xferRdb | cmdIdle | cmdMem | cmdCalcCRC | cmdTransceive | cmdMFAuthent
  | cmdSoftReset | cmdGenerateRandomID | cmdTransmit | cmdNoCmdChange | cmdReceive =>
    obtain hl | hl := hl <;> cases hl

end

/-- Settles O54: every exchange of these instructions is a driven frame, and a driven frame spares the
configuration. -/
theorem operationsLeaveTheConfiguration : Obligations.OperationsLeaveTheConfiguration := by
  intro i s t h hstd hm hl hcomm hwr hwrb hset hclr a ha
  obtain ⟨-, -, r, u, hb, rfl⟩ := exec_next_inv h
  rw [← hstd.config_eq] at hb
  have hu := Instr.body_spares i hl hcomm hwr hwrb hset hclr s.env.chip (s.started i (Instr.opName i)) r u
    (.refl hstd.codes_eq hm) hb
  exact hu.get_eq ha

-- Exchanges the contract chip answers (R71).

/-- With the contract answering from the chip `c`, the exchanges `ts` go as they suppose and leave `d`. -/
def Chip.Answers (c : Chip) (ts : List Talk) (d : Chip) : Prop :=
  ∀ e : Env, e.handleOpen = true → e.script = [] → e.chip = c →
    e.talks ts = true ∧ (e.afterTalk ts).chip = d

namespace Chip.Answers
variable {c d : Chip} {ts : List Talk}

theorem nil : c.Answers [] c := fun _ _ _ hc => ⟨rfl, hc⟩

theorem cons {t : Talk} {c' : Chip}
    (ht : ∀ e : Env, e.chip = c → t.agrees (e.contract t.frame).1 = true ∧ (e.contract t.frame).2 = c')
    (h : c'.Answers ts d) : c.Answers (t :: ts) d := by
  intro e ho hs hc
  obtain ⟨hag, hc'⟩ := ht e hc
  obtain ⟨htalk, hd⟩ := h (e.after t.frame) ho (by simp [hs]) ((Env.after_chip_of_contract ho hs _).trans hc')
  exact ⟨(Env.talks_cons _ _ _).2 ⟨⟨_, Env.respond_of_contract ho hs _, hag⟩, htalk⟩, hd⟩

theorem writes {a : Reg} {vs : List Byte} {c' : Chip} (hw : vs.foldl (fun c v => c.write a v) c = c')
    (h : c'.Answers ts d) : c.Answers (talkWrb a vs :: ts) d :=
  cons (fun _ he => ⟨rfl, (Env.contract_frameWrb a vs).trans (he ▸ hw)⟩) h

theorem write {a : Reg} {v : Byte} {c' : Chip} (hw : c.write a v = c') (h : c'.Answers ts d) :
    c.Answers (talkWr a v :: ts) d := writes (vs := [v]) hw h

theorem read {a : Reg} {v : Byte} (hr : ∀ free, c.readReg a free = (v, c)) (h : c.Answers ts d) :
    c.Answers (.get a v :: ts) d :=
  cons (fun _ he => by simp [Talk.frame, Talk.agrees, Env.contract_frameRd, he, hr]) h

end Chip.Answers

-- CALC_CRC on the contract chip (R74, R150).

namespace Chip
variable {c : Chip}

theorem wf_put (hm : c.regs.wf c.codes = true) (a : Reg) (v : Byte) :
    (c.put a v).regs.wf (c.put a v).codes = true := Memory.wf_write hm (Nat.le_of_lt_succ a.isLt) v

/-- Ending a command raises the idle flag where it was a Transceive, and writes no other register (R48(a), R75). -/
theorem get_endCommand (hm : c.regs.wf c.codes = true) (a : Reg) :
    c.endCommand.get a = if c.active = some c.codes.cmdTransceive ∧ a = c.codes.regComIrq then
      c.get a ||| c.codes.idleIrq else c.get a := by
  by_cases ht : c.active = some c.codes.cmdTransceive
  · have he : c.endCommand.get a = (c.raise c.codes.regComIrq c.codes.idleIrq).get a := by
      rw [endCommand, if_pos ht]
      rfl
    rw [he, raise, get_put hm]
    by_cases ha : a = c.codes.regComIrq
    · simp [ha, ht]
    · simp [ha]
  · simp only [endCommand, ht, if_false, false_and]
    rfl

theorem poweredDown_eq_false : c.poweredDown = false ↔
    c.resetPinHigh = true ∧ anySet (c.get c.codes.regCommand) c.codes.powerDown = false := by
  simp [poweredDown]

theorem write_command (hp : c.poweredDown = false) (v : Byte) :
    c.write c.codes.regCommand v = c.writeCommand v :=
  (if_neg (Bool.eq_false_iff.1 hp)).trans (if_pos rfl)

theorem write_fifoLevel (hp : c.poweredDown = false) (hd : c.codes.addressesDistinct = true) {v : Byte}
    (hv : anySet v c.codes.flush = true) : c.write c.codes.regFIFOLevel v = { c with fifo := [] } :=
  (if_neg (Bool.eq_false_iff.1 hp)).trans <| (if_neg (Codes.addr_ne hd .fifoLevel .command nofun)).trans <|
    (if_neg (Codes.addr_ne hd .fifoLevel .comIrq nofun)).trans <|
    (if_neg (Codes.addr_ne hd .fifoLevel .divIrq nofun)).trans <|
    (if_neg (Codes.addr_ne hd .fifoLevel .fifoData nofun)).trans <| (if_pos rfl).trans (if_pos hv)

theorem endCommand_resetPinHigh (c : Chip) : c.endCommand.resetPinHigh = c.resetPinHigh := by
  unfold endCommand
  split
  · rfl
  · rfl

theorem endCommand_fifoSize (c : Chip) : c.endCommand.fifoSize = c.fifoSize := by
  unfold endCommand
  split
  · rfl
  · rfl

/-- A byte with bit 7 clear clears the flags written as 1 (R34, R35). -/
theorem writeFlags_clear (a : Reg) {v : Byte} (hv : v.getLsbD 7 = false) :
    c.writeFlags a v = c.put a (c.get a &&& ~~~ (v &&& c.codes.irqAll7)) := by
  rw [writeFlags, if_neg (Bool.eq_false_iff.1 hv)]

theorem KeepsOff.selftestOn_eq {as : List RegName} {d : Chip} (h : KeepsOff as c d)
    (hk : c.codes = Config.codes) (ha : Config.regAutoTest ∉ as.map Config.codes.addr) :
    d.selftestOn = c.selftestOn := by
  rw [selftestOn, selftestOn, h.codes_eq, hk, h.get_eq ha]

/-- What stands in the result registers and the flag register once CalcCRC has stored them. -/
theorem get_crcResults (hm : c.regs.wf c.codes = true) (hd : c.codes.addressesDistinct = true)
    (lo hi m : Byte) {d : Chip} (h : d = (((c.put c.codes.regCRCResultL lo).put c.codes.regCRCResultH hi).raise
      c.codes.regDivIrq m)) :
    d.get c.codes.regDivIrq = c.get c.codes.regDivIrq ||| m ∧ d.get c.codes.regCRCResultL = lo ∧
      d.get c.codes.regCRCResultH = hi := by
  have hld : c.codes.regDivIrq ≠ c.codes.regCRCResultL := Codes.addr_ne hd .divIrq .crcResultL nofun
  have hhd : c.codes.regDivIrq ≠ c.codes.regCRCResultH := Codes.addr_ne hd .divIrq .crcResultH nofun
  have hlh : c.codes.regCRCResultL ≠ c.codes.regCRCResultH := Codes.addr_ne hd .crcResultL .crcResultH nofun
  have get₁ := get_put (wf_put hm c.codes.regCRCResultL lo) c.codes.regCRCResultH
  have get₂ := get_put (wf_put (wf_put hm c.codes.regCRCResultL lo) c.codes.regCRCResultH hi) c.codes.regDivIrq
  subst h
  simp [raise, get₂, get₁, get_put hm, hld, hhd, hlh, hld.symm, hhd.symm]

/-- CalcCRC where it is no self-test and the preset is that of CRC_A (R74, R116, R336 row 9). -/
theorem calcCrc_results (hk : c.codes = Config.codes) (hm : c.regs.wf c.codes = true)
    (hs : c.selftestOn = false) (hmode : c.get Config.regMode = 0x3D#8) :
    c.calcCrc.fifo = [] ∧ c.calcCrc.active = c.active ∧ c.calcCrc.resetPinHigh = c.resetPinHigh ∧
      (c.calcCrc.get Config.regDivIrq).getLsbD 2 = true ∧
      [c.calcCrc.get Config.regCRCResultL, c.calcCrc.get Config.regCRCResultH] = crcABytes c.fifo := by
  have he : c.calcCrc = ((({ c with fifo := [] }.put c.codes.regCRCResultL
        ((crcFrom Config.crcAPreset c.fifo).setWidth 8)).put c.codes.regCRCResultH
        ((crcFrom Config.crcAPreset c.fifo >>> 8).setWidth 8)).raise c.codes.regDivIrq c.codes.crcIrq) := by
    have hp : crcPreset (c.get c.codes.regMode) = Config.crcAPreset := by rw [hk, hmode]; rfl
    rw [calcCrc, if_neg (Bool.eq_false_iff.1 hs), hp]
    rfl
  obtain ⟨hirq, hlo, hhi⟩ := get_crcResults (c := { c with fifo := [] }) hm (by rw [hk]; decide) _ _ _ he
  simp only [hk] at hirq hlo hhi
  refine ⟨by rw [he]; rfl, by rw [he]; rfl, by rw [he]; rfl, ?_, ?_⟩
  · rw [hirq, BitVec.getLsbD_or, Bool.or_eq_true]
    exact .inr rfl
  · rw [hlo, hhi]
    rfl

/-- The registers CALC_CRC writes once the running command has ended. -/
def crcRegs : List RegName := [.command, .divIrq, .crcResultL, .crcResultH]

/-- The chip with its command ended, once Idle is written: line 1 of R150. -/
def crcStopped (c : Chip) : Chip := { c.put c.codes.regCommand 0x00#8 with active := none }

/-- The same chip with its flag cleared and the data in its FIFO: lines 2 to 4. -/
def crcLoaded (c : Chip) (data : List Byte) : Chip :=
  { c.crcStopped.put c.codes.regDivIrq
      (c.crcStopped.get c.codes.regDivIrq &&& ~~~ (0x04#8 &&& c.codes.irqAll7)) with fifo := data }

/-- The same chip given the command of line 5. -/
def crcStarted (c : Chip) (data : List Byte) : Chip :=
  { (c.crcLoaded data).put c.codes.regCommand 0x03#8 with active := some Config.cmdCalcCRC, armed := false }

theorem crcLoaded_keepsOff (h : KeepsOff crcRegs c c) (data : List Byte) :
    KeepsOff crcRegs c (c.crcLoaded data) :=
  have stopped : KeepsOff crcRegs c c.crcStopped :=
    h.put (List.mem_map_of_mem (a := RegName.command) (by decide)) _
  stopped.put (List.mem_map_of_mem (a := RegName.divIrq) (by decide)) _

theorem crcStarted_keepsOff (h : KeepsOff crcRegs c c) (data : List Byte) :
    KeepsOff crcRegs c (c.crcStarted data) :=
  have loaded := crcLoaded_keepsOff h data
  KeepsOff.put loaded (List.mem_map_of_mem (a := RegName.command) (by decide)) _

/-- A write of Idle ends the running command and starts none (R32, R48(a)). -/
theorem write_idle (hk : c.codes = Config.codes) (hp : c.poweredDown = false) :
    c.write c.codes.regCommand 0x00#8 = c.endCommand.crcStopped := by
  rw [write_command hp]
  simp [writeCommand, crcStopped, endCommand_codes, hk, anySet]

/-- A write of CalcCRC with no command running starts it on the bytes in the FIFO (R74). -/
theorem write_calcCrc (hk : c.codes = Config.codes) (hp : c.poweredDown = false) (ha : c.active = none) :
    c.write c.codes.regCommand 0x03#8 =
      { c.put c.codes.regCommand 0x03#8 with active := some Config.cmdCalcCRC, armed := false }.calcCrc := by
  rw [write_command hp]
  simp [writeCommand, endCommand, ha, hk, anySet]
  rfl

/-- Lines 2 to 5 of R150 as the contract chip takes them, its command ended. -/
theorem crcLoad_answers (hk : c.codes = Config.codes) (hm : c.regs.wf c.codes = true)
    (hpin : c.resetPinHigh = true) {data : List Byte} (hlen : data.length ≤ c.fifoSize) {ts : List Talk}
    {d : Chip} (h : (c.crcStarted data).calcCrc.Answers ts d) :
    c.crcStopped.Answers
      (talkWr c.codes.regDivIrq 0x04#8 :: talkWr c.codes.regFIFOLevel 0x80#8 ::
        talkWrb c.codes.regFIFOData data :: talkWr c.codes.regCommand 0x03#8 :: ts) d := by
  have hdist : c.codes.addressesDistinct = true := by rw [hk]; decide
  have hflush : anySet 0x80#8 c.codes.flush = true := by rw [hk]; rfl
  have hms := wf_put hm c.codes.regCommand 0x00#8
  have hstopped : c.crcStopped.poweredDown = false :=
    poweredDown_eq_false.2 ⟨hpin, by
      have hcmd : c.crcStopped.get c.crcStopped.codes.regCommand = 0x00#8 :=
        (get_put hm _ _ _).trans (if_pos rfl)
      rw [hcmd, anySet, BitVec.zero_and]
      rfl⟩
  have hcleared : (c.crcStopped.put c.codes.regDivIrq
      (c.crcStopped.get c.codes.regDivIrq &&& ~~~ (0x04#8 &&& c.codes.irqAll7))).poweredDown = false :=
    (poweredDown_put hms (Codes.addr_ne hdist .divIrq .command nofun) _).trans hstopped
  refine .write ((write_flags hstopped hdist (.inr rfl) _).trans (writeFlags_clear _ rfl)) <|
    .write (write_fifoLevel hcleared hdist hflush) <|
    .writes (writes_fifoData (c := c.crcLoaded []) hdist data hcleared ((Nat.zero_add _).trans_le hlen)) <|
    .write (write_calcCrc (c := c.crcLoaded data) hk hcleared rfl) h

/-- Lines 1 to 5 of R150 as the contract chip takes them. -/
theorem crcStart_answers (hk : c.codes = Config.codes) (hm : c.regs.wf c.codes = true)
    (hp : c.poweredDown = false) {data : List Byte} (hlen : data.length ≤ c.fifoSize) {ts : List Talk}
    {d : Chip} (h : (c.endCommand.crcStarted data).calcCrc.Answers ts d) :
    c.Answers (crcStart data ++ ts) d := by
  have hke : c.endCommand.codes = Config.codes := c.endCommand_codes.trans hk
  have hme : c.endCommand.regs.wf c.endCommand.codes = true :=
    ((KeepsOff.refl hk hm).endCommand (mem_drivenRegs _ .comIrq)).wf
  have hpin := c.endCommand_resetPinHigh.trans (poweredDown_eq_false.1 hp).1
  have hload := crcLoad_answers hke hme hpin (hlen.trans_eq c.endCommand_fifoSize.symm) h
  rw [hke] at hload
  have hidle := write_idle hk hp
  rw [hk] at hidle
  exact .write hidle hload

/-- The chip once CalcCRC has run: what it holds, and that it answers as a chip awake (R74). -/
theorem crcDone_reads (hk : c.codes = Config.codes) (hm : c.regs.wf c.codes = true)
    (hpin : c.resetPinHigh = true) (hself : c.selftestOn = false) (hmode : c.get Config.regMode = 0x3D#8)
    (data : List Byte) {d : Chip} (hd : d = (c.crcStarted data).calcCrc) :
    KeepsOff crcRegs c d ∧ d.fifo = [] ∧ (d.get Config.regDivIrq).getLsbD 2 = true ∧
      [d.get Config.regCRCResultL, d.get Config.regCRCResultH] = crcABytes data ∧
      ∀ a ∉ [Config.regFIFOData, Config.regFIFOLevel], ∀ free, d.readReg a free = (d.get a, d) := by
  have hstart : KeepsOff crcRegs c (c.crcStarted data) := crcStarted_keepsOff (.refl hk hm) data
  have hcmd : (c.crcStarted data).get c.codes.regCommand = 0x03#8 :=
    (get_put (crcLoaded_keepsOff (.refl hk hm) data).wf _ _ _).trans (if_pos rfl)
  rw [hk] at hcmd
  obtain ⟨hfifo, hact, hpin', hirq, hcrc⟩ := calcCrc_results hstart.codes_eq hstart.wf
    ((hstart.selftestOn_eq hk (by decide)).trans hself) ((hstart.get_eq (by decide)).trans hmode)
  have hkeep : KeepsOff [.crcResultL, .crcResultH, .divIrq] (c.crcStarted data) (c.crcStarted data).calcCrc :=
    (KeepsOff.refl hstart.codes_eq hstart.wf).calcCrc (by decide) (by decide) (by decide)
  have hdone : KeepsOff crcRegs c (c.crcStarted data).calcCrc :=
    hstart.calcCrc (by decide) (by decide) (by decide)
  rw [← hd] at hfifo hact hpin' hirq hcrc hkeep hdone
  have hawake : d.poweredDown = false := by
    refine poweredDown_eq_false.2 ⟨hpin'.trans hpin, ?_⟩
    rw [hdone.codes_eq, hkeep.get_eq (by decide), hcmd]
    rfl
  have hactive : d.active = some Config.cmdCalcCRC := hact
  have hund : d.undescribed = false := by simp [undescribed, hactive, hdone.codes_eq]
  refine ⟨hdone, hfifo, hirq, hcrc, fun a ha => readReg_plain hund hawake ?_ ?_⟩
  · rw [hdone.codes_eq]
    exact fun e => ha (by simp [e])
  · rw [hdone.codes_eq]
    exact fun e => ha (by simp [e])

end Chip

/-- The CALC_CRC whose first sample of the flag, and the two result bytes after it, are read of the chip. -/
def Chip.crcRun (c : Chip) : CrcRun :=
  { quiet := []
    last := c.get Config.regDivIrq
    lo := c.get Config.regCRCResultL
    hi := c.get Config.regCRCResultH }

/-- Settles O16: the contract chip takes the five writes, holds the CRC_A of its FIFO and the flag when it is first
read, and only ending the running command touches `ComIrq`. -/
theorem calcCrcGivesCrcA : Obligations.CalcCrcGivesCrcA := by
  intro s data hs hstd ho hsc hlen hm hmode hself hp
  have hk := hstd.codes_eq
  have hend : Chip.KeepsOff [.comIrq] s.env.chip s.env.chip.endCommand :=
    (Chip.KeepsOff.refl hk hm).endCommand (List.mem_map_of_mem (a := RegName.comIrq) (by decide))
  obtain ⟨hdone, hfifo, hirq, hcrc, hread⟩ := Chip.crcDone_reads hend.codes_eq hend.wf
    (s.env.chip.endCommand_resetPinHigh.trans (Chip.poweredDown_eq_false.1 hp).1)
    ((hend.selftestOn_eq hk (by decide)).trans hself) ((hend.get_eq (by decide)).trans hmode) data rfl
  have hstart {ts d} := Chip.crcStart_answers hk hm hp hlen (ts := ts) (d := d)
  generalize (s.env.chip.endCommand.crcStarted data).calcCrc = d at *
  have hrun : d.crcRun.ok = true := by simp [CrcRun.ok, Chip.crcRun, hirq]
  obtain ⟨htalk, hd⟩ : s.env.talks (d.crcRun.talk data) = true ∧
      (s.env.afterTalk (d.crcRun.talk data)).chip = d :=
    hstart (.read (hread _ (by decide)) <| .read (hread _ (by decide)) <| .read (hread _ (by decide)) .nil)
      s.env ho hsc rfl
  refine ⟨_, exec_next_std hs hstd (if_pos hlen) ((calcCrc_done _ hrun data _).last rfl) htalk rfl,
    rfl, ?_, ?_, ?_, ?_⟩
  · exact congrArg (fun bs => statusResult .ok (.bytes bs)) hcrc
  · exact (congrArg Chip.fifo hd).trans hfifo
  · have hget := Chip.get_endCommand hm Config.regComIrq
    simp only [hk, and_true] at hget
    exact (congrArg (Chip.get · _) hd).trans ((hdone.get_eq (by decide)).trans hget)
  · intro a ha
    simp only [List.mem_cons, List.not_mem_nil, or_false, not_or] at ha
    obtain ⟨hcmd, hcom, hdiv, hlow, hhigh⟩ := ha
    have hrest : a ∉ Chip.crcRegs.map Config.codes.addr := by
      simp [Chip.crcRegs, Codes.addr, hcmd, hdiv, hlow, hhigh]
    have hend' : a ∉ [RegName.comIrq].map Config.codes.addr := by simp [Codes.addr, hcom]
    exact (congrArg (Chip.get · a) hd).trans ((hdone.get_eq hrest).trans (hend.get_eq hend'))

end Sys2Proof.Machine
end

section
namespace Sys2Proof

-- Readers: each takes from the front of the bytes what the encoder puts there, and nothing else (R91 to R111).

namespace Read
variable {α β : Type} {bs r : List Byte}

theorem bind_ok {x : Read α} {f : α → Read β} {a : α} (h : x bs = .ok (a, r)) :
    (x >>= f) bs = f a r := by
  simp only [bind, StateT.bind, h, Except.bind]

@[simp] theorem bind_eq_ok {x : Read α} {f : α → Read β} {b : β} :
    (x >>= f) bs = .ok (b, r) ↔ ∃ a rest, x bs = .ok (a, rest) ∧ f a rest = .ok (b, r) := by
  simp only [bind, StateT.bind, Except.bind]
  cases x bs with
  | error e => simp
  | ok y => simp [Prod.ext_iff]

@[simp] theorem pure_eq_ok {a b : α} : (pure a : Read α) bs = .ok (b, r) ↔ a = b ∧ bs = r := by
  simp [pure, StateT.pure, Except.pure]

@[simp] theorem reject_eq_ok {e : DecodeError} {a : α} :
    (reject e : Read α) bs = .ok (a, r) ↔ False := by
  simp [reject]

theorem ite_eq_ok {p : Prop} [Decidable p] {x y : Read α} {a : α} :
    (if p then x else y) bs = .ok (a, r) ↔
      p ∧ x bs = .ok (a, r) ∨ ¬ p ∧ y bs = .ok (a, r) := by
  split <;> simp [*]

end Read

/-- The reader `x` takes the values `ok` admits, each from the bytes `put` gives it and from no others. -/
def Parses {α : Type} (x : Read α) (put : α → List Byte) (ok : α → Prop) : Prop :=
  ∀ bs a r, x bs = .ok (a, r) ↔ ok a ∧ bs = put a ++ r

/-- What follows a reader that is given the bytes of an admitted value. -/
theorem Parses.run {α β : Type} {x : Read α} {put : α → List Byte} {ok : α → Prop} (hx : Parses x put ok)
    {f : α → Read β} {a : α} {r : List Byte} {y : Except DecodeError (β × List Byte)} (ha : ok a)
    (h : f a r = y) : (x >>= f) (put a ++ r) = y :=
  (Read.bind_ok ((hx _ _ _).2 ⟨ha, rfl⟩)).trans h

/-- A last operand, after which no byte is left. -/
theorem Parses.last {α β : Type} {x : Read α} {put : α → List Byte} {ok : α → Prop} (hx : Parses x put ok)
    {g : α → β} {a : α} (ha : ok a) : (x >>= fun a => pure (g a)) (put a) = .ok (g a, []) :=
  Read.bind_ok ((hx _ _ _).2 ⟨ha, (List.append_nil _).symm⟩)

theorem readByte_parses : Parses readByte (fun b => [b]) fun _ => True := by
  intro bs b r
  cases bs <;> simp [readByte]

theorem readBytes_parses (n : Nat) : Parses (readBytes n) (fun l => l) fun l => l.length = n := by
  intro bs l r
  unfold readBytes
  constructor
  · split
    · simp
    · simp only [Except.ok.injEq, Prod.mk.injEq]
      rintro ⟨rfl, rfl⟩
      exact ⟨List.length_take_of_le (by omega), (List.take_append_drop n bs).symm⟩
  · rintro ⟨rfl, rfl⟩
    simp

/-- A reader of one byte, of which `f` says what it answers. -/
theorem oneByte_parses {α : Type} {f : Byte → Read α} {put : α → Byte} {ok : α → Prop}
    (h : ∀ b bs a r, f b bs = .ok (a, r) ↔ (ok a ∧ b = put a) ∧ bs = r) :
    Parses (readByte >>= f) (fun a => [put a]) ok := by
  intro bs a r
  simp only [Read.bind_eq_ok, h, readByte_parses _ _ _]
  constructor
  · rintro ⟨b, rest, ⟨-, rfl⟩, ⟨ha, rfl⟩, rfl⟩
    exact ⟨ha, rfl⟩
  · rintro ⟨ha, rfl⟩
    exact ⟨_, _, ⟨trivial, rfl⟩, ⟨ha, rfl⟩, rfl⟩

/-- A byte tested and then taken for its value. -/
theorem testedByte_parses {α : Type} {p : Byte → Prop} [DecidablePred p] {g : Byte → α}
    {e : Byte → DecodeError} {put : α → Byte} {ok : α → Prop}
    (h : ∀ b a, p b ∧ g b = a ↔ ok a ∧ b = put a) :
    Parses (do let b ← readByte; if p b then pure (g b) else reject (e b)) (fun a => [put a]) ok :=
  oneByte_parses fun b bs a r => by
    rw [← h]
    split <;> simp [*]

/-- A byte of at most `w` bits is the zero extension of its low `w` bits. -/
theorem le_and_setWidth_eq_iff {w : Nat} (hw : w ≤ 8) (b : Byte) (a : BitVec w) :
    b.toNat ≤ 2 ^ w - 1 ∧ b.setWidth w = a ↔ True ∧ b = a.setWidth 8 := by
  have h8 : 2 ^ w ≤ 2 ^ 8 := Nat.pow_le_pow_right (by omega) hw
  have hpos : 0 < 2 ^ w := Nat.two_pow_pos w
  constructor
  · rintro ⟨hb, rfl⟩
    have hlt : b.toNat < 2 ^ w := by omega
    exact ⟨trivial, BitVec.eq_of_toNat_eq
      (by simp [Nat.mod_eq_of_lt hlt, Nat.mod_eq_of_lt b.isLt])⟩
  · rintro ⟨-, rfl⟩
    have ha : a.toNat % 256 = a.toNat := Nat.mod_eq_of_lt (a.isLt.trans_le h8)
    exact ⟨by simpa [ha] using Nat.le_pred_of_lt a.isLt, by simp [hw]⟩

theorem eq_byteOfNat_iff (b : Byte) (n : Nat) : b = byteOfNat n ↔ b.toNat = n % 256 := by
  simp [byteOfNat, ← BitVec.toNat_inj]

theorem readReg_parses : Parses readReg putReg fun _ => True :=
  testedByte_parses (p := (·.toNat ≤ 0x3F)) (le_and_setWidth_eq_iff (by decide))

theorem readCode_parses : Parses readCode (fun c => [c.setWidth 8]) fun _ => True :=
  testedByte_parses (p := (·.toNat ≤ 15)) (le_and_setWidth_eq_iff (by decide))

theorem readBitCount_parses : Parses readBitCount putCount (· ≤ 7) :=
  testedByte_parses (p := (·.toNat ≤ 7)) fun b n => by
    rw [eq_byteOfNat_iff]
    omega

theorem readCount_parses : Parses readCount putCount (· ≤ 255) :=
  oneByte_parses fun b bs n r => by
    simp only [Read.pure_eq_ok, eq_byteOfNat_iff]
    refine and_congr_left fun _ => ?_
    omega

theorem readFlag_parses : Parses readFlag putFlag fun _ => True :=
  oneByte_parses fun b bs flag r => by
    cases flag with
    | false => simp [Read.ite_eq_ok]
    | true =>
      simp only [Read.ite_eq_ok, Read.pure_eq_ok, Read.reject_eq_ok]
      constructor
      · simp
      · rintro ⟨⟨-, rfl⟩, rfl⟩
        simp

theorem readUidSize_parses : Parses readUidSize putUidSize fun n => n = 4 ∨ n = 7 ∨ n = 10 := by
  refine oneByte_parses fun b bs n r => ?_
  constructor
  · simp only [Read.ite_eq_ok, Read.pure_eq_ok, Read.reject_eq_ok]
    rintro (⟨rfl, rfl, rfl⟩ | ⟨-, ⟨rfl, rfl, rfl⟩ | ⟨-, ⟨rfl, rfl, rfl⟩ | ⟨-, ⟨⟩⟩⟩⟩) <;> simp
  · rintro ⟨⟨rfl | rfl | rfl, rfl⟩, rfl⟩ <;> rfl

/-- A length byte, then as many bytes as it says. -/
theorem readList0_parses : Parses readList0 putList0 fun l => l.length ≤ 255 := by
  intro bs l r
  simp only [readList0, Read.bind_eq_ok, readByte_parses _ _ _, readBytes_parses _ _ _ _]
  constructor
  · rintro ⟨b, _, ⟨-, rfl⟩, hb, rfl⟩
    have hl := b.isLt
    exact ⟨by omega, by simp [putList0, byteOfNat, hb]⟩
  · rintro ⟨hl, rfl⟩
    refine ⟨_, _, ⟨trivial, rfl⟩, ?_, rfl⟩
    simp only [byteOfNat, BitVec.toNat_ofNat]
    omega

/-- A byte one less than the length, then the bytes. -/
theorem readList1_parses : Parses readList1 putList1 fun l => 1 ≤ l.length ∧ l.length ≤ 256 := by
  intro bs l r
  simp only [readList1, Read.bind_eq_ok, readByte_parses _ _ _, readBytes_parses _ _ _ _]
  constructor
  · rintro ⟨b, _, ⟨-, rfl⟩, hb, rfl⟩
    have hl := b.isLt
    exact ⟨by omega, by simp [putList1, byteOfNat, hb]⟩
  · rintro ⟨hl, rfl⟩
    refine ⟨_, _, ⟨trivial, rfl⟩, ?_, rfl⟩
    simp only [byteOfNat, BitVec.toNat_ofNat]
    omega

/-- The bytes of a word made of four bytes, least significant first. -/
@[simp] theorem le32_append (b0 b1 b2 b3 : Byte) :
    le32 (b3 ++ b2 ++ b1 ++ b0) = [b0, b1, b2, b3] := by
  have h₁ : (b3 ++ b2 ++ b1 ++ b0).extractLsb' 8 8 = b1 :=
    (BitVec.extractLsb'_append_eq_of_le (by decide)).trans BitVec.extractLsb'_append_eq_right
  have h₂ : (b3 ++ b2 ++ b1 ++ b0).extractLsb' 16 8 = b2 :=
    (BitVec.extractLsb'_append_eq_of_le (by decide)).trans <|
      (BitVec.extractLsb'_append_eq_of_le (by decide)).trans BitVec.extractLsb'_append_eq_right
  have h₃ : (b3 ++ b2 ++ b1 ++ b0).extractLsb' 24 8 = b3 :=
    (BitVec.extractLsb'_append_eq_of_le (by decide)).trans <|
      (BitVec.extractLsb'_append_eq_of_le (by decide)).trans BitVec.extractLsb'_append_eq_left
  simp only [le32, List.cons.injEq, and_true]
  exact ⟨BitVec.extractLsb'_append_eq_right, h₁, h₂, h₃⟩

/-- A word is its four bytes, least significant first. -/
theorem append_le32 (w : Word32) :
    w.extractLsb' 24 8 ++ w.extractLsb' 16 8 ++ w.extractLsb' 8 8 ++ w.extractLsb' 0 8 = w := by
  rw [BitVec.extractLsb'_append_extractLsb'_eq_extractLsb' (start₂ := 24) (start₁ := 16) rfl,
    BitVec.extractLsb'_append_extractLsb'_eq_extractLsb' (start₂ := 16) (start₁ := 8) rfl,
    BitVec.extractLsb'_append_extractLsb'_eq_extractLsb' (start₂ := 8) (start₁ := 0) rfl]
  exact BitVec.extractLsb'_eq_self

theorem readWord32_parses : Parses readWord32 le32 fun _ => True := by
  intro bs w r
  unfold readWord32
  constructor
  · split
    · simp only [Except.ok.injEq, Prod.mk.injEq]
      rintro ⟨rfl, rfl⟩
      simp
    · simp
  · rintro ⟨-, rfl⟩
    simp [le32, append_le32]

/-- An optional operand: absent as the byte 0, present as the byte 1 and what its reader takes. -/
theorem readOption_parses {α : Type} {x : Read α} {put : α → List Byte} {ok : α → Prop}
    {putOpt : Option α → List Byte} (h : Parses x put ok) (hn : putOpt none = [0#8])
    (hs : ∀ a, putOpt (some a) = 1#8 :: put a) :
    Parses (readOption x) putOpt fun o => ∀ a, o = some a → ok a := by
  intro bs o r
  cases o with
  | none => simp [readOption, readFlag_parses _ _ _, putFlag, hn, -bind_pure_comp]
  | some a => simp [readOption, readFlag_parses _ _ _, putFlag, hs, h _ _ _, and_comm, -bind_pure_comp]

theorem readOptByte_parses :
    Parses (readOption readByte) putOptByte fun o => ∀ b, o = some b → True :=
  readOption_parses readByte_parses rfl fun _ => rfl

theorem Uid.wellFormed_iff {u : Uid} : u.wellFormed = true ↔
    u.bytes.length = 10 ∧ (u.size = 4 ∨ u.size = 7 ∨ u.size = 10) := by
  simp [Uid.wellFormed, or_assoc]

theorem readUid_parses : Parses readUid putUid fun u => u.wellFormed = true := by
  intro bs u r
  simp only [Uid.wellFormed_iff, readUid, Read.bind_eq_ok, Read.pure_eq_ok, readBytes_parses _ _ _ _,
    readUidSize_parses _ _ _, readOptByte_parses _ _ _]
  constructor
  · rintro ⟨l, _, ⟨hl, rfl⟩, n, _, ⟨hn, rfl⟩, o, _, ⟨-, rfl⟩, rfl, rfl⟩
    exact ⟨⟨hl, hn⟩, by simp [putUid]⟩
  · rintro ⟨⟨hl, hn⟩, rfl⟩
    refine ⟨u.bytes, _, ⟨hl, ?_⟩, u.size, _, ⟨hn, rfl⟩, u.sak, _, ⟨fun _ _ => trivial, rfl⟩, rfl, rfl⟩
    simp [putUid]

theorem readOptUid_parses :
    Parses (readOption readUid) putOptUid fun o => ∀ u, o = some u → u.wellFormed = true :=
  readOption_parses readUid_parses rfl fun _ => rfl

-- The rows of the tables: what they read is the encoding of what they answer (O2).

/-- Whatever `x` reads after the bytes `pre` is a well-formed instruction of the layer, and these bytes and those
it takes are its encoding. -/
def ReadsRow (l : Layer) (pre : List Byte) (x : Read Instr) : Prop :=
  ∀ bs i r, x bs = .ok (i, r) → i.layer = l ∧ i.wellFormed = true ∧ pre ++ bs = encode i ++ r

namespace ReadsRow
variable {l : Layer} {pre : List Byte} {α : Type}

theorem reject {e : DecodeError} : ReadsRow l pre (reject e) := fun _ _ _ h => nomatch h

theorem pure {i : Instr} (hl : i.layer = l) (hw : i.wellFormed = true) (he : pre = encode i) :
    ReadsRow l pre (pure i) := by
  intro bs j r h
  obtain ⟨rfl, rfl⟩ := Read.pure_eq_ok.1 h
  exact ⟨hl, hw, by rw [he]⟩

theorem read {x : Read α} {f : α → Read Instr} {put : α → List Byte} {ok : α → Prop}
    (hx : Parses x put ok) (hf : ∀ a, ok a → ReadsRow l (pre ++ put a) (f a)) :
    ReadsRow l pre (x >>= f) := by
  intro bs i r h
  obtain ⟨a, rest, ha, hrest⟩ := Read.bind_eq_ok.1 h
  obtain ⟨hok, rfl⟩ := (hx bs a rest).1 ha
  simpa using hf a hok rest i r hrest

/-- A row is taken where the first byte is its code. -/
theorem row {b c : Byte} {x y : Read Instr} (hx : ReadsRow l [c] x) (hy : ReadsRow l [b] y) :
    ReadsRow l [b] (if b = c then x else y) := by
  split
  · subst b
    exact hx
  · exact hy

end ReadsRow

theorem decodeOp_reads : ReadsRow .op [] decodeOp :=
  .read readByte_parses fun _ _ =>
  .row (.read readReg_parses fun a _ => .read readByte_parses fun v _ => .pure rfl rfl rfl) <|
  .row (.read readReg_parses fun a _ => .read readList0_parses fun vs hv =>
    .pure rfl (decide_eq_true hv) rfl) <|
  .row (.read readReg_parses fun a _ => .pure rfl rfl rfl) <|
  .row (.read readReg_parses fun a _ => .read readCount_parses fun n hn =>
    .read readBitCount_parses fun rx hrx => .read readByte_parses fun m _ =>
      .pure rfl (by simp [Instr.wellFormed, bitCountOk, hn, hrx]) rfl) <|
  .row (.read readReg_parses fun a _ => .read readByte_parses fun m _ => .pure rfl rfl rfl) <|
  .row (.read readReg_parses fun a _ => .read readByte_parses fun m _ => .pure rfl rfl rfl) <|
  .row (.read readList0_parses fun d hd => .pure rfl (decide_eq_true hd) rfl) <|
  .row (.read readCode_parses fun c _ => .read readByte_parses fun w _ =>
    .read readList1_parses fun d hd => .read readFlag_parses fun want _ =>
      .read readBitCount_parses fun tx htx => .read readBitCount_parses fun rx hrx =>
        .read readFlag_parses fun crc _ => .read readByte_parses fun m _ =>
          .pure rfl (by simp [Instr.wellFormed, someBytes, bitCountOk, hd, htx, hrx]) rfl) <|
  .row (.read readList1_parses fun d hd => .read readFlag_parses fun want _ =>
    .read readBitCount_parses fun tx htx => .read readBitCount_parses fun rx hrx =>
      .read readFlag_parses fun crc _ => .read readByte_parses fun m _ =>
        .pure rfl (by simp [Instr.wellFormed, someBytes, bitCountOk, hd, htx, hrx]) rfl) <|
  .row (.pure rfl rfl rfl) <|
  .row (.pure rfl rfl rfl) <|
  .row (.read readOptUid_parses fun u hu => .read readByte_parses fun k _ =>
    .pure rfl (by cases u with | none => rfl | some u => exact hu u rfl) rfl) <|
  .row (.pure rfl rfl rfl) <|
  .row (.read readByte_parses fun c _ => .read readByte_parses fun blk _ =>
    .read (readBytes_parses 6) fun key hk => .read readUid_parses fun u hu =>
      .pure rfl (by simp [Instr.wellFormed, hk, hu]) rfl) <|
  .row (.pure rfl rfl rfl) <|
  .row (.read readList1_parses fun d hd => .read readFlag_parses fun accept _ =>
    .pure rfl (by simp [Instr.wellFormed, someBytes, hd]) rfl) <|
  .row (.read readByte_parses fun blk _ => .pure rfl rfl rfl) <|
  .row (.read readByte_parses fun blk _ => .read readList0_parses fun d hd =>
    .pure rfl (decide_eq_true hd) rfl) <|
  .row (.read readByte_parses fun page _ => .read readList0_parses fun d hd =>
    .pure rfl (decide_eq_true hd) rfl) <|
  .row (.read readByte_parses fun blk _ => .read readWord32_parses fun x _ => .pure rfl rfl rfl) <|
  .row (.read readByte_parses fun blk _ => .read readWord32_parses fun x _ => .pure rfl rfl rfl) <|
  .row (.read readByte_parses fun blk _ => .pure rfl rfl rfl) <|
  .row (.read readByte_parses fun blk _ => .pure rfl rfl rfl) <|
  .row (.read readByte_parses fun blk _ => .pure rfl rfl rfl) <|
  .row (.read readByte_parses fun blk _ => .read readWord32_parses fun x _ => .pure rfl rfl rfl)
  .reject

theorem decodeChipCmd_reads : ReadsRow .chipCmd [] decodeChipCmd :=
  .read readByte_parses fun _ _ =>
  .row (.pure rfl rfl rfl) <| .row (.pure rfl rfl rfl) <| .row (.pure rfl rfl rfl) <|
  .row (.pure rfl rfl rfl) <| .row (.pure rfl rfl rfl) <| .row (.pure rfl rfl rfl) <|
  .row (.pure rfl rfl rfl) <| .row (.pure rfl rfl rfl) <| .row (.pure rfl rfl rfl) <|
  .row (.pure rfl rfl rfl) .reject

theorem selOk_of {known : Nat} {window : List Byte} (hk : known ≤ 255) (hw : window.length = 4) :
    selOk known window = true := by
  simp [selOk, hk, hw]

theorem decodePicc_reads : ReadsRow .picc [] decodePicc :=
  .read readByte_parses fun _ _ =>
  .row (.pure rfl rfl rfl) <|
  .row (.pure rfl rfl rfl) <|
  .row (.read readCount_parses fun k hk => .read (readBytes_parses 4) fun w hw =>
    .pure rfl (selOk_of hk hw) rfl) <|
  .row (.read readCount_parses fun k hk => .read (readBytes_parses 4) fun w hw =>
    .pure rfl (selOk_of hk hw) rfl) <|
  .row (.read readCount_parses fun k hk => .read (readBytes_parses 4) fun w hw =>
    .pure rfl (selOk_of hk hw) rfl) <|
  .row (.pure rfl rfl rfl) <|
  .row (.read readByte_parses fun blk _ => .read (readBytes_parses 6) fun key hk =>
    .read (readBytes_parses 4) fun t ht => .pure rfl (by simp [Instr.wellFormed, hk, ht]) rfl) <|
  .row (.read readByte_parses fun blk _ => .read (readBytes_parses 6) fun key hk =>
    .read (readBytes_parses 4) fun t ht => .pure rfl (by simp [Instr.wellFormed, hk, ht]) rfl) <|
  .row (.read readByte_parses fun blk _ => .pure rfl rfl rfl) <|
  .row (.read readByte_parses fun blk _ => .read (readBytes_parses 16) fun d hd =>
    .pure rfl (beq_iff_eq.2 hd) rfl) <|
  .row (.read readByte_parses fun page _ => .read (readBytes_parses 4) fun d hd =>
    .pure rfl (beq_iff_eq.2 hd) rfl) <|
  .row (.read readByte_parses fun blk _ => .read readWord32_parses fun x _ => .pure rfl rfl rfl) <|
  .row (.read readByte_parses fun blk _ => .read readWord32_parses fun x _ => .pure rfl rfl rfl) <|
  .row (.read readByte_parses fun blk _ => .pure rfl rfl rfl) <|
  .row (.read readByte_parses fun blk _ => .pure rfl rfl rfl)
  .reject

-- Frames (R91 to R95), whose decoders take all the bytes.

theorem eq_addrByte_addrOf : ∀ b : Byte,
    b.getLsbD 0 = true ∨ b = addrWrite (addrOf b) ∨ b = addrRead (addrOf b) := by decide

/-- An address byte is the one of a write or of a read; a byte whose bit 0 is set is none (R91). -/
theorem addressByte_cases (b : Byte) :
    b.getLsbD 0 = true ∨ (∃ a, b = addrWrite a) ∨ ∃ a, b = addrRead a :=
  (eq_addrByte_addrOf b).imp_right <| Or.imp (fun h => ⟨_, h⟩) fun h => ⟨_, h⟩

theorem getLsbD_zero_addrWrite : ∀ a : Reg, (addrWrite a).getLsbD 0 = false := by decide
theorem getLsbD_zero_addrRead : ∀ a : Reg, (addrRead a).getLsbD 0 = false := by decide
theorem addrRead_ne_zero : ∀ a : Reg, addrRead a ≠ 0#8 := by decide

section
variable {a : Reg} {i : Instr} {r : List Byte}

theorem decodeXfer_addrWrite {v : Byte} : decodeXfer [addrWrite a, v] = .ok (.xferWr a v, []) := by
  simp [decodeXfer, getLsbD_zero_addrWrite, -BitVec.getLsbD_eq_getElem]

theorem decodeXfer_addrRead_eq_ok {v : Byte} :
    decodeXfer [addrRead a, v] = .ok (i, r) ↔ v = 0#8 ∧ .xferRd a = i ∧ [] = r := by
  by_cases hv : v = 0#8 <;>
    simp [decodeXfer, getLsbD_zero_addrRead, hv, -BitVec.getLsbD_eq_getElem]

theorem decodeBurst_addrWrite {vs : List Byte} :
    decodeBurst (addrWrite a :: vs) = .ok (.xferWrb a vs, []) := by
  simp [decodeBurst, getLsbD_zero_addrWrite, -BitVec.getLsbD_eq_getElem]

/-- The frame of a burst read in the form its decoder tests (R95). -/
theorem encode_xferRdb {n : Nat} (hn : n ≠ 0) :
    encode (.xferRdb a n) = List.replicate n (addrRead a) ++ [0#8] := by
  obtain ⟨m, rfl⟩ := Nat.exists_eq_succ_of_ne_zero hn
  rfl

theorem decodeBurst_addrRead_eq_ok {vs : List Byte} : decodeBurst (addrRead a :: vs) = .ok (i, r) ↔
    vs ≠ [] ∧ i = .xferRdb a vs.length ∧ addrRead a :: vs = encode i ∧ r = [] := by
  have hvs (h : addrRead a :: vs = List.replicate vs.length (addrRead a) ++ [0#8]) : vs ≠ [] := by
    rintro rfl
    exact addrRead_ne_zero a (by simpa using h)
  simp only [decodeBurst, getLsbD_zero_addrRead, Bool.false_eq_true, if_true, if_false,
    Machine.addrOf_addrRead, Machine.isReadByte_addrRead]
  constructor
  · split
    next h =>
      rintro ⟨⟩
      exact ⟨hvs h, rfl, by rw [encode_xferRdb (mt List.length_eq_zero_iff.1 (hvs h)), ← h], rfl⟩
    next => simp
  · rintro ⟨hne, rfl, h, rfl⟩
    rw [encode_xferRdb (mt List.length_eq_zero_iff.1 hne)] at h
    rw [if_pos h]

end

theorem decodeXfer_reads : ReadsRow .xfer [] decodeXfer := by
  intro bs i r h
  match bs with
  | [b, v] =>
    obtain hb | ⟨a, rfl⟩ | ⟨a, rfl⟩ := addressByte_cases b
    · simp [decodeXfer, hb] at h
    · cases decodeXfer_addrWrite.symm.trans h
      exact ⟨rfl, rfl, rfl⟩
    · obtain ⟨rfl, rfl, rfl⟩ := decodeXfer_addrRead_eq_ok.1 h
      exact ⟨rfl, rfl, rfl⟩
  | [] | [_] | _ :: _ :: _ :: _ => cases h

theorem decodeBurst_reads : ReadsRow .burst [] decodeBurst := by
  intro bs i r h
  match bs with
  | b :: vs =>
    obtain hb | ⟨a, rfl⟩ | ⟨a, rfl⟩ := addressByte_cases b
    · simp [decodeBurst, hb] at h
    · cases decodeBurst_addrWrite.symm.trans h
      exact ⟨rfl, rfl, (List.append_nil _).symm⟩
    · obtain ⟨hne, rfl, he, rfl⟩ := decodeBurst_addrRead_eq_ok.1 h
      exact ⟨rfl, decide_eq_true (List.length_pos_iff.2 hne), he.trans (List.append_nil _).symm⟩
  | [] => cases h

theorem decodePrefix_reads (l : Layer) : ReadsRow l [] (decodePrefix l) :=
  match l with
  | .op => decodeOp_reads
  | .xfer => decodeXfer_reads
  | .burst => decodeBurst_reads
  | .chipCmd => decodeChipCmd_reads
  | .picc => decodePicc_reads

theorem decode_eq_ok {l : Layer} {bs : List Byte} {i : Instr} :
    decode l bs = .ok i ↔ decodePrefix l bs = .ok (i, []) := by
  unfold decode
  split <;> simp_all

-- The rows of the tables: each instruction is read back from its encoding (O1).

theorem decodePrefix_encode (i : Instr) (hw : i.wellFormed = true) :
    decodePrefix i.layer (encode i) = .ok (i, []) := by
  cases i with
  | xferWr => exact decodeXfer_addrWrite
  | xferWrb => exact decodeBurst_addrWrite
  | xferRd => exact decodeXfer_addrRead_eq_ok.2 ⟨rfl, rfl, rfl⟩
  | xferRdb a n =>
    obtain ⟨m, rfl⟩ := Nat.exists_eq_add_of_le' (of_decide_eq_true hw)
    exact decodeBurst_addrRead_eq_ok.2 ⟨by simp [Instr.operandBytes],
      by simp [Instr.operandBytes], rfl, rfl⟩
  | wr | setb | clrb =>
    exact readByte_parses.run trivial <| readReg_parses.run trivial <| readByte_parses.last trivial
  | wrb =>
    exact readByte_parses.run trivial <| readReg_parses.run trivial <|
      readList0_parses.last (of_decide_eq_true hw)
  | rd => exact readByte_parses.run trivial <| readReg_parses.last trivial
  | rdb reg n rx m =>
    simp only [Instr.wellFormed, bitCountOk, Bool.and_eq_true, decide_eq_true_eq] at hw
    exact readByte_parses.run trivial <| readReg_parses.run trivial <| readCount_parses.run hw.1 <|
      readBitCount_parses.run hw.2 <| readByte_parses.last trivial
  | calcCrc => exact readByte_parses.run trivial <| readList0_parses.last (of_decide_eq_true hw)
  | communicate c w d want tx rx crc m =>
    simp only [Instr.wellFormed, someBytes, bitCountOk, Bool.and_eq_true, decide_eq_true_eq] at hw
    obtain ⟨⟨hd, htx⟩, hrx⟩ := hw
    simp only [encode, Instr.operandBytes, List.cons_append, List.nil_append, List.append_assoc]
    exact readByte_parses.run trivial <| readCode_parses.run trivial <| readByte_parses.run trivial <|
      readList1_parses.run hd <| readFlag_parses.run trivial <| readBitCount_parses.run htx <|
        readBitCount_parses.run hrx <| readFlag_parses.run trivial <| readByte_parses.last trivial
  | transceive d want tx rx crc m =>
    simp only [Instr.wellFormed, someBytes, bitCountOk, Bool.and_eq_true, decide_eq_true_eq] at hw
    obtain ⟨⟨hd, htx⟩, hrx⟩ := hw
    simp only [encode, Instr.operandBytes, List.append_assoc]
    exact readByte_parses.run trivial <| readList1_parses.run hd <| readFlag_parses.run trivial <|
      readBitCount_parses.run htx <| readBitCount_parses.run hrx <| readFlag_parses.run trivial <|
        readByte_parses.last trivial
  | select u k =>
    have hu : ∀ v, u = some v → v.wellFormed = true := by
      rintro v rfl
      exact hw
    exact readByte_parses.run trivial <| readOptUid_parses.run hu <| readByte_parses.last trivial
  | auth c blk key u =>
    simp only [Instr.wellFormed, Bool.and_eq_true, beq_iff_eq] at hw
    simp only [encode, Instr.operandBytes, List.cons_append, List.nil_append]
    exact readByte_parses.run trivial <| readByte_parses.run trivial <| readByte_parses.run trivial <|
      (readBytes_parses 6).run hw.1 <| readUid_parses.last hw.2
  | mfTransceive d accept =>
    simp only [Instr.wellFormed, someBytes, Bool.and_eq_true, decide_eq_true_eq] at hw
    exact readByte_parses.run trivial <| readList1_parses.run hw <| readFlag_parses.last trivial
  | mfWrite | ulWrite =>
    exact readByte_parses.run trivial <| readByte_parses.run trivial <|
      readList0_parses.last (of_decide_eq_true hw)
  | mfRead | mfRestore | mfTransfer | mfGetValue | piccMfRead | piccMfRestore | piccMfTransfer =>
    exact readByte_parses.run trivial <| readByte_parses.last trivial
  | mfIncrement | mfDecrement | mfSetValue | piccMfIncrement | piccMfDecrement =>
    exact readByte_parses.run trivial <| readByte_parses.run trivial <| readWord32_parses.last trivial
  | reqa | wupa | hlta | stopCrypto1 | cmdIdle | cmdMem | cmdCalcCRC | cmdTransceive | cmdMFAuthent
  | cmdSoftReset | cmdGenerateRandomID | cmdTransmit | cmdNoCmdChange | cmdReceive | piccReqa | piccWupa
  | piccHlta => rfl
  | piccSelCl1 known w | piccSelCl2 known w | piccSelCl3 known w =>
    simp only [Instr.wellFormed, selOk, Bool.and_eq_true, decide_eq_true_eq, beq_iff_eq] at hw
    exact readByte_parses.run trivial <| readCount_parses.run hw.1 <| (readBytes_parses 4).last hw.2
  | piccAuthKeyA blk key t | piccAuthKeyB blk key t =>
    simp only [Instr.wellFormed, Bool.and_eq_true, beq_iff_eq] at hw
    exact readByte_parses.run trivial <| readByte_parses.run trivial <| (readBytes_parses 6).run hw.1 <|
      (readBytes_parses 4).last hw.2
  | piccMfWrite =>
    exact readByte_parses.run trivial <| readByte_parses.run trivial <|
      (readBytes_parses 16).last (beq_iff_eq.1 hw)
  | piccUlWrite =>
    exact readByte_parses.run trivial <| readByte_parses.run trivial <|
      (readBytes_parses 4).last (beq_iff_eq.1 hw)

/-- Settles O1: each reader takes back the bytes its operand was put as, row by row of the tables. -/
theorem encodedInstructionDecodesBack : Obligations.EncodedInstructionDecodesBack :=
  fun i hw => decode_eq_ok.2 (decodePrefix_encode i hw)

/-- Settles O2: what the readers took, row by row of the tables, is put back as the same bytes. -/
theorem decodedBytesAreTheEncoding : Obligations.DecodedBytesAreTheEncoding := by
  intro l bs i h
  obtain ⟨hl, hw, he⟩ := decodePrefix_reads l bs i [] (decode_eq_ok.1 h)
  exact ⟨by simpa using he.symm, hl, hw⟩

end Sys2Proof
end

section
namespace Sys2Proof.Machine

-- Words and frames of layer L0 (R91 to R95).

/-- Settles O3: the words are the encodings of these instructions. -/
theorem wordsOfTheTablesDecode : Obligations.WordsOfTheTablesDecode :=
  have word (i : Instr) (hw : i.wellFormed = true) : decode i.layer (encode i) = .ok i :=
    encodedInstructionDecodesBack i hw
  ⟨word (.xferWr 0x01#6 0x0C#8) rfl, word (.xferRd 0x04#6) rfl, word (.xferWrb 0x09#6 [0x93#8, 0x20#8]) rfl,
    word (.xferRdb 0x09#6 2) rfl, word .cmdTransceive rfl, word .piccWupa rfl, word .wupa rfl,
    word (.wr 0x01#6 0x0C#8) rfl⟩

/-- Settles O4: by its 64 registers. -/
theorem addressByteLayout : Obligations.AddressByteLayout := by
  unfold Obligations.AddressByteLayout
  decide

theorem Frame.decodes {out : List Byte} (h : Frame out) :
    ∃ j : Instr, decode .xfer out = .ok j ∨ decode .burst out = .ok j := by
  cases h with
  | wr a v => exact ⟨.xferWr a v, .inl (encodedInstructionDecodesBack (.xferWr a v) rfl)⟩
  | wrb a vs => exact ⟨.xferWrb a vs, .inr (encodedInstructionDecodesBack (.xferWrb a vs) rfl)⟩
  | rd a => exact ⟨.xferRd a, .inl (encodedInstructionDecodesBack (.xferRd a) rfl)⟩
  | @rdb a n hn =>
    have hw : (Instr.xferRdb a n).wellFormed = true := decide_eq_true (Nat.one_le_iff_ne_zero.2 hn)
    exact ⟨.xferRdb a n, .inr <|
      (congrArg _ (encode_xferRdb hn).symm).trans (encodedInstructionDecodesBack _ hw)⟩

/-- The exchanges added to the trace are frames. -/
def AddsFrames (s t : State) : Prop :=
  ∃ done : List Exchange, t.env.trace = s.env.trace ++ done ∧ ∀ x ∈ done, Frame x.out

theorem addsFrames_rule : StepRule True AddsFrames where
  trans := by
    rintro s t u ⟨d₁, ht₁, hf₁⟩ ⟨d₂, ht₂, hf₂⟩
    exact ⟨d₁ ++ d₂, by rw [ht₂, ht₁, List.append_assoc], List.forall_mem_append.2 ⟨hf₁, hf₂⟩⟩
  own _ _ _ _ _ _ := ⟨[], (List.append_nil _).symm, by simp⟩
  select _ _ _ := ⟨[], (List.append_nil _).symm, by simp⟩
  exchange h _ := ⟨_, Env.after_trace _ _, by simpa using h⟩

/-- Settles O53: every step of an instruction that exchanges anything exchanges a frame, and frames decode. -/
theorem everyExchangeIsAFrame : Obligations.EveryExchangeIsAFrame := by
  intro i s t h
  obtain ⟨-, hd, r, u, hb, rfl⟩ := exec_next_inv h
  obtain ⟨done, ht, hf⟩ := (Instr.body_keeps addsFrames_rule i hd fun _ _ _ => trivial).answers hb
  exact ⟨done, ht, fun x hx => (hf x hx).decodes⟩

-- Single accesses, for every answer of ENV (R92 to R95, R130 to R133).

theorem exchange_answered {s : State} {out inp : List Byte} (h : s.env.respond out = some inp) :
    Runs (exchange out) s [.put out] inp { s with env := s.env.after out } :=
  fun _ => ⟨rfl, fun q => ⟨q, by simp [exchange, h]⟩⟩

theorem Env.talks_singleton {e : Env} {t : Talk} : e.talks [t] = true ↔
    ∃ inp, e.respond t.frame = some inp ∧ t.agrees inp = true := by
  simp [talks_cons]

/-- An instruction whose body is one exchange ends with what it takes of the answer. -/
theorem exec_exchanges {s : State} (i : Instr) {out inp : List Byte} (f : List Byte → Payload)
    (hs : s.seq = .idle) (hd : domainError s.env.chip.fifoSize s.params.respCap i = none)
    (hb : Instr.body s.config i = do
      let inp ← exchange out
      pure (plainResult (f inp)))
    (hi : s.env.respond out = some inp) : exec i s = .next (s.endedPlain [.put out] (f inp)) := by
  have hr := (exchange_answered (s := s.started i (Instr.opName i)) hi).last
    (f := fun inp => pure (plainResult (f inp))) rfl
  rw [← hb] at hr
  exact exec_next hs hd hr ((Env.talks_singleton (t := .put out)).2 ⟨inp, hi, rfl⟩) rfl

/-- Settles O7: the two framer writes. -/
theorem writeOperationsIssueOneFrame : Obligations.WriteOperationsIssueOneFrame :=
  fun _ _ hs => ⟨fun _ ht => exec_wr hs ht, fun _ hv ht => exec_wrb hs hv ht⟩

/-- Settles O8: the framer's read, where ENV answers the second byte of `inp`. -/
theorem readReturnsSecondByte : Obligations.ReadReturnsSecondByte :=
  fun _ _ inp hs hi => exec_rd hs (Env.talks_singleton.2 ⟨inp, hi, beq_self_eq_true _⟩)

/-- Settles O12: each of the four is one exchange. -/
theorem transportFramesAreExchanged : Obligations.TransportFramesAreExchanged := by
  intro s reg hs
  refine ⟨fun v ht => ?_, fun vs hv ht => ?_, fun inp hi => ?_, fun n inp hn hi => ?_⟩
  · obtain ⟨inp, hi, -⟩ := Env.talks_singleton.1 ht
    exact exec_exchanges (.xferWr reg v) (fun _ => .none) hs rfl rfl hi
  · obtain ⟨inp, hi, -⟩ := Env.talks_singleton.1 ht
    exact exec_exchanges (.xferWrb reg vs) (fun _ => .none) hs (if_pos hv) rfl hi
  · exact exec_exchanges (.xferRd reg) (fun inp => .byte (inp.getD 1 0#8)) hs rfl rfl hi
  · exact exec_exchanges (.xferRdb reg n) (fun inp => .bytes (inp.drop 1)) hs
      (if_neg (Nat.one_le_iff_ne_zero.1 hn)) rfl hi

theorem getLsbD_alignMask (rx k : Nat) : (alignMask rx).getLsbD k = decide (rx ≤ k ∧ k < 8) := by
  have hones : ∀ j, (0xFF#8).getLsbD j = decide (j < 8) := by
    intro j
    exact BitVec.getLsbD_allOnes (v := 8)
  rw [alignMask, BitVec.getLsbD_shiftLeft, hones]
  rw [Bool.eq_iff_iff]
  simp only [Bool.and_eq_true, Bool.not_eq_true', decide_eq_true_eq, decide_eq_false_iff_not]
  omega

/-- The first byte of a burst read, the bits below `rx_align` taken from `merge_in` (R133). -/
theorem mergeFirst_cons (rx : Nat) (mergeIn v : Byte) (vs : List Byte) :
    ∃ m : Byte, mergeFirst rx mergeIn (v :: vs) = m :: vs ∧
      ∀ k, m.getLsbD k = if k < rx then mergeIn.getLsbD k else v.getLsbD k := by
  by_cases h0 : rx = 0
  · subst rx
    exact ⟨v, rfl, by simp⟩
  · refine ⟨_, if_neg h0, fun k => ?_⟩
    rw [BitVec.getLsbD_or, BitVec.getLsbD_and, BitVec.getLsbD_and, BitVec.getLsbD_not, getLsbD_alignMask]
    by_cases hk : k < 8
    · by_cases hkr : k < rx
      · simp [hk, hkr, Nat.not_le.2 hkr]
      · simp [hk, hkr, Nat.not_lt.1 hkr]
    · have h8 : ∀ b : Byte, b.getLsbD k = false := fun b => BitVec.getLsbD_of_ge b k (Nat.not_lt.1 hk)
      simp [h8]

/-- Settles O9: the framer's burst read of the bytes after the first, the first of them merged. -/
theorem burstReadMergesFirstByte : Obligations.BurstReadMergesFirstByte := by
  intro s reg count rx mergeIn hs hcount hrx
  have hd : domainError s.env.chip.fifoSize s.params.respCap (.rdb reg count rx mergeIn) = none := by
    simp [domainError, needCount, needBits, hcount, hrx]
  constructor
  · rintro rfl
    exact exec_next hs hd (Runs.pure _ _) rfl rfl
  · rintro first v vs rfl hi
    obtain ⟨m, hm, hbits⟩ := mergeFirst_cons rx mergeIn v vs
    have ht : s.env.talks (burstTalk reg (v :: vs)) = true :=
      Env.talks_singleton.2 ⟨_, hi, beq_self_eq_true _⟩
    exact ⟨m, exec_next hs hd (((framerRdb_runs reg (v :: vs) rx mergeIn _).val hm).last rfl) ht rfl, hbits⟩

-- CRC_A (R116).

/-- What a byte adds to the CRC register, once it is combined with the register's low byte. -/
def crcSpread (x : Byte) : BitVec 16 :=
  let w : BitVec 16 := (x ^^^ (x <<< 4)).setWidth 16
  (w <<< 8) ^^^ (w <<< 3) ^^^ (w >>> 4)

theorem crcAStep_eq (crc : BitVec 16) (b : Byte) :
    crcAStep crc b = (crc >>> 8) ^^^ crcSpread (b ^^^ crc.setWidth 8) := by
  simp only [crcAStep, crcSpread, BitVec.xor_assoc]

/-- The high byte of what a byte adds is zero for the byte zero only. -/
theorem crcSpread_high : ∀ x : Byte, crcSpread x >>> 8 = 0#16 ↔ x = 0#8 := by decide

theorem ushiftRight_ushiftRight_high (crc : BitVec 16) : crc >>> 8 >>> 8 = 0#16 := by
  rw [← BitVec.shiftRight_add]
  exact BitVec.ushiftRight_eq_zero (by decide)

/-- The high byte after a step is zero exactly where the byte is the register's low byte; the register then moves
down by a byte. -/
theorem crcAStep_high (crc : BitVec 16) (b : Byte) :
    crcAStep crc b >>> 8 = 0#16 ↔ b = crc.setWidth 8 := by
  rw [crcAStep_eq, BitVec.ushiftRight_xor_distrib, ushiftRight_ushiftRight_high, BitVec.zero_xor, crcSpread_high,
    BitVec.xor_eq_zero_iff]

theorem crcAStep_low (crc : BitVec 16) : crcAStep crc (crc.setWidth 8) = crc >>> 8 := by
  rw [crcAStep_eq, BitVec.xor_self, (by decide : crcSpread 0#8 = 0#16), BitVec.xor_zero]

/-- A step leaves zero exactly where the register is the byte with a high byte of zero. -/
theorem crcAStep_eq_zero (crc : BitVec 16) (b : Byte) :
    crcAStep crc b = 0#16 ↔ crc >>> 8 = 0#16 ∧ b = crc.setWidth 8 := by
  constructor
  · intro h
    have hb : b = crc.setWidth 8 := (crcAStep_high crc b).1 (by rw [h]; rfl)
    exact ⟨by rwa [hb, crcAStep_low] at h, hb⟩
  · rintro ⟨h, rfl⟩
    rw [crcAStep_low, h]

/-- Settles O17: the last byte leaves zero where it is the whole register, and the one before it leaves a register
of one byte where it is the low byte. -/
theorem crcOverItsOwnBytesIsZero : Obligations.CrcOverItsOwnBytesIsZero := by
  intro data lo hi
  simp only [crcABytes, crcFrom, List.foldl_append, List.foldl_cons, List.foldl_nil, crcAStep_eq_zero,
    crcAStep_high, List.cons.injEq, and_true]
  refine and_congr_right fun hlo => ?_
  rw [hlo, crcAStep_low]

end Sys2Proof.Machine
end

section
namespace Sys2Proof.Machine

-- MIFARE frames and card commands (R99 to R109, R240 to R266).

section
variable {s : State} {i : Instr} {ts : List Talk} {resp : RespRegs} {crc cmd : Nat} {st : StatusCode}

/-- The state the body of an operation of units 2 to 5 ends in: the exchanges made, the response and poll registers
and the status written (R366). -/
def State.endsBody (s : State) (ts : List Talk) (resp : RespRegs) (crc cmd : Nat) (st : StatusCode) : State :=
  { s with env := s.env.afterTalk ts, resp := resp, crcPoll := crc, cmdPoll := cmd, status := st }

/-- An operation whose body ends so, and what it presents. -/
theorem exec_ended {p : Payload} (hs : s.seq = .idle) (hp : s.standard)
    (hd : domainError s.env.chip.fifoSize s.params.respCap i = none)
    (h : Runs (Instr.body s.config.std i) (s.started i (Instr.opName i)) ts (statusResult st p)
      ((s.started i (Instr.opName i)).endsBody ts resp crc cmd st))
    (ht : s.env.talks ts = true) : exec i s = .next (s.ended ts resp crc cmd st p) :=
  exec_next_std hs hp hd h ht rfl

/-- The same for a body that answers a status and no more. -/
theorem exec_ended_status {x : M StatusCode} (hs : s.seq = .idle) (hp : s.standard)
    (hd : domainError s.env.chip.fifoSize s.params.respCap i = none)
    (h : Runs x (s.started i (Instr.opName i)) ts st ((s.started i (Instr.opName i)).endsBody ts resp crc cmd st))
    (hb : Instr.body s.config.std i = do
      let st ← x
      pure (statusResult st .none))
    (ht : s.env.talks ts = true) : exec i s = .next (s.ended ts resp crc cmd st .none) :=
  exec_ended hs hp hd (hb ▸ h.last rfl) ht

/-- The same for a body that answers a response and no more. -/
theorem exec_ended_response {r : Response} {x : M Response} (hs : s.seq = .idle) (hp : s.standard)
    (hd : domainError s.env.chip.fifoSize s.params.respCap i = none)
    (h : Runs x (s.started i (Instr.opName i)) ts r
      ((s.started i (Instr.opName i)).endsBody ts resp crc cmd r.status))
    (hb : Instr.body s.config.std i = do
      let r ← x
      pure (responseResult r))
    (ht : s.env.talks ts = true) :
    exec i s = .next (s.ended ts resp crc cmd r.status (.response r.bytes r.validBits)) :=
  exec_ended hs hp hd (hb ▸ h.last rfl) ht

end

/-- Settles O33: CALC_CRC and the exchange of MF_TRANSCEIVE, answered or not; the verdict is lines 3 to 7. -/
theorem mifareTransceiveWantsTheAck : Obligations.MifareTransceiveWantsTheAck := by
  intro s payload accept hs hp hsome hfit
  have hd : domainError s.env.chip.fifoSize s.params.respCap (.mfTransceive payload accept) = none := by
    have h0 : payload ≠ [] := List.length_pos_iff.1 hsome
    have h1 : payload.length ≤ s.env.chip.fifoSize - 2 := by omega
    simp [domainError, needSome, needFifo, h0, h1]
  constructor
  · intro r hr ht
    exact exec_ended_status hs hp hd (mfTransceive_answered (p := s.config) r hr payload accept _) rfl ht
  · intro r hr ht
    exact exec_ended_status hs hp hd (mfTransceive_silence (p := s.config) r hr payload accept _) rfl ht

theorem ulWrite_of_four (p : Params) (page d0 d1 d2 d3 : Byte) (rest : List Byte) :
    ulWrite p page (d0 :: d1 :: d2 :: d3 :: rest) =
      call 2 .mfTransceive (mfTransceive p [p.codes.piccUlWrite, page, d0, d1, d2, d3] false) :=
  if_neg (by simp)

/-- Settles O38: each of the four is one call of MF_TRANSCEIVE with its frame. -/
theorem oneFrameWritesAreAcknowledged : Obligations.OneFrameWritesAreAcknowledged := by
  intro s i payload r hs hp hi hr ht
  have hrun (t : State) := mfTransceive_acked (p := s.config) r hr payload false t
  obtain ⟨page, d0, d1, d2, d3, rest, rfl, rfl⟩ | ⟨block, rfl, rfl⟩ |
    ⟨page, d0, d1, d2, d3, rfl, rfl⟩ | ⟨block, rfl, rfl⟩ := hi
  · exact exec_ended_status hs hp rfl ((hrun _).call (line := 2) (op := .mfTransceive))
      (congrArg (· >>= _) (ulWrite_of_four ..)) ht
  · exact exec_ended_status hs hp rfl (hrun _).call rfl ht
  · exact exec_ended_status hs hp rfl (hrun _).call rfl ht
  · exact exec_ended_status hs hp rfl (hrun _).call rfl ht

/-- Settles O39: each of the six is the two frames of its command and its operand. -/
theorem valueOperationsTakeTwoSteps : Obligations.ValueOperationsTakeTwoSteps := by
  rintro s i block x first second r₁ hs hp hi rfl h₁
  obtain ⟨hd, hb⟩ : domainError s.env.chip.fifoSize s.params.respCap i = none ∧ Instr.body s.config.std i =
      twoFrames s.config.std first (le32 x) true >>= (pure <| statusResult · .none) := by
    obtain ⟨rfl, rfl⟩ | ⟨rfl, rfl⟩ | ⟨rfl, rfl, rfl⟩ | ⟨rfl, rfl⟩ | ⟨rfl, rfl⟩ |
      ⟨rfl, rfl, rfl⟩ := hi <;> exact ⟨rfl, rfl⟩
  constructor
  · intro r₂ h₂ ht
    exact exec_ended_status hs hp hd
      (twoFrames_acked (p := s.config) r₁ r₂ h₁ h₂ first (le32 x) true _) hb ht
  · intro r₂ h₂ ht
    exact exec_ended_status hs hp hd
      (twoFrames_silence (p := s.config) r₁ r₂ h₁ h₂ first (le32 x) _) hb ht

/-- MF_WRITE of sixteen bytes or more, both frames acknowledged (R256). -/
theorem mfWrite_acked {p : Params} (r₁ r₂ : MifareRun) (h₁ : r₁.acked p.waitTransceive = true)
    (h₂ : r₂.acked p.waitTransceive = true) (block : Byte) (data : List Byte) (hlen : 16 ≤ data.length)
    (s : State) :
    Runs (mfWrite p.std block data) s (r₁.talk [0xA0#8, block] ++ r₂.talk (data.take 16)) .ok
      (s.endsBody (r₁.talk [0xA0#8, block] ++ r₂.talk (data.take 16))
        ((s.resp.drained [0x0A#8] r₁.answer.control).drained [0x0A#8] r₂.answer.control)
        (r₂.crc.quiet.length + 1) (r₂.answer.comm.quiet.length + 1) .ok) := by
  rw [mfWrite, if_neg (Nat.not_lt.2 hlen)]
  refine ((mfTransceive_acked r₁ h₁ [0xA0#8, block] false _).call.bind
    (mfTransceive_acked r₂ h₂ (data.take 16) false _).call).to rfl ?_
  simp [State.endsBody, Env.afterTalk_append]

theorem valueBlock_append (b0 b1 b2 b3 block : Byte) : valueBlock (b3 ++ b2 ++ b1 ++ b0) block =
    [b0, b1, b2, b3, ~~~ b0, ~~~ b1, ~~~ b2, ~~~ b3, b0, b1, b2, b3, block, ~~~ block, block, ~~~ block] := by
  rw [valueBlock, le32_append]
  rfl

/-- Settles O40: MF_WRITE of the value block, whose sixteen bytes are all it writes. -/
theorem mifareSetValueWritesTheValueBlock : Obligations.MifareSetValueWritesTheValueBlock := by
  intro s block b0 b1 b2 b3 r₁ r₂ hs hp h₁ h₂ ht
  have hw (t : State) := mfWrite_acked (p := s.config) r₁ r₂ h₁ h₂ block
    (valueBlock (b3 ++ b2 ++ b1 ++ b0) block) (Nat.le_refl 16) t
  have h16 : (valueBlock (b3 ++ b2 ++ b1 ++ b0) block).take 16 = [b0, b1, b2, b3, ~~~ b0, ~~~ b1, ~~~ b2,
      ~~~ b3, b0, b1, b2, b3, block, ~~~ block, block, ~~~ block] := by
    rw [valueBlock_append]
    rfl
  rw [h16] at hw
  exact exec_ended hs hp rfl (Runs.goes (Runs.become ((hw _).last rfl))) ht

/-- The state CALC_CRC leaves (R150). -/
def State.crcTaken (s : State) (c : CrcRun) (data : List Byte) : State :=
  { s with env := s.env.afterTalk (c.talk data), crcPoll := c.quiet.length + 1, status := .ok }

/-- A standard frame does what its exchange does once the CRC_A is calculated (R107). -/
theorem standardFrame_runs {p : Params} {c : CrcRun} (hc : c.ok = true) {payload : List Byte}
    {want check : Bool} {s : State} {ts : List Talk} {x : Response} {resp : RespRegs} {crc cmd : Nat}
    {st : StatusCode}
    (h : Runs (transceiveStep p.std (payload ++ c.bytes) want 0 0 check 0#8) (s.crcTaken c payload) ts x
      ((s.crcTaken c payload).endsBody ts resp crc cmd st)) :
    Runs (standardFrame p.std payload want check) s (c.talk payload ++ ts) x
      (s.endsBody (c.talk payload ++ ts) resp crc cmd st) := by
  have hb : Runs (standardFrame p.std payload want check) s (c.talk payload ++ ts) x
      ((s.crcTaken c payload).endsBody ts resp crc cmd st) :=
    (Runs.call (calcCrc_done c hc payload s)).bind h.transceive.call
  exact hb.to rfl (by simp [State.endsBody, State.crcTaken, Env.afterTalk_append])

/-- Settles O42: the short frames are one TRANSCEIVE each, the halt frame a standard frame that wants no answer. -/
theorem shortAndHaltFramesGiveTheExchange : Obligations.ShortAndHaltFramesGiveTheExchange := by
  intro s hs hp
  refine ⟨fun i byte r hi hr ht => ?_, fun c r hc hr ht => ?_, fun c r hc hr ht => ?_⟩
  · have hrun (t : State) := (transceiveStep_ok (p := s.config) r hr [byte] 7 0 0#8 t).transceive
    simp only [mergeFirst_zero] at hrun
    simp only [List.mem_cons, Prod.mk.injEq, List.not_mem_nil, or_false] at hi
    obtain ⟨rfl, rfl⟩ | ⟨rfl, rfl⟩ := hi
    · exact exec_ended_response hs hp rfl (hrun _).call rfl ht
    · exact exec_ended_response hs hp rfl (hrun _).call rfl ht
  · exact exec_ended_response hs hp rfl (standardFrame_runs (payload := [0x50#8, 0x00#8]) hc
      (transceiveStep_silence (p := s.config) r hr _ false false 0 0 0#8 _)) rfl ht
  · exact exec_ended_response hs hp rfl (standardFrame_runs (payload := [0x50#8, 0x00#8]) hc
      (transceiveStep_unanswered (p := s.config) r hr _ _)) rfl ht

/-- The card's read: the command frame, and its answer with a CRC_A that matches (R107). -/
theorem standardFrame_checked {p : Params} (r : ReadRun) (hr : r.ok p.waitTransceive = true)
    (block : Byte) (s : State) :
    Runs (standardFrame p.std [0x30#8, block] true true) s (r.talk block)
      { status := .ok, bytes := r.command.answer.vals, validBits := 0#3 }
      (s.endsBody (r.talk block) (s.resp.drained r.command.answer.vals r.command.answer.control)
        (r.check.quiet.length + 1) (r.command.answer.comm.quiet.length + 1) .ok) := by
  simp only [ReadRun.ok, MifareRun.ok, Bool.and_eq_true, beq_iff_eq] at hr
  obtain ⟨⟨⟨⟨⟨hc, ha⟩, hl⟩, hv⟩, hk⟩, hm⟩ := hr
  obtain ⟨h₁, h₂, h₃⟩ := (AnswerRun.ok_iff _ p.waitTransceive).1 ha
  have h16 : r.command.answer.vals.length - 2 = 16 := by omega
  have ht : r.talk block = r.command.crc.talk [0x30#8, block] ++
      (r.command.answer.talk ([0x30#8, block] ++ r.command.crc.bytes) 0 0 ++
        r.check.talk (r.command.answer.vals.take (r.command.answer.vals.length - 2))) := by
    simp [ReadRun.talk, MifareRun.talk, h16]
  rw [ht]
  exact standardFrame_runs hc (transceiveStep_checked r.command.answer.comm h₁ h₂
    ([0x30#8, block] ++ r.command.crc.bytes) r.command.answer.vals h₃ (by omega)
    r.command.answer.control hv r.check hk (by rw [h16]; exact hm.symm) _)

/-- Settles O43: the read is a standard frame whose answer is checked, the write two acknowledged frames. -/
theorem readAndWriteFramesAreSent : Obligations.ReadAndWriteFramesAreSent := by
  intro s block hs hp
  constructor
  · intro r hr ht
    exact exec_ended_response hs hp rfl (standardFrame_checked (p := s.config) r hr block _) rfl ht
  · intro data r₁ r₂ hlen h₁ h₂ ht
    exact exec_ended_status hs hp (if_pos hlen)
      (twoFrames_acked (p := s.config) r₁ r₂ h₁ h₂ [0xA0#8, block] data false _) rfl ht

-- The frames of a select code, in the terms of Sys2Proof/Safety.lean (R103, R104).

theorem anticollisionFrame_eq (level known : Nat) (hk : known < 32) (w : List Byte) :
    anticollisionFrame (levelByte level) known w = (Window.mk known w).frame level := by
  rw [anticollisionFrame, Window.frame, nvb_eq known hk, bytesKnown]

theorem selectFrame7_eq (level known : Nat) {w : List Byte} (hw : w.length = 4) :
    selectFrame7 (levelByte level) w = (Window.mk known w).select level := by
  rw [selectFrame7, Window.select, List.take_of_length_le hw.le]

/-- Settles O44: each select code is the select command of its level, which opens the anti-collision frame below 32
known bits and the select frame from there on. -/
theorem selectCodesOpenTheirFrames : Obligations.SelectCodesOpenTheirFrames := by
  intro s i level known w0 w1 w2 w3 hs hp hi
  obtain ⟨hd, hb⟩ : domainError s.env.chip.fifoSize s.params.respCap i = none ∧ Instr.body s.config.std i =
      selectCommand s.config.std (levelByte level) known [w0, w1, w2, w3] >>= (pure <| responseResult ·) := by
    simp only [List.mem_cons, Prod.mk.injEq, List.not_mem_nil, or_false] at hi
    obtain ⟨rfl, rfl⟩ | ⟨rfl, rfl⟩ | ⟨rfl, rfl⟩ := hi <;> exact ⟨rfl, rfl⟩
  constructor
  · intro hk r hr ht
    have hrun (t : State) := (transceiveStep_ok (p := s.config) r hr
      ((Window.mk known [w0, w1, w2, w3]).frame level) (known % 8) (known % 8)
      ([w0, w1, w2, w3].getD (known / 8) 0#8) t).transceive
    have hsel : selectCommand s.config.std (levelByte level) known [w0, w1, w2, w3] = _ := if_pos hk
    rw [hsel, anticollisionFrame_eq level known hk] at hb
    exact exec_ended_response hs hp hd (hrun _).call hb ht
  · intro hk r hr ht
    have hsel : selectCommand s.config.std (levelByte level) known [w0, w1, w2, w3] = _ :=
      if_neg (Nat.not_lt.2 hk)
    rw [hsel, selectFrame7_eq level known rfl] at hb
    exact exec_ended_response hs hp hd (standardFrame_ok (p := s.config) r hr _ _) hb ht

-- The authentication frame (R106, R240).

/-- The last four of the `size` bytes, one by one (R240(a)). -/
theorem uidTail_eq {u : Uid} (hu : u.wellFormed = true) : uidTail u =
    [u.bytes.getD (u.size - 4) 0#8, u.bytes.getD (u.size - 3) 0#8, u.bytes.getD (u.size - 2) 0#8,
      u.bytes.getD (u.size - 1) 0#8] := by
  obtain ⟨bytes, size, sak⟩ := u
  obtain ⟨hlen, hsize⟩ := Uid.wellFormed_iff.1 hu
  match bytes, hlen with
  | [_, _, _, _, _, _, _, _, _, _], _ => obtain rfl | rfl | rfl := hsize <;> rfl

theorem domainError_auth (cap respCap : Nat) (cmd block : Byte) {key : List Byte} {u : Uid}
    (hk : key.length = 6) (hu : u.wellFormed = true) : domainError cap respCap (.auth cmd block key u) = none := by
  obtain ⟨hlen, hsize⟩ := Uid.wellFormed_iff.1 hu
  simp [domainError, needUid, needLength, hk, hlen, hsize]

/-- Settles O31: the three hand the same frame to COMMUNICATE and end as it ends, answered or not. -/
theorem authSendsTheTwelveByteFrame : Obligations.AuthSendsTheTwelveByteFrame := by
  intro s cmd block k0 k1 k2 k3 k4 k5 u0 u1 u2 u3 a i payload hs hp hi ha
  have hend {ts : List Talk} {st : StatusCode} {cmdPoll : Nat} (ht : s.env.talks ts = true)
      (h : ∀ t : State, Runs (communicate s.config.std a) t ts { status := st, bytes := [], validBits := 0#3 }
        (t.endsBody ts t.resp.cleared t.crcPoll cmdPoll st)) :
      exec i s = .next (s.ended ts s.resp.cleared s.crcPoll cmdPoll st payload) := by
    subst ha
    obtain ⟨u, hu, rfl, rfl, rfl, rfl, rfl, rfl⟩ | ⟨rfl, rfl, rfl⟩ | ⟨rfl, rfl, rfl⟩ := hi
    · have hframe : authFrame cmd block [k0, k1, k2, k3, k4, k5] (uidTail u) = _ :=
        congrArg (authFrame cmd block [k0, k1, k2, k3, k4, k5]) (uidTail_eq hu)
      have hb : Instr.body s.config.std (.auth cmd block [k0, k1, k2, k3, k4, k5] u) = _ :=
        congrArg (authenticate s.config.std · >>= _) hframe
      have hlast (t : State) : Runs (do goLine 3; let st ← finish st; pure (statusResult st .none)) t []
          (statusResult st .none) { t with status := st } := Runs.go ((finish_runs st t).last rfl)
      refine exec_ended hs hp (domainError_auth _ _ _ _ rfl hu) ?_ ht
      rw [hb]
      exact ((h _).call.bind (hlast _)).to (List.append_nil _) rfl
    · exact exec_ended_response hs hp rfl (h _).call rfl ht
    · exact exec_ended_response hs hp rfl (h _).call rfl ht
  constructor
  · intro r hr ht
    exact hend ht (communicate_unanswered (p := s.config) a r (ha ▸ hr) (ha ▸ rfl))
  · intro r hr ht
    exact hend ht (communicate_timeout (p := s.config) a r (ha ▸ hr))

end Sys2Proof.Machine
end

section
namespace Sys2Proof.Machine

-- Steps that stop at an exchange that fails (R356).

/-- The state in which a transport fault at an exchange of `out` leaves the block: that of `FaultsAt`. -/
def State.stoppedAt (u : State) (out : List Byte) : State := { u with env := u.env.after out, seq := .faulted }

/-- The steps `x` come as far as `u` and stop there at an exchange of `out`, wherever the sequencer stands. -/
def StopsAt {α : Type} (x : M α) (s u : State) (out : List Byte) : Prop :=
  ∀ q, x { s with seq := q } = .error .transport (u.stoppedAt out)

section
variable {α β : Type} {s u : State} {out : List Byte}

theorem exchange_stopsAt (h : s.env.respond out = none) : StopsAt (exchange out) s s out := by
  intro q
  simp [exchange, h, State.stoppedAt]

theorem StopsAt.bind {x : M α} {f : α → M β} (h : StopsAt x s u out) : StopsAt (x >>= f) s u out :=
  fun q => M.bind_error (h q)

/-- A call stops where its body does. -/
theorem StopsAt.call {line : Nat} {op : OpName} {body : M α} (h : StopsAt body s u out) :
    StopsAt (call line op body) s u out := by
  intro q
  have hb := h ((q.atLine line).push op)
  simp [Machine.call, hb]

/-- Steps that run to their end, and then steps that stop. -/
theorem Runs.stopsAt {x : M α} {f : α → M β} {t : State} {ts : List Talk} {a : α} (hx : Runs x s ts a t)
    (ht : s.env.talks ts = true) (hf : StopsAt (f a) t u out) : StopsAt (x >>= f) s u out := by
  intro q
  obtain ⟨-, hrun⟩ := hx ht
  obtain ⟨q', hq⟩ := hrun q
  exact (M.bind_ok hq).trans (hf q')

/-- An instruction whose body stops at an exchange is a transport fault. -/
theorem exec_stopsAt {i : Instr} {x : M Result} (hs : s.seq = .idle)
    (hd : domainError s.env.chip.fifoSize s.params.respCap i = none) (hb : Instr.body s.config i = x)
    (h : StopsAt x (s.started i (Instr.opName i)) u out) :
    exec i s = .fault (.transportFault (u.stoppedAt out)) := by
  have hx : x (s.started i (Instr.opName i)) = _ := h _
  simp only [State.started] at hx
  simp only [exec_eq, runOp, hs, hd, hb, hx]

end

-- The framer where its first exchange fails (R130 to R133).

section
variable {s : State} {a : Reg}

theorem framerWr_stopsAt {v : Byte} (h : s.env.respond (frameWr a v) = none) :
    StopsAt (framerWr a v) s s (frameWr a v) := (exchange_stopsAt h).bind

theorem framerWrb_stopsAt {vs : List Byte} (h : s.env.respond (frameWrb a vs) = none) :
    StopsAt (framerWrb a vs) s s (frameWrb a vs) := (exchange_stopsAt h).bind

theorem framerRd_stopsAt (h : s.env.respond (frameRd a) = none) :
    StopsAt (framerRd a) s s (frameRd a) := (exchange_stopsAt h).bind

theorem framerRdb_stopsAt {n rx : Nat} {m : Byte} (hn : n ≠ 0) (h : s.env.respond (frameRdb a n) = none) :
    StopsAt (framerRdb a n rx m) s s (frameRdb a n) := by
  rw [framerRdb, if_neg hn]
  exact (goLine_runs 2 s).stopsAt rfl (exchange_stopsAt h).bind

-- A read, then a write of the changed value (R134, R135).

/-- What SETB and CLRB have in common, `f` the change of the value read. -/
def framerUpdate (a : Reg) (f : Byte → Byte) : M Unit := do
  let v ← callRd 1 a
  callWr 2 a (f v)

theorem framerSetb_eq (mask : Byte) : framerSetb a mask = framerUpdate a (· ||| mask) := rfl
theorem framerClrb_eq (mask : Byte) : framerClrb a mask = framerUpdate a (· &&& ~~~ mask) := rfl

theorem framerUpdate_runs (f : Byte → Byte) (v : Byte) : Runs (framerUpdate a f) s
    [.get a v, talkWr a (f v)] () { s with env := s.env.afterTalk [.get a v, talkWr a (f v)] } :=
  (callRd_runs 1 a v s).bind (callWr_runs 2 a (f v) _)

/-- A read that fails: the write is not issued. -/
theorem framerUpdate_stopsAt_read {f : Byte → Byte} (h : s.env.respond (frameRd a) = none) :
    StopsAt (framerUpdate a f) s s (frameRd a) := (framerRd_stopsAt h).call.bind

theorem framerUpdate_stopsAt_write {f : Byte → Byte} {v : Byte} (ht : s.env.talks [.get a v] = true)
    (h : (s.env.after (frameRd a)).respond (frameWr a (f v)) = none) :
    StopsAt (framerUpdate a f) s { s with env := s.env.after (frameRd a) } (frameWr a (f v)) :=
  (callRd_runs 1 a v s).stopsAt ht (framerWr_stopsAt h).call

end

/-- Settles O10: both update the register, and differ only in the change they make to the value read. -/
theorem setAndClearBits : Obligations.SetAndClearBits := by
  intro s i reg mask v w hs hi
  obtain ⟨f, rfl, hd, hb⟩ : ∃ f : Byte → Byte, w = f v ∧
      domainError s.env.chip.fifoSize s.params.respCap i = none ∧
      Instr.body s.config i = framerUpdate reg f >>= fun _ => pure (plainResult .none) := by
    obtain ⟨rfl, rfl⟩ | ⟨rfl, rfl⟩ := hi
    · exact ⟨_, rfl, rfl, congrArg (· >>= _) (framerSetb_eq mask)⟩
    · exact ⟨_, rfl, rfl, congrArg (· >>= _) (framerClrb_eq mask)⟩
  refine ⟨fun ht => ?_, fun hr => ?_, fun ht hw => ?_⟩
  · have hrun := (framerUpdate_runs (s := s.started i (Instr.opName i)) (a := reg) f v).last
      (f := fun _ => pure (plainResult .none)) rfl
    exact exec_next hs hd (hb ▸ hrun) ht rfl
  · have hfault := exec_stopsAt hs hd hb (.bind (framerUpdate_stopsAt_read hr))
    exact ⟨_, hfault, rfl⟩
  · have hfault := exec_stopsAt hs hd hb (.bind (framerUpdate_stopsAt_write ht hw))
    exact ⟨_, hfault, rfl⟩

theorem Env.respond_of_closed {e : Env} (h : e.handleOpen = false) (out : List Byte) : e.respond out = none := by
  simp [respond, h]

/-- Settles O48: each of the six has its first exchange before it has written a register. -/
theorem failedExchangeIsAFault : Obligations.FailedExchangeIsAFault := by
  intro s reg hs
  refine ⟨fun hclosed out => Env.respond_of_closed hclosed out, fun i out hi hr => ?_⟩
  have hstop : domainError s.env.chip.fifoSize s.params.respCap i = none ∧
      StopsAt (Instr.body s.config i) (s.started i (Instr.opName i)) (s.started i (Instr.opName i)) out := by
    obtain ⟨v, rfl, rfl⟩ | ⟨vs, rfl, hv, rfl⟩ | ⟨rfl, rfl⟩ | ⟨n, a, m, rfl, hn, hcap, ha, rfl⟩ |
      ⟨m, rfl, rfl⟩ | ⟨m, rfl, rfl⟩ := hi
    · exact ⟨rfl, .bind (framerWr_stopsAt hr)⟩
    · exact ⟨if_pos hv, .bind (framerWrb_stopsAt hr)⟩
    · exact ⟨rfl, .bind (framerRd_stopsAt hr)⟩
    · exact ⟨by simp [domainError, firstReason, needCount, needBits, hcap, ha],
        .bind (framerRdb_stopsAt (Nat.one_le_iff_ne_zero.1 hn) hr)⟩
    · exact ⟨rfl, .bind (framerUpdate_stopsAt_read (f := (· ||| m)) hr)⟩
    · exact ⟨rfl, .bind (framerUpdate_stopsAt_read (f := (· &&& ~~~ m)) hr)⟩
  obtain ⟨hd, hstop⟩ := hstop
  exact ⟨_, exec_stopsAt hs hd rfl hstop, rfl, rfl, rfl, rfl, rfl, rfl⟩

end Sys2Proof.Machine
end

section
namespace Sys2Proof.Machine

-- CALC_CRC as an operation, and operations whose CALC_CRC times out (R150, R151, R365).

/-- Settles O14: the body is CALC_CRC that sees the flag within its budget (R150). -/
theorem calcCrcReturnsTheResult : Obligations.CalcCrcReturnsTheResult :=
  fun _ data r hs hp hlen hr ht => exec_ended hs hp (if_pos hlen) ((calcCrc_done r hr data _).last rfl) ht

/-- Settles O15: the body is CALC_CRC that uses its budget up (R150, R354(a)). -/
theorem calcCrcTimesOut : Obligations.CalcCrcTimesOut :=
  fun _ data q hs hp hlen hq hquiet ht =>
    exec_ended hs hp (if_pos hlen) ((calcCrc_timeout q hquiet hq data _).last rfl) ht

/-- The exchanges of a CALC_CRC that times out. -/
abbrev crcSilence (data q : List Byte) : List Talk := crcStart data ++ q.map (.get Config.regDivIrq)

/-- The steps `x` make the exchanges of a CALC_CRC that times out and no other, write its poll count and Timeout, and
answer `a`. -/
def TimesOut {α : Type} (x : M α) (data q : List Byte) (a : α) : Prop :=
  ∀ s : State, Runs x s (crcSilence data q) a (s.endsBody (crcSilence data q) s.resp 255 s.cmdPoll .timeout)

section
variable {α β : Type} {data q : List Byte} {a : α} {b : β} {x : M α} {f : α → M β}

theorem TimesOut.call {line : Nat} {op : OpName} (h : TimesOut x data q a) :
    TimesOut (call line op x) data q a := fun s => Runs.call (h s)

/-- Only the answer is changed afterwards. -/
theorem TimesOut.last (h : TimesOut x data q a) (hf : f a = pure b) : TimesOut (x >>= f) data q b :=
  fun s => (h s).last hf

/-- Timeout is presented afterwards (R151, R365). -/
theorem TimesOut.presented (h : TimesOut x data q a)
    (hf : f a = present .timeout >>= fun _ => pure b) : TimesOut (x >>= f) data q b := by
  intro s
  refine ((h s).bind ?_).to (List.append_nil _) rfl
  rw [hf]
  exact (present_runs .timeout _).bind (Runs.pure b _)

end

/-- An operation whose body times out so ends so. -/
theorem exec_timesOut {s : State} {i : Instr} {data q : List Byte} {payload : Payload} (hs : s.seq = .idle)
    (hp : s.standard) (hd : domainError s.env.chip.fifoSize s.params.respCap i = none)
    (h : TimesOut (Instr.body s.config.std i) data q (statusResult .timeout payload))
    (ht : s.env.talks (crcSilence data q) = true) :
    exec i s = .next (s.ended (crcSilence data q) s.resp 255 s.cmdPoll .timeout payload) :=
  exec_ended hs hp hd (h _) ht

section
variable {p : Params} {q : List Byte} (hquiet : ∀ n ∈ q, n.getLsbD 2 = false) (hq : q.length = 255)
include hquiet hq

-- What each operation does with a CALC_CRC that times out.

theorem calcCrc_timesOut (data : List Byte) : TimesOut (calcCrc p.std data) data q (.timeout, []) :=
  fun s => calcCrc_timeout q hquiet hq data s

theorem halt_timesOut : TimesOut (halt p.std) [0x50#8, 0x00#8] q .timeout :=
  (calcCrc_timesOut hquiet hq _).call.presented rfl

theorem mfTransceive_timesOut (payload : List Byte) (accept : Bool) :
    TimesOut (mfTransceive p.std payload accept) payload q .timeout :=
  (calcCrc_timesOut hquiet hq payload).call.presented rfl

theorem readCommand_timesOut (block : Byte) : TimesOut (readCommand p.std block) [0x30#8, block] q
    (false, { status := .timeout, bytes := [], validBits := 0#3 }) :=
  (calcCrc_timesOut hquiet hq _).call.presented rfl

theorem mfRead_timesOut (block : Byte) : TimesOut (mfRead p.std block) [0x30#8, block] q (.timeout, []) :=
  (readCommand_timesOut hquiet hq block).last rfl

theorem twoFrames_timesOut (first second : List Byte) (accept : Bool) :
    TimesOut (twoFrames p.std first second accept) first q .timeout :=
  (mfTransceive_timesOut hquiet hq first false).call.presented rfl

theorem mfWrite_timesOut (block : Byte) {data : List Byte} (hlen : 16 ≤ data.length) :
    TimesOut (mfWrite p.std block data) [0xA0#8, block] q .timeout := by
  rw [mfWrite, if_neg (Nat.not_lt.2 hlen)]
  exact (mfTransceive_timesOut hquiet hq _ false).call.presented rfl

theorem ulWrite_timesOut (page d0 d1 d2 d3 : Byte) (rest : List Byte) :
    TimesOut (ulWrite p.std page (d0 :: d1 :: d2 :: d3 :: rest)) [0xA2#8, page, d0, d1, d2, d3] q .timeout := by
  rw [ulWrite_of_four]
  exact (mfTransceive_timesOut hquiet hq _ false).call

theorem standardFrame_timesOut (payload : List Byte) (want check : Bool) :
    TimesOut (standardFrame p.std payload want check) payload q
      { status := .timeout, bytes := [], validBits := 0#3 } :=
  (calcCrc_timesOut hquiet hq payload).call.presented rfl

theorem selectCommand_timesOut (level known : Nat) (hk : 32 ≤ known) {w : List Byte} (hw : w.length = 4) :
    TimesOut (selectCommand p.std (levelByte level) known w) ((Window.mk known w).select level) q
      { status := .timeout, bytes := [], validBits := 0#3 } := by
  rw [selectCommand, if_neg (Nat.not_lt.2 hk), selectFrame7_eq level known hw]
  exact standardFrame_timesOut hquiet hq _ true false

/-- MF_SET_VALUE goes on as MF_WRITE of its value block (R266). -/
theorem mfSetValue_timesOut (block : Byte) (v : Word32) : TimesOut (Instr.body p.std (.mfSetValue block v))
    [0xA0#8, block] q (statusResult .timeout .none) := by
  have hw : TimesOut (mfWrite p.std block (valueBlock v block) >>= (pure <| statusResult · .none))
      [0xA0#8, block] q (statusResult .timeout .none) :=
    (mfWrite_timesOut hquiet hq block (data := valueBlock v block) (Nat.le_refl 16)).last rfl
  exact fun s => Runs.goes (Runs.become (hw s))

/-- MF_GET_VALUE calls MF_READ (R265). -/
theorem mfGetValue_timesOut (block : Byte) : TimesOut (Instr.body p.std (.mfGetValue block)) [0x30#8, block] q
    (statusResult .timeout .none) := (mfRead_timesOut hquiet hq block).call.presented rfl

end

theorem domainError_mfTransceive {cap respCap : Nat} {payload : List Byte} {accept : Bool}
    (hsome : 1 ≤ payload.length) (hfit : payload.length + 2 ≤ cap) :
    domainError cap respCap (.mfTransceive payload accept) = none := by
  have h0 : payload.length ≠ 0 := Nat.ne_of_gt hsome
  have h1 : payload.length ≤ cap - 2 := by omega
  simp only [domainError, needSome, needFifo, if_neg h0, if_pos h1, firstReason_none]

/-- Settles O41: the body of each operation hands the Timeout on; SELECT ends at the level it has reached. -/
theorem crcTimeoutEndsTheOperation : Obligations.CrcTimeoutEndsTheOperation := by
  intro s data q hs hp hq hquiet
  constructor
  · intro i payload hi ht
    suffices h : domainError s.env.chip.fifoSize s.params.respCap i = none ∧
        TimesOut (Instr.body s.config.std i) data q (statusResult .timeout payload) from
      exec_timesOut hs hp h.1 h.2 ht
    obtain ⟨rfl, hi⟩ | ⟨rfl, hi⟩ := hi
    · obtain ⟨rfl, rfl⟩ | ⟨accept, rfl, hsome, hfit⟩ | ⟨block, rfl | rfl, rfl⟩ |
        ⟨block, rest, rfl, hlen, rfl⟩ | ⟨block, v, rfl, rfl⟩ | ⟨page, d0, d1, d2, d3, rest, rfl, rfl⟩ |
        ⟨block, x, rfl | rfl, rfl⟩ | ⟨block, x, rfl | rfl, rfl⟩ | ⟨block, rfl | rfl, rfl⟩ |
        ⟨block, rfl | rfl, rfl⟩ | ⟨block, d, rfl, hlen, rfl⟩ | ⟨page, d0, d1, d2, d3, rfl, rfl⟩ := hi
      · exact ⟨rfl, (halt_timesOut hquiet hq).last rfl⟩
      · exact ⟨domainError_mfTransceive hsome hfit, (mfTransceive_timesOut hquiet hq data accept).last rfl⟩
      · exact ⟨rfl, (mfRead_timesOut hquiet hq block).last rfl⟩
      · exact ⟨rfl, mfGetValue_timesOut hquiet hq block⟩
      · exact ⟨rfl, (mfWrite_timesOut hquiet hq block hlen).last rfl⟩
      · exact ⟨rfl, mfSetValue_timesOut hquiet hq block v⟩
      · exact ⟨rfl, (ulWrite_timesOut hquiet hq page d0 d1 d2 d3 rest).last rfl⟩
      · exact ⟨rfl, (twoFrames_timesOut hquiet hq _ (le32 x) true).last rfl⟩
      · exact ⟨rfl, (twoFrames_timesOut hquiet hq _ (le32 x) true).last rfl⟩
      · exact ⟨rfl, (twoFrames_timesOut hquiet hq _ (le32 x) true).last rfl⟩
      · exact ⟨rfl, (twoFrames_timesOut hquiet hq _ (le32 x) true).last rfl⟩
      · exact ⟨rfl, (twoFrames_timesOut hquiet hq _ (le32 0#32) true).last rfl⟩
      · exact ⟨rfl, (twoFrames_timesOut hquiet hq _ (List.replicate 4 0x00#8) true).last rfl⟩
      · exact ⟨rfl, (mfTransceive_timesOut hquiet hq _ false).call.last rfl⟩
      · exact ⟨rfl, (mfTransceive_timesOut hquiet hq _ false).call.last rfl⟩
      · exact ⟨if_pos hlen, (twoFrames_timesOut hquiet hq _ d false).last rfl⟩
      · exact ⟨rfl, (mfTransceive_timesOut hquiet hq _ false).call.last rfl⟩
    · obtain ⟨rfl, rfl⟩ | ⟨block, rfl, rfl⟩ | ⟨known, level, w0, w1, w2, w3, hk, hi, rfl⟩ := hi
      · exact ⟨rfl, (standardFrame_timesOut hquiet hq _ false false).last rfl⟩
      · exact ⟨rfl, (standardFrame_timesOut hquiet hq _ true true).last rfl⟩
      · have hrun := selectCommand_timesOut (p := s.config) hquiet hq level known hk
          (w := [w0, w1, w2, w3]) rfl
        simp only [List.mem_cons, Prod.mk.injEq, List.not_mem_nil, or_false] at hi
        obtain ⟨rfl, rfl⟩ | ⟨rfl, rfl⟩ | ⟨rfl, rfl⟩ := hi <;> exact ⟨rfl, hrun.last rfl⟩
  · intro u kvb coll before l ts acc w hu hk hb hconf hacc hw hlast ht
    obtain ⟨n, hn, hlevel, hleft⟩ : ∃ n ≤ 2, before.length + 1 = 3 - n ∧ 3 - before.length = n + 1 :=
      ⟨2 - before.length, by omega, by omega, by omega⟩
    rw [hlevel] at hw hlast
    simp only [List.append_assoc] at ht ⊢
    refine exec_select_ends s hp u kvb coll before (ts ++ crcSilence data q) .timeout acc hs hu hk hb hconf ?_ ht
    intro s' hrec hsize hsak
    obtain rfl : w = Window.start u kvb.toNat (3 - n) s'.sel.uidAcc := by rw [hw, hacc, hrec]
    rw [hleft, hacc, ← hrec, ← hsize, ← hsak]
    obtain ⟨hg, hknown, rfl, rfl⟩ | ⟨hl, hv, hvb, rfl, rfl⟩ := hlast
    · exact selectLevels_stopped u kvb.toNat n hn l.rounds s' hsize hg _ .timeout fun t ht =>
        selectRound_select_stops (3 - n) _ t _ .timeout ht hknown (.inl ⟨q, hquiet, hq, rfl, rfl⟩)
    · exact selectLevels_unconfirmed l u kvb.toNat n hn s' hsize hl hv.le _ .timeout (by decide) fun t =>
        confirmLevel_stops _ _ t _ .timeout (.inr ⟨hv, hvb, .inl ⟨q, hquiet, hq, rfl, rfl⟩⟩)

end Sys2Proof.Machine
end

section
namespace Sys2Proof.Machine

-- COMMUNICATE as an operation (R160 to R173).

theorem needFrame_eq_none {d : List Byte} {cap tx rx : Nat} (hsome : 1 ≤ d.length) (hfit : d.length ≤ cap)
    (htx : tx ≤ 7) (hrx : rx ≤ 7) :
    firstReason (needSome d.length) (firstReason (needFifo d.length cap)
      (firstReason (needBits tx) (needBits rx))) = none := by
  have h0 : d.length ≠ 0 := Nat.ne_of_gt hsome
  simp only [needSome, needFifo, needBits, if_neg h0, if_pos hfit, if_pos htx, if_pos hrx, firstReason_none]

/-- The instruction with these operands. -/
abbrev CommArgs.instr (a : CommArgs) : Instr :=
  .communicate a.command a.waitIrq a.sendData a.wantResponse a.txValidBits a.rxAlign a.checkCrc a.rxMerge

/-- The operands are in their domain (R111, R160). -/
structure CommArgs.InDomain (a : CommArgs) (cap : Nat) : Prop where
  some_sent : 1 ≤ a.sendData.length
  fits : a.sendData.length ≤ cap
  tx : a.txValidBits ≤ 7
  rx : a.rxAlign ≤ 7

/-- COMMUNICATE ends as its steps end, its response presented. -/
theorem exec_communicate {s : State} {a : CommArgs} {ts : List Talk} {resp : RespRegs} {crc cmd : Nat}
    {r : Response} (hs : s.seq = .idle) (hp : s.standard) (ha : a.InDomain s.env.chip.fifoSize)
    (h : Runs (communicate s.config.std a) (s.started a.instr .communicate) ts r
      ((s.started a.instr .communicate).endsBody ts resp crc cmd r.status))
    (ht : s.env.talks ts = true) :
    exec a.instr s = .next (s.ended ts resp crc cmd r.status (.response r.bytes r.validBits)) :=
  exec_ended_response hs hp (needFrame_eq_none ha.some_sent ha.fits ha.tx ha.rx) h rfl ht

/-- Settles O18: COMMUNICATE that no flag ends (R166, R167). -/
theorem communicateTimesOut : Obligations.CommunicateTimesOut := by
  intro s a r hs hp hsome hfit htx hrx hr ht
  exact exec_communicate hs hp ⟨hsome, hfit, htx, hrx⟩ (communicate_timeout (p := s.config) a r hr _) ht

/-- Settles O19: the fatal bit is looked at before the drain, the level before the data (R168, R169). -/
theorem communicateErrorAndNoRoom : Obligations.CommunicateErrorAndNoRoom := by
  intro s a r hs hp hsome hfit htx hrx
  constructor
  · intro hlen hquiet hlast herr ht
    exact exec_communicate hs hp ⟨hsome, hfit, htx, hrx⟩ (communicate_error (p := s.config) a r hlen hquiet
      (bne_iff_ne.2 hlast) (bne_iff_ne.2 herr) _) ht
  · intro level hwant hr hlevel ht
    exact exec_communicate hs hp ⟨hsome, hfit, htx, hrx⟩
      (communicate_noRoom (p := s.config) a r hr hwant level hlevel _) ht

/-- Settles O20: with and without a response; the verdict is the collision bit's (R170, R173). -/
theorem communicateCompletes : Obligations.CommunicateCompletes := by
  intro s a r hs hp hsome hfit htx hrx hr
  constructor
  · intro hwant ht
    exact exec_communicate hs hp ⟨hsome, hfit, htx, hrx⟩
      (communicate_unanswered (p := s.config) a r hr hwant _) ht
  · intro vals control hwant hvals hcheck ht
    exact exec_communicate hs hp ⟨hsome, hfit, htx, hrx⟩
      (communicate_drained (p := s.config) a r hr hwant hcheck vals hvals control _) ht

-- The CRC check whose CALC_CRC times out (R151, R172).

/-- A response of two whole bytes or more is checked, and returned whole with Timeout where CALC_CRC uses its budget
up. -/
theorem checkResponse_crcTimeout {p : Params} {q resp : List Byte} (hquiet : ∀ n ∈ q, n.getLsbD 2 = false)
    (hq : q.length = 255) {s : State} (hresp : s.resp.bytes.take s.resp.len = resp) (h2 : 2 ≤ resp.length)
    (hv : s.resp.validBits = 0#3) :
    Runs (checkResponse p.std) s (crcSilence (resp.take (resp.length - 2)) q)
      { status := .timeout, bytes := resp, validBits := 0#3 }
      (s.endsBody (crcSilence (resp.take (resp.length - 2)) q) s.resp 255 s.cmdPoll .timeout) := by
  have hnak : nakShape resp.length 0#3 = false := by simp [nakShape]
  have hshort : tooShortForCrc resp.length 0#3 = false := by
    rw [tooShortForCrc, decide_eq_false (Nat.not_lt.2 h2)]
    rfl
  refine Runs.go (Runs.resp ?_)
  simp only [hresp, hv, hnak, hshort, Bool.false_eq_true, if_false]
  refine Runs.go ?_
  have hcrc := calcCrc_timesOut (p := p) hquiet hq (resp.take (resp.length - 2))
  have hend (t : State) (ht : t.resp = s.resp) : Runs (respond .timeout) t []
      { status := .timeout, bytes := resp, validBits := 0#3 } { t with status := .timeout } :=
    (respond_runs .timeout t).val (by rw [ht, hresp, hv])
  exact ((hcrc.call s).bind (Runs.go (hend (s.endsBody _ s.resp 255 s.cmdPoll .timeout) rfl))).to
    (List.append_nil _) rfl

/-- A response without collision that is to be checked goes on to the check (R170, R171). -/
theorem classify_checks {p : Params} {a : CommArgs} {e : Byte} (hw : a.wantResponse = true)
    (hc : a.checkCrc = true) (he : e.getLsbD 3 = false) {s t : State} {ts : List Talk} {x : Response}
    (h : Runs (checkResponse p.std) s ts x t) : Runs (classify p.std a e) s ts x t := by
  simp only [classify, anySet_errColl, he, hc, hw, Bool.and_self, if_true, Bool.false_eq_true, if_false]
  exact Runs.go (Runs.go h)

theorem communicate_crcTimeout {p : Params} {a : CommArgs} {r : CommRun} (hr : r.ok a.waitIrq = true)
    (hw : a.wantResponse = true) (hc : a.checkCrc = true) (he : r.err.getLsbD 3 = false)
    {vals resp : List Byte} (hvals : vals.length ≤ 64) (hresp : resp = mergeFirst a.rxAlign a.rxMerge vals)
    (h2 : 2 ≤ resp.length) {control : Byte} (hv : control.extractLsb' 0 3 = 0#3) {q : List Byte}
    (hquiet : ∀ n ∈ q, n.getLsbD 2 = false) (hq : q.length = 255) (s : State) :
    Runs (communicate p.std a) s
      (r.talk a ++ drainTalk vals control ++ crcSilence (resp.take (resp.length - 2)) q)
      { status := .timeout, bytes := resp, validBits := 0#3 }
      (s.endsBody (r.talk a ++ drainTalk vals control ++ crcSilence (resp.take (resp.length - 2)) q)
        (s.resp.drained resp control) 255 (r.quiet.length + 1) .timeout) := by
  subst hresp
  refine (communicate_answered a r hr hw vals hvals control s _ _ _ (classify_checks hw hc he
    (checkResponse_crcTimeout hquiet hq (RespRegs.drained_take _ _ _) h2 hv))).to rfl ?_
  simp only [State.endsBody, Env.afterTalk_append]

/-- Settles O21: by the response's shape, and where it can carry a CRC_A by how CALC_CRC ends (R171 to R173). -/
theorem communicateChecksTheCrc : Obligations.CommunicateChecksTheCrc := by
  intro s a r vals resp control hs hp hsome hfit htx hrx hwant hcheck hr herr hvals hresp
  have hd : a.InDomain s.env.chip.fifoSize := ⟨hsome, hfit, htx, hrx⟩
  refine ⟨fun st hst ht => ?_, fun c h2 hv hc ht => ?_, fun q h2 hv hq hquiet ht => ?_⟩
  · rw [hresp, mergeFirst_length] at hst
    subst hresp
    exact exec_communicate hs hp hd
      (communicate_shape (p := s.config) a r hr hwant hcheck herr vals hvals control _ st hst) ht
  · have hlen : 2 ≤ vals.length := by rwa [hresp, mergeFirst_length] at h2
    exact exec_communicate hs hp hd (communicate_checked (p := s.config) a r hr hwant hcheck herr vals hvals
      hlen control hv c hc _ resp hresp _ rfl) ht
  · exact exec_communicate hs hp hd
      (communicate_crcTimeout (p := s.config) hr hwant hcheck herr hvals hresp h2 hv hquiet hq _) ht

/-- Settles O23: TRANSCEIVE whose COMMUNICATE is answered without collision (R173, R175). -/
theorem transceiveReturnsTheAnswer : Obligations.TransceiveReturnsTheAnswer := by
  intro s d tx rx m r hs hp hsome hfit htx hrx hr ht
  exact exec_ended_response (i := .transceive d true tx rx false m) hs hp (needFrame_eq_none hsome hfit htx hrx)
    (transceiveStep_ok (p := s.config) r hr d tx rx m _).transceive rfl ht

end Sys2Proof.Machine
end

section
namespace Sys2Proof.Machine

-- What steps answer does not depend on where the sequencer stands nor on the operand latched (R21, R22).

/-- What steps answer and the state they leave, but for the sequencer and the latched operand, which a reset clears. -/
def answer {α : Type} (x : M α) (s : State) : Option (α × State) :=
  match x s with
  | .ok a t => some (a, resetBlock t)
  | .error _ _ => none

/-- The sequencer and the latched operand steer nothing. -/
def Blind {α : Type} (x : M α) : Prop := ∀ s, answer x s = answer x (resetBlock s)

theorem answer_ok {α : Type} {x : M α} {s t : State} {a : α} (h : x s = .ok a t) :
    answer x s = some (a, resetBlock t) := by
  simp only [answer, h]

theorem answer_error {α : Type} {x : M α} {s t : State} {e : Stop} (h : x s = .error e t) :
    answer x s = none := by
  simp only [answer, h]

theorem answer_eq_some {α : Type} {x : M α} {s t : State} {a : α} :
    answer x s = some (a, t) ↔ ∃ u, x s = .ok a u ∧ t = resetBlock u := by
  cases h : x s with
  | ok b u =>
    rw [answer_ok h]
    constructor
    · rintro ⟨⟩
      exact ⟨u, rfl, rfl⟩
    · rintro ⟨_, ⟨⟩, rfl⟩
      rfl
  | error e u =>
    rw [answer_error h]
    constructor
    · rintro ⟨⟩
    · rintro ⟨_, ⟨⟩, -⟩

namespace Blind
variable {α β : Type}

/-- Blind steps answer the same from states that differ in the sequencer and the latched operand only. -/
theorem congr {x : M α} (hx : Blind x) {s t : State} (h : resetBlock s = resetBlock t) :
    answer x s = answer x t := by
  rw [hx s, h, ← hx t]

/-- Blind steps go on from the answer alone. -/
theorem answer_bind {f : α → M β} (hf : ∀ a, Blind (f a)) (x : M α) (s : State) :
    answer (x >>= f) s = (answer x s).bind fun (a, t) => answer (f a) t := by
  cases h : x s with
  | ok a t =>
    rw [answer_ok h, answer, M.bind_ok h]
    exact hf a t
  | error e t => rw [answer_error h, answer_error (M.bind_error h), Option.bind_none]

/-- A call of blind steps answers as the steps by themselves. -/
theorem answer_call {x : M α} (hx : Blind x) (line : Nat) (op : OpName) (s : State) :
    answer (call line op x) s = answer x s := by
  have hsame : answer x s = answer x { s with seq := (s.seq.atLine line).push op } := hx.congr rfl
  rw [hsame]
  cases h : x { s with seq := (s.seq.atLine line).push op } with
  | ok a u =>
    have hcall : call line op x s = .ok a { u with seq := s.seq.atLine line } := by simp only [Machine.call, h]
    rw [answer_ok h, answer_ok hcall]
    rfl
  | error e u =>
    have hcall : call line op x s = .error e u := by simp only [Machine.call, h]
    rw [answer_error h, answer_error hcall]

theorem bind {x : M α} {f : α → M β} (hx : Blind x) (hf : ∀ a, Blind (f a)) : Blind (x >>= f) := by
  intro s
  rw [answer_bind hf, answer_bind hf, hx s]

theorem call {line : Nat} {op : OpName} {x : M α} (hx : Blind x) : Blind (call line op x) := by
  intro s
  rw [hx.answer_call, hx.answer_call, hx s]

theorem pure (a : α) : Blind (Pure.pure a : M α) := fun _ => rfl

theorem ite {c : Prop} [Decidable c] {x y : M α} (hx : Blind x) (hy : Blind y) :
    Blind (if c then x else y) := by
  split
  · exact hx
  · exact hy

/-- Steps of which only the answer is changed afterwards. -/
theorem map {x : M α} {f : α → β} (hx : Blind x) : Blind (x >>= fun a => Pure.pure (f a)) :=
  hx.bind fun a => pure (f a)

theorem exchange (out : List Byte) : Blind (exchange out) := by
  intro s
  cases h : s.env.respond out with
  | none => simp only [answer, Machine.exchange, resetBlock_env, h, raiseTransportFault_run]
  | some inp =>
    simp only [answer, Machine.exchange, resetBlock_env, h]
    rfl

theorem go {n : Nat} {f : Unit → M α} (h : Blind (f ())) : Blind (goLine n >>= f) :=
  bind (fun _ => rfl) fun _ => h

theorem goes {ns : List Nat} {f : Unit → M α} (h : Blind (f ())) : Blind (goLines ns >>= f) :=
  bind (fun _ => rfl) fun _ => h

theorem present {st : StatusCode} {f : Unit → M α} (h : Blind (f ())) : Blind (Machine.present st >>= f) :=
  bind (fun _ => rfl) fun _ => h

theorem resp {f : RespRegs → M α} (h : ∀ r, Blind (f r)) : Blind (readResp >>= f) := bind (fun _ => rfl) h

end Blind

section
variable {p : Params}

-- The framer, CALC_CRC and COMMUNICATE.

theorem callWr_blind {line : Nat} {a : Reg} {v : Byte} : Blind (callWr line a v) := .call (.map (.exchange _))

theorem framerWrb_blind {a : Reg} {vs : List Byte} : Blind (framerWrb a vs) := .map (.exchange _)

theorem callRd_blind {line : Nat} {a : Reg} : Blind (callRd line a) :=
  .call (.bind (.exchange _) fun _ => .go (.pure _))

theorem framerRdb_blind {a : Reg} {count rxAlign : Nat} {mergeIn : Byte} :
    Blind (framerRdb a count rxAlign mergeIn) :=
  .ite (.pure _) (.go (.bind (.exchange _) fun _ => .goes (.pure _)))

theorem framerSetb_blind {a : Reg} {mask : Byte} : Blind (framerSetb a mask) :=
  .bind callRd_blind fun _ => callWr_blind

theorem respond_blind {st : StatusCode} : Blind (respond st) := .present (.resp fun _ => .pure _)

theorem crcReturn_blind {st : StatusCode} {c : List Byte} : Blind (crcReturn st c) := .present (.pure _)

theorem pollCrc_blind : ∀ k, Blind (pollCrc p k)
  | 0 => .go crcReturn_blind
  | k + 1 =>
    .go <| .bind callRd_blind fun _ => .bind (fun _ => rfl) fun _ => .go <| .ite
      (.bind callRd_blind fun _ => .bind callRd_blind fun _ => .go crcReturn_blind)
      (pollCrc_blind k)

theorem crcSetup_blind (data : List Byte) : Blind (crcSetup p data) :=
  .bind callWr_blind fun _ => .bind callWr_blind fun _ => .bind callWr_blind fun _ =>
    .bind (.call framerWrb_blind) fun _ => .bind callWr_blind fun _ => .go fun _ => rfl

theorem calcCrc_blind (data : List Byte) : Blind (calcCrc p data) :=
  .bind (crcSetup_blind data) fun _ => pollCrc_blind _

theorem commSetup_blind (a : CommArgs) : Blind (commSetup p a) :=
  .go <| .bind (fun _ => rfl) fun _ => .bind callWr_blind fun _ => .bind callWr_blind fun _ =>
    .bind callWr_blind fun _ => .bind (.call framerWrb_blind) fun _ => .bind callWr_blind fun _ =>
      .bind callWr_blind fun _ => .go <| .ite (.call framerSetb_blind) (.pure ())

theorem pollIrq_blind (waitIrq : Byte) : ∀ k, Blind (pollIrq p waitIrq k)
  | 0 => .go (.pure _)
  | k + 1 =>
    .go <| .bind callRd_blind fun _ => .bind (fun _ => rfl) fun _ => .go <|
      .ite (.go (.pure _)) (.go (.ite (.pure _) (pollIrq_blind waitIrq k)))

theorem drain_blind (a : CommArgs) : Blind (drain p a) :=
  .bind callRd_blind fun _ => .go <| .ite (.pure _) <|
    .bind (.call framerRdb_blind) fun _ => .bind (fun _ => rfl) fun _ =>
      .bind callRd_blind fun _ => .bind (fun _ => rfl) fun _ => .pure _

theorem checkResponse_blind : Blind (checkResponse p) :=
  .go <| .resp fun _ => .ite respond_blind <| .go <| .ite respond_blind <|
    .bind (.call (calcCrc_blind _)) fun _ => .go <| .ite respond_blind <| .go <|
      .ite (.go respond_blind) (.go respond_blind)

theorem classify_blind (a : CommArgs) (e : Byte) : Blind (classify p a e) :=
  .go <| .ite respond_blind <| .go <| .ite checkResponse_blind (.go respond_blind)

theorem afterCompletion_blind (a : CommArgs) : Blind (afterCompletion p a) :=
  .bind callRd_blind fun e => .go <| .ite respond_blind <| .go <| .ite
    (.bind (drain_blind a) fun _ => .ite (classify_blind a e) respond_blind)
    (classify_blind a e)

theorem communicate_blind (a : CommArgs) : Blind (communicate p a) :=
  .bind (commSetup_blind a) fun _ => .go <| .bind (fun _ => rfl) fun _ =>
    .bind (pollIrq_blind _ _) fun _ => .ite (afterCompletion_blind a) respond_blind

end

/-- From idle, on operands of its domain, an instruction with a blind body ends in what the body answers, its result
presented. -/
theorem exec_next_iff {i : Instr} {s t : State} (hb : Blind (Instr.body s.config i)) : exec i s = .next t ↔
    s.seq = .idle ∧ domainError s.env.chip.fifoSize s.params.respCap i = none ∧
      ∃ r u, answer (Instr.body s.config i) s = some (r, u) ∧ t = { u with result := r } := by
  have hstart : answer (Instr.body s.config i) (s.started i (Instr.opName i)) =
      answer (Instr.body s.config i) s := hb.congr rfl
  rw [← hstart]
  constructor
  · intro h
    obtain ⟨hs, hd, r, u, hrun, rfl⟩ := exec_next_inv h
    exact ⟨hs, hd, r, resetBlock u, answer_ok hrun, rfl⟩
  · rintro ⟨hs, hd, r, u, hrun, rfl⟩
    obtain ⟨v, hv, rfl⟩ := answer_eq_some.1 hrun
    simp only [State.started] at hv
    simp only [exec_eq, runOp, hs, hd, hv]
    rfl

/-- Settles O22: COMMUNICATE, called or by itself, answers the same, and the domains are the same (R175). -/
theorem transceiveIsACommunicate : Obligations.TransceiveIsACommunicate := by
  intro s t d want tx rx check m
  have hcomm : Blind (transceiveStep s.config d want tx rx check m) := communicate_blind _
  have hsame : answer (Instr.body s.config (.transceive d want tx rx check m)) s =
      answer (Instr.body s.config (.communicate s.config.codes.cmdTransceive s.config.waitTransceive d want tx rx
        check m)) s := by
    refine (Blind.answer_bind (fun r => .pure (responseResult r)) _ s).trans ?_
    rw [Machine.transceive, hcomm.answer_call]
    exact (Blind.answer_bind (fun r => .pure (responseResult r)) _ s).symm
  rw [exec_next_iff (i := .transceive d want tx rx check m) (.map hcomm.call), hsame]
  exact (exec_next_iff (i := .communicate s.config.codes.cmdTransceive s.config.waitTransceive d want tx rx check m)
    (.map hcomm)).symm

end Sys2Proof.Machine
end

section
namespace Sys2Proof.Machine

-- REQA, WUPA and HLTA (R191 to R193).

/-- What lines 3 to 5 of R191 answer for a response. -/
def requestVerdict (r : Response) : StatusCode × List Byte :=
  if r.status ≠ .ok then (r.status, [])
  else if r.bytes.length ≠ 2 || r.validBits ≠ 0#3 then (.error, [])
  else (.ok, r.bytes)

/-- A request prepares the collision register, makes its exchange and presents the verdict on it (R191, R201). -/
theorem request_runs {p : Params} {byte coll : Byte} {ts : List Talk} {r : Response} {resp : RespRegs} {cmd : Nat}
    (s : State) (h : ∀ t : State, t.resp = s.resp →
      Runs (transceiveStep p.std [byte] true 7 0 false 0#8) t ts r (t.endsBody ts resp t.crcPoll cmd r.status)) :
    Runs (request p.std byte) s (prepareTalk p.toSettings coll ++ ts) (requestVerdict r)
      (s.endsBody (prepareTalk p.toSettings coll ++ ts) resp s.crcPoll cmd (requestVerdict r).1) := by
  have hjudge (st : StatusCode) (bs : List Byte) (t : State) : Runs (present st >>= fun _ => pure (st, bs)) t []
      (st, bs) { t with status := st } := (present_runs st t).bind (Runs.pure _ _)
  have hrun : Runs (request p.std byte) s _ (requestVerdict r) _ := (prepareColl_runs 1 coll s).bind
    ((h { s with env := s.env.afterTalk (prepareTalk p.toSettings coll) } rfl).transceive.call.bind (us := [])
      (t := (s.endsBody (prepareTalk p.toSettings coll ++ ts) resp s.crcPoll cmd (requestVerdict r).1))
      (Runs.go ?_))
  · rwa [List.append_nil] at hrun
  · simp only [State.endsBody, Env.afterTalk_append, requestVerdict]
    split
    · exact hjudge _ _ _
    · refine Runs.go ?_
      split
      · exact hjudge _ _ _
      · exact Runs.go (hjudge _ _ _)

/-- Two whole bytes are an answer to a request, anything else is an error (R191 line 4). -/
theorem requestVerdict_answer (vals : List Byte) (vb : BitCount) :
    requestVerdict { status := .ok, bytes := vals, validBits := vb } =
      if vals.length = 2 ∧ vb = 0#3 then (.ok, vals) else (.error, []) := by
  by_cases h : vals.length = 2 ∧ vb = 0#3
  · simp [requestVerdict, h.1, h.2]
  · simp [requestVerdict, h, Decidable.not_and_iff_not_or_not.1 h]

/-- REQA and WUPA are each a request with its own byte (R191, R192). -/
theorem exec_request {s : State} {i : Instr} {byte coll : Byte} {ts : List Talk} {r : Response} {resp : RespRegs}
    {cmd : Nat} (hs : s.seq = .idle) (hp : s.standard) (hi : (i, byte) ∈ [(Instr.reqa, 0x26#8), (.wupa, 0x52#8)])
    (h : ∀ t : State, t.resp = s.resp → Runs (transceiveStep s.config.std [byte] true 7 0 false 0#8) t ts r
      (t.endsBody ts resp t.crcPoll cmd r.status))
    (ht : s.env.talks (prepareTalk s.params coll ++ ts) = true) :
    exec i s = .next (s.ended (prepareTalk s.params coll ++ ts) resp s.crcPoll cmd (requestVerdict r).1
      (requestResult (requestVerdict r)).payload) := by
  have hrun := request_runs (coll := coll) (s.started i (Instr.opName i)) h
  simp only [List.mem_cons, Prod.mk.injEq, List.not_mem_nil, or_false] at hi
  obtain ⟨rfl, rfl⟩ | ⟨rfl, rfl⟩ := hi
  · exact exec_ended hs hp rfl (hrun.last rfl) ht
  · exact exec_ended hs hp rfl (hrun.last rfl) ht

/-- Settles O24: the verdict on the request's exchange, answered or not. -/
theorem requestsAskWithAShortFrame : Obligations.RequestsAskWithAShortFrame := by
  intro s i byte coll hs hp hi
  constructor
  · intro r hr ht
    have hrun (t : State) := transceiveStep_ok (p := s.config) r hr [byte] 7 0 0#8 t
    simp only [mergeFirst_zero] at hrun
    have h := exec_request (coll := coll) hs hp hi (fun t hresp => hresp ▸ hrun t) ht
    rw [h, requestVerdict_answer]
    split <;> rfl
  · intro r hr ht
    have hrun (t : State) := transceiveStep_silence (p := s.config) r hr [byte] true false 7 0 0#8 t
    exact exec_request (coll := coll) hs hp hi (fun t hresp => hresp ▸ hrun t) ht

/-- What lines 3 to 5 of R193 answer for the status of the exchange. -/
def haltVerdict (st : StatusCode) : StatusCode :=
  if st = .timeout then .ok else if st = .ok then .error else st

theorem judgeHalt_runs (st : StatusCode) (s : State) :
    Runs (judgeHalt st) s [] (haltVerdict st) { s with status := haltVerdict st } := by
  unfold judgeHalt haltVerdict
  refine Runs.go ?_
  split
  · exact finish_runs _ s
  · refine Runs.go ?_
    split
    · exact finish_runs _ s
    · exact Runs.go (finish_runs _ s)

/-- HLTA calculates its CRC_A, makes its exchange and presents the verdict on it (R193). -/
theorem halt_runs {p : Params} {c : CrcRun} (hc : c.ok = true) {ts : List Talk} {r : Response} {cmd : Nat} (s : State)
    (h : ∀ t : State, Runs (transceiveStep p.std [0x50#8, 0x00#8, c.lo, c.hi] false 0 0 false 0#8) t ts r
      (t.endsBody ts t.resp.cleared t.crcPoll cmd r.status)) :
    Runs (halt p.std) s (c.talk [0x50#8, 0x00#8] ++ ts) (haltVerdict r.status)
      (s.endsBody (c.talk [0x50#8, 0x00#8] ++ ts) s.resp.cleared (c.quiet.length + 1) cmd
        (haltVerdict r.status)) := by
  have hrun : Runs (halt p.std) s _ (haltVerdict r.status) _ := (Runs.call (calcCrc_done c hc _ s)).bind
    ((h (s.crcTaken c [0x50#8, 0x00#8])).transceive.call.bind (judgeHalt_runs r.status _))
  exact hrun.to (by simp) (by simp [State.endsBody, State.crcTaken, Env.afterTalk_append])

/-- Settles O25: the verdict on the halt frame's exchange, silent or not. -/
theorem haltTakesSilenceForSuccess : Obligations.HaltTakesSilenceForSuccess := by
  intro s c hs hp hc
  constructor
  · intro r hr ht
    exact exec_ended_status hs hp rfl (halt_runs hc _
      (transceiveStep_silence (p := s.config) r hr _ false false 0 0 0#8)) rfl ht
  · intro r hr ht
    have hv : haltVerdict (if r.err.getLsbD 3 then .collision else .ok) =
        if r.err.getLsbD 3 then .collision else .error := by
      split <;> rfl
    have hrun := halt_runs hc (s.started .hlta .hlta) (transceiveStep_unanswered (p := s.config) r hr _)
    rw [hv] at hrun
    exact exec_ended_status hs hp rfl hrun rfl ht

-- SELECT that ends (R200 to R221).

/-- Settles O26: line 4 of R200 comes before the preparation. -/
theorem selectRejectsTooManyKnownBits : Obligations.SelectRejectsTooManyKnownBits := by
  intro s u kvb hs hu hk
  have hrun (t : State) : Runs (select s.config u kvb) t [] .invalid
      { t with sel := startRecord u t.sel, status := .invalid } := by
    refine Runs.goes ((modifySelect_runs _ t).bind (us := []) (Runs.go ?_))
    rw [if_pos hk]
    exact (present_runs .invalid _).bind (us := []) (Runs.pure _ _)
  obtain ⟨hacc, hsize, hsak⟩ := startRecord_eq u s.sel
  refine ⟨_, exec_next hs (domainError_select _ _ u kvb hu) ((hrun _).bind (Runs.sel (Runs.pure _ _)))
    rfl rfl, rfl, rfl, ?_, rfl, rfl, rfl, rfl, rfl, rfl, rfl, rfl⟩
  rw [← hacc, ← hsize, ← hsak]
  rfl

/-- Settles O27: the levels confirmed one after the other, SELECT around them. -/
theorem selectResolvesTheUid : Obligations.SelectResolvesTheUid := by
  intro s u kvb coll ls last hs hp hu hk hlen hlast hconf ht
  obtain ⟨s', hkeep, hacc, hsize, -, hexec⟩ := exec_select u kvb coll hu hk s hp hs
  rw [← hacc] at hconf ht ⊢
  obtain ⟨t, hrun, hkeep', hacc', hsize', hsak'⟩ := selectLevels_ok (p := s.config) u kvb.toNat last ls 3 1 s'
    hlast le_rfl hlen rfl hsize hconf
  obtain ⟨hnext, henv⟩ := hexec _ .ok t hrun ht
  have hhost := hkeep.trans hkeep'
  have hsize'' : t.sel.uidSize = 3 * ls.length + 1 := by rw [hsize', Nat.add_sub_cancel_left]
  refine ⟨_, hnext, henv, rfl, ?_, hacc', hsize'', hsak', rfl, rfl, hhost.params, hhost.pending, hhost.host⟩
  rw [← hacc', ← hsize'', ← hsak']
  rfl

/-- The level after `n` confirmed ones, as `selectLevels` counts the levels still to come. -/
theorem levelsLeft {n : Nat} (hn : n ≤ 2) : ∃ k ≤ 2, n + 1 = 3 - k ∧ 3 - n = k + 1 :=
  ⟨2 - n, by omega, by omega, by omega⟩

/-- Settles O28: the rounds of the level reached, the last of which ends SELECT. -/
theorem selectRoundsThatFail : Obligations.SelectRoundsThatFail := by
  intro s u kvb path ts st hs hp hu hok hknown hlast ht
  simp only [SelectPath.ok, Bool.and_eq_true, decide_eq_true_eq] at hok
  obtain ⟨⟨⟨hk, hb⟩, hconf⟩, hrounds⟩ := hok
  obtain ⟨n, hn, hlevel, hleft⟩ := levelsLeft hb
  have hround (t : State) (h : t.sel.holds path.level (path.window u kvb.toNat)) :
      ∃ t', Runs (selectRound s.config.std) t ts (.stop st) t' ∧ KeepsRecord t t' := by
    refine selectRound_stops path.level _ t ts st h hknown ?_
    obtain ⟨r, hr, hv, hl, rfl, rfl⟩ | ⟨r, hr, hl, hc, hcoll, rfl, rfl⟩ |
      ⟨r, hr, hl, hc, hcoll, hpos, rfl, rfl⟩ | hsilence := hlast
    · exact .inl ⟨r, hr, hv, hl, rfl, rfl⟩
    · exact .inr (.inl ⟨r, hr, hl, hc, rfl, .inl ⟨hcoll, rfl⟩⟩)
    · exact .inr (.inl ⟨r, hr, hl, hc, rfl, .inr ⟨hcoll, hpos, rfl⟩⟩)
    · exact .inr (.inr hsilence)
  simp only [SelectPath.window, SelectPath.start, SelectPath.level, SelectPath.record, SelectPath.talk, hlevel,
    List.append_assoc] at hround hrounds ht ⊢
  refine exec_select_ends s hp u kvb path.coll path.levels _ st _ hs hu hk hb hconf ?_ ht
  intro s' hrec hsize hsak
  rw [hleft, ← hrec, ← hsize, ← hsak]
  rw [← hrec] at hrounds hround
  exact selectLevels_stopped u kvb.toNat n hn path.rounds s' hsize hrounds ts st hround

theorem LevelRun.selects_iff {l : LevelRun} {mask : Byte} {w : Window} : l.selects mask w = true ↔
    roundsGoOn mask l.rounds w = true ∧ 32 ≤ (l.window w).known ∧ l.crc.ok = true ∧ l.answer.ok mask = true := by
  simp only [LevelRun.selects, Bool.and_eq_true, decide_eq_true_eq, and_assoc]

/-- With no level left `LEVEL` is 4 and SELECT ends (R200 line 12, R204). -/
theorem selectLevels_zero (p : Params) (seeded : Bool) (kvb : Nat) (s : State) :
    Runs (selectLevels p seeded kvb 0) s [] .internalError { s with sel := { s.sel with level := 4 } } :=
  Runs.goes ((modifySelect_runs _ s).bind (Runs.pure _ _))

/-- A third level that is confirmed and asks for a fourth (R204, R218). -/
theorem selectLevels_exhausted {p : Params} (l : LevelRun) (u : Option Uid) (kvb : Nat) (s : State)
    (hsize : s.sel.uidSize = firstSize u)
    (hl : l.confirmed p.waitTransceive (Window.start u kvb 3 s.sel.uidAcc) = true) (hmore : l.sak.getLsbD 2 = true) :
    ∃ t, Runs (selectLevels p.std u.isSome kvb 1) s (l.talk 3 (Window.start u kvb 3 s.sel.uidAcc)) .internalError t ∧
      KeepsHost s t ∧ t.sel.uidAcc = l.record 3 (Window.start u kvb 3 s.sel.uidAcc) s.sel.uidAcc ∧
      t.sel.uidSize = s.sel.uidSize ∧ t.sel.sakOut = s.sel.sakOut := by
  obtain ⟨s', hkeep, hacc, hsize', hsak, -, -, hruns⟩ :=
    selectLevels_confirmed l u kvb 0 3 _ s (Nat.zero_le 2) rfl rfl hsize hl
  rw [hmore] at hruns
  have hrun := hruns [] .internalError _ (selectLevels_zero p.std u.isSome kvb s')
  rw [List.append_nil] at hrun
  exact ⟨_, hrun, ⟨hkeep.latched, hkeep.result, hkeep.params, hkeep.pending, hkeep.host⟩, hacc, hsize', hsak⟩

/-- Settles O29: the levels confirmed before, then the level whose select frame is sent. -/
theorem selectAnswersThatFail : Obligations.SelectAnswersThatFail := by
  intro s u kvb coll before l ts st record hs hp hu hk hb hconf hlast ht
  obtain ⟨n, hn, hlevel, hleft⟩ := levelsLeft hb
  simp only [hlevel, List.append_assoc] at hlast ht ⊢
  refine exec_select_ends s hp u kvb coll before ts st record hs hu hk hb hconf ?_ ht
  intro s' hrec hsize hsak
  rw [hleft, ← hsize, ← hsak]
  rw [← hrec] at hlast
  obtain ⟨hl, hlong, rfl, rfl, rfl⟩ | ⟨hg, hknown, hc, ha, he, hv, ⟨cr, rfl, rfl⟩, rfl⟩ |
    ⟨hg, hknown, hc, ⟨q, hq, rfl⟩, rfl, rfl⟩ | ⟨hl, hv, hshape, rfl, rfl, rfl⟩ |
    ⟨hl, hv, hvb, hc, hne, rfl, rfl, rfl⟩ | ⟨hthree, hl, hmore, rfl, rfl, rfl⟩ := hlast
  · obtain ⟨hg, hknown, hc, ha⟩ := LevelRun.selects_iff.1 hl
    obtain ⟨ha, -, hfits⟩ := (l.answer.ok_iff _).1 ha
    simp only [LevelRun.selectTalk, List.append_assoc]
    exact selectLevels_stopped u kvb.toNat n hn l.rounds s' hsize hg _ .noRoom fun t h =>
      selectRound_select_stops (3 - n) _ t _ _ h hknown
        (.inr (.inl ⟨l.crc, l.answer, hc, ha, hlong, hfits, rfl, rfl⟩))
  · simp only [LevelRun.selectTalk, List.append_assoc]
    exact selectLevels_stopped u kvb.toNat n hn l.rounds s' hsize hg _ _ fun t h =>
      selectRound_select_stops (3 - n) _ t _ _ h hknown
        (.inr (.inr (.inl ⟨l.crc, l.answer, cr, hc, ha, he, hv, rfl, rfl⟩)))
  · exact selectLevels_stopped u kvb.toNat n hn l.rounds s' hsize hg _ .timeout fun t h =>
      selectRound_select_stops (3 - n) _ t _ _ h hknown (.inr (.inr (.inr ⟨l.crc, q, hc, hq, rfl, rfl⟩)))
  · rw [← List.append_nil (l.selectTalk _ _)]
    exact selectLevels_unconfirmed l u kvb.toNat n hn s' hsize hl hv [] .error (by decide) fun t =>
      confirmLevel_stops _ _ t _ _ (.inl ⟨hshape, rfl, rfl⟩)
  · exact selectLevels_unconfirmed l u kvb.toNat n hn s' hsize hl hv.le _ .crcWrong (by decide) fun t =>
      confirmLevel_stops _ _ t _ _ (.inr ⟨hv, hvb, .inr ⟨l.sakCrc, hc, hne, rfl, rfl⟩⟩)
  · obtain rfl : n = 0 := by omega
    exact selectLevels_exhausted l u kvb.toNat s' hsize hl hmore

end Sys2Proof.Machine
end

section
namespace Sys2Proof.Machine

-- How operations end, whatever ENV answers (R203, R218 to R221, R366, R406).

/-- From a status and registers of the anti-collision engine as `F` says, the steps leave them as `G` of their answer
says, and nothing but a transport fault stops them. -/
structure Ends {α : Type} (F : StatusCode → SelectRegs → Prop) (x : M α) (G : α → StatusCode → SelectRegs → Prop) :
    Prop where
  answers {s t : State} {a : α} : F s.status s.sel → x s = .ok a t → G a t.status t.sel
  stops {s t : State} {e : Stop} : F s.status s.sel → x s = .error e t → e = .transport

namespace Ends
variable {α β : Type} {F : StatusCode → SelectRegs → Prop}

theorem bind {x : M α} {f : α → M β} {G : α → StatusCode → SelectRegs → Prop}
    {H : β → StatusCode → SelectRegs → Prop} (hx : Ends F x G) (hf : ∀ a, Ends (G a) (f a) H) :
    Ends F (x >>= f) H where
  answers hs h := by
    obtain ⟨a, u, hu, ht⟩ := M.bind_ok_inv h
    exact (hf a).answers (hx.answers hs hu) ht
  stops hs h := by
    obtain h | ⟨a, u, hu, ht⟩ := M.bind_error_inv h
    · exact hx.stops hs h
    · exact (hf a).stops (hx.answers hs hu) ht

/-- Steps that answer at once. -/
theorem now {x : M α} {G : α → StatusCode → SelectRegs → Prop}
    (h : ∀ s : State, F s.status s.sel → ∃ a t, x s = .ok a t ∧ G a t.status t.sel) : Ends F x G where
  answers hs hx := by
    obtain ⟨a, u, hu, hG⟩ := h _ hs
    cases hu.symm.trans hx
    exact hG
  stops hs hx := by
    obtain ⟨a, u, hu, -⟩ := h _ hs
    cases hu.symm.trans hx

theorem pure {a : α} {G : α → StatusCode → SelectRegs → Prop} (h : ∀ st r, F st r → G a st r) :
    Ends F (Pure.pure a) G := now fun s hs => ⟨a, s, rfl, h _ _ hs⟩

theorem ite {c : Prop} [Decidable c] {x y : M α} {G : α → StatusCode → SelectRegs → Prop} (hx : c → Ends F x G)
    (hy : ¬ c → Ends F y G) : Ends F (if c then x else y) G := by
  split
  · exact hx ‹_›
  · exact hy ‹_›

theorem call {line : Nat} {op : OpName} {x : M α} {G : α → StatusCode → SelectRegs → Prop} (h : Ends F x G) :
    Ends F (call line op x) G where
  answers {s _ _} hs hc := by
    obtain ⟨u, hu, rfl⟩ := call_ok_inv hc
    exact h.answers (s := { s with seq := (s.seq.atLine line).push op }) (t := u) hs hu
  stops {s _ _} hs hc := h.stops (s := { s with seq := (s.seq.atLine line).push op }) hs (call_error_inv hc)

theorem exchange {out : List Byte} : Ends F (exchange out) fun _ => F where
  answers hs h := by
    obtain ⟨-, rfl⟩ := exchange_ok_inv h
    exact hs
  stops _ h := by
    unfold Machine.exchange at h
    split at h <;> cases h
    rfl

theorem weaken {x : M α} {F' : StatusCode → SelectRegs → Prop} {G : α → StatusCode → SelectRegs → Prop}
    (h : Ends F x G) (hF : ∀ st r, F' st r → F st r) : Ends F' x G where
  answers hs := h.answers (hF _ _ hs)
  stops hs := h.stops (hF _ _ hs)

theorem imp {x : M α} {G H : α → StatusCode → SelectRegs → Prop} (h : Ends F x G)
    (hG : ∀ a st r, G a st r → H a st r) : Ends F x H where
  answers hs hx := hG _ _ _ (h.answers hs hx)
  stops := h.stops

theorem go {n : Nat} {f : Unit → M α} {G : α → StatusCode → SelectRegs → Prop} (h : Ends F (f ()) G) :
    Ends F (goLine n >>= f) G := bind (G := fun _ => F) (now fun _ hs => ⟨_, _, rfl, hs⟩) fun _ => h

theorem goes {ns : List Nat} {f : Unit → M α} {G : α → StatusCode → SelectRegs → Prop} (h : Ends F (f ()) G) :
    Ends F (goLines ns >>= f) G := bind (G := fun _ => F) (now fun _ hs => ⟨_, _, rfl, hs⟩) fun _ => h

/-- Once the registers of the anti-collision engine are read, they are what was read. -/
theorem read {F : SelectRegs → Prop} {f : SelectRegs → M α} {G : α → StatusCode → SelectRegs → Prop}
    (h : ∀ q, F q → Ends (fun _ r => r = q) (f q) G) : Ends (fun _ => F) (readSelect >>= f) G where
  answers {s _ _} hs hx := (h s.sel hs).answers rfl hx
  stops {s _ _} hs hx := (h s.sel hs).stops rfl hx

theorem modify {F G : SelectRegs → Prop} {f : SelectRegs → SelectRegs} {g : Unit → M α}
    {H : α → StatusCode → SelectRegs → Prop} (hf : ∀ r, F r → G (f r)) (h : Ends (fun _ => G) (g ()) H) :
    Ends (fun _ => F) (modifySelect f >>= g) H :=
  bind (G := fun _ _ => G) (now fun _ hs => ⟨_, _, rfl, hf _ hs⟩) fun _ => h

end Ends

/-- The steps keep the registers of the anti-collision engine, answer as `φ` says of the status presented last, and
nothing but a transport fault stops them. -/
def Presents {α : Type} (x : M α) (φ : α → StatusCode → Prop) : Prop :=
  ∀ F : SelectRegs → Prop, Ends (fun _ => F) x fun a st r => φ a st ∧ F r

/-- The same of steps whose status says nothing. -/
abbrev Finishes {α : Type} (x : M α) : Prop := Presents x fun _ _ => True

namespace Presents
variable {α β : Type} {φ : α → StatusCode → Prop} {ψ : β → StatusCode → Prop}

theorem bind {x : M α} {f : α → M β} (hx : Presents x φ) (hf : ∀ a, Presents (f a) ψ) : Presents (x >>= f) ψ :=
  fun F => (hx F).bind fun a => (hf a F).weaken fun _ _ h => h.2

/-- Steps that keep the registers come first. -/
theorem followedBy {x : M α} {f : α → M β} {F : SelectRegs → Prop} {H : β → StatusCode → SelectRegs → Prop}
    (hx : Presents x φ) (hf : ∀ a, Ends (fun _ => F) (f a) H) : Ends (fun _ => F) (x >>= f) H :=
  (hx F).bind fun a => (hf a).weaken fun _ _ h => h.2

/-- Steps that answer at once. -/
theorem now {x : M α} (h : ∀ s : State, ∃ a t, x s = .ok a t ∧ φ a t.status ∧ t.sel = s.sel) : Presents x φ :=
  fun F => .now fun s hs => by
    obtain ⟨a, t, hx, ha, ht⟩ := h s
    exact ⟨a, t, hx, ha, ht ▸ hs⟩

/-- A step that answers at once, and what follows it. -/
theorem step {x : M α} {f : α → M β} (hf : ∀ a, Presents (f a) ψ)
    (hx : ∀ s : State, ∃ a t, x s = .ok a t ∧ t.sel = s.sel := by exact fun _ => ⟨_, _, rfl, rfl⟩) :
    Presents (x >>= f) ψ :=
  bind (φ := fun _ _ => True) (now fun s => (hx s).imp fun _ => .imp fun _ h => ⟨h.1, trivial, h.2⟩) hf

theorem pure {a : α} (h : ∀ st, φ a st) : Presents (Pure.pure a : M α) φ := now fun s => ⟨a, s, rfl, h _, rfl⟩

theorem done {a : α} : Finishes (Pure.pure a : M α) := pure fun _ => trivial

/-- Only the answer is changed afterwards. -/
theorem last {x : M α} {f : α → β} (hx : Presents x φ) (h : ∀ a st, φ a st → ψ (f a) st) :
    Presents (x >>= fun a => Pure.pure (f a)) ψ :=
  fun F => (hx F).bind fun a => .pure fun st _ hF => ⟨h a st hF.1, hF.2⟩

theorem ite {c : Prop} [Decidable c] {x y : M α} (hx : Presents x φ) (hy : Presents y φ) :
    Presents (if c then x else y) φ := fun F => .ite (fun _ => hx F) (fun _ => hy F)

theorem call {line : Nat} {op : OpName} {x : M α} (hx : Presents x φ) : Presents (call line op x) φ :=
  fun F => (hx F).call

theorem exchange {out : List Byte} : Finishes (exchange out) :=
  fun F =>
    have h := Ends.exchange (F := fun _ => F) (out := out)
    ⟨fun hs hx => ⟨trivial, h.answers hs hx⟩, h.stops⟩

end Presents

section
variable {p : Params}

-- The framer.

theorem callWr_presents {line : Nat} {a : Reg} {v : Byte} : Finishes (callWr line a v) :=
  .call (.bind .exchange fun _ => .done)

theorem callRd_presents {line : Nat} {a : Reg} : Finishes (callRd line a) :=
  .call (.bind .exchange fun _ => .step fun _ => .done)

theorem framerWrb_presents {a : Reg} {vs : List Byte} : Finishes (framerWrb a vs) := .bind .exchange fun _ => .done

theorem framerRdb_presents {a : Reg} {count rxAlign : Nat} {mergeIn : Byte} :
    Finishes (framerRdb a count rxAlign mergeIn) :=
  .ite .done (.step fun _ => .bind .exchange fun _ => .step fun _ => .done)

theorem framerSetb_presents {a : Reg} {m : Byte} : Finishes (framerSetb a m) :=
  .bind callRd_presents fun _ => callWr_presents

theorem framerClrb_presents {a : Reg} {m : Byte} : Finishes (framerClrb a m) :=
  .bind callRd_presents fun _ => callWr_presents

-- CALC_CRC and COMMUNICATE answer the status they present.

/-- A status and data, the status the one presented. -/
abbrev FirstPresented {α : Type} (x : StatusCode × α) (st : StatusCode) : Prop := x.1 = st

/-- A response whose status is the one presented. -/
abbrev Response.Presented (r : Response) (st : StatusCode) : Prop := r.status = st

/-- A result without a status, or with the one presented. -/
abbrev Result.Presented (r : Result) (st : StatusCode) : Prop := r.status = none ∨ r.status = some st

theorem present_presents {α : Type} {st : StatusCode} {a : α} {φ : α → StatusCode → Prop} (h : φ a st) :
    Presents (present st >>= fun _ => pure a) φ := .now fun _ => ⟨_, _, rfl, h, rfl⟩

theorem finish_presents {st : StatusCode} : Presents (finish st) Eq := present_presents rfl

theorem respond_presents {st : StatusCode} : Presents (respond st) Response.Presented :=
  .now fun _ => ⟨_, _, rfl, rfl, rfl⟩

theorem pollCrc_presents : ∀ k, Presents (pollCrc p k) FirstPresented
  | 0 => .step fun _ => present_presents rfl
  | k + 1 => .step fun _ => .bind callRd_presents fun _ => .step fun _ => .step fun _ => .ite
      (.bind callRd_presents fun _ => .bind callRd_presents fun _ => .step fun _ => present_presents rfl)
      (pollCrc_presents k)

theorem crcSetup_presents {data : List Byte} : Finishes (crcSetup p data) :=
  .bind callWr_presents fun _ => .bind callWr_presents fun _ => .bind callWr_presents fun _ =>
    .bind (.call framerWrb_presents) fun _ => .bind callWr_presents fun _ => .step fun _ =>
      .now fun _ => ⟨_, _, rfl, trivial, rfl⟩

theorem calcCrc_presents {data : List Byte} : Presents (calcCrc p data) FirstPresented :=
  .bind crcSetup_presents fun _ => pollCrc_presents _

theorem commSetup_presents {a : CommArgs} : Finishes (commSetup p a) :=
  .step fun _ => .step fun _ => .bind callWr_presents fun _ => .bind callWr_presents fun _ =>
    .bind callWr_presents fun _ => .bind (.call framerWrb_presents) fun _ => .bind callWr_presents fun _ =>
      .bind callWr_presents fun _ => .step fun _ => .ite (.call framerSetb_presents) .done

theorem pollIrq_presents {waitIrq : Byte} : ∀ k, Finishes (pollIrq p waitIrq k)
  | 0 => .step fun _ => .done
  | k + 1 => .step fun _ => .bind callRd_presents fun _ => .step fun _ => .step fun _ =>
      .ite (.step fun _ => .done) (.step fun _ => .ite .done (pollIrq_presents k))

theorem drain_presents {a : CommArgs} : Finishes (drain p a) :=
  .bind callRd_presents fun _ => .step fun _ => .ite .done <| .bind (.call framerRdb_presents) fun _ =>
    .step fun _ => .bind callRd_presents fun _ => .step fun _ => .done

theorem checkResponse_presents : Presents (checkResponse p) Response.Presented :=
  .step fun _ => .step fun _ => .ite respond_presents <| .step fun _ => .ite respond_presents <|
    .bind (.call calcCrc_presents) fun _ => .step fun _ => .ite respond_presents <| .step fun _ =>
      .ite (.step fun _ => respond_presents) (.step fun _ => respond_presents)

theorem classify_presents {a : CommArgs} {e : Byte} : Presents (classify p a e) Response.Presented :=
  .step fun _ => .ite respond_presents <| .step fun _ => .ite checkResponse_presents <|
    .step fun _ => respond_presents

theorem communicate_presents {a : CommArgs} : Presents (communicate p a) Response.Presented :=
  .bind commSetup_presents fun _ => .step fun _ => .step fun _ => .bind (pollIrq_presents _) fun _ => .ite
    (.bind callRd_presents fun _ => .step fun _ => .ite respond_presents <| .step fun _ => .ite
      (.bind drain_presents fun _ => .ite classify_presents respond_presents) classify_presents)
    respond_presents

theorem transceive_presents {data : List Byte} {want check : Bool} {tx rx : Nat} {merge : Byte} :
    Presents (transceive p data want tx rx check merge) Response.Presented := .call communicate_presents

-- The operations of units 4 and 5 but SELECT, and the card commands.

theorem prepareColl_presents {line : Nat} : Finishes (prepareColl p line) :=
  .step fun _ => .ite (.call framerClrb_presents) .done

theorem request_presents {piccByte : Byte} : Presents (request p piccByte) FirstPresented :=
  .bind prepareColl_presents fun _ => .bind (.call transceive_presents) fun _ => .step fun _ =>
    .ite (present_presents rfl) <| .step fun _ => .ite (present_presents rfl) <| .step fun _ => present_presents rfl

theorem halt_presents : Presents (halt p) Eq :=
  .bind (.call calcCrc_presents) fun _ => .ite finish_presents <| .bind (.call transceive_presents) fun _ =>
    .step fun _ => .ite finish_presents <| .step fun _ => .ite finish_presents <| .step fun _ => finish_presents

theorem authenticate_presents {frame : List Byte} : Presents (authenticate p frame) Response.Presented :=
  .call communicate_presents

theorem judgeAck_presents {accept : Bool} {r : Response} : Presents (judgeAck accept r) Eq :=
  .step fun _ => .ite finish_presents <| .step fun _ => .ite finish_presents <| .step fun _ =>
    .ite finish_presents <| .step fun _ => .ite finish_presents <| .step fun _ => finish_presents

theorem mfTransceive_presents {payload : List Byte} {accept : Bool} : Presents (mfTransceive p payload accept) Eq :=
  .bind (.call calcCrc_presents) fun _ => .ite finish_presents <|
    .bind (.call (.step fun _ => communicate_presents)) fun _ => judgeAck_presents

theorem readCommand_presents {block : Byte} : Presents (readCommand p block) fun x => x.2.Presented :=
  .bind (.call calcCrc_presents) fun _ => .ite (present_presents rfl) <|
    .last (.call (.step fun _ => communicate_presents)) fun _ _ h => h

/-- Where the read command was not sent, its status stands as presented (R255 line 1). -/
theorem mfRead_presents {block : Byte} : Presents (mfRead p block) FirstPresented := fun F =>
  (readCommand_presents F).bind fun _ => .ite (fun _ => .pure fun _ _ h => h) fun _ =>
    ((Presents.step fun _ => .ite (present_presents rfl) <| .step fun _ => .ite (present_presents rfl) <|
      .step fun _ => present_presents rfl : Presents _ FirstPresented) F).weaken fun _ _ h => h.2

theorem twoFrames_presents {first second : List Byte} {accept : Bool} :
    Presents (twoFrames p first second accept) Eq :=
  .bind (.call mfTransceive_presents) fun _ => .ite finish_presents (.call mfTransceive_presents)

theorem mfWrite_presents {block : Byte} {data : List Byte} : Presents (mfWrite p block data) Eq :=
  .ite finish_presents <| .bind (.call mfTransceive_presents) fun _ =>
    .ite finish_presents (.call mfTransceive_presents)

theorem standardFrame_presents {payload : List Byte} {want check : Bool} :
    Presents (standardFrame p payload want check) Response.Presented :=
  .bind (.call calcCrc_presents) fun _ => .ite (present_presents rfl) (.call transceive_presents)

theorem selectCommand_presents {sel : Byte} {known : Nat} {window : List Byte} :
    Presents (selectCommand p sel known window) Response.Presented :=
  .ite (.call transceive_presents) standardFrame_presents

theorem issueCommand_presents {c : CmdCode} : Presents (issueCommand p c) Result.Presented :=
  .last callWr_presents fun _ _ _ => .inl rfl

-- SELECT: its record, and the rounds of a level (R203, R211, R217 to R221).

/-- The record while SELECT looks for the UID: ten bytes and no SAK (R203). -/
structure SelectRegs.Seeking (r : SelectRegs) : Prop where
  uidAcc : r.uidAcc.length = 10
  sakOut : r.sakOut = none

/-- The same at a level, whose UID bytes have their place in the record (R204). -/
structure SelectRegs.SeeksAt (n : Nat) (r : SelectRegs) : Prop extends r.Seeking where
  level : r.level = n
  uidx : r.uidx = 3 * (n - 1)

/-- The same between rounds of which fewer than `k` are to come: each makes one more of the 32 bits known (R220). -/
structure SelectRegs.InRounds (n k : Nat) (r : SelectRegs) : Prop extends r.SeeksAt n where
  left : 32 - r.known < k

/-- What a round leaves that began with fewer than `k + 1` to come: one that goes on leaves fewer than `k`, one that
ends SELECT ends it with another status than OK (R211 to R213). -/
def RoundEnd.Leaves (n k : Nat) : RoundEnd → SelectRegs → Prop
  | .again, r => r.InRounds n k
  | .selected _, r => r.SeeksAt n
  | .stop st, r => r.SeeksAt n ∧ st ≠ .ok

/-- The record with the status SELECT ends with: complete with OK, without a SAK otherwise (R218, R219, R221). -/
structure SelectRegs.Recorded (r : SelectRegs) (st : StatusCode) : Prop where
  uidAcc : r.uidAcc.length = 10
  complete : st = .ok → (r.uidSize = 4 ∨ r.uidSize = 7 ∨ r.uidSize = 10) ∧
    ∃ sak, r.sakOut = some sak ∧ sak.getLsbD 2 = false
  bare : st ≠ .ok → r.sakOut = none

theorem SelectRegs.Seeking.recorded {r : SelectRegs} (h : r.Seeking) {st : StatusCode} (hst : st ≠ .ok) :
    r.Recorded st := ⟨h.uidAcc, fun e => absurd e hst, fun _ => h.sakOut⟩

/-- The UID bytes of one of the three levels fit into the record (R217). -/
theorem copyLevelBytes_seeksAt {level : Nat} {r : SelectRegs} (h : r.SeeksAt level) (hl : level ≤ 3) (k : Codes) :
    (copyLevelBytes k r).SeeksAt level ∧ (copyLevelBytes k r).sakLatch = r.sakLatch := by
  have hfits {vs : List Byte} (hv : vs.length ≤ 4) : (overwrite r.uidAcc r.uidx vs).length = 10 := by
    have hx := h.uidx
    have ha := h.uidAcc
    exact (overwrite_length _ _ _ (by omega)).trans ha
  unfold copyLevelBytes
  split
  · exact ⟨{ h with uidAcc := hfits ((List.length_take_le 3 _).trans (by decide)) }, rfl⟩
  · exact ⟨{ h with uidAcc := hfits (List.length_take_le 4 _) }, rfl⟩

variable {level k : Nat}

/-- A collision resolved makes its position known, which lies beyond the bits known before (R211). -/
theorem resolveCollision_ends :
    Ends (fun _ r => r.InRounds level (k + 1)) (resolveCollision p) fun e _ r => e.Leaves level k r := by
  refine callRd_presents.followedBy fun cr => .go <| .read fun q hq => .ite (fun _ => ?_) fun _ => .goes <| .ite
    (fun _ => ?_) fun hpos => .goes ?_
  · exact .pure fun _ _ h => h ▸ ⟨hq.toSeeksAt, by decide⟩
  · exact .pure fun _ _ h => h ▸ ⟨hq.toSeeksAt, by decide⟩
  · have hleft : 32 - collisionPosition p.codes cr < k := by
      have hle := collisionPosition_le p.codes cr
      have hq' := hq.left
      omega
    exact .modify (G := SelectRegs.InRounds level k) (fun _ h => h ▸ { hq with left := hleft }) <|
      .go <| .pure fun _ _ => id

theorem roundExchange_ends :
    Ends (fun _ r => r.InRounds level (k + 1)) (roundExchange p) fun e _ r => e.Leaves level k r := by
  refine .read fun q hq => (Presents.call transceive_presents).followedBy fun a => .go <| .ite
    (fun _ => .go <| .ite (fun _ => ?_) fun _ => .go ?_) fun hst => .goes ?_
  · exact .pure fun _ _ h => h ▸ ⟨hq.toSeeksAt, by decide⟩
  · refine .modify (G := SelectRegs.InRounds level (k + 1)) (fun _ h => h ▸ { hq with }) <| .go <| .ite
      (fun _ => resolveCollision_ends) fun _ => .goes <| .ite (fun hk => ?_) fun _ => .pure fun _ _ h => h.toSeeksAt
    have hleft : 32 - 32 < k := by
      have hq' := hq.left
      omega
    exact .modify (G := SelectRegs.InRounds level k) (fun _ h => { h with left := hleft }) <| .pure fun _ _ => id
  · exact .pure fun _ _ h => h ▸ ⟨hq.toSeeksAt, fun e => hst (.inl e)⟩

theorem selectRound_ends :
    Ends (fun _ r => r.InRounds level (k + 1)) (selectRound p) fun e _ r => e.Leaves level k r := by
  refine .go <| .read fun q hq => .ite (fun _ => .goes ?_) fun _ => .goes ?_
  · exact .modify (G := SelectRegs.InRounds level (k + 1)) (fun _ h => h ▸ { hq with }) <| .read fun q hq =>
      (Presents.call calcCrc_presents).followedBy fun _ => .ite
        (fun hst => .pure fun _ _ h => h ▸ ⟨hq.toSeeksAt, hst⟩)
        fun _ => .goes <| .modify (fun _ h => h ▸ { hq with }) roundExchange_ends
  · exact .modify (fun _ h => h ▸ { hq with }) roundExchange_ends

/-- Every round takes one of those to come, so the bound is not reached (R220). -/
theorem selectRounds_ends : ∀ k, Ends (fun _ r => r.InRounds level k) (selectRounds p k)
    fun x _ r => r.SeeksAt level ∧ (x.2 = none → x.1 ≠ .ok)
  | 0 => ⟨fun h => absurd h.left (Nat.not_lt_zero _), fun h => absurd h.left (Nat.not_lt_zero _)⟩
  | k + 1 => selectRound_ends.bind fun
    | .again => selectRounds_ends k
    | .selected _ => .pure fun _ _ h => ⟨h, nofun⟩
    | .stop _ => .pure fun _ _ h => ⟨h.1, fun _ => h.2⟩

/-- A level confirmed latches its SAK and answers its cascade bit (R217, R218). -/
theorem confirmLevel_ends (hl : level ≤ 3) (a : Response) : Ends (fun _ r => r.SeeksAt level) (confirmLevel p a)
    fun x _ r => r.SeeksAt level ∧ (x.1 = .ok → cascadeSet r.sakLatch = x.2) := by
  refine .go <| .ite (fun _ => .pure fun _ _ h => ⟨h, nofun⟩) fun _ =>
    (Presents.call calcCrc_presents).followedBy fun _ => .ite
      (fun hst => .pure fun _ _ h => ⟨h, fun e => absurd e hst⟩) fun _ => .go <| .ite (fun _ => ?_)
      fun _ => .pure fun _ _ h => ⟨h, nofun⟩
  exact .read fun q hq => .goes <| .modify (G := fun r => r.SeeksAt level ∧ r.sakLatch = a.bytes.getD 0 0#8)
    (fun _ h => copyLevelBytes_seeksAt (h ▸ { hq with }) hl p.codes) <| .go <|
      .pure fun _ _ h => ⟨h.1, fun _ => congrArg cascadeSet h.2⟩

/-- A level that asks for no further one completes the record (R218, R219). -/
theorem completeRecord_recorded {r : SelectRegs} (h : r.SeeksAt level) (hl : 1 ≤ level ∧ level ≤ 3)
    (hsak : cascadeSet r.sakLatch = false) : (completeRecord r).Recorded .ok where
  uidAcc := h.uidAcc
  complete _ := by
    have hlevel := h.level
    exact ⟨by simp only [completeRecord]; omega, _, rfl, (cascadeSet_eq _).symm.trans hsak⟩
  bare hst := absurd rfl hst

/-- SELECT completes the record at the level that asks for no further one, and ends without OK anywhere else. -/
theorem selectLevels_ends {seeded : Bool} {kvb : Nat} : ∀ n, n ≤ 3 →
    Ends (fun _ r => r.Seeking) (selectLevels p seeded kvb n) fun st _ r => r.Recorded st
  | 0, _ => .goes <| .modify (G := SelectRegs.Seeking) (fun _ h => { h with }) <|
      .pure fun _ _ h => h.recorded (by decide)
  | n + 1, hn => by
    have hbits (known : Nat) : 32 - known < roundBound := Nat.lt_of_le_of_lt (Nat.sub_le 32 known) (by decide)
    refine .goes <| .modify (G := SelectRegs.InRounds (3 - n) roundBound)
      (fun _ h => { h with level := rfl, uidx := rfl, left := hbits _ }) <| (selectRounds_ends _).bind fun
      | (_, none) => .pure fun _ _ h => h.1.recorded (h.2 rfl)
      | (_, some a) => ((confirmLevel_ends (by omega) a).weaken fun _ _ h => h.1).bind fun _ => .ite (fun hst => ?_)
          fun hst => .ite (fun _ => ?_) fun hmore => .go ?_
    · exact .pure fun _ _ h => h.1.recorded hst
    · exact (selectLevels_ends n (by omega)).weaken fun _ _ h => h.1.toSeeking
    · refine .weaken (.modify (F := fun r => r.SeeksAt (3 - n) ∧ cascadeSet r.sakLatch = false)
        (fun _ h => completeRecord_recorded h.1 (by omega) h.2) <| .go <| .pure fun _ _ => id) fun _ _ h => ⟨h.1, ?_⟩
      rw [h.2 (not_not.1 hst), eq_false_of_ne_true hmore]

/-- The record starts with the ten bytes of the seed, or ten zeros (R203, U6). -/
theorem startRecord_seeking {cap : Nat} {u : Option Uid} {kvb : Byte}
    (hd : domainError cap p.respCap (.select u kvb) = none) (r : SelectRegs) : (startRecord u r).Seeking := by
  cases u with
  | none => exact ⟨rfl, rfl⟩
  | some u =>
    simp only [domainError, needUid, firstReason, needLength] at hd
    split_ifs at hd with hl
    exact ⟨hl, rfl⟩

/-- SELECT presents the status it answers, with or without its levels (R202, R221). -/
theorem select_ends {cap : Nat} {u : Option Uid} {kvb : Byte}
    (hd : domainError cap p.respCap (.select u kvb) = none) :
    Ends (fun _ _ => True) (select p u kvb) fun st st' r => st = st' ∧ r.Recorded st := by
  have presented {st : StatusCode} : Ends (fun _ r => r.Recorded st) (present st >>= fun _ => pure st)
      fun st st' r => st = st' ∧ r.Recorded st := .now fun _ hs => ⟨_, _, rfl, rfl, hs⟩
  exact .goes <| .modify (F := fun _ => True) (fun r _ => startRecord_seeking hd r) <| .go <| .ite
    (fun _ => presented.weaken fun _ _ h => h.recorded (by decide))
    fun _ => prepareColl_presents.followedBy fun _ => .go <| (selectLevels_ends 3 le_rfl).bind fun _ => presented

/-- SELECT answers its status with the record (R221). -/
theorem selectBody_ends {cap : Nat} {u : Option Uid} {kvb : Byte}
    (hd : domainError cap p.respCap (.select u kvb) = none) :
    Ends (fun _ _ => True) (Instr.body p (.select u kvb)) fun res st r =>
      res = statusResult st (.uid (recordOf r)) ∧ r.Recorded st :=
  (select_ends hd).bind fun st => .now fun s hs => ⟨_, s, rfl, by rw [hs.1], hs.1 ▸ hs.2⟩

/-- Every instruction on operands of its domain ends by itself, its result the status presented where it has one
(R366, R406). -/
theorem Instr.body_ends {cap : Nat} (i : Instr) (hd : domainError cap p.respCap i = none) :
    Ends (fun _ _ => True) (Instr.body p i) fun res st _ => res.Presented st := by
  suffices h : (∃ u k, i = .select u k) ∨ Presents (Instr.body p i) Result.Presented by
    obtain ⟨u, k, rfl⟩ | h := h
    · exact (selectBody_ends hd).imp fun _ _ _ h => .inr (congrArg Result.status h.1)
    · exact (h fun _ => True).imp fun _ _ _ h => h.1
  have statusPresented {x : M StatusCode} (h : Presents x Eq) {y : StatusCode → Payload} :
      Presents (x >>= fun st => pure (statusResult st (y st))) Result.Presented :=
    h.last fun _ _ h => .inr (congrArg some h)
  have firstPresented {α : Type} {x : M (StatusCode × α)} (h : Presents x FirstPresented)
      {y : StatusCode × α → Payload} :
      Presents (x >>= fun a => pure (statusResult a.1 (y a))) Result.Presented :=
    h.last fun _ _ h => .inr (congrArg some h)
  have responded {x : M Response} (h : Presents x Response.Presented) :
      Presents (x >>= fun r => pure (responseResult r)) Result.Presented := h.last fun _ _ h => .inr (congrArg some h)
  have plain {α : Type} {x : M α} (h : Finishes x) {y : α → Payload} :
      Presents (x >>= fun a => pure (plainResult (y a))) Result.Presented := h.last fun _ _ _ => .inl rfl
  cases i with
  | select u k => exact .inl ⟨u, k, rfl⟩
  | wr => exact .inr (plain (.bind .exchange fun _ => .done))
  | wrb => exact .inr (plain framerWrb_presents)
  | rd => exact .inr (plain (.bind .exchange fun _ => .step fun _ => .done))
  | rdb => exact .inr (plain framerRdb_presents)
  | setb => exact .inr (plain framerSetb_presents)
  | clrb => exact .inr (plain framerClrb_presents)
  | calcCrc => exact .inr (firstPresented calcCrc_presents)
  | communicate => exact .inr (responded communicate_presents)
  | transceive => exact .inr (responded transceive_presents)
  | reqa => exact .inr (firstPresented request_presents)
  | wupa => exact .inr (firstPresented request_presents)
  | hlta => exact .inr (statusPresented halt_presents)
  | auth =>
    exact .inr (.bind authenticate_presents fun _ => .step fun _ => statusPresented finish_presents)
  | stopCrypto1 => exact .inr (plain (.call framerClrb_presents))
  | mfTransceive => exact .inr (statusPresented mfTransceive_presents)
  | mfRead => exact .inr (firstPresented mfRead_presents)
  | mfWrite => exact .inr (statusPresented mfWrite_presents)
  | ulWrite => exact .inr (statusPresented (.ite finish_presents (.call mfTransceive_presents)))
  | mfIncrement => exact .inr (statusPresented twoFrames_presents)
  | mfDecrement => exact .inr (statusPresented twoFrames_presents)
  | mfRestore => exact .inr (statusPresented twoFrames_presents)
  | mfTransfer => exact .inr (statusPresented (.call mfTransceive_presents))
  | mfGetValue =>
    exact .inr (.bind (.call mfRead_presents) fun _ =>
      .ite (present_presents (.inr rfl)) (.step fun _ => present_presents (.inr rfl)))
  | mfSetValue => exact .inr (.step fun _ => .step fun _ => statusPresented mfWrite_presents)
  | xferWr => exact .inr (plain .exchange)
  | xferWrb => exact .inr (plain .exchange)
  | xferRd => exact .inr (plain .exchange)
  | xferRdb => exact .inr (plain .exchange)
  | cmdIdle => exact .inr issueCommand_presents
  | cmdMem => exact .inr issueCommand_presents
  | cmdGenerateRandomID => exact .inr issueCommand_presents
  | cmdCalcCRC => exact .inr issueCommand_presents
  | cmdTransmit => exact .inr issueCommand_presents
  | cmdNoCmdChange => exact .inr issueCommand_presents
  | cmdReceive => exact .inr issueCommand_presents
  | cmdTransceive => exact .inr issueCommand_presents
  | cmdMFAuthent => exact .inr issueCommand_presents
  | cmdSoftReset => exact .inr issueCommand_presents
  | piccReqa => exact .inr (responded (.call transceive_presents))
  | piccWupa => exact .inr (responded (.call transceive_presents))
  | piccSelCl1 => exact .inr (responded selectCommand_presents)
  | piccSelCl2 => exact .inr (responded selectCommand_presents)
  | piccSelCl3 => exact .inr (responded selectCommand_presents)
  | piccHlta => exact .inr (responded standardFrame_presents)
  | piccAuthKeyA => exact .inr (responded authenticate_presents)
  | piccAuthKeyB => exact .inr (responded authenticate_presents)
  | piccMfRead => exact .inr (responded standardFrame_presents)
  | piccMfWrite => exact .inr (statusPresented twoFrames_presents)
  | piccUlWrite => exact .inr (statusPresented (.call mfTransceive_presents))
  | piccMfDecrement => exact .inr (statusPresented twoFrames_presents)
  | piccMfIncrement => exact .inr (statusPresented twoFrames_presents)
  | piccMfRestore => exact .inr (statusPresented twoFrames_presents)
  | piccMfTransfer => exact .inr (statusPresented (.call mfTransceive_presents))

end

/-- Settles O30: SELECT answers the record its registers hold, whichever way it ends. -/
theorem selectRecordIsComplete : Obligations.SelectRecordIsComplete := by
  intro s t u kvb h
  obtain ⟨-, hd, res, v, hb, rfl⟩ := exec_next_inv h
  obtain ⟨rfl, hrec⟩ := (selectBody_ends (p := s.config) hd).answers trivial hb
  exact ⟨recordOf v.sel, rfl, rfl, hrec.uidAcc, hrec.complete, hrec.bare⟩

-- No instruction is stopped while the transport works (R356, R406).

theorem Env.works_iff {e : Env} : e.works = true ↔ e.handleOpen = true ∧ noFault e.script = true := by
  simp only [Env.works, Bool.and_eq_true]

theorem Env.respond_of_works {e : Env} (h : e.works = true) (out : List Byte) : e.respond out ≠ none := by
  obtain ⟨ho, hf⟩ := Env.works_iff.1 h
  unfold Env.respond
  rw [if_pos ho]
  split
  · exact Option.some_ne_none _
  · exact Option.some_ne_none _
  · exact Option.some_ne_none _
  · rename_i hscript
    simp [hscript, noFault] at hf

theorem Env.works_after {e : Env} (h : e.works = true) (out : List Byte) : (e.after out).works = true := by
  obtain ⟨ho, hf⟩ := Env.works_iff.1 h
  refine Env.works_iff.2 ⟨ho, ?_⟩
  exact List.all_eq_true.2 fun a ha => List.all_eq_true.1 hf a (List.mem_of_mem_tail ha)

theorem keepsWorking_rule : StepRule True fun s t => s.env.works = true → t.env.works = true where
  trans h₁ h₂ := h₂ ∘ h₁
  own _ _ _ _ _ _ := id
  select _ _ _ := id
  exchange _ _ h := Env.works_after h _

/-- From idle, on operands of its domain, an instruction ends as its body does (R366). -/
theorem exec_of_body {i : Instr} {s t : State} {r : Result} (hs : s.seq = .idle)
    (hd : domainError s.env.chip.fifoSize s.params.respCap i = none)
    (h : Instr.body s.config i (s.started i (Instr.opName i)) = .ok r t) :
    exec i s = .next { t with seq := .idle, latched := none, result := r } := by
  simp only [State.started] at h
  simp only [exec_eq, runOp, hs, hd, h]

/-- Settles O45: only a transport fault stops a body, and a working transport has none. -/
theorem everyInstructionCompletes : Obligations.EveryInstructionCompletes := by
  intro i s hready hd
  simp only [State.ready, Bool.and_eq_true, beq_iff_eq] at hready
  obtain ⟨hs, hworks⟩ := hready
  have hends := Instr.body_ends (p := s.config) i hd
  cases hb : Instr.body s.config i (s.started i (Instr.opName i)) with
  | ok r t =>
    exact ⟨_, exec_of_body hs hd hb, rfl, rfl, hends.answers (t := t) trivial hb⟩
  | error e t =>
    obtain rfl := hends.stops trivial hb
    obtain ⟨u, out, -, hu, hnone, -⟩ := (Instr.body_keeps keepsWorking_rule i hd fun _ _ _ => trivial).faults hb
    exact absurd hnone (Env.respond_of_works (hu hworks) out)

end Sys2Proof.Machine
end

section
namespace Sys2Proof.Machine

-- The MIFARE operations that read a block, write one, or leave the crypto unit (R245 to R265).

/-- Settles O34: the body is MF_READ that succeeds (R255). -/
theorem mifareReadReturnsSixteenBytes : Obligations.MifareReadReturnsSixteenBytes :=
  fun s block r hs hp hr ht => exec_ended hs hp rfl ((mfRead_ok (p := s.config) r hr block _).last rfl) ht

theorem toNat_append_eq_add {m n : Nat} (x : BitVec m) (y : BitVec n) :
    (x ++ y).toNat = 2 ^ n * x.toNat + y.toNat := by
  rw [BitVec.toNat_append, ← Nat.shiftLeft_add_eq_or_of_lt y.isLt, Nat.shiftLeft_eq, Nat.mul_comm]

/-- The word of four bytes and more, the first byte the least significant (R265). -/
theorem valueOfBytes_cons (d0 d1 d2 d3 : Byte) (rest : List Byte) :
    valueOfBytes (d0 :: d1 :: d2 :: d3 :: rest) =
      BitVec.ofNat 32 (d0.toNat + 2 ^ 8 * d1.toNat + 2 ^ 16 * d2.toNat + 2 ^ 24 * d3.toNat) := by
  have hv : valueOfBytes (d0 :: d1 :: d2 :: d3 :: rest) = d3 ++ d2 ++ d1 ++ d0 := rfl
  refine hv.trans (BitVec.eq_of_toNat_eq ?_)
  rw [toNat_append_eq_add, toNat_append_eq_add, toNat_append_eq_add, BitVec.toNat_ofNat]
  omega

/-- MF_GET_VALUE that succeeds: the value of the sixteen bytes read (R265). -/
theorem mfGetValue_ok {p : Params} (r : ReadRun) (hr : r.ok p.waitTransceive = true) (block : Byte) (s : State) :
    Runs (Instr.body p.std (.mfGetValue block)) s (r.talk block)
      (statusResult .ok (.value (valueOfBytes (r.command.answer.vals.take 16))))
      (s.endsBody (r.talk block) (s.resp.drained r.command.answer.vals r.command.answer.control)
        (r.check.quiet.length + 1) (r.command.answer.comm.quiet.length + 1) .ok) := by
  refine ((mfRead_ok r hr block s).call.bind ?_).to (List.append_nil _) rfl
  simp only [ne_eq, not_true, if_false]
  exact Runs.goes ((present_runs .ok _).bind (Runs.pure _ _))

/-- Settles O35: the four bytes are among the sixteen that MF_READ answers. -/
theorem mifareGetValueDecodesTheWord : Obligations.MifareGetValueDecodesTheWord := by
  intro s block d0 d1 d2 d3 rest r hs hp hr hvals ht
  have hvalue : valueOfBytes (r.command.answer.vals.take 16) =
      BitVec.ofNat 32 (d0.toNat + 2 ^ 8 * d1.toNat + 2 ^ 16 * d2.toNat + 2 ^ 24 * d3.toNat) := by
    rw [hvals]
    exact valueOfBytes_cons d0 d1 d2 d3 (rest.take 12)
  rw [← hvalue]
  exact exec_ended hs hp rfl (mfGetValue_ok (p := s.config) r hr block _) ht

/-- MF_WRITE whose first frame is answered but not acknowledged ends with the verdict on it (R256). -/
theorem mfWrite_refused {p : Params} (r : MifareRun) (hr : r.ok p.waitTransceive = true)
    (hv : answerVerdict r.answer ≠ .ok) (block : Byte) {data : List Byte} (hlen : 16 ≤ data.length) (s : State) :
    Runs (mfWrite p.std block data) s (r.talk [0xA0#8, block]) (answerVerdict r.answer)
      (s.endsBody (r.talk [0xA0#8, block]) (s.resp.drained r.answer.vals r.answer.control)
        (r.crc.quiet.length + 1) (r.answer.comm.quiet.length + 1) (answerVerdict r.answer)) := by
  rw [mfWrite, if_neg (Nat.not_lt.2 hlen)]
  refine ((mfTransceive_answered r hr [0xA0#8, block] false s).call.bind ?_).to (List.append_nil _) rfl
  rw [if_pos hv]
  exact finish_runs _ _

/-- Settles O36: MF_WRITE whose frames are both acknowledged, and one whose first frame is refused. -/
theorem mifareWriteSendsTwoFrames : Obligations.MifareWriteSendsTwoFrames := by
  intro s block data r₁ r₂ hs hp hlen
  constructor
  · intro h₁ h₂ ht
    exact exec_ended_status hs hp rfl (mfWrite_acked (p := s.config) r₁ r₂ h₁ h₂ block data hlen _) rfl ht
  · intro v hr hvals hv hbits ht
    have hnack : answerVerdict r₁.answer = .mifareNack := by simp [answerVerdict, hvals, hbits, hv]
    have hrun (t : State) := mfWrite_refused (p := s.config) r₁ hr (by simp [hnack]) block hlen t
    simp only [hnack, hvals] at hrun
    exact exec_ended_status hs hp rfl (hrun _) rfl ht

/-- The change STOP_CRYPTO1 makes to the status register it has read (R245). -/
def clearCrypto (v : Byte) : Byte := v &&& 0xF7#8

/-- STOP_CRYPTO1 is an update of the status register. -/
theorem body_stopCrypto1 (p : Params) : Instr.body p.std .stopCrypto1 =
    call 1 .clrb (framerUpdate Config.regStatus2 clearCrypto) >>= fun _ => pure (plainResult .none) := by
  have hclear : framerClrb Config.regStatus2 Config.crypto1On = framerUpdate Config.regStatus2 clearCrypto :=
    framerClrb_eq Config.crypto1On
  exact congrArg (call 1 .clrb · >>= _) hclear

/-- Settles O32: the update of the status register, and each of its two exchanges failing. -/
theorem stopCrypto1ClearsTheBit : Obligations.StopCrypto1ClearsTheBit := by
  rintro s v w hs hp rfl
  have hb := body_stopCrypto1 s.config
  rw [hp.config_eq] at hb
  have hread : frameRd Config.regStatus2 = [0x90#8, 0x00#8] := rfl
  have hwrite : frameWr Config.regStatus2 (clearCrypto v) = [0x10#8, v &&& 0xF7#8] := rfl
  rw [← hread, ← hwrite]
  constructor
  · intro ht
    have hrun := (framerUpdate_runs (s := s.started .stopCrypto1 .stopCrypto1) (a := Config.regStatus2)
      clearCrypto v).call (line := 1) (op := .clrb)
    exact exec_next hs rfl (hb ▸ hrun.last (f := fun _ => pure (plainResult .none)) rfl) ht rfl
  · rintro (hr | ⟨ht, hw⟩)
    · have hstop := framerUpdate_stopsAt_read (s := s.started .stopCrypto1 .stopCrypto1) (f := clearCrypto) hr
      exact ⟨_, exec_stopsAt hs rfl hb hstop.call.bind⟩
    · have hstop := framerUpdate_stopsAt_write (s := s.started .stopCrypto1 .stopCrypto1) (f := clearCrypto) ht hw
      exact ⟨_, exec_stopsAt hs rfl hb hstop.call.bind⟩

end Sys2Proof.Machine
end

section
namespace Sys2Proof.Machine

-- The pure functions over cards (R291 to R297): sectors, card number, card type.

theorem sectorCount_le (t : PiccType) : sectorCount t ≤ 40 := by cases t <;> decide

theorem sectorSpan_of_lt {n : Nat} (h : n < 32) : sectorSpan n = (4 * n, 4) := if_pos h

theorem sectorSpan_of_le {n : Nat} (h : 32 ≤ n) : sectorSpan n = (128 + 16 * (n - 32), 16) :=
  if_neg (Nat.not_lt.2 h)

theorem sectorDefinition_eq_none_iff {t : PiccType} {n : Nat} :
    sectorDefinition t n = none ↔ sectorCount t ≤ n := by
  simp [sectorDefinition]

/-- The three kinds of sector: sector 0, which loses its first block, the others of four blocks, and those of
sixteen (R296). -/
theorem sectorDefinition_cases {t : PiccType} {n : Nat} {d : SectorDefinition}
    (h : sectorDefinition t n = some d) :
    n < sectorCount t ∧
      (n = 0 ∧ d = ⟨1, 3, 2⟩ ∨
       0 < n ∧ n < 32 ∧ d = ⟨4 * n, 4 * n + 3, 3⟩ ∨
       32 ≤ n ∧ d = ⟨128 + 16 * (n - 32), 128 + 16 * (n - 32) + 15, 15⟩) := by
  rw [sectorDefinition, Option.ite_none_right_eq_some] at h
  obtain ⟨hn, hd⟩ := h
  obtain rfl := Option.some.inj hd
  refine ⟨hn, ?_⟩
  obtain rfl | hpos := Nat.eq_zero_or_pos n
  · exact .inl ⟨rfl, rfl⟩
  · obtain hlow | hhigh := Nat.lt_or_ge n 32
    · exact .inr (.inl ⟨hpos, hlow, by simp [sectorSpan_of_lt hlow, hpos.ne']⟩)
    · exact .inr (.inr ⟨hhigh, by simp [sectorSpan_of_le hhigh, hpos.ne']⟩)

/-- The data blocks of every sector but sector 0 begin where the sector does (R296). -/
theorem sectorDefinition_firstDataBlock {t : PiccType} {n : Nat} {d : SectorDefinition}
    (h : sectorDefinition t n = some d) (hn : n ≠ 0) : d.firstDataBlock = (sectorSpan n).1 := by
  obtain ⟨-, ⟨h0, -⟩ | ⟨-, hlow, rfl⟩ | ⟨hhigh, rfl⟩⟩ := sectorDefinition_cases h
  · exact absurd h0 hn
  · rw [sectorSpan_of_lt hlow]
  · rw [sectorSpan_of_le hhigh]

/-- The trailer is the last block before the next sector (R296). -/
theorem sectorDefinition_trailerBlock {t : PiccType} {n : Nat} {d : SectorDefinition}
    (h : sectorDefinition t n = some d) : d.trailerBlock + 1 = (sectorSpan (n + 1)).1 := by
  obtain ⟨-, ⟨rfl, rfl⟩ | ⟨-, hlow, rfl⟩ | ⟨hhigh, rfl⟩⟩ := sectorDefinition_cases h
  · rfl
  · obtain hnext | rfl : n + 1 < 32 ∨ n = 31 := by omega
    · rw [sectorSpan_of_lt hnext]
      rfl
    · rfl
  · rw [sectorSpan_of_le (by omega)]
    dsimp only
    omega

/-- Settles O59: by the three kinds of sector, of which a card has at most 40. -/
theorem sectorGeometry : Obligations.SectorGeometry := by
  refine ⟨?_, fun _ _ => sectorDefinition_eq_none_iff, by decide, by decide, by decide⟩
  intro t n d hd
  have hle := sectorCount_le t
  have hnext (e : SectorDefinition) (he : sectorDefinition t (n + 1) = some e) :
      e.firstDataBlock = d.trailerBlock + 1 :=
    (sectorDefinition_firstDataBlock he n.succ_ne_zero).trans (sectorDefinition_trailerBlock hd).symm
  obtain ⟨hn, ⟨rfl, rfl⟩ | ⟨hpos, hlow, rfl⟩ | ⟨hhigh, rfl⟩⟩ := sectorDefinition_cases hd
  · exact ⟨hn, rfl, by decide, by decide, rfl, hnext⟩
  · exact ⟨hn, rfl, by dsimp only; omega, by dsimp only; omega, by simp [hpos.ne', hlow], hnext⟩
  · have hpos : n ≠ 0 := by omega
    exact ⟨hn, rfl, by dsimp only; omega, by dsimp only; omega, by simp [hpos, hhigh.not_gt], hnext⟩

/-- The number of a card, the first byte the most significant (R291). -/
theorem uidNumber_cons (b0 b1 b2 b3 b4 : Byte) (rest : List Byte) (size : Nat) (sak : Option Byte) :
    uidNumber { bytes := b0 :: b1 :: b2 :: b3 :: b4 :: rest, size := size, sak := sak } =
      b0.toNat * 2 ^ 32 + b1.toNat * 2 ^ 24 + b2.toNat * 2 ^ 16 + b3.toNat * 2 ^ 8 + b4.toNat := by
  change ((((0 * 256 + b0.toNat) * 256 + b1.toNat) * 256 + b2.toNat) * 256 + b3.toNat) * 256 + b4.toNat = _
  omega

/-- The number of a card is the one whose digits to base 256 are its first five bytes (R291). -/
theorem uidNumber_eq_ofDigits {u : Uid} (h : 5 ≤ u.bytes.length) :
    uidNumber u = Nat.ofDigits 256 ((u.bytes.take 5).map BitVec.toNat).reverse := by
  obtain ⟨bytes, size, sak⟩ := u
  match bytes, h with
  | b0 :: b1 :: b2 :: b3 :: b4 :: rest, _ =>
    change _ = b4.toNat + 256 * (b3.toNat + 256 * (b2.toNat + 256 * (b1.toNat + 256 * (b0.toNat + 256 * 0))))
    rw [uidNumber_cons]
    omega

/-- Bytes as digits to base 256. -/
theorem bytes_toNat_lt {bs : List Byte} : ∀ d ∈ (bs.map BitVec.toNat).reverse, d < 256 := by
  intro d hd
  obtain ⟨b, -, rfl⟩ := List.mem_map.1 (List.mem_reverse.1 hd)
  exact b.isLt

theorem uidNumber_lt {u : Uid} (h : 5 ≤ u.bytes.length) : uidNumber u < 2 ^ 40 := by
  have hlt := Nat.ofDigits_lt_base_pow_length (by decide) (bytes_toNat_lt (bs := u.bytes.take 5))
  rw [← uidNumber_eq_ofDigits h] at hlt
  simpa [h] using hlt

theorem uidNumber_eq_iff {u v : Uid} (hu : 5 ≤ u.bytes.length) (hv : 5 ≤ v.bytes.length) :
    uidNumber u = uidNumber v ↔ u.bytes.take 5 = v.bytes.take 5 := by
  rw [uidNumber_eq_ofDigits hu, uidNumber_eq_ofDigits hv]
  constructor
  · intro h
    have hdigits := Nat.ofDigits_inj_of_len_eq (by decide) (by simp [hu, hv]) bytes_toNat_lt bytes_toNat_lt h
    exact List.map_injective_iff.2 BitVec.toNat_injective (List.reverse_injective hdigits)
  · intro h
    rw [h]

-- The type of a SAK value (R292).

/-- A table whose keys are distinct answers with the value of the key's row. -/
theorem lookup_eq_some_iff_mem {table : List (Byte × PiccType)} {k : Byte} {ty : PiccType}
    (hkeys : (table.map (·.1)).Nodup) : table.lookup k = some ty ↔ (k, ty) ∈ table := by
  rw [List.lookup_eq_some_iff]
  constructor
  · rintro ⟨before, rows, rfl, -⟩
    exact List.mem_append_right _ List.mem_cons_self
  · intro hmem
    obtain ⟨before, rows, rfl⟩ := List.append_of_mem hmem
    rw [List.map_append, List.nodup_append] at hkeys
    obtain ⟨-, -, hne⟩ := hkeys
    refine ⟨before, rows, rfl, fun row hrow => bne_iff_ne.2 ?_⟩
    exact (hne _ (List.mem_map_of_mem hrow) k List.mem_cons_self).symm

theorem piccType_of_sak {u : Uid} {sak : Byte} (h : u.sak = some sak) (table : List (Byte × PiccType)) :
    piccType table u = sakType table sak := by
  rw [piccType, h]

/-- Bits that a mask leaves out make no difference under it. -/
theorem xor_and_of_disjoint {w : Nat} {x m k : BitVec w} (h : m &&& k = 0#w) : (x ^^^ m) &&& k = x &&& k := by
  have hdistrib : (x ^^^ m) &&& k = (x &&& k) ^^^ (m &&& k) := by
    ext i
    simp [Bool.and_xor_distrib_right]
  rw [hdistrib, h, BitVec.xor_zero]

/-- Bit 7 of the SAK makes no difference. -/
theorem sakType_xor_bit7 (table : List (Byte × PiccType)) (sak : Byte) :
    sakType table (sak ^^^ 0x80#8) = sakType table sak := by
  rw [sakType, xor_and_of_disjoint (by decide), sakType]

theorem sakType_of_mem {table : List (Byte × PiccType)} {sak : Byte} {ty : PiccType}
    (hkeys : (table.map (·.1)).Nodup) (hmem : (sak &&& 0x7F#8, ty) ∈ table) : sakType table sak = ty := by
  rw [sakType, (lookup_eq_some_iff_mem hkeys).2 hmem, Option.getD_some]

theorem sakType_of_no_row {table : List (Byte × PiccType)} {sak : Byte}
    (h : ∀ row ∈ table, row.1 ≠ sak &&& 0x7F#8) : sakType table sak = .unknown := by
  have hnone : table.lookup (sak &&& 0x7F#8) = none :=
    List.lookup_eq_none_iff.2 fun row hrow => bne_iff_ne.2 (h row hrow).symm
  rw [sakType, hnone, Option.getD_none]

/-- A type but the unknown one is given by a row of the table, and by nothing else. -/
theorem sakType_eq_iff_mem {table : List (Byte × PiccType)} {sak : Byte} {ty : PiccType}
    (hkeys : (table.map (·.1)).Nodup) (hty : ty ≠ .unknown) :
    sakType table sak = ty ↔ (sak &&& 0x7F#8, ty) ∈ table := by
  rw [← lookup_eq_some_iff_mem hkeys, sakType]
  cases table.lookup (sak &&& 0x7F#8) with
  | none => simp [hty.symm]
  | some ty' => simp

/-- The rows of the rule's table (R292). -/
theorem piccType_sakTable_iff {u : Uid} {sak : Byte} (h : u.sak = some sak) {ty : PiccType}
    (hty : ty ≠ .unknown) :
    piccType Config.sakTable u = ty ↔ (sak &&& 0x7F#8, ty) ∈ Config.sakTable := by
  rw [piccType_of_sak h]
  exact sakType_eq_iff_mem (by decide) hty

/-- Settles O60: the number by its digits to base 256, the type by the rows of the table. -/
theorem cardNumberAndType : Obligations.CardNumberAndType := by
  refine ⟨uidNumber_cons, ?_, ?_, ?_⟩
  · intro u v hu hv
    exact ⟨uidNumber_lt (by omega), uidNumber_eq_iff (by omega) (by omega)⟩
  · intro table u
    refine ⟨fun h => by rw [piccType, h], fun sak h => ?_⟩
    rw [piccType_of_sak h, piccType_of_sak (u := { u with sak := _ }) rfl]
    exact ⟨(sakType_xor_bit7 table sak).symm, fun _ => sakType_of_mem, sakType_of_no_row⟩
  · intro u sak h
    simp only [ne_eq, piccType_sakTable_iff h, reduceCtorEq, not_false_eq_true]
    simp [Config.sakTable]

end Sys2Proof.Machine
end

section
namespace Sys2Proof.Machine

-- What an exchange leaves alone on the chip (R49, R331, log 24).

/-- The fields of the chip no exchange writes: its codes, the capacity of its FIFO, the level of its reset pin. -/
def Chip.fixed (c : Chip) : Codes × Nat × Bool := (c.codes, c.fifoSize, c.resetPinHigh)

namespace Chip

theorem fixed_ite {p : Prop} [Decidable p] {c d : Chip} {k : Codes × Nat × Bool} (hc : c.fixed = k)
    (hd : d.fixed = k) : (if p then c else d).fixed = k := by
  split
  · exact hc
  · exact hd

variable (c : Chip)

theorem fixed_writeFlags (a : Reg) (v : Byte) : (c.writeFlags a v).fixed = c.fixed := fixed_ite rfl rfl

theorem fixed_silence : c.silence.fixed = c.fixed := fixed_ite rfl rfl

theorem fixed_receive (bits : List Bool) (pad : Byte) (coll : Option RfCollision) (fatal : Byte) :
    (c.receive bits pad coll fatal).fixed = c.fixed := by
  cases coll with
  | none => rfl
  | some k => rfl

theorem fixed_takeAnswer : c.takeAnswer.2.fixed = c.fixed := by
  unfold takeAnswer
  split
  · split
    · rfl
    · rfl
  · rfl

theorem fixed_await : c.await.fixed = c.fixed := by
  have ht := c.fixed_takeAnswer
  unfold await
  split <;> rename_i ha <;> rw [ha] at ht
  · exact (fixed_receive _ _ _ _ _).trans ht
  · exact (fixed_silence _).trans ht
  · exact (fixed_silence _).trans ht

theorem fixed_transmit : c.transmit.fixed = c.fixed := fixed_await _

theorem fixed_authenticate : c.authenticate.fixed = c.fixed := by
  have ht := ({ c with fifo := [] }.put c.codes.regError 0#8).fixed_takeAnswer
  unfold authenticate
  simp only
  split <;> rename_i ha <;> rw [ha] at ht
  · exact ht
  · exact (fixed_silence _).trans ht
  · exact (fixed_silence _).trans ht

theorem fixed_calcCrc : c.calcCrc.fixed = c.fixed := fixed_ite rfl rfl

theorem fixed_endCommand : c.endCommand.fixed = c.fixed := fixed_ite rfl rfl

theorem fixed_writeCommand (v : Byte) : (c.writeCommand v).fixed = c.fixed :=
  have hp : { c.endCommand.put c.codes.regCommand v with active := some (v.setWidth 4) }.fixed = c.fixed :=
    c.fixed_endCommand
  fixed_ite hp <| fixed_ite hp <| fixed_ite hp <| fixed_ite ((fixed_calcCrc _).trans hp) <|
    fixed_ite ((fixed_authenticate _).trans hp) <| fixed_ite hp hp

theorem fixed_writeBitFraming (v : Byte) : (c.writeBitFraming v).fixed = c.fixed :=
  fixed_ite (fixed_transmit _) rfl

theorem fixed_write (a : Reg) (v : Byte) : (c.write a v).fixed = c.fixed :=
  fixed_ite (fixed_ite rfl rfl) <| fixed_ite (c.fixed_writeCommand v) <|
    fixed_ite (c.fixed_writeFlags a v) <| fixed_ite (c.fixed_writeFlags a v) <|
    fixed_ite (fixed_ite rfl rfl) <| fixed_ite (fixed_ite rfl rfl) <|
    fixed_ite (c.fixed_writeBitFraming v) <| fixed_ite rfl <|
    fixed_ite rfl <| fixed_ite rfl <| fixed_ite rfl <| fixed_ite rfl rfl

theorem fixed_readReg (a : Reg) (free : Byte) : (c.readReg a free).2.fixed = c.fixed := by
  unfold readReg
  split_ifs
  · rfl
  · split
    · rfl
    · rfl
  · rfl
  · rfl

theorem fixed_readAll (free : Nat → Byte) (bs : List Byte) (k : Nat) :
    (readAll free bs k c).2.fixed = c.fixed := by
  induction bs generalizing k c with
  | nil => rfl
  | cons b bs ih => exact (ih _ (k + 1)).trans (fixed_readReg _ _ _)

theorem fixed_writes (a : Reg) (vs : List Byte) :
    (vs.foldl (fun c v => c.write a v) c).fixed = c.fixed := by
  induction vs generalizing c with
  | nil => rfl
  | cons v vs ih => exact (ih _).trans (c.fixed_write a v)

theorem fixed_exchange (free : Nat → Byte) (out : List Byte) :
    (c.exchange free out).2.fixed = c.fixed := by
  cases out with
  | nil => rfl
  | cons b bs =>
    simp only [exchange]
    split
    · exact c.fixed_readAll free _ 1
    · exact c.fixed_writes _ bs

end Chip

theorem Env.after_fixed (e : Env) (out : List Byte) : (e.after out).chip.fixed = e.chip.fixed :=
  Chip.fixed_ite (Chip.fixed_exchange _ _ out) rfl

-- What instructions leave alone (R311, R370).

/-- What the host holds, the handle and the chip's fixed fields are untouched, and ENV's record grew by
exchanges that were all answered. -/
structure LeavesHost (s t : State) : Prop extends KeepsHost s t where
  handleOpen : t.env.handleOpen = s.env.handleOpen
  chip : t.env.chip.fixed = s.env.chip.fixed
  exchanged : ∃ done : List Exchange, t.env.trace = s.env.trace ++ done ∧ (∀ x ∈ done, x.inp ≠ none) ∧
    t.env.count = s.env.count + done.length ∧ t.env.script = s.env.script.drop done.length

theorem LeavesHost.trans {s t u : State} (h₁ : LeavesHost s t) (h₂ : LeavesHost t u) :
    LeavesHost s u := by
  obtain ⟨d₁, ht₁, ha₁, hc₁, hs₁⟩ := h₁.exchanged
  obtain ⟨d₂, ht₂, ha₂, hc₂, hs₂⟩ := h₂.exchanged
  refine ⟨h₁.toKeepsHost.trans h₂.toKeepsHost, h₂.handleOpen.trans h₁.handleOpen, h₂.chip.trans h₁.chip,
    d₁ ++ d₂, ?_, List.forall_mem_append.2 ⟨ha₁, ha₂⟩, ?_, ?_⟩
  · rw [ht₂, ht₁, List.append_assoc]
  · rw [hc₂, hc₁, List.length_append, Nat.add_assoc]
  · rw [hs₂, hs₁, List.drop_drop, List.length_append]

/-- Steps without an exchange that leave ENV and what the host holds. -/
theorem LeavesHost.silent {s t : State} (h : KeepsHost s t) (he : t.env = s.env) : LeavesHost s t :=
  ⟨h, by rw [he], by rw [he], [], by simp [he]⟩

theorem leavesHost_rule : StepRule True LeavesHost where
  trans := LeavesHost.trans
  own _ _ _ _ _ _ := .silent ⟨rfl, rfl, rfl, rfl, rfl⟩ rfl
  select _ _ _ := .silent ⟨rfl, rfl, rfl, rfl, rfl⟩ rfl
  exchange _ hi := ⟨⟨rfl, rfl, rfl, rfl, rfl⟩, rfl, Env.after_fixed _ _, _, Env.after_trace _ _,
    by simp [hi], rfl, List.drop_one.symm⟩

-- What instructions do does not depend on the host's side (R311, R370).

/-- What steps end in, the host's side put in place of the one they leave. -/
def resultWithHost {α : Type} (h : HostSide) : EStateM.Result Stop State α → EStateM.Result Stop State α
  | .ok a t => .ok a { t with host := h }
  | .error e t => .error e { t with host := h }

/-- The host's side steers nothing and is passed on as it stands. -/
def HostBlind {α : Type} (x : M α) : Prop :=
  ∀ (s : State) (h : HostSide), x { s with host := h } = resultWithHost h (x s)

namespace HostBlind
variable {α β : Type}

theorem bind {x : M α} {f : α → M β} (hx : HostBlind x) (hf : ∀ a, HostBlind (f a)) :
    HostBlind (x >>= f) := by
  intro s h
  have hother := hx s h
  cases hs : x s with
  | ok a t =>
    rw [hs] at hother
    rw [M.bind_ok hs, M.bind_ok hother, hf a t h]
  | error e t =>
    rw [hs] at hother
    rw [M.bind_error hs, M.bind_error hother]
    rfl

/-- A single step that answers at once comes first. -/
theorem own {x : M α} {f : α → M β} (hf : ∀ a, HostBlind (f a))
    (hx : HostBlind x := by exact fun _ _ => rfl) : HostBlind (x >>= f) := hx.bind hf

theorem pure (a : α) : HostBlind (Pure.pure a : M α) := fun _ _ => rfl

theorem ite {c : Prop} [Decidable c] {x y : M α} (hx : HostBlind x) (hy : HostBlind y) :
    HostBlind (if c then x else y) := by
  split
  · exact hx
  · exact hy

/-- Steps of which only the answer is changed afterwards. -/
theorem map {x : M α} {f : α → β} (hx : HostBlind x) : HostBlind (x >>= fun a => Pure.pure (f a)) :=
  hx.bind fun a => pure (f a)

theorem call {line : Nat} {op : OpName} {body : M α} (hb : HostBlind body) :
    HostBlind (call line op body) := by
  intro s h
  have hother := hb { s with seq := (s.seq.atLine line).push op } h
  simp only [Machine.call, hother]
  cases body { s with seq := (s.seq.atLine line).push op } with
  | ok a t => rfl
  | error e t => rfl

theorem exchange (out : List Byte) : HostBlind (exchange out) := by
  intro s h
  simp only [Machine.exchange]
  cases s.env.respond out with
  | none => rfl
  | some inp => rfl

end HostBlind

section
variable {p : Params}

-- The framer and the status.

theorem framerWr_hostBlind {a : Reg} {v : Byte} : HostBlind (framerWr a v) := .map (.exchange _)

theorem framerWrb_hostBlind {a : Reg} {vs : List Byte} : HostBlind (framerWrb a vs) := .map (.exchange _)

theorem framerRd_hostBlind {a : Reg} : HostBlind (framerRd a) :=
  .bind (.exchange _) fun _ => .own fun _ => .pure _

theorem framerRdb_hostBlind {a : Reg} {count rxAlign : Nat} {mergeIn : Byte} :
    HostBlind (framerRdb a count rxAlign mergeIn) :=
  .ite (.pure _) <| .own fun _ => .bind (.exchange _) fun _ => .own fun _ => .pure _

theorem callWr_hostBlind {line : Nat} {a : Reg} {v : Byte} : HostBlind (callWr line a v) :=
  .call framerWr_hostBlind

theorem callRd_hostBlind {line : Nat} {a : Reg} : HostBlind (callRd line a) := .call framerRd_hostBlind

theorem framerSetb_hostBlind {a : Reg} {mask : Byte} : HostBlind (framerSetb a mask) :=
  .bind callRd_hostBlind fun _ => callWr_hostBlind

theorem framerClrb_hostBlind {a : Reg} {mask : Byte} : HostBlind (framerClrb a mask) :=
  .bind callRd_hostBlind fun _ => callWr_hostBlind

theorem finish_hostBlind {st : StatusCode} : HostBlind (finish st) := fun _ _ => rfl

theorem respond_hostBlind {st : StatusCode} : HostBlind (respond st) := fun _ _ => rfl

-- CALC_CRC.

theorem crcReturn_hostBlind {st : StatusCode} {c : List Byte} : HostBlind (crcReturn st c) :=
  fun _ _ => rfl

theorem pollCrc_hostBlind : ∀ k, HostBlind (pollCrc p k)
  | 0 => .own fun _ => crcReturn_hostBlind
  | k + 1 =>
    .own fun _ => .bind callRd_hostBlind fun _ => .own fun _ => .own fun _ => .ite
      (.bind callRd_hostBlind fun _ => .bind callRd_hostBlind fun _ => .own fun _ => crcReturn_hostBlind)
      (pollCrc_hostBlind k)

theorem crcSetup_hostBlind {data : List Byte} : HostBlind (crcSetup p data) :=
  .bind callWr_hostBlind fun _ => .bind callWr_hostBlind fun _ => .bind callWr_hostBlind fun _ =>
    .bind (.call framerWrb_hostBlind) fun _ => .bind callWr_hostBlind fun _ => .own fun _ _ _ => rfl

theorem calcCrc_hostBlind {data : List Byte} : HostBlind (calcCrc p data) :=
  .bind crcSetup_hostBlind fun _ => pollCrc_hostBlind _

-- COMMUNICATE and TRANSCEIVE.

variable {a : CommArgs}

theorem commSetup_hostBlind : HostBlind (commSetup p a) :=
  .own fun _ => .own fun _ => .bind callWr_hostBlind fun _ => .bind callWr_hostBlind fun _ =>
    .bind callWr_hostBlind fun _ => .bind (.call framerWrb_hostBlind) fun _ =>
      .bind callWr_hostBlind fun _ => .bind callWr_hostBlind fun _ => .own fun _ =>
        .ite (.call framerSetb_hostBlind) (.pure ())

theorem pollIrq_hostBlind {waitIrq : Byte} : ∀ k, HostBlind (pollIrq p waitIrq k)
  | 0 => .own fun _ => .pure _
  | k + 1 =>
    .own fun _ => .bind callRd_hostBlind fun _ => .own fun _ => .own fun _ =>
      .ite (.own fun _ => .pure _) (.own fun _ => .ite (.pure _) (pollIrq_hostBlind k))

theorem drain_hostBlind : HostBlind (drain p a) :=
  .bind callRd_hostBlind fun _ => .own fun _ => .ite (.pure _) <|
    .bind (.call framerRdb_hostBlind) fun _ => .own fun _ => .bind callRd_hostBlind fun _ =>
      .own fun _ => .pure _

theorem checkResponse_hostBlind : HostBlind (checkResponse p) :=
  .own fun _ => .own fun _ => .ite respond_hostBlind <| .own fun _ => .ite respond_hostBlind <|
    .bind (.call calcCrc_hostBlind) fun _ => .own fun _ => .ite respond_hostBlind <| .own fun _ =>
      .ite (.own fun _ => respond_hostBlind) (.own fun _ => respond_hostBlind)

theorem classify_hostBlind {e : Byte} : HostBlind (classify p a e) :=
  .own fun _ => .ite respond_hostBlind <| .own fun _ =>
    .ite checkResponse_hostBlind (.own fun _ => respond_hostBlind)

theorem afterCompletion_hostBlind : HostBlind (afterCompletion p a) :=
  .bind callRd_hostBlind fun _ => .own fun _ => .ite respond_hostBlind <| .own fun _ => .ite
    (.bind drain_hostBlind fun _ => .ite classify_hostBlind respond_hostBlind)
    classify_hostBlind

theorem communicate_hostBlind : HostBlind (communicate p a) :=
  .bind commSetup_hostBlind fun _ => .own fun _ => .own fun _ =>
    .bind (pollIrq_hostBlind _) fun _ => .ite afterCompletion_hostBlind respond_hostBlind

variable {data : List Byte} {want check : Bool} {tx rx : Nat} {merge : Byte}

theorem transceive_hostBlind : HostBlind (transceive p data want tx rx check merge) :=
  .call communicate_hostBlind

theorem transceiveInPlace_hostBlind : HostBlind (transceiveInPlace p data want tx rx check merge) :=
  .own fun _ => communicate_hostBlind

-- REQA, WUPA and HLTA.

theorem prepareColl_hostBlind {line : Nat} : HostBlind (prepareColl p line) :=
  .own fun _ => .ite (.call framerClrb_hostBlind) (.pure ())

theorem request_hostBlind {piccByte : Byte} : HostBlind (request p piccByte) :=
  .bind prepareColl_hostBlind fun _ => .bind (.call transceive_hostBlind) fun _ => .own fun _ =>
    .ite (.own fun _ => .pure _) <| .own fun _ =>
      .ite (.own fun _ => .pure _) (.own fun _ => .own fun _ => .pure _)

theorem judgeHalt_hostBlind {st : StatusCode} : HostBlind (judgeHalt st) :=
  .own fun _ => .ite finish_hostBlind <| .own fun _ => .ite finish_hostBlind (.own fun _ => finish_hostBlind)

theorem halt_hostBlind : HostBlind (halt p) :=
  .bind (.call calcCrc_hostBlind) fun _ => .ite finish_hostBlind <|
    .bind (.call transceive_hostBlind) fun _ => judgeHalt_hostBlind

-- The MIFARE sequencer.

variable {block : Byte} {accept : Bool}

theorem authenticate_hostBlind {frame : List Byte} : HostBlind (authenticate p frame) :=
  .call communicate_hostBlind

theorem judgeAck_hostBlind {r : Response} : HostBlind (judgeAck accept r) :=
  .own fun _ => .ite finish_hostBlind <| .own fun _ => .ite finish_hostBlind <| .own fun _ =>
    .ite finish_hostBlind <| .own fun _ => .ite finish_hostBlind (.own fun _ => finish_hostBlind)

theorem mfTransceive_hostBlind : HostBlind (mfTransceive p data accept) :=
  .bind (.call calcCrc_hostBlind) fun _ => .ite finish_hostBlind <|
    .bind (.call transceiveInPlace_hostBlind) fun _ => judgeAck_hostBlind

theorem readCommand_hostBlind : HostBlind (readCommand p block) :=
  .bind (.call calcCrc_hostBlind) fun _ => .ite (.own fun _ => .pure _) <|
    .map (.call transceiveInPlace_hostBlind)

theorem mfRead_hostBlind : HostBlind (mfRead p block) :=
  .bind readCommand_hostBlind fun _ => .ite (.pure _) <| .own fun _ => .ite (.own fun _ => .pure _) <|
    .own fun _ => .ite (.own fun _ => .pure _) (.own fun _ => .own fun _ => .pure _)

theorem twoFrames_hostBlind {first second : List Byte} : HostBlind (twoFrames p first second accept) :=
  .bind (.call mfTransceive_hostBlind) fun _ => .ite finish_hostBlind (.call mfTransceive_hostBlind)

theorem mfWrite_hostBlind : HostBlind (mfWrite p block data) :=
  .ite finish_hostBlind <| .bind (.call mfTransceive_hostBlind) fun _ =>
    .ite finish_hostBlind (.call mfTransceive_hostBlind)

theorem ulWrite_hostBlind : HostBlind (ulWrite p block data) :=
  .ite finish_hostBlind (.call mfTransceive_hostBlind)

theorem twoStep_hostBlind {cmd : Byte} {delta : Word32} : HostBlind (twoStep p cmd block delta) :=
  .bind (.call mfTransceive_hostBlind) fun _ => .ite finish_hostBlind (.call mfTransceive_hostBlind)

-- Chip and card commands.

theorem issueCommand_hostBlind {c : CmdCode} : HostBlind (issueCommand p c) := .map callWr_hostBlind

theorem standardFrame_hostBlind : HostBlind (standardFrame p data want check) :=
  .bind (.call calcCrc_hostBlind) fun _ => .ite (.own fun _ => .pure _) (.call transceive_hostBlind)

theorem selectCommand_hostBlind {sel : Byte} {known : Nat} {window : List Byte} :
    HostBlind (selectCommand p sel known window) :=
  .ite (.call transceive_hostBlind) standardFrame_hostBlind

-- SELECT.

theorem resolveCollision_hostBlind : HostBlind (resolveCollision p) :=
  .bind callRd_hostBlind fun _ => .own fun _ => .own fun _ => .ite (.pure _) <| .own fun _ =>
    .ite (.pure _) <| .own fun _ => .own fun _ => .own fun _ => .pure _

theorem roundExchange_hostBlind : HostBlind (roundExchange p) :=
  .own fun _ => .bind (.call transceive_hostBlind) fun _ => .own fun _ => .ite
    (.own fun _ => .ite (.pure _) <| .own fun _ => .own fun _ => .own fun _ =>
      .ite resolveCollision_hostBlind <| .own fun _ => .ite (.own fun _ => .pure _) (.pure _))
    (.own fun _ => .pure _)

theorem selectRound_hostBlind : HostBlind (selectRound p) :=
  .own fun _ => .own fun _ => .ite
    (.own fun _ => .own fun _ => .own fun _ => .bind (.call calcCrc_hostBlind) fun _ => .ite (.pure _) <|
      .own fun _ => .own fun _ => roundExchange_hostBlind)
    (.own fun _ => .own fun _ => roundExchange_hostBlind)

theorem selectRounds_hostBlind : ∀ k, HostBlind (selectRounds p k)
  | 0 => fun _ _ => rfl
  | k + 1 => .bind selectRound_hostBlind fun
    | .again => selectRounds_hostBlind k
    | .selected _ => .pure _
    | .stop _ => .pure _

theorem confirmLevel_hostBlind {r : Response} : HostBlind (confirmLevel p r) :=
  .own fun _ => .ite (.pure _) <| .bind (.call calcCrc_hostBlind) fun _ => .ite (.pure _) <|
    .own fun _ => .ite (.own fun _ => .own fun _ => .own fun _ => .own fun _ => .pure _) (.pure _)

theorem selectLevels_hostBlind {seeded : Bool} {kvb : Nat} : ∀ n, HostBlind (selectLevels p seeded kvb n)
  | 0 => fun _ _ => rfl
  | n + 1 => .own fun _ => .own fun _ => .bind (selectRounds_hostBlind _) fun
    | (_, none) => .pure _
    | (_, some _) => .bind confirmLevel_hostBlind fun _ => .ite (.pure _) <|
      .ite (selectLevels_hostBlind n) <| .own fun _ => .own fun _ => .own fun _ => .pure _

theorem select_hostBlind {u : Option Uid} {kvb : Byte} : HostBlind (select p u kvb) :=
  .own fun _ => .own fun _ => .own fun _ => .ite (.own fun _ => .pure _) <|
    .bind prepareColl_hostBlind fun _ => .own fun _ => .bind (selectLevels_hostBlind 3) fun _ =>
      .own fun _ => .pure _

theorem Instr.body_hostBlind (i : Instr) : HostBlind (Instr.body p i) := by
  cases i with
  | wr => exact .map framerWr_hostBlind
  | wrb => exact .map framerWrb_hostBlind
  | rd => exact .map framerRd_hostBlind
  | rdb => exact .map framerRdb_hostBlind
  | setb => exact .map framerSetb_hostBlind
  | clrb => exact .map framerClrb_hostBlind
  | calcCrc => exact .map calcCrc_hostBlind
  | communicate => exact .map communicate_hostBlind
  | transceive => exact .map transceive_hostBlind
  | reqa => exact .map request_hostBlind
  | wupa => exact .map request_hostBlind
  | select => exact .bind select_hostBlind fun _ => .own fun _ => .pure _
  | hlta => exact .map halt_hostBlind
  | auth => exact .bind authenticate_hostBlind fun _ => .own fun _ => .map finish_hostBlind
  | stopCrypto1 => exact .map (.call framerClrb_hostBlind)
  | mfTransceive => exact .map mfTransceive_hostBlind
  | mfRead => exact .map mfRead_hostBlind
  | mfWrite => exact .map mfWrite_hostBlind
  | ulWrite => exact .map ulWrite_hostBlind
  | mfIncrement => exact .map twoStep_hostBlind
  | mfDecrement => exact .map twoStep_hostBlind
  | mfRestore => exact .map twoStep_hostBlind
  | mfTransfer => exact .map (.call mfTransceive_hostBlind)
  | mfGetValue =>
    exact .bind (.call mfRead_hostBlind) fun _ =>
      .ite (.own fun _ => .pure _) (.own fun _ => .own fun _ => .pure _)
  | mfSetValue => exact .own fun _ => .own fun _ => .map mfWrite_hostBlind
  | xferWr => exact .map (.exchange _)
  | xferWrb => exact .map (.exchange _)
  | xferRd => exact .map (.exchange _)
  | xferRdb => exact .map (.exchange _)
  | cmdIdle => exact issueCommand_hostBlind
  | cmdMem => exact issueCommand_hostBlind
  | cmdCalcCRC => exact issueCommand_hostBlind
  | cmdTransceive => exact issueCommand_hostBlind
  | cmdMFAuthent => exact issueCommand_hostBlind
  | cmdSoftReset => exact issueCommand_hostBlind
  | cmdGenerateRandomID => exact issueCommand_hostBlind
  | cmdTransmit => exact issueCommand_hostBlind
  | cmdNoCmdChange => exact issueCommand_hostBlind
  | cmdReceive => exact issueCommand_hostBlind
  | piccReqa => exact .map (.call transceive_hostBlind)
  | piccWupa => exact .map (.call transceive_hostBlind)
  | piccSelCl1 => exact .map selectCommand_hostBlind
  | piccSelCl2 => exact .map selectCommand_hostBlind
  | piccSelCl3 => exact .map selectCommand_hostBlind
  | piccHlta => exact .map standardFrame_hostBlind
  | piccAuthKeyA => exact .map authenticate_hostBlind
  | piccAuthKeyB => exact .map authenticate_hostBlind
  | piccMfRead => exact .map standardFrame_hostBlind
  | piccMfWrite => exact .map twoFrames_hostBlind
  | piccUlWrite => exact .map (.call mfTransceive_hostBlind)
  | piccMfDecrement => exact .map twoFrames_hostBlind
  | piccMfIncrement => exact .map twoFrames_hostBlind
  | piccMfRestore => exact .map twoFrames_hostBlind
  | piccMfTransfer => exact .map (.call mfTransceive_hostBlind)

end

/-- An operation with a body that is blind to the host's side accepts, refuses and faults alike with any. -/
theorem runOp_withHost {i : Instr} {op : OpName} {body : Params → M Result} {s : State}
    (hb : HostBlind (body s.config)) (h : HostSide) :
    runOp i op body { s with host := h } = withHost h (runOp i op body s) := by
  have hother := hb { s with seq := .running { op := op, line := 1 } [], latched := some i } h
  have hconfig : State.config { s with host := h } = s.config := rfl
  simp only [runOp, hconfig, hother]
  cases s.seq with
  | faulted => rfl
  | running q stack => rfl
  | idle =>
    cases domainError s.env.chip.fifoSize s.params.respCap i with
    | some r => rfl
    | none =>
      cases body s.config { s with seq := .running { op := op, line := 1 } [], latched := some i } with
      | ok r t => rfl
      | error e t =>
        cases e with
        | transport => rfl
        | refuse r => rfl

/-- Settles O52: no body reads the host's side, so a run with another differs in nothing else; and what every single
step leaves alone an instruction does too. -/
theorem instructionsLeaveTheHost : Obligations.InstructionsLeaveTheHost := by
  constructor
  · intro i s h
    rw [exec_eq, exec_eq]
    exact runOp_withHost (Instr.body_hostBlind i) h
  · intro i s t ht
    obtain ⟨-, hd, r, u, hb, rfl⟩ := exec_next_inv ht
    have hu : LeavesHost (s.started i (Instr.opName i)) u :=
      (Instr.body_keeps leavesHost_rule i hd fun _ _ _ => trivial).answers hb
    obtain ⟨hcodes, hrest⟩ := Prod.mk.inj hu.chip
    obtain ⟨hfifo, hpin⟩ := Prod.mk.inj hrest
    exact ⟨hu.host, hu.params, hu.pending, hu.handleOpen, hcodes, hfifo, hpin, hu.exchanged⟩

end Sys2Proof.Machine
end

section
namespace Sys2Proof.Machine

-- Which status an operation can answer, whatever ENV answers (R358, R363).

/-- Whatever the steps answer is as `P` says. -/
def Yields {α : Type} (x : M α) (P : α → Prop) : Prop := ∀ s t a, x s = .ok a t → P a

namespace Yields
variable {α β : Type} {x : M α} {f : α → M β} {P : β → Prop} {Q : α → Prop}

theorem bind (hx : Yields x Q) (hf : ∀ a, Q a → Yields (f a) P) : Yields (x >>= f) P := by
  intro s t b h
  obtain ⟨a, u, hu, ht⟩ := M.bind_ok_inv h
  exact hf a (hx s u a hu) u t b ht

/-- Steps whose answer does not matter come first. -/
theorem after (hf : ∀ a, Yields (f a) P) : Yields (x >>= f) P :=
  bind (Q := fun _ => True) (fun _ _ _ _ => trivial) fun a _ => hf a

theorem refuse {r : Refusal} : Yields (refuse r : M β) P := by
  intro s t b h
  cases h

theorem pure {b : β} (h : P b) : Yields (Pure.pure b : M β) P := by
  intro s t a ha
  cases ha
  exact h

/-- Only the answer is changed afterwards. -/
theorem last {g : α → β} (hx : Yields x Q) (h : ∀ a, Q a → P (g a)) :
    Yields (x >>= fun a => Pure.pure (g a)) P := hx.bind fun a ha => pure (h a ha)

theorem ite {c : Prop} [Decidable c] {y : M α} (hx : c → Yields x Q) (hy : ¬ c → Yields y Q) :
    Yields (if c then x else y) Q := by
  split
  · exact hx ‹_›
  · exact hy ‹_›

theorem call {line : Nat} {op : OpName} (hx : Yields x Q) : Yields (call line op x) Q := by
  intro s t a h
  obtain ⟨u, hu, -⟩ := call_ok_inv h
  exact hx _ u a hu

end Yields

/-- What CALC_CRC can answer (R363). -/
def crcStatuses : List StatusCode := [.ok, .timeout]

/-- What an exchange can answer: NoRoom only where it drains a response, CrcWrong and MifareNack only where it
checks one (R168 to R173). -/
def exchangeStatuses (want check : Bool) : List StatusCode :=
  [.ok, .error, .collision, .timeout] ++ (if want then [.noRoom] else []) ++
    (if want && check then [.crcWrong, .mifareNack] else [])

/-- What a MIFARE frame that wants the acknowledge can answer (R250). -/
def ackStatuses : List StatusCode := [.ok, .error, .collision, .timeout, .noRoom, .mifareNack]

/-- What SELECT can answer once it has accepted its operands (R200). -/
def selectStatuses : List StatusCode :=
  [.ok, .error, .collision, .timeout, .noRoom, .internalError, .crcWrong]

/-- Invalid and nothing else on malformed input, and only there (R358). -/
def checkedStatuses (malformed : Prop) [Decidable malformed] (proper : List StatusCode) : List StatusCode :=
  if malformed then [.invalid] else proper

/-- The statuses an instruction can present (R363): none for the framer's operations, STOP_CRYPTO1, the transport
frames and the chip commands; a card command presents those of its exchanges (log 13). -/
def Instr.statuses : Instr → List (Option StatusCode)
  | .calcCrc _ => crcStatuses.map some
  | .communicate _ _ _ want _ _ check _ => (exchangeStatuses want check).map some
  | .transceive _ want _ _ check _ => (exchangeStatuses want check).map some
  | .reqa | .wupa | .piccReqa | .piccWupa => (exchangeStatuses true false).map some
  | .piccSelCl1 _ _ | .piccSelCl2 _ _ | .piccSelCl3 _ _ => (exchangeStatuses true false).map some
  | .hlta | .auth _ _ _ _ => (exchangeStatuses false false).map some
  | .piccHlta | .piccAuthKeyA _ _ _ | .piccAuthKeyB _ _ _ => (exchangeStatuses false false).map some
  | .mfRead _ | .mfGetValue _ | .piccMfRead _ => (exchangeStatuses true true).map some
  | .select _ kvb => (checkedStatuses (80 < kvb.toNat) selectStatuses).map some
  | .mfWrite _ data => (checkedStatuses (data.length < 16) ackStatuses).map some
  | .ulWrite _ data => (checkedStatuses (data.length < 4) ackStatuses).map some
  | .mfTransceive _ _ | .mfIncrement _ _ | .mfDecrement _ _ | .mfRestore _ | .mfTransfer _ | .mfSetValue _ _ =>
    ackStatuses.map some
  | .piccMfWrite _ _ | .piccUlWrite _ _ | .piccMfDecrement _ _ | .piccMfIncrement _ _ | .piccMfRestore _
  | .piccMfTransfer _ => ackStatuses.map some
  | _ => [none]

section
variable {p : Params} {L : List StatusCode} {st : StatusCode}

theorem presented_yields {α : Type} {a : α} {P : α → Prop} (h : P a) :
    Yields (present st >>= fun _ => pure a) P := .after fun _ => .pure h

theorem statusFirst_yields {α : Type} {a : α} (h : st ∈ L) : Yields (pure (st, a) : M (StatusCode × α)) (·.1 ∈ L) :=
  .pure h

theorem presentedFirst_yields {α : Type} {a : α} (h : st ∈ L) :
    Yields (present st >>= fun _ => pure (st, a)) (·.1 ∈ L) := presented_yields h

theorem finish_yields (h : st ∈ L) : Yields (finish st) (· ∈ L) := presented_yields h

theorem respond_yields (h : st ∈ L) : Yields (respond st) (·.status ∈ L) :=
  .after fun _ => .after fun _ => .pure h

theorem mem_exchangeStatuses {want check : Bool}
    (h : st ∈ [StatusCode.ok, .error, .collision, .timeout] := by decide) : st ∈ exchangeStatuses want check :=
  List.mem_append_left _ (List.mem_append_left _ h)

theorem crcStatuses_subset : ∀ want check, crcStatuses ⊆ exchangeStatuses want check := by decide

theorem exchangeStatuses_subset : ∀ want check, exchangeStatuses want check ⊆ exchangeStatuses true true := by decide

theorem exchangeStatuses_subset_ack : exchangeStatuses true false ⊆ ackStatuses := by decide

theorem exchangeStatuses_subset_select : exchangeStatuses true false ⊆ selectStatuses := by decide

-- CALC_CRC and the exchange.

theorem pollCrc_yields : ∀ k, Yields (pollCrc p k) (·.1 ∈ crcStatuses)
  | 0 => .after fun _ => presentedFirst_yields (by decide)
  | k + 1 => .after fun _ => .after fun _ => .after fun _ => .after fun _ => .ite
      (fun _ => .after fun _ => .after fun _ => .after fun _ => presentedFirst_yields (by decide))
      fun _ => pollCrc_yields k

theorem calcCrc_yields {data : List Byte} : Yields (calcCrc p data) (·.1 ∈ crcStatuses) :=
  .after fun _ => pollCrc_yields _

theorem checkResponse_yields : Yields (checkResponse p) (·.status ∈ exchangeStatuses true true) :=
  .after fun _ => .after fun _ => .ite (fun _ => respond_yields (by decide)) fun _ => .after fun _ => .ite
    (fun _ => respond_yields (by decide)) fun _ => .bind (.call calcCrc_yields) fun _ hcrc => .after fun _ => .ite
    (fun _ => respond_yields (crcStatuses_subset _ _ hcrc)) fun _ => .after fun _ => .ite
    (fun _ => .after fun _ => respond_yields mem_exchangeStatuses)
    fun _ => .after fun _ => respond_yields (by decide)

variable {a : CommArgs}

theorem classify_yields {e : Byte} :
    Yields (classify p a e) (·.status ∈ exchangeStatuses a.wantResponse a.checkCrc) := by
  refine .after fun _ => .ite (fun _ => respond_yields mem_exchangeStatuses) fun _ => .after fun _ => .ite
    (fun hcheck => ?_) fun _ => .after fun _ => respond_yields mem_exchangeStatuses
  obtain ⟨hc, hw⟩ := Bool.and_eq_true_iff.1 hcheck
  rw [hc, hw]
  exact checkResponse_yields

theorem afterCompletion_yields :
    Yields (afterCompletion p a) (·.status ∈ exchangeStatuses a.wantResponse a.checkCrc) := by
  refine .after fun _ => .after fun _ => .ite (fun _ => respond_yields mem_exchangeStatuses) fun _ =>
    .after fun _ => .ite (fun hw => .after fun _ => .ite (fun _ => classify_yields) fun _ => respond_yields ?_)
    fun _ => classify_yields
  simp [exchangeStatuses, hw]

theorem communicate_yields :
    Yields (communicate p a) (·.status ∈ exchangeStatuses a.wantResponse a.checkCrc) :=
  .after fun _ => .after fun _ => .after fun _ => .after fun _ => .ite (fun _ => afterCompletion_yields)
    fun _ => respond_yields mem_exchangeStatuses

variable {data : List Byte} {want check : Bool} {tx rx : Nat} {merge : Byte}

theorem transceive_yields :
    Yields (transceive p data want tx rx check merge) (·.status ∈ exchangeStatuses want check) :=
  .call communicate_yields

theorem transceiveInPlace_yields :
    Yields (transceiveInPlace p data want tx rx check merge) (·.status ∈ exchangeStatuses want check) :=
  .after fun _ => communicate_yields

-- REQA, WUPA, HLTA and SELECT.

theorem request_yields {piccByte : Byte} : Yields (request p piccByte) (·.1 ∈ exchangeStatuses true false) :=
  .after fun _ => .bind (.call transceive_yields) fun _ hr => .after fun _ => .ite (fun _ => presented_yields hr)
    fun _ => .after fun _ => .ite (fun _ => presentedFirst_yields mem_exchangeStatuses)
    fun _ => .after fun _ => presentedFirst_yields mem_exchangeStatuses

theorem halt_yields : Yields (halt p) (· ∈ exchangeStatuses false false) :=
  .bind (.call calcCrc_yields) fun _ hcrc => .ite (fun _ => finish_yields (crcStatuses_subset _ _ hcrc)) fun _ =>
    .bind (.call transceive_yields) fun _ hr => .after fun _ => .ite (fun _ => finish_yields mem_exchangeStatuses)
      fun _ => .after fun _ => .ite (fun _ => finish_yields mem_exchangeStatuses)
      fun _ => .after fun _ => finish_yields hr

/-- A round that ends SELECT ends it with a status of `L`. -/
def RoundEnd.StopsIn (L : List StatusCode) : RoundEnd → Prop
  | .again => True
  | .selected _ => True
  | .stop st => st ∈ L

theorem RoundEnd.stop_yields (h : st ∈ L) : Yields (pure (.stop st) : M RoundEnd) (·.StopsIn L) := .pure h

theorem resolveCollision_yields : Yields (resolveCollision p) (·.StopsIn selectStatuses) :=
  .after fun _ => .after fun _ => .after fun _ => .ite (fun _ => RoundEnd.stop_yields (by decide)) fun _ =>
    .after fun _ => .ite (fun _ => RoundEnd.stop_yields (by decide)) fun _ => .after fun _ => .after fun _ =>
    .after fun _ => .pure trivial

theorem roundExchange_yields : Yields (roundExchange p) (·.StopsIn selectStatuses) :=
  .after fun _ => .bind (.call transceive_yields) fun _ hr => .after fun _ => .ite
    (fun _ => .after fun _ => .ite (fun _ => RoundEnd.stop_yields (by decide)) fun _ => .after fun _ =>
      .after fun _ => .after fun _ => .ite (fun _ => resolveCollision_yields) fun _ => .after fun _ => .ite
      (fun _ => .after fun _ => .pure trivial) fun _ => .pure trivial)
    fun _ => .after fun _ => RoundEnd.stop_yields (exchangeStatuses_subset_select hr)

theorem selectRound_yields : Yields (selectRound p) (·.StopsIn selectStatuses) :=
  .after fun _ => .after fun _ => .ite
    (fun _ => .after fun _ => .after fun _ => .after fun _ => .bind (.call calcCrc_yields) fun _ hcrc => .ite
      (fun _ => RoundEnd.stop_yields (exchangeStatuses_subset_select (crcStatuses_subset _ _ hcrc)))
      fun _ => .after fun _ => .after fun _ => roundExchange_yields)
    fun _ => .after fun _ => .after fun _ => roundExchange_yields

theorem selectRounds_yields : ∀ k, Yields (selectRounds p k) (·.1 ∈ selectStatuses)
  | 0 => .refuse
  | k + 1 => selectRound_yields.bind fun
    | .again, _ => selectRounds_yields k
    | .selected _, _ => statusFirst_yields (by decide)
    | .stop _, h => .pure h

theorem confirmLevel_yields {r : Response} : Yields (confirmLevel p r) (·.1 ∈ selectStatuses) :=
  .after fun _ => .ite (fun _ => statusFirst_yields (by decide)) fun _ => .bind (.call calcCrc_yields) fun _ hcrc =>
    .ite (fun _ => .pure (exchangeStatuses_subset_select (crcStatuses_subset _ _ hcrc))) fun _ => .after fun _ => .ite
    (fun _ => .after fun _ => .after fun _ => .after fun _ => .after fun _ => statusFirst_yields (by decide))
    fun _ => statusFirst_yields (by decide)

theorem selectLevels_yields {seeded : Bool} {kvb : Nat} :
    ∀ n, Yields (selectLevels p seeded kvb n) (· ∈ selectStatuses)
  | 0 => .after fun _ => .after fun _ => .pure (by decide)
  | n + 1 => .after fun _ => .after fun _ => (selectRounds_yields _).bind fun
    | (_, none), h => .pure h
    | (_, some _), _ => confirmLevel_yields.bind fun _ h => .ite (fun _ => .pure h) fun _ => .ite
      (fun _ => selectLevels_yields n) fun _ => .after fun _ => .after fun _ => .after fun _ => .pure (by decide)

/-- Malformed input is tested before all else, and answers Invalid (R202, R256, R257, R358). -/
theorem checked_yields {c : Prop} [Decidable c] {x y : M StatusCode} (hx : Yields x (· ∈ [.invalid]))
    (hy : Yields y (· ∈ L)) : Yields (if c then x else y) (· ∈ checkedStatuses c L) := by
  unfold checkedStatuses
  split
  · exact hx
  · exact hy

theorem select_yields {u : Option Uid} {kvb : Byte} :
    Yields (select p u kvb) (· ∈ checkedStatuses (80 < kvb.toNat) selectStatuses) :=
  .after fun _ => .after fun _ => .after fun _ => checked_yields (presented_yields (by decide)) <|
    .after fun _ => .after fun _ => (selectLevels_yields 3).bind fun _ h => presented_yields h

-- The MIFARE sequencer and the card commands.

variable {block : Byte} {accept : Bool}

theorem authenticate_yields : Yields (authenticate p data) (·.status ∈ exchangeStatuses false false) :=
  .call communicate_yields

theorem judgeAck_yields {r : Response} (hr : r.status ∈ ackStatuses) :
    Yields (judgeAck accept r) (· ∈ ackStatuses) :=
  .after fun _ => .ite (fun _ => finish_yields (by decide)) fun _ => .after fun _ => .ite
    (fun _ => finish_yields hr) fun _ => .after fun _ => .ite (fun _ => finish_yields (by decide)) fun _ =>
    .after fun _ => .ite (fun _ => finish_yields (by decide)) fun _ => .after fun _ => finish_yields (by decide)

theorem mfTransceive_yields : Yields (mfTransceive p data accept) (· ∈ ackStatuses) :=
  .bind (.call calcCrc_yields) fun _ hcrc => .ite
    (fun _ => finish_yields (exchangeStatuses_subset_ack (crcStatuses_subset _ _ hcrc)))
    fun _ => .bind (.call transceiveInPlace_yields) fun _ hr => judgeAck_yields (exchangeStatuses_subset_ack hr)

theorem readCommand_yields : Yields (readCommand p block) (·.2.status ∈ exchangeStatuses true true) :=
  .bind (.call calcCrc_yields) fun _ hcrc => .ite (fun _ => presented_yields (crcStatuses_subset _ _ hcrc))
    fun _ => .last (.call transceiveInPlace_yields) fun _ hr => hr

theorem mfRead_yields : Yields (mfRead p block) (·.1 ∈ exchangeStatuses true true) :=
  readCommand_yields.bind fun _ hr => .ite (fun _ => .pure hr) fun _ => .after fun _ => .ite
    (fun _ => presented_yields hr) fun _ => .after fun _ => .ite
    (fun _ => presentedFirst_yields mem_exchangeStatuses) fun _ => .after fun _ =>
    presentedFirst_yields mem_exchangeStatuses

theorem twoFrames_yields {first second : List Byte} :
    Yields (twoFrames p first second accept) (· ∈ ackStatuses) :=
  .bind (.call mfTransceive_yields) fun _ h => .ite (fun _ => finish_yields h)
    fun _ => .call mfTransceive_yields

theorem mfWrite_yields :
    Yields (mfWrite p block data) (· ∈ checkedStatuses (data.length < 16) ackStatuses) :=
  checked_yields (finish_yields (by decide)) <| .bind (.call mfTransceive_yields) fun _ h => .ite
    (fun _ => finish_yields h) fun _ => .call mfTransceive_yields

theorem ulWrite_yields :
    Yields (ulWrite p block data) (· ∈ checkedStatuses (data.length < 4) ackStatuses) :=
  checked_yields (finish_yields (by decide)) (.call mfTransceive_yields)

theorem standardFrame_yields :
    Yields (standardFrame p data want check) (·.status ∈ exchangeStatuses want check) :=
  .bind (.call calcCrc_yields) fun _ hcrc => .ite (fun _ => presented_yields (crcStatuses_subset _ _ hcrc))
    fun _ => .call transceive_yields

theorem selectCommand_yields {sel : Byte} {known : Nat} :
    Yields (selectCommand p sel known data) (·.status ∈ exchangeStatuses true false) :=
  .ite (fun _ => .call transceive_yields) fun _ => standardFrame_yields

/-- A value block is no malformed input (R266, R358). -/
theorem mfWrite_valueBlock_yields {v : Word32} :
    Yields (mfWrite p block (valueBlock v block)) (· ∈ ackStatuses) := mfWrite_yields

/-- The result of an instruction has one of its statuses. -/
theorem Instr.body_yields (i : Instr) : Yields (Instr.body p i) (·.status ∈ Instr.statuses i) := by
  have plain {α : Type} {x : M α} {y : α → Payload} :
      Yields (x >>= fun a => pure (plainResult (y a))) (·.status ∈ [none]) :=
    .after fun _ => .pure List.mem_cons_self
  have status {x : M StatusCode} {L : List StatusCode} {y : StatusCode → Payload} (h : Yields x (· ∈ L)) :
      Yields (x >>= fun st => pure (statusResult st (y st))) (·.status ∈ L.map some) :=
    h.last fun _ => List.mem_map_of_mem
  have first {α : Type} {x : M (StatusCode × α)} {L : List StatusCode} {y : StatusCode × α → Payload}
      (h : Yields x (·.1 ∈ L)) :
      Yields (x >>= fun a => pure (statusResult a.1 (y a))) (·.status ∈ L.map some) :=
    h.last fun _ => List.mem_map_of_mem
  have response {x : M Response} {L : List StatusCode} (h : Yields x (·.status ∈ L)) :
      Yields (x >>= fun r => pure (responseResult r)) (·.status ∈ L.map some) :=
    h.last fun _ => List.mem_map_of_mem
  cases i with
  | calcCrc => exact first calcCrc_yields
  | communicate => exact response communicate_yields
  | transceive => exact response transceive_yields
  | reqa => exact first request_yields
  | wupa => exact first request_yields
  | select => exact select_yields.bind fun _ h => .after fun _ => .pure (List.mem_map_of_mem h)
  | hlta => exact status halt_yields
  | auth => exact authenticate_yields.bind fun _ h => .after fun _ => status (finish_yields h)
  | mfTransceive => exact status mfTransceive_yields
  | mfRead => exact first mfRead_yields
  | mfWrite => exact status mfWrite_yields
  | ulWrite => exact status ulWrite_yields
  | mfIncrement => exact status twoFrames_yields
  | mfDecrement => exact status twoFrames_yields
  | mfRestore => exact status twoFrames_yields
  | mfTransfer => exact status (.call mfTransceive_yields)
  | mfGetValue =>
    exact .bind (.call mfRead_yields) fun _ h => .ite (fun _ => presented_yields (List.mem_map_of_mem h))
      fun _ => .after fun _ => presented_yields (List.mem_map_of_mem mem_exchangeStatuses)
  | mfSetValue => exact .after fun _ => .after fun _ => status mfWrite_valueBlock_yields
  | piccReqa => exact response (.call transceive_yields)
  | piccWupa => exact response (.call transceive_yields)
  | piccSelCl1 => exact response selectCommand_yields
  | piccSelCl2 => exact response selectCommand_yields
  | piccSelCl3 => exact response selectCommand_yields
  | piccHlta => exact response standardFrame_yields
  | piccAuthKeyA => exact response authenticate_yields
  | piccAuthKeyB => exact response authenticate_yields
  | piccMfRead => exact response standardFrame_yields
  | piccMfWrite => exact status twoFrames_yields
  | piccUlWrite => exact status (.call mfTransceive_yields)
  | piccMfDecrement => exact status twoFrames_yields
  | piccMfIncrement => exact status twoFrames_yields
  | piccMfRestore => exact status twoFrames_yields
  | piccMfTransfer => exact status (.call mfTransceive_yields)
  | wr | wrb | rd | rdb | setb | clrb | stopCrypto1 | xferWr | xferWrb | xferRd | xferRdb | cmdIdle | cmdMem
  | cmdCalcCRC | cmdTransceive | cmdMFAuthent | cmdSoftReset | cmdGenerateRandomID | cmdTransmit
  | cmdNoCmdChange | cmdReceive => exact plain

end

theorem exec_status_mem {i : Instr} {s t : State} (h : exec i s = .next t) : t.result.status ∈ Instr.statuses i := by
  obtain ⟨-, -, r, u, hb, rfl⟩ := exec_next_inv h
  exact Instr.body_yields i _ u r hb

theorem checkedStatuses_subset {malformed : Prop} [Decidable malformed] {proper : List StatusCode} :
    checkedStatuses malformed proper ⊆ .invalid :: proper := by
  unfold checkedStatuses
  split
  · simp
  · exact List.subset_cons_self _ _

/-- Settles O46: each row of R363 holds the statuses of its operations. -/
theorem statusesOfEachOperation : Obligations.StatusesOfEachOperation := by
  intro s t i allowed h hi
  suffices hsub : Instr.statuses i ⊆ allowed from hsub (exec_status_mem h)
  obtain ⟨hi, rfl⟩ | ⟨hi, rfl⟩ | ⟨hi, rfl⟩ | ⟨hi, rfl⟩ | ⟨rfl, rfl⟩ | ⟨hi, rfl⟩ | ⟨hi, rfl⟩ | ⟨hi, rfl⟩ |
    ⟨hi, rfl⟩ | ⟨hi, rfl⟩ := hi
  · obtain ⟨_, _, rfl⟩ | ⟨_, _, rfl⟩ | ⟨_, rfl⟩ | ⟨_, _, _, _, rfl⟩ | ⟨_, _, rfl⟩ | ⟨_, _, rfl⟩ | rfl := hi <;>
      exact List.Subset.refl _
  · obtain ⟨_, rfl⟩ := hi
    exact List.Subset.refl _
  · obtain ⟨_, _, _, want, _, _, check, _, rfl⟩ | ⟨_, want, _, _, check, _, rfl⟩ := hi <;>
      exact List.map_subset some (exchangeStatuses_subset want check)
  · obtain rfl | rfl := hi <;> exact List.Subset.refl _
  · exact List.Subset.refl _
  · obtain ⟨_, _, rfl⟩ := hi
    exact List.Subset.trans (List.map_subset some checkedStatuses_subset) (by decide)
  · obtain ⟨_, _, _, _, rfl⟩ := hi
    exact List.Subset.refl _
  · obtain ⟨_, _, rfl⟩ | ⟨_, rfl⟩ | ⟨_, _, rfl⟩ | ⟨_, _, rfl⟩ | ⟨_, rfl⟩ | ⟨_, _, rfl⟩ := hi <;>
      exact List.Subset.refl _
  · obtain ⟨_, _, rfl⟩ | ⟨_, _, rfl⟩ := hi <;>
      exact List.Subset.trans (List.map_subset some checkedStatuses_subset) (by decide)
  · obtain ⟨_, rfl⟩ | ⟨_, rfl⟩ := hi <;> exact List.Subset.refl _

-- Malformed input (R358).

theorem invalid_notMem_exchangeStatuses : ∀ want check, .invalid ∉ exchangeStatuses want check := by decide

theorem of_invalid_mem_checkedStatuses {malformed : Prop} [Decidable malformed] {proper : List StatusCode}
    (hp : .invalid ∉ proper) (h : .invalid ∈ checkedStatuses malformed proper) : malformed := by
  unfold checkedStatuses at h
  split at h
  · assumption
  · exact absurd h hp

/-- The instructions that can present Invalid, and on which operands (R202, R256, R257). -/
theorem malformed_of_invalid_mem {i : Instr} (h : some .invalid ∈ Instr.statuses i) :
    (∃ u k, i = .select u k ∧ 80 < k.toNat) ∨ (∃ block data, i = .mfWrite block data ∧ data.length < 16) ∨
      ∃ page data, i = .ulWrite page data ∧ data.length < 4 := by
  have mem_of_map {L : List StatusCode} (h : some .invalid ∈ L.map some) : .invalid ∈ L :=
    (List.mem_map_of_injective (Option.some_injective _)).1 h
  cases i with
  | select u k => exact .inl ⟨u, k, rfl, of_invalid_mem_checkedStatuses (by decide) (mem_of_map h)⟩
  | mfWrite b d => exact .inr (.inl ⟨b, d, rfl, of_invalid_mem_checkedStatuses (by decide) (mem_of_map h)⟩)
  | ulWrite b d => exact .inr (.inr ⟨b, d, rfl, of_invalid_mem_checkedStatuses (by decide) (mem_of_map h)⟩)
  | communicate => exact absurd (mem_of_map h) (invalid_notMem_exchangeStatuses _ _)
  | transceive => exact absurd (mem_of_map h) (invalid_notMem_exchangeStatuses _ _)
  | _ => simp [Instr.statuses, crcStatuses, exchangeStatuses, ackStatuses] at h

/-- An instruction that finds its input malformed at its first step makes no exchange (R358). -/
theorem exec_invalid {i : Instr} {s : State} (hs : s.seq = .idle)
    (hd : domainError s.env.chip.fifoSize s.params.respCap i = none)
    (hb : Instr.body s.config i = do
      let st ← finish .invalid
      pure (statusResult st .none)) :
    exec i s = .next (s.ended [] s.resp s.crcPoll s.cmdPoll .invalid .none) := by
  have hrun := (finish_runs .invalid (s.started i (Instr.opName i))).last
    (f := fun st => pure (statusResult st .none)) rfl
  exact exec_next hs hd (hb ▸ hrun) rfl rfl

/-- Settles O37: the test of the operands comes first, and no other instruction has Invalid among its statuses. -/
theorem invalidIsMalformedInput : Obligations.InvalidIsMalformedInput := by
  intro i s hs
  refine ⟨?_, ?_, ?_, ?_⟩
  · rintro block data rfl hlen
    exact exec_invalid hs rfl (congrArg (· >>= _) (if_pos hlen))
  · rintro page data rfl hlen
    exact exec_invalid hs rfl (congrArg (· >>= _) (if_pos hlen))
  · rintro u k rfl hu hk
    obtain ⟨t, ht, henv, -, hresult, -⟩ := selectRejectsTooManyKnownBits s u k hs hu hk
    exact ⟨t, ht, henv, congrArg Result.status hresult⟩
  · intro t ht hstatus
    exact malformed_of_invalid_mem (hstatus ▸ exec_status_mem ht)

/-- Settles O50: the registers hold the values of logs 3 and 4, the codes and numbers those of log 24. -/
theorem resetMeetsTheInvariant : Obligations.ResetMeetsTheInvariant :=
  ⟨rfl, by decide, rfl, by decide, Nat.zero_le 255, Nat.zero_le 125,
    Chip.inRange_iff.2 ⟨by decide, Memory.wf_reset, Nat.zero_le 64, rfl⟩⟩

end Sys2Proof.Machine
end

section
namespace Sys2Proof.Machine

-- `init()` on the contract chip (R330 to R337).

theorem Env.afterTalk_handleOpen (e : Env) (ts : List Talk) : (e.afterTalk ts).handleOpen = e.handleOpen := by
  induction ts generalizing e with
  | nil => rfl
  | cons t ts ih => exact ih _

theorem Env.afterTalk_script {e : Env} (h : e.script = []) (ts : List Talk) : (e.afterTalk ts).script = [] := by
  induction ts generalizing e with
  | nil => exact h
  | cons t ts ih => exact ih (by simp [h])

theorem State.OnContract.endedPlain {s : State} (h : s.OnContract) (ts : List Talk) (p : Payload) :
    (s.endedPlain ts p).OnContract :=
  ⟨rfl, (Env.afterTalk_handleOpen s.env ts).trans h.opened, Env.afterTalk_script h.script ts⟩

/-- From a block between two operations, the contract answering from the chip `c`, the host's steps answer `a` and
leave the block so, with the chip `d`. -/
def HostRuns {α : Type} (x : M α) (c : Chip) (a : α) (d : Chip) : Prop :=
  ∀ s : State, s.OnContract → s.env.chip = c → ∃ t, x s = .ok a t ∧ t.OnContract ∧ t.env.chip = d

namespace HostRuns
variable {α β : Type} {c d : Chip} {x : M α} {a : α}

theorem pure (a : α) (c : Chip) : HostRuns (Pure.pure a : M α) c a c := fun s hs hc => ⟨s, rfl, hs, hc⟩

theorem bind {f : α → M β} {b : β} {c' : Chip} (hx : HostRuns x c a c') (hf : HostRuns (f a) c' b d) :
    HostRuns (x >>= f) c b d := by
  intro s hs hc
  obtain ⟨u, hu, hsu, hcu⟩ := hx s hs hc
  obtain ⟨t, ht, hst, hct⟩ := hf u hsu hcu
  exact ⟨t, (M.bind_ok hu).trans ht, hst, hct⟩

/-- What follows a look at the parameters, whose codes are the chip's (R8). -/
theorem params {f : Params → M α} (h : ∀ p : Params, p.codes = c.codes → HostRuns (f p) c a d) :
    HostRuns (readParams >>= f) c a d :=
  fun s hs hc => h s.config (congrArg Chip.codes hc) s hs hc

end HostRuns

section
variable {c d : Chip} {a : Reg} {v m : Byte}

/-- An operation without a status that makes the exchanges `ts`, as the host runs it. -/
theorem hostOp_runs {i : Instr} {ts : List Talk} {p : Payload} (hc : c.Answers ts d)
    (hi : ∀ s : State, s.seq = .idle → s.env.talks ts = true → exec i s = .next (s.endedPlain ts p)) :
    HostRuns (hostOp i) c (plainResult p) d := by
  rintro s hs rfl
  obtain ⟨ht, hd⟩ := hc s.env hs.opened hs.script rfl
  have hend := hs.endedPlain ts p
  refine ⟨(s.endedPlain ts p).hearLine, ?_, ⟨hend.idle, hend.opened, hend.script⟩, hd⟩
  simp only [hostOp, hi s hs.idle ht]
  rfl

theorem hostWr_runs (hw : c.write a v = d) : HostRuns (hostDo (.wr a v)) c () d :=
  (hostOp_runs (.write hw .nil) fun _ => exec_wr).bind (.pure _ _)

theorem hostRead_runs (hr : ∀ free, c.readReg a free = (v, c)) : HostRuns (hostRead a) c v c :=
  (hostOp_runs (.read hr .nil) fun _ => exec_rd).bind (.pure _ _)

theorem hostSetb_runs (hr : ∀ free, c.readReg a free = (v, c)) (hw : c.write a (v ||| m) = d) :
    HostRuns (hostDo (.setb a m)) c () d :=
  (hostOp_runs (.read hr (.write hw .nil)) fun s hs =>
    (setAndClearBits s (.setb a m) a m v _ hs (.inl ⟨rfl, rfl⟩)).1).bind (.pure _ _)

end

-- The chip after a reset (R331, R332, R391).

theorem anySet_zero (mask : Byte) : anySet 0#8 mask = false := by
  rw [anySet, BitVec.zero_and]
  rfl

namespace Chip
variable {c : Chip}

/-- The chip as either reset leaves it: its registers at their reset values, the pin high. -/
def fresh (c : Chip) : Chip := { c.softReset with resetPinHigh := true }

theorem softReset_eq_fresh (hpin : c.resetPinHigh = true) : c.softReset = c.fresh := by
  have hsame : c.softReset = { c.softReset with resetPinHigh := c.resetPinHigh } := rfl
  rw [hsame, hpin, fresh]

theorem softReset_endCommand (c : Chip) : c.endCommand.softReset = c.softReset := by
  unfold endCommand
  split
  · rfl
  · rfl

/-- A write of SoftReset to a chip awake ends the running command and resets the registers (R332). -/
theorem writeCommand_softReset (hk : c.codes = Config.codes) :
    c.writeCommand (commandByte c.codes.cmdSoftReset) = c.softReset := by
  have hke : c.endCommand.codes = Config.codes := c.endCommand_codes.trans hk
  have hawake : anySet (commandByte Config.cmdSoftReset) Config.powerDown = false := rfl
  obtain ⟨hidle, hmem, hcrc, hauth⟩ : Config.cmdSoftReset ≠ Config.cmdIdle ∧ Config.cmdSoftReset ≠ Config.cmdMem ∧
      Config.cmdSoftReset ≠ Config.cmdCalcCRC ∧ Config.cmdSoftReset ≠ Config.cmdMFAuthent := by decide
  simp only [writeCommand, put_codes, hke, hk, setWidth_commandByte, hawake, Bool.false_eq_true, hidle, hmem, hcrc,
    hauth, if_false, if_true]
  refine Eq.trans ?_ c.softReset_endCommand
  simp only [softReset, put_fifoSize, put_resetPinHigh, put_rf, put_air, hke]

/-- SoftReset is taken with the pin high, in power-down too (R332, R380, log 41). -/
theorem write_softReset (hk : c.codes = Config.codes) (hpin : c.resetPinHigh = true) :
    c.write c.codes.regCommand (commandByte c.codes.cmdSoftReset) = c.fresh := by
  rw [← softReset_eq_fresh hpin]
  cases hp : c.poweredDown with
  | true =>
    have htaken : (c.resetPinHigh && c.codes.regCommand == c.codes.regCommand &&
        !anySet (commandByte c.codes.cmdSoftReset) c.codes.powerDown &&
        (commandByte c.codes.cmdSoftReset).setWidth 4 == c.codes.cmdSoftReset) = true := by
      rw [hpin, hk]
      rfl
    exact (if_pos hp).trans (if_pos htaken)
  | false => exact (write_command hp _).trans (writeCommand_softReset hk)

/-- A chip with the spec's codes that takes writes and answers reads (R71). -/
structure Attends (c : Chip) : Prop where
  codes : c.codes = Config.codes
  wf : c.regs.wf c.codes = true
  awake : c.poweredDown = false
  described : c.undescribed = false

theorem get_fresh_command (hk : c.codes = Config.codes) : c.fresh.get c.codes.regCommand = 0#8 := by
  have hempty : c.fresh.get c.codes.regCommand = Memory.background c.codes c.codes.regCommand.toNat := rfl
  rw [hempty, hk]
  rfl

theorem fresh_attends (hk : c.codes = Config.codes) : c.fresh.Attends where
  codes := hk
  wf := rfl
  awake := poweredDown_eq_false.2
    ⟨rfl, (congrArg (anySet · c.codes.powerDown) (get_fresh_command hk)).trans (anySet_zero _)⟩
  described := rfl

/-- The registers with a behaviour of their own, which do not just store what is written (R71, log 43). -/
def ownRegs : List RegName :=
  [.command, .comIrq, .divIrq, .fifoData, .fifoLevel, .bitFraming, .error, .status2, .crcResultL, .crcResultH,
    .version]

theorem codes_addr_injective : Function.Injective Config.codes.addr := Codes.addr_injective (by decide)

namespace Attends
variable {n : RegName} (h : c.Attends)
include h

theorem addr_ne (hn : n ∉ ownRegs) (m : RegName) (hm : m ∈ ownRegs := by decide) :
    c.codes.addr n ≠ c.codes.addr m :=
  Codes.addr_ne (by rw [h.codes]; decide) n m (ne_of_mem_of_not_mem hm hn).symm

theorem put (hn : n ∉ ownRegs) (v : Byte) : (c.put (c.codes.addr n) v).Attends where
  codes := h.codes
  wf := wf_put h.wf _ v
  awake := (poweredDown_put h.wf (h.addr_ne hn .command) v).trans h.awake
  described := h.described

theorem write (hn : n ∉ ownRegs) (v : Byte) : c.write (c.codes.addr n) v = c.put (c.codes.addr n) v := by
  have hinj : Function.Injective c.codes.addr := h.codes ▸ codes_addr_injective
  have ha : c.codes.addr n ∉ ownRegs.map c.codes.addr := fun hm => hn ((List.mem_map_of_injective hinj).1 hm)
  exact write_plain h.awake ha

theorem read (hn : n ∉ ownRegs) (free : Byte) :
    c.readReg (c.codes.addr n) free = (c.get (c.codes.addr n), c) :=
  readReg_plain h.described h.awake (h.addr_ne hn .fifoData) (h.addr_ne hn .fifoLevel) free

end Attends

/-- The chip once the registers of the list hold their bytes. -/
def programmed (c : Chip) : List (RegName × Byte) → Chip
  | [] => c
  | x :: l => (c.put (c.codes.addr x.1) x.2).programmed l

variable {l : List (RegName × Byte)}

theorem Attends.programmed (h : c.Attends) (hl : ∀ x ∈ l, x.1 ∉ ownRegs) : (c.programmed l).Attends := by
  induction l generalizing c with
  | nil => exact h
  | cons x l ih =>
    obtain ⟨hx, hl⟩ := List.forall_mem_cons.1 hl
    exact ih (h.put hx x.2) hl

/-- A register not on the list keeps its byte. -/
theorem get_programmed_other (h : c.Attends) (hl : ∀ x ∈ l, x.1 ∉ ownRegs) {n : RegName}
    (hn : n ∉ l.map (·.1)) : (c.programmed l).get (Config.codes.addr n) = c.get (Config.codes.addr n) := by
  induction l generalizing c with
  | nil => rfl
  | cons x l ih =>
    obtain ⟨hx, hl⟩ := List.forall_mem_cons.1 hl
    rw [List.map_cons, List.mem_cons, not_or] at hn
    obtain ⟨hnx, hn⟩ := hn
    have hne : Config.codes.addr n ≠ c.codes.addr x.1 := h.codes ▸ codes_addr_injective.ne hnx
    refine (ih (h.put hx x.2) hl hn).trans ?_
    rw [get_put h.wf, if_neg hne]

/-- A register that stands on the list once holds the byte listed for it (R336). -/
theorem get_programmed (h : c.Attends) (hl : ∀ x ∈ l, x.1 ∉ ownRegs) (hnd : (l.map (·.1)).Nodup) {x : RegName × Byte}
    (hx : x ∈ l) : (c.programmed l).get (Config.codes.addr x.1) = x.2 := by
  induction l generalizing c with
  | nil => cases hx
  | cons y l ih =>
    obtain ⟨hy, hrest⟩ := List.forall_mem_cons.1 hl
    obtain ⟨hnot, hnd⟩ := List.nodup_cons.1 hnd
    have hput := h.put hy y.2
    obtain rfl | hx := List.mem_cons.1 hx
    · refine (get_programmed_other hput hrest hnot).trans ?_
      rw [get_put h.wf, if_pos (by rw [h.codes])]
    · exact ih hput hrest hnd hx

end Chip

-- The host's sequences (R330 to R337).

section
variable {c : Chip}

/-- A poll that reads the power-down bit as 0 is the last (R332). -/
theorem softResetPolls_runs {p : Params} {v : Byte} (hr : ∀ free, c.readReg p.codes.regCommand free = (v, c))
    (hv : anySet v p.codes.powerDown = false) (k : Nat) : HostRuns (softResetPolls p (k + 1)) c () c := by
  refine (hostRead_runs hr).bind ?_
  rw [hv]
  exact .pure _ _

/-- A soft reset leaves a fresh chip, which the first poll finds awake (R332). -/
theorem softReset_runs (hk : c.codes = Config.codes) (hpin : c.resetPinHigh = true) :
    HostRuns softReset c () c.fresh := by
  have hf := Chip.fresh_attends hk
  have hd : c.codes.addressesDistinct = true := by rw [hk]; decide
  have hread (free : Byte) : c.fresh.readReg c.codes.regCommand free = (0#8, c.fresh) := by
    rw [← Chip.get_fresh_command hk]
    exact Chip.readReg_plain hf.described hf.awake (Codes.addr_ne hd .command .fifoData nofun)
      (Codes.addr_ne hd .command .fifoLevel nofun) free
  refine .params fun p hp => ?_
  rw [← hp] at hread
  have hwrite := Chip.write_softReset hk hpin
  rw [← hp] at hwrite
  exact (hostWr_runs hwrite).bind (softResetPolls_runs hread (anySet_zero _) 2)

theorem pulseResetPin_runs (c : Chip) : HostRuns pulseResetPin c () c.fresh := by
  rintro s hs rfl
  exact ⟨_, rfl, ⟨hs.idle, hs.opened, hs.script⟩, rfl⟩

/-- Hard reset leaves the same chip on either way (R331). -/
theorem hardReset_runs (hk : c.codes = Config.codes) : HostRuns hardReset c () c.fresh := by
  rintro s hs rfl
  have hbranch : hardReset s = (if s.env.chip.resetPinHigh then softReset else pulseResetPin) s := rfl
  rw [hbranch]
  cases hpin : s.env.chip.resetPinHigh with
  | true => exact softReset_runs hk hpin s hs rfl
  | false => exact pulseResetPin_runs _ s hs rfl

theorem writeSequence_runs {l : List (RegName × Byte)} (h : c.Attends) (hl : ∀ x ∈ l, x.1 ∉ Chip.ownRegs) :
    HostRuns (writeSequence Config.codes l) c () (c.programmed l) := by
  induction l generalizing c with
  | nil => exact .pure _ _
  | cons x l ih =>
    obtain ⟨hx, hl⟩ := List.forall_mem_cons.1 hl
    have hw := h.write hx x.2
    have hput := h.put hx x.2
    rw [h.codes] at hw hput
    rw [Chip.programmed, h.codes]
    exact (hostWr_runs hw).bind (ih hput hl)

theorem byte_or_and_self (v m : Byte) : (v ||| m) &&& m = m := by
  ext i
  simp only [BitVec.getElem_and, BitVec.getElem_or]
  cases v[i] <;> cases m[i] <;> rfl

/-- Antenna on enables both drivers and changes no other register (R337). -/
theorem antennaOn_runs (h : c.Attends) : ∃ d, HostRuns antennaOn c () d ∧
    d.get Config.regTxControl &&& 0x03#8 = 0x03#8 ∧ ∀ b ≠ Config.regTxControl, d.get b = c.get b := by
  have hread := h.read (n := .txControl) (by decide)
  have hwrite := h.write (n := .txControl) (by decide) (c.get Config.regTxControl ||| 0x03#8)
  have hget := Chip.get_put h.wf Config.regTxControl (v := c.get Config.regTxControl ||| 0x03#8)
  rw [h.codes] at hread hwrite
  have hrun {d : Chip} (hd : HostRuns (if c.get Config.regTxControl &&& 0x03#8 = 0x03#8 then pure ()
      else hostDo (.setb Config.regTxControl 0x03#8)) c () d) : HostRuns antennaOn c () d :=
    .params fun p hp => by
      rw [hp, h.codes]
      exact (hostRead_runs hread).bind hd
  by_cases hon : c.get Config.regTxControl &&& 0x03#8 = 0x03#8
  · rw [if_pos hon] at hrun
    exact ⟨c, hrun (.pure _ _), hon, fun _ _ => rfl⟩
  · rw [if_neg hon] at hrun
    refine ⟨_, hrun (hostSetb_runs hread hwrite), ?_, fun b hb => (hget b).trans (if_neg hb)⟩
    exact (congrArg (· &&& 0x03#8) ((hget _).trans (if_pos rfl))).trans (byte_or_and_self _ _)

end

/-- What `init()` does once the chip is reset: the constants, then the antenna (R330). -/
def initRest (k : Codes) (l : List (RegName × Byte)) : M Unit := do
  writeSequence k l
  antennaOn

/-- `init()` opens the handle and resets as the pin is configured (R330, R331). -/
theorem init_eq (s : State) : init s =
    ((if s.host.resetPinConfigured then hardReset else softReset) >>= fun _ =>
      initRest s.env.chip.codes s.params.initConst) { s with env := { s.env with handleOpen := true } } := by
  have hbranch : init s = (if s.host.resetPinConfigured then
        hardReset >>= fun _ => initRest s.env.chip.codes s.params.initConst
      else softReset >>= fun _ => initRest s.env.chip.codes s.params.initConst)
      { s with env := { s.env with handleOpen := true } } := rfl
  rw [hbranch]
  cases s.host.resetPinConfigured with
  | true => rfl
  | false => rfl

/-- Settles O58: each reset leaves a fresh chip, the constants are plain writes to it, and the antenna's register is
none of theirs. -/
theorem initProgramsTheChip : Obligations.InitProgramsTheChip := by
  intro s hs hstd hsc hpin hnd hplain
  have hk := hstd.codes_eq
  have hown : ∀ x ∈ s.params.initConst, x.1 ∉ Chip.ownRegs :=
    fun x hx hm => hplain x hx (List.mem_append_left [RegName.txControl] hm)
  have htx : ∀ x ∈ s.params.initConst, x.1 ≠ .txControl :=
    fun x hx => (ne_of_mem_of_not_mem (by decide) (hplain x hx)).symm
  have hfresh := Chip.fresh_attends hk
  have hreset : HostRuns (if s.host.resetPinConfigured then hardReset else softReset) s.env.chip ()
      s.env.chip.fresh := by
    split
    · exact hardReset_runs hk
    · exact softReset_runs hk (hpin.resolve_right ‹_›)
  obtain ⟨d, hantenna, hon, hother⟩ := antennaOn_runs (hfresh.programmed hown)
  have hrest : HostRuns (initRest Config.codes s.params.initConst) s.env.chip.fresh () d :=
    (writeSequence_runs hfresh hown).bind hantenna
  rw [← hk] at hrest
  obtain ⟨t, ht, hend, rfl⟩ := (hreset.bind (f := fun _ => initRest s.env.chip.codes s.params.initConst) hrest)
    { s with env := { s.env with handleOpen := true } } ⟨hs, rfl, hsc⟩ rfl
  rw [← init_eq] at ht
  refine ⟨t, ht, hend.idle, hend.opened, fun x hx => ?_, hon⟩
  rw [hk, hother _ (Chip.codes_addr_injective.ne (htx x hx))]
  exact Chip.get_programmed hfresh hown hnd hx

end Sys2Proof.Machine
end
